-- ==== Sys2Proof/Word.lean ====
section
/-!
DEFINITION. Word.lean: the machine's word types and their plainest arithmetic (spec file 00, R2 to R4; 02, R42).
-/
namespace Sys2Proof

/-- A byte of memory (00 R3). -/
abbrev Byte := BitVec 8
/-- A 64-bit memory word, scalar register or address (00 R4, 03 R71). -/
abbrev W64 := BitVec 64
/-- A 128-bit instruction word (03 R69). -/
abbrev IWord := BitVec 128
/-- One whole vector register, 64 lanes of 32 bits (03 R71, 05 R128). -/
abbrev VReg := BitVec 2048
/-- A 512-bit vector quarter, nest record or walk descriptor (03 R85). -/
abbrev Quarter := BitVec 512
/-- A taint set: one bit per load slot (02 R46). -/
abbrev Taint := BitVec 16

/-- A stamp or dependency vector: one 64-bit entry per die (02 R42). -/
structure Stamp where
  d0 : W64
  d1 : W64
  d2 : W64
  d3 : W64
  deriving DecidableEq, Repr

/-- The zero stamp, which the initial content of memory carries (02 R43). -/
def zeroStamp : Stamp := ⟨0, 0, 0, 0⟩

/-- The larger of two unsigned words. -/
def maxW (a b : W64) : W64 := if a.toNat < b.toNat then b else a

/-- Entrywise maximum of two stamps (02 R43, R44). -/
def stampMax (a b : Stamp) : Stamp := ⟨maxW a.d0 b.d0, maxW a.d1 b.d1, maxW a.d2 b.d2, maxW a.d3 b.d3⟩

/-- Entry d of a stamp. -/
def stampEntry (a : Stamp) : Nat → W64
  | 0 => a.d0
  | 1 => a.d1
  | 2 => a.d2
  | _ => a.d3

/-- A stamp with entry d replaced. -/
def stampSet (a : Stamp) (d : Nat) (x : W64) : Stamp :=
  match d with
  | 0 => { a with d0 := x }
  | 1 => { a with d1 := x }
  | 2 => { a with d2 := x }
  | _ => { a with d3 := x }

/-- Every entry of a is at least the entry of b: the test of 02 R43. -/
def stampCovers (a b : Stamp) : Bool :=
  decide (b.d0.toNat ≤ a.d0.toNat) && decide (b.d1.toNat ≤ a.d1.toNat) &&
  decide (b.d2.toNat ≤ a.d2.toNat) && decide (b.d3.toNat ≤ a.d3.toNat)

end Sys2Proof
end

