-- ==== Sys2Proof/Config.lean ====
section
/-!
DEFINITION. Config.lean: what the spec leaves to the implementation, as constants without a body: nothing can evaluate
them, so a claim holds whatever they are.
-/
namespace Sys2Proof.Config

/-- A value the spec leaves open, one for each number of the free-value counter of State (log entry 1). -/
opaque freeValue : Nat → W64

/-- The 64-byte digest of the public key fused for a boot stage, 0 or 2 (16 R404; log entry 12). -/
opaque fusedKeyDigest : Nat → List Byte

/-- The 64-byte fused device secret (16 R405; log entry 12). -/
opaque fusedSecret : List Byte

/-- Flits of the receive buffer of a lane group for one virtual lane and one of its classes, and its stop and go watermarks
in flits of free space: sized by the implementation for its link (12 R304; log entry 11). -/
opaque rxBuffer : Nat → Nat
opaque rxStop : Nat → Nat
opaque rxGo : Nat → Nat

end Sys2Proof.Config
end

