-- ==== Sys2Proof/Machine/Num.lean ====
section
/-!
DEFINITION. Machine/Num.lean: number formats, rounding, overflow policies, flags and elementary arithmetic
(spec file 04, R96 to R110). Every function is exact integer arithmetic narrowed once at the end.
-/
namespace Sys2Proof.Machine

/-- Sticky flags in AFLAGS order: IO 5, NV 4, DZ 3, OF 2, UF 1, NX 0 (04 R106). -/
abbrev Flags := BitVec 6
def flNX : Flags := 0x01#6
def flUF : Flags := 0x02#6
def flOF : Flags := 0x04#6
def flDZ : Flags := 0x08#6
def flNV : Flags := 0x10#6
def flIO : Flags := 0x20#6

/-- The floating formats (04 R96). -/
inductive Fmt where
  | f64 | f32 | bf16 | f16 | e5m2 | e4m3 | e3m2 | e2m3 | e2m1
  deriving DecidableEq, Repr

/-- Exponent bits of a format (04 R96). -/
def fmtE : Fmt → Nat
  | .f64 => 11 | .f32 => 8 | .bf16 => 8 | .f16 => 5 | .e5m2 => 5 | .e4m3 => 4 | .e3m2 => 3 | .e2m3 => 2 | .e2m1 => 2
/-- Fraction bits of a format (04 R96). -/
def fmtM : Fmt → Nat
  | .f64 => 52 | .f32 => 23 | .bf16 => 7 | .f16 => 10 | .e5m2 => 2 | .e4m3 => 3 | .e3m2 => 2 | .e2m3 => 3 | .e2m1 => 1
/-- Exponent bias of a format (04 R96). -/
def fmtBias : Fmt → Nat
  | .f64 => 1023 | .f32 => 127 | .bf16 => 127 | .f16 => 15 | .e5m2 => 15 | .e4m3 => 7 | .e3m2 => 3 | .e2m3 => 1 | .e2m1 => 1
/-- The format has infinities (and the ordinary NaN encodings above them). -/
def fmtHasInf : Fmt → Bool
  | .f64 | .f32 | .bf16 | .f16 | .e5m2 => true
  | _ => false
/-- Width in bits, sign included. -/
def fmtW (f : Fmt) : Nat := 1 + fmtE f + fmtM f
/-- Magnitude bits of the largest finite value. -/
def fmtMaxFin : Fmt → Nat
  | .f64 => 0x7FEFFFFFFFFFFFFF | .f32 => 0x7F7FFFFF | .bf16 => 0x7F7F | .f16 => 0x7BFF | .e5m2 => 0x7B
  | .e4m3 => 0x7E | .e3m2 => 0x1F | .e2m3 => 0x1F | .e2m1 => 0x7
/-- Magnitude bits of infinity, where the format has one. -/
def fmtInf (f : Fmt) : Nat := (2 ^ fmtE f - 1) * 2 ^ fmtM f
/-- The canonical NaN (04 R96); +0 stands in for the formats without one, which never produce it. -/
def fmtNaN : Fmt → Nat
  | .f64 => 0x7FF8000000000000 | .f32 => 0x7FC00000 | .bf16 => 0x7FC0 | .f16 => 0x7E00 | .e5m2 => 0x7E | .e4m3 => 0x7F
  | _ => 0

/-- An exact value: (−1)^neg × m × 2^e, an infinity or NaN. -/
inductive FV where
  | nan
  | inf (neg : Bool)
  | fin (neg : Bool) (m : Nat) (e : Int)
  deriving DecidableEq, Repr

/-- 2^k for an integer k, as the numerator of a fraction (1 when k is negative). -/
def pow2n (k : Int) : Nat := 2 ^ k.toNat

/-- The value a bit pattern stands for (04 R96, R97). -/
def fvOfBits (f : Fmt) (b : Nat) : FV :=
  let w := fmtW f
  let neg := b / 2 ^ (w - 1) % 2 == 1
  let mag := b % 2 ^ (w - 1)
  let ex := mag / 2 ^ fmtM f
  let fr := mag % 2 ^ fmtM f
  if mag ≤ fmtMaxFin f then
    if ex = 0 then .fin neg fr (1 - (fmtBias f : Int) - fmtM f)
    else .fin neg (2 ^ fmtM f + fr) ((ex : Int) - fmtBias f - fmtM f)
  else if fmtHasInf f && mag == fmtInf f then .inf neg
  else .nan

/-- Rounding modes; a stochastic mode carries its 24 random bits (04 R101, R102). -/
inductive Rm where
  | rne | rz | ru | rd
  | rs (u : Nat)
  deriving DecidableEq, Repr

/-- Overflow policies (04 R104); none is an instruction without an overflow sub-field. -/
inductive Ov where
  | sat | inf | nan | trap | none
  deriving DecidableEq, Repr

/-- One rounded result: its bits, the flags it sets, and whether it overflowed under .OVTRAP. -/
structure FRes where
  bits : Nat
  flags : Flags
  trap : Bool := false
  deriving DecidableEq, Repr

/-- Choose between a whole number of units n and n + 1, given the discarded fraction rem/den (04 R101, R102). -/
def roundUp (rm : Rm) (neg : Bool) (n rem den : Nat) : Bool :=
  if rem = 0 then false else
  match rm with
  | .rne => decide (den < 2 * rem) || (decide (2 * rem = den) && n % 2 == 1)
  | .rz => false
  | .ru => !neg
  | .rd => neg
  | .rs u => decide (2 ^ 24 ≤ rem * 2 ^ 24 / den + u)

/-- floor(log2 (num/den)) for non-zero num and den. -/
def log2Frac (num den : Nat) : Int :=
  let l : Int := (Nat.log2 num : Int) - Nat.log2 den
  if num * pow2n (-l) < den * pow2n l then l - 1 else l

/-- A non-zero magnitude num/den × 2^e as (units, rem, den, q): units × 2^q with the discarded rem/den, where q is
at least qmin and leaves p fraction bits. -/
def quantise (p : Nat) (qmin : Int) (num den : Nat) (e : Int) : Nat × Nat × Nat × Int :=
  let q := max (log2Frac num den + e - p) qmin
  let a := num * pow2n (e - q)
  let b := den * pow2n (q - e)
  (a / b, a % b, b, q)

/-- The result bits an overflow of the given sign is replaced by (04 R104), and its flags. -/
def ovResult (f : Fmt) (ov : Ov) (neg : Bool) : FRes :=
  let s := if neg then 2 ^ (fmtW f - 1) else 0
  let fl := flOF ||| flNX
  match ov with
  | .sat => ⟨s + fmtMaxFin f, fl, false⟩
  | .inf | .none =>
    if fmtHasInf f then ⟨s + fmtInf f, fl, false⟩
    else if f = .e4m3 then ⟨0x7F, fl, false⟩ else ⟨s + fmtMaxFin f, fl, false⟩
  | .nan => if fmtHasInf f || f == .e4m3 then ⟨fmtNaN f, fl, false⟩ else ⟨s + fmtMaxFin f, fl, false⟩
  | .trap => ⟨s + fmtMaxFin f, 0, true⟩

/-- Round a finite magnitude num/den × 2^e of the given sign into a format (04 R101, R104, R106). -/
def roundFrac (f : Fmt) (rm : Rm) (ov : Ov) (neg : Bool) (num den : Nat) (e : Int) : FRes :=
  let s := if neg then 2 ^ (fmtW f - 1) else 0
  if num = 0 then ⟨s, 0, false⟩ else
  let qmin : Int := 1 - (fmtBias f : Int) - fmtM f
  let (n, rem, d, q) := quantise (fmtM f) qmin num den e
  let n' := if roundUp rm neg n rem d then n + 1 else n
  let mag := if n' < 2 ^ fmtM f then n' else ((q - qmin).toNat + 1) * 2 ^ fmtM f + (n' - 2 ^ fmtM f)
  if fmtMaxFin f < mag then ovResult f ov neg
  else
    let inexact := rem != 0
    let tiny := decide (log2Frac num den + e < 1 - (fmtBias f : Int))
    ⟨s + mag, (if inexact then flNX else 0) ||| (if inexact && tiny then flUF else 0), false⟩

/-- Convert a value to a floating format (04 R101, R104, R105). -/
def fvToFmt (f : Fmt) (rm : Rm) (ov : Ov) : FV → FRes
  | .nan => if fmtHasInf f || f == .e4m3 then ⟨fmtNaN f, 0, false⟩ else ⟨0, flNV, false⟩
  | .inf neg =>
    if fmtHasInf f then ⟨(if neg then 2 ^ (fmtW f - 1) else 0) + fmtInf f, 0, false⟩
    else
      let r := ovResult f ov neg
      { r with flags := if r.trap then 0 else flOF }
  | .fin neg m e => roundFrac f rm ov neg m 1 e

/-- Smallest and largest value of an n-bit integer type. -/
def intMin (signed : Bool) (n : Nat) : Int := if signed then -(2 ^ (n - 1) : Int) else 0
def intMax (signed : Bool) (n : Nat) : Int := if signed then 2 ^ (n - 1) - 1 else 2 ^ n - 1
/-- Bits of an integer in n-bit two's complement. -/
def intBits (n : Nat) (x : Int) : Nat := (x % (2 ^ n : Int)).toNat
/-- The integer an n-bit pattern stands for. -/
def intOfBits (signed : Bool) (n : Nat) (b : Nat) : Int :=
  let v := b % 2 ^ n
  if signed && decide (2 ^ (n - 1) ≤ v) then (v : Int) - 2 ^ n else v
/-- Clamp to a type's range. -/
def intClamp (signed : Bool) (n : Nat) (x : Int) : Int := max (intMin signed n) (min (intMax signed n) x)

/-- Round a finite value num/den × 2^e to an integer; the second part says it was inexact. -/
def roundInt (rm : Rm) (neg : Bool) (num den : Nat) (e : Int) : Int × Bool :=
  let a := num * pow2n e
  let b := den * pow2n (-e)
  let n := a / b
  let r := a % b
  let n' := if roundUp rm neg n r b then n + 1 else n
  ((if neg then -(n' : Int) else n'), r != 0)

/-- An integer result under an overflow policy (04 R104): clamped with IO, or the trap. -/
def intOv (ov : Ov) (signed : Bool) (n : Nat) (x : Int) (inexact : Bool) : FRes :=
  if x < intMin signed n ∨ intMax signed n < x then
    match ov with
    | .trap => ⟨intBits n (intClamp signed n x), 0, true⟩
    | _ => ⟨intBits n (intClamp signed n x), flIO, false⟩
  else ⟨intBits n x, if inexact then flNX else 0, false⟩

/-- Convert a value to an n-bit integer whose unit is 2^-frac (frac 32 for FX64, 0 otherwise) (04 R105, R110). -/
def fvToInt (signed : Bool) (n frac : Nat) (rm : Rm) (ov : Ov) : FV → FRes
  | .nan => ⟨0, flNV, false⟩
  | .inf neg => intOv ov signed n (if neg then intMin signed n - 1 else intMax signed n + 1) false
  | .fin neg m e =>
    let (x, ix) := roundInt rm neg m 1 (e + frac)
    intOv ov signed n x ix

/-- An exact integer times 2^-frac as a value. -/
def fvOfInt (x : Int) (frac : Nat) : FV := .fin (decide (x < 0)) x.natAbs (-(frac : Int))

def fvNeg : FV → FV
  | .nan => .nan
  | .inf s => .inf (!s)
  | .fin s m e => .fin (!s) m e
def fvAbs : FV → FV
  | .nan => .nan
  | .inf _ => .inf false
  | .fin _ m e => .fin false m e
def fvIsNaN : FV → Bool
  | .nan => true
  | _ => false
def fvIsZero : FV → Bool
  | .fin _ m _ => m == 0
  | _ => false
def fvIsNeg : FV → Bool
  | .nan => false
  | .inf s => s
  | .fin s _ _ => s

/-- A finite value as a signed multiple of 2^e. -/
def finInt (neg : Bool) (m : Nat) (e lo : Int) : Int :=
  let v : Int := (m * pow2n (e - lo) : Nat)
  if neg then -v else v

/-- Exact sum; an exact zero takes the sign rule of 04 R97. The flag is NV for ∞ − ∞. -/
def fvAdd (rm : Rm) : FV → FV → FV × Flags
  | .nan, _ => (.nan, 0)
  | _, .nan => (.nan, 0)
  | .inf a, .inf b => if a = b then (.inf a, 0) else (.nan, flNV)
  | .inf a, .fin .. => (.inf a, 0)
  | .fin .., .inf b => (.inf b, 0)
  | .fin sa ma ea, .fin sb mb eb =>
    let lo := min ea eb
    let t := finInt sa ma ea lo + finInt sb mb eb lo
    if t = 0 then
      if ma = 0 ∧ mb = 0 ∧ sa = sb then (.fin sa 0 lo, 0)
      else (.fin (rm == .rd) 0 lo, 0)
    else (.fin (decide (t < 0)) t.natAbs lo, 0)

/-- Exact product; NV for 0 × ∞ (04 R97). -/
def fvMul : FV → FV → FV × Flags
  | .nan, _ => (.nan, 0)
  | _, .nan => (.nan, 0)
  | .inf a, .inf b => (.inf (a != b), 0)
  | .inf a, .fin b m _ => if m = 0 then (.nan, flNV) else (.inf (a != b), 0)
  | .fin a m _, .inf b => if m = 0 then (.nan, flNV) else (.inf (a != b), 0)
  | .fin a ma ea, .fin b mb eb => (.fin (a != b) (ma * mb) (ea + eb), 0)

/-- Exact a × b + c. A NaN addend gives NaN without NV, also beside a 0 × ∞ product: the NaN is not created from non-NaN inputs
(04 R97, R106; DEDUCED, log entry 23). -/
def fvFma (rm : Rm) (a b c : FV) : FV × Flags :=
  if c == .nan then (.nan, 0) else
  let (p, f1) := fvMul a b
  let (r, f2) := fvAdd rm p c
  (r, f1 ||| f2)

/-- Order of two non-NaN values: negative, zero or positive difference; −0 equals +0 here. -/
def fvCmp : FV → FV → Int
  | .inf a, .inf b => if a = b then 0 else if a then -1 else 1
  | .inf a, _ => if a then -1 else 1
  | _, .inf b => if b then 1 else -1
  | .fin sa ma ea, .fin sb mb eb =>
    let lo := min ea eb
    finInt sa ma ea lo - finInt sb mb eb lo
  | _, _ => 0

/-- a orders before b, −0 below +0 (04 R97, minimum and maximum). -/
def fvLess (a b : FV) : Bool :=
  let c := fvCmp a b
  decide (c < 0) || (c == 0 && fvIsNeg a && !fvIsNeg b)

/-- Minimum and maximum: NaN when either operand is NaN (04 R97). -/
def fvMin (a b : FV) : FV := if fvIsNaN a || fvIsNaN b then .nan else if fvLess b a then b else a
def fvMax (a b : FV) : FV := if fvIsNaN a || fvIsNaN b then .nan else if fvLess a b then b else a

/-- The mixing function of stochastic rounding (04 R102). -/
def rsMix (x : W64) : W64 :=
  let x := x ^^^ (x >>> 31)
  let x := x * 0x9E6C2B417D35A8C3#64
  let x := x ^^^ (x >>> 29)
  let x := x * 0xC4A15E930B67D2F1#64
  x ^^^ (x >>> 32)

/-- What a stochastic rounding hashes besides the position, captured at issue (04 R102). -/
structure RsKey where
  seed : W64
  t : W64
  c : Nat
  deriving DecidableEq, Repr

/-- The 24 random bits at a position (04 R102). -/
def rsBits (k : RsKey) (lane sub : Nat) : Nat :=
  let h := rsMix (k.seed ^^^ k.t)
  (rsMix (h ^^^ (BitVec.ofNat 64 (k.c * 2 ^ 48)) ^^^ (BitVec.ofNat 64 (lane * 2 ^ 40)) ^^^ (BitVec.ofNat 64 (sub * 2 ^ 32)))).toNat % 2 ^ 24

/-- The mode a rounding code names, at a position (03 R81, 04 R102). -/
def rmOf (code : Nat) (k : RsKey) (lane sub : Nat) : Rm :=
  match code with
  | 0 => .rne | 1 => .rz | 2 => .ru | 3 => .rd
  | _ => .rs (rsBits k lane sub)

/-- The policy an overflow code names (03 R81). -/
def ovOf : Nat → Ov
  | 0 => .sat | 1 => .inf | 2 => .nan | _ => .trap

/-- An element type of 03 R79, unpacked. -/
inductive ElTy where
  | int (signed : Bool) (n : Nat)
  | fx64
  | flt (f : Fmt)
  | cb4
  deriving DecidableEq, Repr

/-- The type a code names, bit 5 (packed) dropped; none for the default and for reserved codes (03 R79). -/
def tyOfCode (c : Nat) : Option ElTy :=
  match c % 32 with
  | 0x01 => some (.int true 4) | 0x02 => some (.int true 8) | 0x03 => some (.int true 16)
  | 0x04 => some (.int true 32) | 0x05 => some (.int true 64) | 0x06 => some .fx64
  | 0x09 => some (.int false 4) | 0x0A => some (.int false 8) | 0x0B => some (.int false 16)
  | 0x0C => some (.int false 32) | 0x0D => some (.int false 64)
  | 0x10 => some (.flt .f32) | 0x11 => some (.flt .f64) | 0x12 => some (.flt .bf16) | 0x13 => some (.flt .f16)
  | 0x14 => some (.flt .e4m3) | 0x15 => some (.flt .e5m2) | 0x16 => some (.flt .e3m2)
  | 0x17 => some (.flt .e2m3) | 0x18 => some (.flt .e2m1) | 0x19 => some .cb4
  | _ => none

/-- Bits one element of a type occupies (03 R80, 04 R96). -/
def tyBits : ElTy → Nat
  | .int _ n => n
  | .fx64 => 64
  | .flt f => fmtW f
  | .cb4 => 4

/-- The value of an element; a CB4 code must be looked up first and reads as its code here (04 R100). -/
def tyVal (t : ElTy) (b : Nat) : FV :=
  match t with
  | .int s n => fvOfInt (intOfBits s n b) 0
  | .fx64 => fvOfInt (intOfBits true 64 b) 32
  | .flt f => fvOfBits f (b % 2 ^ fmtW f)
  | .cb4 => fvOfInt (b % 16) 0

/-- Round a value into a type (04 R101, R104, R105, R110). -/
def tyRound (t : ElTy) (rm : Rm) (ov : Ov) (v : FV) : FRes :=
  match t with
  | .int s n => fvToInt s n 0 rm ov v
  | .fx64 => fvToInt true 64 32 rm ov v
  | .flt f => fvToFmt f rm ov v
  | .cb4 => fvToInt false 4 0 rm ov v

/-- Convert between types: integer to integer is exact, then clamped under the policy (04 R105, R109, R110). -/
def tyConvert (ts td : ElTy) (rm : Rm) (ov : Ov) (b : Nat) : FRes := tyRound td rm ov (tyVal ts b)

/-- Relation codes of CMP, FCMP and VCMP: 0 EQ to 5 GE (06 R157); NaN is unordered (04 R97). -/
def fvRel (cc : Nat) (a b : FV) : Bool :=
  let un := fvIsNaN a || fvIsNaN b
  let c := fvCmp a b
  match cc with
  | 0 => !un && c == 0
  | 1 => un || c != 0
  | 2 => !un && decide (c < 0)
  | 3 => !un && decide (c ≤ 0)
  | 4 => !un && decide (0 < c)
  | 5 => !un && decide (0 ≤ c)
  | 6 => un
  | _ => !un

/-- Integer relations, and .TST (06 R157). -/
def intRel (cc : Nat) (a b : Int) (abits bbits : Nat) : Bool :=
  match cc with
  | 0 => a == b
  | 1 => a != b
  | 2 => decide (a < b)
  | 3 => decide (a ≤ b)
  | 4 => decide (b < a)
  | 5 => decide (b ≤ a)
  | _ => (abits &&& bbits) != 0

end Sys2Proof.Machine
end

