-- ==== Sys2Proof/Syntax.lean ====
section
/-!
DEFINITION. Syntax.lean: the decoded operand fields of an instruction word (spec file 03, R69 to R73) and the one
inductive of the machine's steps: an instruction word with its fields, or an event of another agent with what that
agent brings to it (spec file 95).
-/
namespace Sys2Proof

/-- A decoded operand field (03 R71). A long immediate is held as its low 61 bits (03 R72). -/
inductive Operand where
  | none
  | s (i : BitVec 6)
  | v (i : BitVec 5)
  | vq (i : BitVec 5) (q : BitVec 2)
  | p (i : BitVec 4)
  | m (i : BitVec 3)
  | ctl
  | imm (x : BitVec 13)
  | tile (a : BitVec 5)
  | queue (cmd : Bool) (n : BitVec 3)
  | long (x : BitVec 61)
  deriving DecidableEq, Repr

/-- The fields of an instruction word beside its opcode (03 R69): guards, AWAIT, SETW, HINT, YLD, MOD, O1 to O5. -/
structure Fields where
  ga : BitVec 5
  gb : BitVec 5
  gc : BitVec 1
  await : BitVec 8
  setw : BitVec 4
  hint : BitVec 2
  yld : BitVec 1
  mod : BitVec 11
  o1 : Operand
  o2 : Operand
  o3 : Operand
  o4 : Operand
  o5 : Operand
  deriving DecidableEq, Repr

/-- What a fabric packet carries (spec files 12 to 15): requests of remote accesses, their replies, collective arrivals
and releases, ring landings and watermarks, coding messages, abort tokens and statements. -/
inductive PKind where
  | rld | rst | ramo | rop | put | get | mcast
  | reply | refuse
  | arrive | groupArrive | release | redArrive | redGroup | redResult
  | landing | landAck | watermark
  | delta | mark | ack | prepared | staged | commit | abort | lost | beat | beatReply | query | queryReply
  | kabrt | overflow | config | rebuild | rebuilt | streamReq | stream | repairReq | fcoll
  | token | statement
  deriving DecidableEq, Repr

/-- A fabric packet (12 R303 to R305; 01 R29): its ends, virtual lane, ordering lane, kind, words, bytes and the low 24 bits
of the sender's GTS; the intermediate group of an alternate route; whether it has crossed an optical hop; the region whose
FABSH serves it where it was sent, 0 for none; and the lane group it came in by (log entry 11). -/
structure Packet where
  dst : Nat
  src : Nat
  vl : Nat
  lane : Nat
  kind : PKind
  tag : Nat
  args : List W64
  data : List Byte
  gts : BitVec 24
  via : Option Nat
  far : Bool
  reg : Nat
  inp : Nat
  deriving DecidableEq, Repr

/-- A global channel of this device's group as the route table names it (12 R302): the group it leads to, the member and the
optical channel at this end, and the index and the channel at the far end. -/
structure Gate where
  group : Nat
  member : Nat
  chan : Nat
  farMember : Nat
  farChan : Nat
  deriving DecidableEq, Repr

/-- One step of the machine: one constructor per row of the opcode table. A word carries its decoded fields. An event
carries the unit it happens at and what comes from outside the device or from another agent. -/
inductive Instr where
  /-- Does nothing beyond issuing and occupying one issue slot (R156). -/
  | nop (f : Fields)
  /-- Writes a short or 61-bit long immediate into a scalar register (R156). -/
  | movi (f : Fields)
  /-- Writes x[15:0] into bits [63:48] of the destination and keeps sA[47:0] (R156). -/
  | movhi (f : Fields)
  /-- Copies a scalar or a mask register into a scalar or a mask register (R156). -/
  | mov (f : Fields)
  /-- Integer addition at the selected width, wrapping or saturating (R154). -/
  | add (f : Fields)
  /-- Integer subtraction at the selected width, wrapping or saturating (R154). -/
  | sub (f : Fields)
  /-- Integer multiplication at the selected width, wrapping or saturating (R154). -/
  | mul (f : Fields)
  /-- Writes the high half of the exact double-width product (R154). -/
  | mulh (f : Fields)
  /-- Integer division truncating toward zero; division by zero returns all ones or traps, by ACTL.DZTRAP (R155). -/
  | div (f : Fields)
  /-- Integer remainder matching DIV; division by zero returns the dividend or traps (R155). -/
  | rem (f : Fields)
  /-- Bitwise AND of two operands (R154). -/
  | and (f : Fields)
  /-- Bitwise OR of two operands (R154). -/
  | or (f : Fields)
  /-- Bitwise XOR of two operands (R154). -/
  | xor (f : Fields)
  /-- Computes a AND NOT b (R154). -/
  | andn (f : Fields)
  /-- Shifts left by b mod n, wrapping or saturating (R154). -/
  | shl (f : Fields)
  /-- Logical right shift by b mod n (R154). -/
  | shr (f : Fields)
  /-- Arithmetic right shift by b mod n, filling with bit n-1 (R154). -/
  | sar (f : Fields)
  /-- Rotates left by b mod n (R154). -/
  | rot (f : Fields)
  /-- Writes the smaller operand, in the type's signedness (R154). -/
  | min (f : Fields)
  /-- Writes the larger operand, in the type's signedness (R154). -/
  | max (f : Fields)
  /-- Writes the absolute value; the minimum stays the minimum, or saturates with SAT (R156). -/
  | abs (f : Fields)
  /-- Counts the leading zeros of the n-bit pattern (R156). -/
  | clz (f : Fields)
  /-- Counts the trailing zeros of the n-bit pattern (R156). -/
  | ctz (f : Fields)
  /-- Counts the ones of the n-bit pattern (R156). -/
  | popc (f : Fields)
  /-- Sign-extends from bit w-1 (R156). -/
  | sext (f : Fields)
  /-- Zero-extends above bit w-1 (R156). -/
  | zext (f : Fields)
  /-- Extracts a bit field, zero-extended or sign-extended (R156). -/
  | bfx (f : Fields)
  /-- Inserts the low bits of sB into a field of sA (R156). -/
  | bfi (f : Fields)
  /-- Computes sA + sB x 2^K modulo 2^64 (R156). -/
  | lea (f : Fields)
  /-- Integer multiply-add a x b + c, wrapping or clamping (R156). -/
  | mada (f : Fields)
  /-- Selects sA or B by a predicate; the result carries the predicate's taint (R156). -/
  | sel (f : Fields)
  /-- Compares two integers and writes the relation into a predicate (R157). -/
  | cmp (f : Fields)
  /-- Combines two predicates by a logic operation (R157). -/
  | plog (f : Fields)
  /-- Moves a value between a scalar and a predicate, or from one predicate to another (R157). -/
  | pmov (f : Fields)
  /-- Scalar F32 or F64 addition, rounded once (R158). -/
  | fadd (f : Fields)
  /-- Scalar F32 or F64 multiplication, rounded once (R158). -/
  | fmul (f : Fields)
  /-- Scalar fused multiply-add, rounded once (R158). -/
  | ffma (f : Fields)
  /-- Scalar floating comparison into a predicate (R158). -/
  | fcmp (f : Fields)
  /-- Converts a scalar between floating, integer and FX64 types (R158). -/
  | fcvt (f : Fields)
  /-- Branches to a code offset and adds the guard taint to the control taint (R159). -/
  | br (f : Fields)
  /-- Branches to the address held in a register (R159). -/
  | bri (f : Fields)
  /-- Writes the link address and branches (R159). -/
  | call (f : Fields)
  /-- Branches to the link register and makes a RET trace entry (R159). -/
  | ret (f : Fields)
  /-- Decrements the count register and branches while the new count is not zero (R159). -/
  | loop (f : Fields)
  /-- Moves the context to EXITING, where its queues drain (R161). -/
  | exit (f : Fields)
  /-- Keeps the context from being selected for n cycles (R160). -/
  | yield (f : Fields)
  /-- Takes a result element off a queue, or stalls, fails its predicate or traps when the queue is empty; acquires what the element reports (R161). -/
  | popq (f : Fields)
  /-- Reads the state of a queue without changing it (R161). -/
  | qstat (f : Fields)
  /-- Discards the result elements of a queue, after its commands end when .W is given (R161). -/
  | drainq (f : Fields)
  /-- Takes trap cause 0x0D with the immediate in TVAL (R167). -/
  | trap (f : Fields)
  /-- Returns from a trap to TPC, restoring the mode and clearing TCAUSE.IN (R167). -/
  | tret (f : Fields)
  /-- Takes the breakpoint trap at its own address (R167). -/
  | brk (f : Fields)
  /-- Reads a system register into a scalar (R168). -/
  | sysrd (f : Fields)
  /-- Writes a system register that has no write behaviour of its own, under the access codes and mode permissions (R168). -/
  | syswr (f : Fields)
  /-- Reads the global time stamp, monotonic per reader (R168). -/
  | gtsrd (f : Fields)
  /-- Reads the cluster cycle counter (R168). -/
  | ccyrd (f : Fields)
  /-- Returns GTS when the deadline has passed, and otherwise parks until GTS reaches it (R168). -/
  | waitg (f : Fields)
  /-- Reads PRIO and sets the requested issue-class cap (R150). -/
  | prio (f : Fields)
  /-- Supervisor save of a named context of this core to an image address, reported in qd (R170). -/
  | ctxsv (f : Fields)
  /-- Supervisor install of an image into a FREE context of this core, reported in qd (R170). -/
  | ctxrs (f : Fields)
  /-- Invalidates every translation in the chosen caches and holds the context until done (R171). -/
  | tlbinvAll (f : Fields)
  /-- Invalidates every translation of one virtual address, waiting for pinned entries (R171). -/
  | tlbinvPage (f : Fields)
  /-- Writes a user trace entry when confirmed, and fires the trigger with .TRIG (R169). -/
  | trace (f : Fields)
  /-- Withholds dispatch to a scope and waits until its other contexts are quiet or the deadline passes (R172). -/
  | quiesce (f : Fields)
  /-- Ends the issuing context's withholding of dispatch for a scope (R172). -/
  | quiesceEnd (f : Fields)
  /-- Submits a nest record from scratchpad to a region's launch queue and returns a ticket and status code (R142). -/
  | launch (f : Fields)
  /-- Reads a counter with acquire and returns when COUNT reaches the target or a deadline passes, parking otherwise (R143). -/
  | nwait (f : Fields)
  /-- Reads nest, region or counter status for a handle (R144). -/
  | nstat (f : Fields)
  /-- Creates a child region from an RCB under the admission rules (R145). -/
  | rgnmk (f : Fields)
  /-- Supervisor start of region teardown, reported in qd when the teardown is complete (R139). -/
  | rgntd (f : Fields)
  /-- Changes one effective field of a region, checked against its parent and children (R145). -/
  | rgnset (f : Fields)
  /-- Scalar load, plain or strong acquire, taking a load slot for tracked classes (R191). -/
  | ld (f : Fields)
  /-- Scalar store, plain or strong release (R191). -/
  | st (f : Fields)
  /-- Loads a pair of scalars atomically (R192). -/
  | ldp (f : Fields)
  /-- Stores a pair of scalars atomically (R192). -/
  | stp (f : Fields)
  /-- Loads a vector register or quarter under a mask (R193). -/
  | ldv (f : Fields)
  /-- Stores a vector register or quarter under a mask (R193). -/
  | stv (f : Fields)
  /-- Gathers lanes from indexed addresses with one load slot (R194). -/
  | ldvg (f : Fields)
  /-- Scatters lanes to indexed addresses; the higher lane wins an overlap (R194). -/
  | stvs (f : Fields)
  /-- Atomic read-modify-write at the home, release and acquire with its mask (R195). -/
  | amo (f : Fields)
  /-- Atomic compare-and-swap of 4 or 8 bytes (R196). -/
  | cas (f : Fields)
  /-- Atomic compare-and-swap of 16 bytes on register pairs (R196). -/
  | cas2 (f : Fields)
  /-- Orders the context's accesses across it for the named observers (R197). -/
  | fence (f : Fields)
  /-- Empties the taint set of a register, predicate, mask, quarter or the control taint (R198). -/
  | tclr (f : Fields)
  /-- Adds one operand's taint to another's (R198). -/
  | tadd (f : Fields)
  /-- Reads a taint set and the live-slot mask into a scalar (R198). -/
  | trd (f : Fields)
  /-- Folds every live load slot into the base clock (R198). -/
  | tfold (f : Fields)
  /-- Stores a register range together with its taint words and slot generations (R200). -/
  | spillm (f : Fields)
  /-- Reloads a register range and restores the taint bits whose generation still matches (R200). -/
  | fillm (f : Fields)
  /-- Starts a last-level cache fill of a Global line (R202). -/
  | pref (f : Fields)
  /-- Probes translation without faulting and reports class, size, permissions and physical address (R203). -/
  | xlate (f : Fields)
  /-- Writes back, and optionally invalidates, a Global cache line (R204). -/
  | flushl (f : Fields)
  /-- Lane-wise addition (R213). -/
  | vadd (f : Fields)
  /-- Lane-wise subtraction (R213). -/
  | vsub (f : Fields)
  /-- Lane-wise multiplication (R213). -/
  | vmul (f : Fields)
  /-- Lane-wise fused multiply-add (R213). -/
  | vfma (f : Fields)
  /-- Lane-wise fused multiply-subtract (R213). -/
  | vfms (f : Fields)
  /-- Lane-wise negation (R214). -/
  | vneg (f : Fields)
  /-- Lane-wise absolute value (R214). -/
  | vabs (f : Fields)
  /-- Lane-wise minimum (R213). -/
  | vmin (f : Fields)
  /-- Lane-wise maximum (R213). -/
  | vmax (f : Fields)
  /-- High half of each lane's exact integer product (R213). -/
  | vmulh (f : Fields)
  /-- Lane-wise bitwise AND (R215). -/
  | vand (f : Fields)
  /-- Lane-wise bitwise OR (R215). -/
  | vor (f : Fields)
  /-- Lane-wise bitwise XOR (R215). -/
  | vxor (f : Fields)
  /-- Lane-wise left shift (R215). -/
  | vshl (f : Fields)
  /-- Lane-wise logical right shift (R215). -/
  | vshr (f : Fields)
  /-- Lane-wise arithmetic right shift (R215). -/
  | vsar (f : Fields)
  /-- Lane-wise count of leading zeros (R216). -/
  | vclz (f : Fields)
  /-- Lane-wise count of ones (R216). -/
  | vpopc (f : Fields)
  /-- Lane-wise comparison into a mask register (R217). -/
  | vcmp (f : Fields)
  /-- Lane-wise selection under a mask (R218). -/
  | vsel (f : Fields)
  /-- Logic operation on two mask registers (R219). -/
  | vmlog (f : Fields)
  /-- Counts the set bits of a mask (R219). -/
  | vmpop (f : Fields)
  /-- Finds the lowest set bit of a mask (R219). -/
  | vmfst (f : Fields)
  /-- Copies lanes or one quarter of a vector register (R220). -/
  | vmov (f : Fields)
  /-- Lane-wise base-2 exponential by the algorithm of R112 (R221). -/
  | vexp2 (f : Fields)
  /-- Lane-wise base-2 logarithm (R221). -/
  | vlog2 (f : Fields)
  /-- Lane-wise reciprocal (R221). -/
  | vrcp (f : Fields)
  /-- Lane-wise reciprocal square root (R221). -/
  | vrsq (f : Fields)
  /-- Lane-wise square root (R221). -/
  | vsqrt (f : Fields)
  /-- Lane-wise hyperbolic tangent (R221). -/
  | vtanh (f : Fields)
  /-- Converts each sub-element between formats, with an optional MX scale (R223). -/
  | vcvt (f : Fields)
  /-- Packs n source registers into packed sub-elements (R224). -/
  | vpack (f : Fields)
  /-- Unpacks packed sub-elements into n destination registers (R225). -/
  | vunpk (f : Fields)
  /-- Multiplies each element by 2^k, rounded once (R226). -/
  | vscale (f : Fields)
  /-- Requantises INT32 lanes with a multiplier, a shift and a zero point (R227). -/
  | vqnt (f : Fields)
  /-- Dequantises INT32 lanes as (a - z) x f (R228). -/
  | vdeq (f : Fields)
  /-- Broadcasts a scalar or one lane to every active lane (R230). -/
  | vbcst (f : Fields)
  /-- Extracts one lane into a scalar (R230). -/
  | vext (f : Fields)
  /-- Inserts a scalar into one lane (R230). -/
  | vins (f : Fields)
  /-- Permutes lanes by an index vector (R230). -/
  | vshuf (f : Fields)
  /-- Rotates lanes by k (R230). -/
  | vrot (f : Fields)
  /-- Interleaves the lanes of two registers (R230). -/
  | vzip (f : Fields)
  /-- De-interleaves the lanes of two registers (R230). -/
  | vuzp (f : Fields)
  /-- Slides a 64-lane window over the 128-lane concatenation of two registers (R230). -/
  | vsld (f : Fields)
  /-- Sum reduction over the fixed pairwise tree (R231). -/
  | vredadd (f : Fields)
  /-- Maximum reduction over the fixed tree (R231). -/
  | vredmax (f : Fields)
  /-- Minimum reduction over the fixed tree (R231). -/
  | vredmin (f : Fields)
  /-- Prefix scan by the fixed tree (R232). -/
  | vscan (f : Fields)
  /-- Dot product with exact lane leaves and a tree reduction (R233). -/
  | vdot (f : Fields)
  /-- Pushes a weight load into the shadow plane (R245). -/
  | mldw (f : Fields)
  /-- Pushes an exchange of the core's active and shadow planes (R247). -/
  | mswap (f : Fields)
  /-- Pushes a stream of activation rows through the active plane into a tile (R248). -/
  | mmul (f : Fields)
  /-- Pushes the conversion of a tile rectangle and its write to memory (R249). -/
  | mdrain (f : Fields)
  /-- Pushes the zeroing of rows of a tile (R250). -/
  | mzero (f : Fields)
  /-- Pushes a load of the shadow plane's CB4 codebook (R246). -/
  | mcbt (f : Fields)
  /-- Reads a 64-element row segment of a tile into a vector (R250). -/
  | mrda (f : Fields)
  /-- Writes vector lanes into a 64-element row segment of a tile (R250). -/
  | mwra (f : Fields)
  /-- Pushes the write of a tile image (R260). -/
  | msave (f : Fields)
  /-- Pushes the write of the core's plane image (R260). -/
  | msavePl (f : Fields)
  /-- Pushes the install of a tile image (R260). -/
  | mrest (f : Fields)
  /-- Pushes the install of a plane image, checked for coverage (R261). -/
  | mrestPl (f : Fields)
  /-- Pushes the configuration of an attention session with tiles, a scale and a window (R343). -/
  | acfg (f : Fields)
  /-- Pushes the load of queries and the reset of the output and state rows (R344). -/
  | aldq (f : Fields)
  /-- Pushes the consumption of a key/value block from memory (R345). -/
  | akv (f : Fields)
  /-- Pushes the consumption of a ring step from a Paceline landing slot, with optional release (R345). -/
  | akvPl (f : Fields)
  /-- Pushes the normalisation of the output and its write, with optional LSE words (R339). -/
  | afin (f : Fields)
  /-- Pushes the end of the session, or with .Z a reset of its output and state (R346). -/
  | arst (f : Fields)
  /-- Pushes a loop-nest copy (R266). -/
  | cpy (f : Fields)
  /-- Pushes a gather copy through an index list read at the push (R267). -/
  | cpyg (f : Fields)
  /-- Pushes a scatter copy through an index list read at the push (R267). -/
  | cpys (f : Fields)
  /-- Pushes a fill of destination elements with a pattern (R268). -/
  | cfil (f : Fields)
  /-- Pushes a transpose copy (R269). -/
  | ctrn (f : Fields)
  /-- Initialises a landing counter's EXP, REM, ERR and optionally PHASE (R276). -/
  | lcinit (f : Fields)
  /-- Waits with acquire until a landing counter's PHASE differs from P or a deadline passes (R277). -/
  | lcwait (f : Fields)
  /-- Counts an arrival on a landing counter, or adds to its REM (R276). -/
  | lcadd (f : Fields)
  /-- Pushes a gate that fires the next pushed entry on counter flips (R278). -/
  | carm (f : Fields)
  /-- Pushes element updates into Commons from a vector (R294). -/
  | bred (f : Fields)
  /-- Pushes element updates into Commons from a scratchpad block (R294). -/
  | bredBlock (f : Fields)
  /-- Pushes a tree reduction of a Commons range (R294). -/
  | bsum (f : Fields)
  /-- Reads a Commons word with acquire and parks on a bank watch while it holds the expected value (R296). -/
  | waita (f : Fields)
  /-- Pushes a fill of a Commons range with a word (R294). -/
  | bfill (f : Fields)
  /-- Pushes the setting of a Commons range to the operation's identity (R294). -/
  | bclr (f : Fields)
  /-- Direct remote load, plain or strong, taking a remote load slot (R316). -/
  | rld (f : Fields)
  /-- Direct remote store, plain or strong (R316). -/
  | rst (f : Fields)
  /-- Remote atomic at the target home (R316). -/
  | ramo (f : Fields)
  /-- Remote compare-and-swap of up to four words (R318). -/
  | ropCasw (f : Fields)
  /-- Remote indivisible addition into up to eight words (R318). -/
  | ropFxadd (f : Fields)
  /-- Remote enqueue of a 32-byte record into a ring queue (R318). -/
  | ropEnq (f : Fields)
  /-- Remote dequeue of a record from a ring queue (R318). -/
  | ropDeq (f : Fields)
  /-- Remote pointer chase of up to 16 hops (R318). -/
  | ropChase (f : Fields)
  /-- Remote bounded addition (R318). -/
  | ropBadd (f : Fields)
  /-- Remote minimum-with-payload update (R318). -/
  | ropMinloc (f : Fields)
  /-- Remote gather of four words (R318). -/
  | ropGath4 (f : Fields)
  /-- Remote scatter of four words (R318). -/
  | ropScat4 (f : Fields)
  /-- Remote arrival on a landing counter (R318). -/
  | ropLcarr (f : Fields)
  /-- Remote histogram increments (R318). -/
  | ropHist (f : Fields)
  /-- Remote put of words followed by a releasing flag increment (R318). -/
  | ropPutsig (f : Fields)
  /-- Pushes a bulk transfer to a remote window (R319). -/
  | rput (f : Fields)
  /-- Pushes a bulk transfer from a remote window (R319). -/
  | rget (f : Fields)
  /-- Pushes a multicast transfer to every member of a set (R320). -/
  | mcast (f : Fields)
  /-- Arrives at a barrier generation and waits for its release, a deadline or an abort (R323). -/
  | gsync (f : Fields)
  /-- Pushes a collective reduction over a set by a fixed tree (R325). -/
  | gred (f : Fields)
  /-- Opens a Paceline ring from a descriptor quarter and initialises its slot counters (R326). -/
  | plcfgOpen (f : Fields)
  /-- Closes a Paceline ring that the task owns (R326). -/
  | plcfgClose (f : Fields)
  /-- Pushes the send of a ring step to the successor, plain or cut-through (R328). -/
  | plsend (f : Fields)
  /-- Releases ring steps and raises the watermark (R329). -/
  | plrel (f : Fields)
  /-- Changes a fibre's lane-group mode (R331). -/
  | lnctlMode (f : Fields)
  /-- Starts retraining of one direction of a wavelength (R331). -/
  | lnctlRetrain (f : Fields)
  /-- Disables a wavelength unless its lane group would go down with no alternate route (R331). -/
  | lnctlDisable (f : Fields)
  /-- Starts retraining of a DISABLED wavelength (R331). -/
  | lnctlEnable (f : Fields)
  /-- Allows or forbids parking on a lane group (R331). -/
  | lnctlPark (f : Fields)
  /-- Reads the state or counters of a wavelength, lane group or port (R332). -/
  | lnstat (f : Fields)
  /-- Supervisor install of a Peloton configuration, reported at confirmation (R373). -/
  | kcfg (f : Fields)
  /-- Creates and zero-fills a protected region (R373). -/
  | kprot (f : Fields)
  /-- Removes a protected region (R373). -/
  | kunpr (f : Fields)
  /-- Opens write round C + 1 on a data member (R364). -/
  | kopen (f : Fields)
  /-- Sets the prepare point of the round and waits for all deltas to be staged (R359). -/
  | kprep (f : Fields)
  /-- Waits until this device learns the decision for a round (R373). -/
  | kcomt (f : Fields)
  /-- Asks the coordinator to abort the open round (R373). -/
  | kabrt (f : Fields)
  /-- Reads member, region, round or rebuild status of the Peloton (R373). -/
  | kstat (f : Fields)
  /-- On a spare, waits for a lost member and rebuilds it (R367). -/
  | krbld (f : Fields)
  /-- Scrubs a region range, rewriting or repairing granules, and verifies parity with .VFY (R373). -/
  | kscrb (f : Fields)
  /-- Resets the device to its reset values and starts bring-up at stage 0 (R398). -/
  | deviceReset
  /-- Stage 0: hashes and verifies the signature of the management firmware (R398). -/
  | bootRomVerify (image : List Byte) (trailer : List Byte)
  /-- Stage 1: trains the HBM stacks, tests the arrays and sets BANDOK and SPUSED (R398). -/
  | hbmTraining (ok : Bool) (arr : List (Nat × Nat))
  /-- Stage 2: verifies the device firmware and derives the identity and attestation keys (R398). -/
  | firmwareVerify (image : List Byte) (trailer : List Byte)
  /-- Stage 3: trains the fabric links and opens the mailbox to SETDEV (R398). -/
  | linkTraining (ok : Bool) (dark : List Nat)
  /-- Mailbox command setting the device number and FXID (R397). -/
  | setdev (tag : Nat) (dev : Nat) (groups : Nat) (maxdev : Nat)
  /-- Mailbox command installing the route table and fibre modes (R397). -/
  | route (tag : Nat) (pa : Nat) (len : Nat) (peers : List Nat) (modes : List (Nat × Nat)) (gates : List Gate) (alts : List (Nat × Nat))
  /-- Mailbox command starting GTS synchronisation to a time root (R397). -/
  | time (tag : Nat) (root : Nat)
  /-- Mailbox command creating a root region from an RCB and a page table (R397). -/
  | mkroot (tag : Nat) (rcb : Nat) (table : Nat)
  /-- Mailbox command starting a region teardown (R397). -/
  | teardown (tag : Nat) (handle : Nat)
  /-- Mailbox command writing a signed attestation report (R406). -/
  | attest (tag : Nat) (nonce : List Byte) (pa : Nat)
  /-- Mailbox command copying a Peloton commit record into the status area (R397). -/
  | crec (tag : Nat) (pa : Nat)
  /-- Mailbox command arming or disarming a completion-counter interrupt slot (R397). -/
  | cntirq (tag : Nat) (slot : Nat) (pa : Nat)
  /-- Host read of the pending word, which returns its bits and clears them (R397). -/
  | cntirqPendingRead
  /-- Host write to a BAR 2 page, accepted into a root region's launch queue or discarded and counted (R396). -/
  | hostLaunchWrite (page : Nat) (off : Nat) (data : List Byte)
  /-- Host read of BAR 2 offset 0x40 returning the region's NSTAT.RGN word (R396). -/
  | hostRegionStatusRead (page : Nat)
  /-- Host write to Global memory, stamped at the stack's die and applied as a plain write (R396). -/
  | bar4Write (pa : Nat) (data : List Byte)
  /-- Host read of Global memory, answered at its home (R396). -/
  | bar4Read (pa : Nat) (n : Nat)
  /-- Advances the package time stamp by one ns, with slewing corrections (R27). -/
  | gtsTick (adj : Nat)
  /-- Measures the offset from the time root and updates LOCKED, CATCHUP, LOSTLOCK and OFFSET (R30). -/
  | gtsSyncMeasure (offset : Int)
  /-- A record landing at a launch queue is accepted into a hardware entry, spilled or refused (R34). -/
  | launchRecordAccept (region : Nat)
  /-- The Derailleur binds the next iteration of the best ready record to an eligible context (R135). -/
  | dispatch (die : Nat)
  /-- After a nest's last task ends, applies the atomic update of its completion counter and delivers the LAUNCH.NTFY element (R132). -/
  | nestCompletionUpdate (nest : Nat)
  /-- Within 64 cycles of the progress condition, saves a waiting task to bind a blocked ready record (R138). -/
  | progressPreempt
  /-- Once every nest of the torn subtree has ended, frees its contexts, windows and entries and marks the regions TORN (R139). -/
  | regionTeardownComplete (region : Nat)
  /-- A context ready and unselected for 65,536 cycles is selected (R149). -/
  | starvationPromotion (core : Nat)
  /-- A fixed-latency result and its taint are written at issue + n (R151). -/
  | fixedResultLand (ctx : Nat)
  /-- A variable-latency result is written and its wait token clears (R19). -/
  | tokenResultLand (core : Nat) (n : Nat)
  /-- An instruction-cache line arrives and the waiting context becomes ready (R148). -/
  | icacheFill (core : Nat)
  /-- A table walk ends; the word issues or takes its translation or poison fault (R184). -/
  | translationWalkComplete (core : Nat) (victim : Nat)
  /-- Takes a trap once fixed results have landed and earlier words are confirmed, or escalates a double trap (R166). -/
  | trapEntry (ctx : Nat)
  /-- The checker matches a check point, confirms earlier words and releases held effects (R175). -/
  | checkPointMatch (core : Nat)
  /-- Discards held effects, unwinds the journal and re-executes from the last confirmed point (R176). -/
  | checkerMismatch (core : Nat)
  /-- An EXITING context whose results, effects and queues have drained becomes FREE (R161). -/
  | exitDrainComplete (ctx : Nat)
  /-- GTS reaches the WAITG deadline and the context becomes ready (R168). -/
  | waitgWake (ctx : Nat)
  /-- A write to the waited counter wakes the parked NWAIT to read again (R143). -/
  | nwaitRecheck (ctx : Nat)
  /-- GTS reaches an NWAIT deadline and the word completes with the counter value (R143). -/
  | nwaitDeadline (ctx : Nat)
  /-- A write is applied at its home once its dependency vector is covered, and the frontier advances (R43). -/
  | writeApply (id : Nat)
  /-- A read is answered at its home or a fresh enough copy once its vector is covered, or hits poison or is repaired (R43). -/
  | loadPerform (id : Nat) (bad : Bool) (host : List Byte)
  /-- A host load without a completion for 50 us becomes a data-poison fault (R205). -/
  | hostLoadTimeout (id : Nat)
  /-- A supervisor write of MXSHARE, pending until the next window boundary (R239). -/
  | mxshareWrite (cluster : Nat) (x : W64)
  /-- The new sharing mode takes effect at a window boundary (R239). -/
  | mxshareApply (cluster : Nat)
  /-- A write of CADENCE.GAP, pending until the next window boundary (R241). -/
  | cadenceWrite (cluster : Nat) (x : W64)
  /-- The new cadence takes effect at a window boundary (R241). -/
  | cadenceApply (cluster : Nat)
  /-- A write of BANDS, masked by BANDOK and pending until the array is idle (R241). -/
  | arrshapeWrite (cluster : Nat) (x : W64)
  /-- At an idle window boundary the bands change and every plane becomes EMPTY (R241). -/
  | arrshapeApply (cluster : Nat)
  /-- The loader writes weights, scales and the tag into the shadow plane and reports (R245). -/
  | mldwExec (core : Nat)
  /-- The loader writes the shadow plane's codebook (R246). -/
  | mcbtExec (core : Nat)
  /-- At a window boundary the planes exchange roles and ORIGIN advances (R247). -/
  | mswapExchange (core : Nat)
  /-- The array unit starts an MMUL and injects its rows in owned cycles at the cadence (R248). -/
  | mmulExec (core : Nat)
  /-- An injected row lands with its groups accumulated into the tile (R242). -/
  | mmulRowLand (core : Nat)
  /-- An MMUL completes and writes its result element in command order (R242). -/
  | mmulComplete (core : Nat)
  /-- A checksum mismatch on a row replays it and the later rows, or fails the command after MXRETRY.MAX replays (R257). -/
  | rowCheckMismatch (core : Nat) (n : Nat)
  /-- Converts, optionally clears and writes a tile rectangle, or fails on overflow under .OVTRAP (R249). -/
  | mdrainExec (core : Nat) (bad : Bool)
  /-- Zeroes tile rows and reports (R250). -/
  | mzeroExec (core : Nat)
  /-- Writes a tile or plane image (R260). -/
  | msaveExec (core : Nat) (bad : Bool)
  /-- Installs a tile or plane image, or fails on an invalid or uncovered one (R261). -/
  | mrestExec (core : Nat) (bad : Bool)
  /-- Sets the session CONFIGURED with its tiles, scale and window (R343). -/
  | acfgExec (core : Nat)
  /-- Loads the queries, resets output and state rows, and makes the session ACTIVE (R344). -/
  | aldqExec (core : Nat) (bad : Bool)
  /-- Runs the two array passes and the softmax update for a key/value block (R338). -/
  | akvExec (core : Nat) (bad : Bool)
  /-- Once LAND exceeds the step, the ring AKV is chosen, checks the ring, sets LAST and runs (R348). -/
  | akvPlChosen (core : Nat) (bad : Bool)
  /-- Divides the output by the row sums, writes it, and writes the LSE words when asked (R339). -/
  | afinExec (core : Nat) (bad : Bool)
  /-- Ends the session, or resets its output and state rows under .Z (R346). -/
  | arstExec (core : Nat)
  /-- A data command or a firing starts, computes its promise and writes the promise element (R271). -/
  | copyCommandStart (cluster : Nat)
  /-- Reads and then writes one 4 KiB destination block, counts its arrival and advances PROG (R264). -/
  | copyBlock (cluster : Nat) (bad : Bool) (late : Bool) (host : List Byte)
  /-- GTS passes the promise of an incomplete command: trap, or count and note (R272). -/
  | missedPromise (ctx : Nat) (seq : Nat)
  /-- A CARM gate reaching the head of its queue sets F from the counter's phase (R278). -/
  | gateHead (ctx : Nat) (q : Nat)
  /-- On a counter flip while F > 0, the gated entry executes as one firing (R279). -/
  | gateFiring (ctx : Nat) (q : Nat)
  /-- A write of 1 to HELD with ABANDON 0 resumes the held command at PROG (R280). -/
  | cpholdResume (ctx : Nat)
  /-- A write of 1 to HELD with ABANDON 1 completes the later entries FLAGGED (R280). -/
  | cpholdAbandon (ctx : Nat)
  /-- An update of the counter wakes the parked LCWAIT to read again (R277). -/
  | lcwaitRecheck (ctx : Nat)
  /-- GTS reaches an LCWAIT deadline and the word completes (R277). -/
  | lcwaitDeadline (ctx : Nat)
  /-- A SIZE write differing from CUR starts a repartition of the die (R286). -/
  | cmncfgSizeWrite (die : Nat) (x : W64)
  /-- After the drain, drops leaving cache lines, zeroes the Commons, wakes watches and adopts the new size (R286). -/
  | repartitionComplete (die : Nat) (drop : List Nat)
  /-- Applies element updates at their banks, in blocks of 4 KiB (R294). -/
  | bredExec (die : Nat) (bad : Bool)
  /-- Reads a Commons range and reduces it by the fixed tree (R294). -/
  | bsumExec (die : Nat) (bad : Bool)
  /-- Fills a Commons range with a word (R294). -/
  | bfillExec (die : Nat)
  /-- Sets a Commons range to the identity (R294). -/
  | bclrExec (die : Nat)
  /-- A woken watch makes its context ready and delivers the value with acquire (R299). -/
  | waitaResume (ctx : Nat)
  /-- GTS reaches a WAITA deadline and the watch wakes with the current value (R299). -/
  | waitaDeadline (ctx : Nat)
  /-- A fabric packet arrives at a device and is forwarded or delivered (R29). -/
  | packetArrival (p : Packet)
  /-- The target translates a remote access against its export table and performs it or refuses it (R312). -/
  | remoteRequestAtTarget (n : Nat) (bad : Bool)
  /-- A reply or acknowledgement reaches the issuer and completes its access (R316). -/
  | remoteReplyArrival (n : Nat)
  /-- No acknowledgement 100 us after sending: the access fails as peer unreachable (R314). -/
  | remoteTimeout (tag : Nat)
  /-- The held failure of lowest SEQ of a direct access is taken as an engine queue fault (R314). -/
  | fabricFaultDelivery (ctx : Nat)
  /-- Sends a bulk transfer block by block, each waiting for acknowledgement (R319). -/
  | rputExec (ctx : Nat) (bad : Bool)
  /-- Fetches a bulk transfer block by block (R319). -/
  | rgetExec (ctx : Nat) (bad : Bool)
  /-- Replicates blocks to every member and completes when all acknowledge (R320). -/
  | mcastExec (ctx : Nat) (bad : Bool)
  /-- A switch sends a buffered multicast flit on each owed port at GO (R320). -/
  | mcastFlitForward (n : Nat) (port : Nat)
  /-- Sends the task's elements into the combining tree and delivers the result (R325). -/
  | gredExec (ctx : Nat)
  /-- A combiner receives a device or group arrival and forwards once its group is complete (R323). -/
  | collectiveArrival (n : Nat)
  /-- A release passes down the tree and wakes the generation's waiters (R323). -/
  | collectiveRelease (n : Nat)
  /-- GTS reaches a GSYNC deadline; the word returns status 1 and its arrival stays recorded (R323). -/
  | gsyncDeadline (ctx : Nat)
  /-- Sends a ring step once the successor's watermark allows (R328). -/
  | plsendExec (ctx : Nat) (bad : Bool)
  /-- Applies landed bytes in a slot, counts them, flips the counter and advances LAND (R328). -/
  | pacelineLanding (n : Nat)
  /-- A release watermark from the successor updates SWM or is held for a ring not yet open (R327). -/
  | watermarkArrival (n : Nat)
  /-- The receiver signals STOP for a virtual lane whose buffer falls below its watermark (R304). -/
  | vlStop (port : Nat) (vl : Nat)
  /-- The receiver signals GO for a virtual lane whose free space rises again (R304). -/
  | vlGo (port : Nat) (vl : Nat)
  /-- An uncorrectable codeword makes the receiver request a replay (R307). -/
  | codewordReplay (chan : Nat)
  /-- A counting window closes; above THR the wavelength degrades, and a probation window decides rejoin or retrain (R307). -/
  | pceWindowClose (chan : Nat) (count : Nat)
  /-- A control symbol makes the transmitter remove the wavelength from the stripe at a flit boundary (R308). -/
  | wavelengthHandback (chan : Nat)
  /-- Retraining ends and the wavelength enters PROBATION, or is DISABLED after RTMAX failures (R308). -/
  | retrainComplete (chan : Nat)
  /-- After PKT us below PKLO, parks the highest active wavelengths down to MINW (R309). -/
  | parkIdleTimeout (group : Nat)
  /-- An output queue above PKHI wakes every parked wavelength (R309). -/
  | parkWake (group : Nat)
  /-- A woken WARM or COLD wavelength rejoins the stripe at a flit boundary (R309). -/
  | wavelengthRejoin (chan : Nat)
  /-- After every packet on the old path is acknowledged, a lane's path moves to the alternate route or back (R303). -/
  | routeChange (peer : Nat) (lane : Nat) (alt : Bool)
  /-- A fibre takes its new lane-group mode (R331). -/
  | modeChangeComplete (fibre : Nat)
  /-- A write of FXEXP discards the cached export table entries (R310). -/
  | fxexpWrite (x : W64)
  /-- A write of FXSET discards the cached set table entries (R310). -/
  | fxsetWrite (x : W64)
  /-- The coordinator holds matching records from every member and KCFG completes (R355). -/
  | configConfirmed
  /-- A parity member XORs a delta into its staging entry (R360). -/
  | deltaArrival (n : Nat)
  /-- A parity member counts a die's MARK and becomes STAGED when all counted deltas are staged (R360). -/
  | markArrival (n : Nat)
  /-- A data member counts staging acknowledgements and sends PREPARED when complete (R359). -/
  | ackArrival (n : Nat)
  /-- The coordinator records a data member's PREPARED (R363). -/
  | preparedArrival (n : Nat)
  /-- The coordinator records a parity member's STAGED (R363). -/
  | stagedArrival (n : Nat)
  /-- The coordinator writes the commit record and broadcasts COMMIT, or decides ABORT (R363). -/
  | commitDecision
  /-- The coordinator receives a KABRT and aborts, or refuses after the commit decision (R363). -/
  | kabrtRequestArrival (n : Nat)
  /-- A staging overflow report makes the coordinator abort the round (R363). -/
  | overflowArrival (n : Nat)
  /-- A member applies COMMIT: discards its journal or folds staged entries, and sets C (R364). -/
  | commitArrival (n : Nat)
  /-- A member applies ABORT: data members roll back, parity members discard staged entries (R364). -/
  | abortArrival (n : Nat)
  /-- Journalled old granules have been written back and the data member returns to IDLE (R366). -/
  | rollbackComplete (bad : Bool)
  /-- Every 10 us a member sends a BEAT to the coordinator or to live parity members (R365). -/
  | beatSend
  /-- A BEAT is received and answered (R365). -/
  | beatArrival (n : Nat)
  /-- After 100 us of silence the coordinator declares a member lost and broadcasts LOST (R365). -/
  | lostDeclaration (i : Nat)
  /-- A member records a lost member and adjusts its awaited messages or rolls back (R364). -/
  | lostArrival (n : Nat)
  /-- No coordinator for 100 us: FENCE, roll back, or take over as coordinator (R364). -/
  | coordinatorSilence
  /-- A member answers a new coordinator's QUERY with its state (R363). -/
  | queryArrival (n : Nat)
  /-- A weighted 4 KiB block from a survivor is XORed into the spare's region (R367). -/
  | broomStreamBlock (n : Nat)
  /-- When every stream has landed, the spare becomes member l (R367). -/
  | broomComplete
  /-- Rebuilds an uncorrectable protected granule from k peers and completes the faulting access (R368). -/
  | granuleRepair (pa : Nat) (peers : List (List Byte))
  /-- A write of 1 to FCOLL.RAISE asks the coordinator for a collective-fatal fault (R390). -/
  | fcollRaise
  /-- A device forwards a token once and acts on the agreed round, or starts collecting statements (R391). -/
  | abortTokenArrival (n : Nat)
  /-- A device records and forwards a member's statement of its committed round (R391). -/
  | statementArrival (n : Nat)
  /-- The collection window ends; the device adopts the largest C, completes round A, fences and halts (R391). -/
  | statementCollectionExpiry
  /-- A context-fatal fault halts every context and engine work of the fault domain (R379). -/
  | haltLineRaise
  /-- A write of 1 to FHALT.RAISE raises the halt line of DOM with cause 0x05 (R379). -/
  | fhaltRaise (dom : Nat)
  /-- A write of 1 to FHALT.HALTED ends the domain's halted tasks and resumes dispatch (R381). -/
  | fhaltRelease (dom : Nat)
  /-- A write of FLOG sets the log's base and size and resets HEAD and DROP (R394). -/
  | flogWrite (x : W64)
  /-- A write of 1 to FROZEN resumes trace writing and re-arms the trigger (R393). -/
  | trctlFrozenClear (core : Nat)
  /-- Copies a trace entry into the latch that TRDAT0-TRDAT3 return (R393). -/
  | tridxWrite (core : Nat) (x : W64)
  /-- Stops a context, brings its queues to stopping points, fences and writes its save image (R384). -/
  | contextSave (bad : Bool)
  /-- At V + 2,000 cycles, outstanding direct accesses become late accesses of the image (R384). -/
  | lateAccessMark (ctx : Nat)
  /-- A late reply is written into the image entry, and its STATE changes by a strong store (R385). -/
  | lateReplyArrival (n : Nat)
  /-- A late access still awaiting 100 us after sending is set failed with CAUSE 0x02 (R385). -/
  | lateAccessTimeout (tag : Nat)
  /-- Checks and installs an image into a context, re-pushes its commands and takes its pending traps (R389). -/
  | contextRestore (bad : Bool)
  /-- Every 10 us the power controller samples draw and temperature and starts throttling steps (R399). -/
  | powerSample (draw : BitVec 16) (causes : List (Nat × Nat))
  /-- At a window boundary during excess current or slew, raises GAPFLR by one (R399). -/
  | cadenceFloorStep (cluster : Nat) (slew : Bool)
  /-- After a cause has been absent for 1 ms, reverses the throttling steps (R399). -/
  | powerRelief (cluster : Nat) (cause : Nat)
  /-- Every 1 ms measures slack and re-plans voltage margin or clock (R401). -/
  | ageingMonitor (cluster : Nat) (slack : BitVec 16) (band : BitVec 4)
  /-- The controller requests a clock change and the Derailleur withholds dispatch to the cluster (R402). -/
  | clockChangeRequest (cluster : Nat)
  /-- At the next window boundary the cores stop and the cluster clock stops (R402). -/
  | clockChangeQuiesce (cluster : Nat)
  /-- After 1,500 ns the clock restarts at the new rate and held events are delivered in (GTS, source) order (R403). -/
  | clockRestart (cluster : Nat)
  /-- The coding engine starts the next command of a context's qk queue (KCFG, KPROT, KUNPR, KOPEN, KPREP, KCOMT, KABRT, KRBLD, KSCRB) once the previous one has completed (R371). -/
  | codingCommandStart (die : Nat) (corr : Nat) (peers : List (List Byte))
  /-- The coordinator receives a spare's KRBLD request for index l, accepts or refuses it, and replaces entry l in every live member's table (R367). -/
  | rebuildRequestArrival (n : Nat)
  /-- A survivor receives the coordinator's rebuild request and starts streaming its protected regions, weighted, to the spare (R367). -/
  | survivorStreamRequest (n : Nat)
  /-- A new coordinator receives members' answers to its QUERY and decides COMMIT on a reply of COMMITTED, otherwise by the table (R363). -/
  | queryReplyArrival (n : Nat)
  /-- The write-back of a FLUSHL completes when HBM holds the bytes, releasing FENCEs that wait for it (R204). -/
  | flushlWritebackComplete (ctx : Nat)
  deriving DecidableEq, Repr

end Sys2Proof
end

