-- ==== Sys2Proof/Machine/CtxState.lean ====
section
/-!
DEFINITION. Machine/CtxState.lean: the state of a hardware context and of its Hub core: registers, taint, load slots,
tokens, queues, pending results, trap registers, the Tandem checker's held effects (spec files 01 to 07).
-/
namespace Sys2Proof.Machine
open Sys2Proof

/-- Sparse data by key; an unlisted key holds the default its reader names. -/
abbrev Map (α : Type) := List (Nat × α)

/-- The bound states of a context (06 R147). SAVED tasks are no context's. -/
inductive Phase where
  | free | running | waiting | exiting | halted
  deriving DecidableEq, Repr

/-- The words that park a context (06 R147), with the two TLB and QUIESCE waits of 06 R171, R172. -/
inductive ParkKind where
  | waitg | nwait | lcwait | waita | gsync
  deriving DecidableEq, Repr

/-- What a parked word waits for: its deadline, the word it watches and its destination registers. -/
structure Park where
  kind : ParkKind
  dest : Nat
  deadline : Option W64
  addr : Nat
  target : W64
  aux : Nat
  deriving DecidableEq, Repr

/-- A trap waiting to be taken: cause, sub-cause, value, resume address, OVM values, and the cycle t of its raise (06
R166). -/
structure TrapRec where
  cause : BitVec 8
  sub : BitVec 8
  val : W64
  resume : W64
  ovm : Map W64
  cyc : Nat
  deriving DecidableEq, Repr

/-- One register update of a result (06 R151, 02 R46): a value and its taint land together. -/
inductive Upd where
  | sreg (i : Nat) (x : W64) (t : Taint)
  | preg (i : Nat) (x : Bool) (t : Taint)
  | mreg (i : Nat) (x : W64) (t : Taint)
  /-- Lanes of a vector register: the lane mask, the values, and for each quarter its taint (none keeps it) and
  whether its old taint stays in. -/
  | lanes (i : Nat) (mask : W64) (x : VReg) (t : List (Option (Taint × Bool)))
  | flags (f : BitVec 6)
  | staint (i : Nat) (t : Taint)
  | ptaint (i : Nat) (t : Taint)
  | mtaint (i : Nat) (t : Taint)
  | vtaint (i q : Nat) (t : Taint)
  | ctaint (t : Taint)
  | prio (x : BitVec 2)
  | sysreg (n : Nat) (x : W64)
  deriving DecidableEq, Repr

/-- A fixed-latency result on its way (06 R151): the cycle it lands in and the number of the word it comes from. -/
structure Fx where
  due : Nat
  seq : Nat
  upd : Upd
  deriving DecidableEq, Repr

/-- A load slot (02 R45). -/
structure Slot where
  dev : Option Nat
  stamp : Stamp
  gen : BitVec 8
  mark : Bool
  age : Nat
  /-- the number of the load that is to fill it, while that load is pending -/
  pend : Option Nat
  deriving DecidableEq, Repr

/-- The part of a context that the checker's journal restores (06 R174): registers, taint, tokens, slots, clocks. -/
structure Arch where
  phase : Phase
  park : Option Park
  pc : W64
  mode : Bool
  sreg : Map W64
  vreg : Map VReg
  preg : Map Bool
  mreg : Map W64
  sT : Map Taint
  vT : Map Taint
  pT : Map Taint
  mT : Map Taint
  cT : Taint
  tok : BitVec 8
  tokAt : Map Nat
  slots : Map Slot
  slotAge : Nat
  base : Stamp
  fx : List Fx
  hold : Nat
  yldAt : Option Nat
  seq : Nat
  actl : W64
  rseed : W64
  aflags : BitVec 6
  ovm : Map W64
  tsat : BitVec 32
  prio : BitVec 2
  tcause : W64
  tpc : W64
  tval : W64
  tsv0 : W64
  tsv1 : W64
  pend : Option TrapRec
  latch : Option Nat
  lastGts : W64
  qseq : Map Nat
  /-- a FENCE not yet met (02 R58; 07 R197): its mask, and the number of the first access after it -/
  fence : Option (BitVec 6 × Nat)
  /-- the word whose result the context waits for, having no token (07 R190) -/
  block : Option Nat
  deriving DecidableEq, Repr

/-- The free context of device reset: every register at its reset value (06 R147; registers without one hold 0). -/
def Arch.reset : Arch where
  phase := .free
  park := none
  pc := 0
  mode := false
  sreg := []
  vreg := []
  preg := []
  mreg := []
  sT := []
  vT := []
  pT := []
  mT := []
  cT := 0
  tok := 0
  tokAt := []
  slots := []
  slotAge := 0
  base := zeroStamp
  fx := []
  hold := 0
  yldAt := none
  seq := 0
  actl := 0
  rseed := 0
  aflags := 0
  ovm := []
  tsat := 0
  prio := 3
  tcause := 0
  tpc := 0
  tval := 0
  tsv0 := 0
  tsv1 := 0
  pend := none
  latch := none
  lastGts := 0
  qseq := []
  fence := none
  block := none

/-- A result element of a queue (01 R17) with its completion vector (02 R62) and the cycle it was written in. -/
structure Elem where
  q : Nat
  stat : W64
  val : W64
  vec : Stamp
  at_ : Nat
  deriving DecidableEq, Repr

/-- A command of a queue (01 R14, R15, 02 R59): the word, the operand values read at the push, the walk descriptor
and vector operand, what its accesses carry, and how far its execution has come. -/
structure Cmd where
  q : Nat
  seq : Nat
  instr : Instr
  x1 : W64
  x2 : W64
  x3 : W64
  x4 : W64
  x5 : W64
  desc : Quarter
  vec : VReg
  mask : W64
  list : List W64
  taint : Taint
  base : Stamp
  deps : List (Nat × Nat)
  rs : RsKey
  gts : W64
  before : Nat
  started : Bool
  prog : Nat
  fired : Nat
  gateOpen : Bool
  gateF : Nat
  gateP : Bool
  promise : W64
  missed : Bool
  flags : BitVec 6
  stamp : Stamp
  err : Nat
  aux : List Nat
  /-- the 64 KiB virtual pages whose translations the command pins (07 R184) -/
  pins : List Nat
  held : Option Elem
  deriving DecidableEq, Repr

/-- The attention session of a context (13 R334, R336). -/
structure Session where
  phase : Nat
  tq : Nat
  tOut : Nat
  ts : Nat
  scale : W64
  w : Nat
  d : Nat
  m : Nat
  qfmt : Nat
  qp0 : Nat
  last : Map Nat
  deriving DecidableEq, Repr

def Session.reset : Session := ⟨0, 0, 0, 0, 0, 0, 0, 0, 0, 0, []⟩

/-- What a binding gives a context beside its registers (05 R124, R128; 07 R181). -/
structure Bind where
  region : Nat
  nest : Nat
  iter : List Nat
  serial : Nat
  spbase : Nat
  splen : Nat
  supv : Bool
  root : Nat
  deriving DecidableEq, Repr

/-- A hardware context. -/
structure Ctx where
  arch : Arch
  bind : Option Bind
  cmds : List Cmd
  res : List Elem
  qdRsv : Nat
  lastWrite : Stamp
  flushes : List Nat
  unsel : Nat
  gtsFloor : Option W64
  cpctl : BitVec 2
  cpmiss : BitVec 32
  cphold : W64
  sess : Session
  discStat : Nat
  discFail : Bool
  discNote : Bool
  discFirst : Option (Nat × Nat)
  cancelled : Bool
  /-- cut off by a teardown: its commands go no further than their stopping points (05 R139, R140) -/
  cut : Bool
  /-- the cause of the context-fatal fault it raised (05 R133; 15 R378) -/
  fatal : Option Nat
  /-- halted, while its copy engine is still finishing a block: the cause its stop record will carry, and whether the task ends then
  (15 R380, R381) -/
  skid : Option (Nat × Bool)
  /-- a trap that no word raised, waiting to be taken (10 R272, R280; 12 R314) -/
  apend : Option TrapRec
  /-- asynchronous traps waiting behind another (10 R272, R280; 15 R389) -/
  late : List TrapRec
  deriving DecidableEq, Repr

def Ctx.reset : Ctx where
  arch := .reset
  bind := none
  cmds := []
  res := []
  qdRsv := 0
  lastWrite := zeroStamp
  flushes := []
  unsel := 0
  gtsFloor := none
  cpctl := 3
  cpmiss := 0
  cphold := 0
  sess := .reset
  discStat := 0
  discFail := false
  discNote := false
  discFirst := none
  cancelled := false
  cut := false
  fatal := none
  skid := none
  apend := none
  late := []

/-- What an access does at its home. -/
inductive AccKind where
  | rd
  | wr
  /-- AMO: op code, width in bytes, operand (07 R195, 11 R288). -/
  | amo (op w : Nat) (a : W64)
  /-- CAS: width, compare and new value (07 R196). -/
  | cas (w : Nat) (c n : W64)
  /-- CAS2: the two compare words and the two new words. -/
  | cas2 (c0 c1 n0 n1 : W64)
  deriving DecidableEq, Repr

/-- Where the value of a read goes. -/
inductive Dest where
  | none
  | scalar (r w : Nat) (signed : Bool) (t : Taint)
  | pair (r1 r2 w : Nat) (signed : Bool) (t : Taint)
  | lanes (r : Nat) (mask : W64) (w : Nat) (signed : Bool) (t : List (Option (Taint × Bool)))
  /-- NWAIT's first read and re-reads (05 R143). -/
  | nwait (r : Nat) (target : BitVec 32) (deadline : Option W64)
  /-- WAITA's read (11 R296). -/
  | waita (r : Nat) (expected : W64) (w : Nat) (deadline : Option W64)
  deriving DecidableEq, Repr

/-- A memory access that has not yet performed (02 R37, R43): the context and word it is made for, the die it is
stamped on, the bytes it reads or writes, its vector, the loads it must follow, and for a write its sequence number
once it has passed the stamping point (for a host access, the cycle it left in). -/
structure Access where
  id : Nat
  ctx : Nat
  seq : Nat
  eng : Option (Nat × Nat)
  die : Nat
  kind : AccKind
  cells : List (Nat × Byte)
  addrs : List Nat
  vec : Stamp
  deps : List (Nat × Nat)
  wseq : Option W64
  /-- it has left its core: its check point has matched (06 R175) -/
  out : Bool
  strong : Option (BitVec 6)
  host : Bool
  dest : Dest
  token : Option Nat
  slot : Option Nat
  /-- held at the home of a protected granule (14 R358) -/
  deferred : Bool
  /-- the virtual address the word named -/
  va : W64
  /-- the HINT its word carries (03 R77) -/
  hint : BitVec 2
  deriving DecidableEq, Repr

/-- A variable-latency value on its way to its destination (01 R19, 06 R176 point 4). -/
structure Landing where
  ctx : Nat
  seq : Nat
  upds : List Upd
  token : Option Nat
  slot : Option (Nat × Stamp × Option Nat)
  acq : Option Stamp
  deriving DecidableEq, Repr

/-- A value that entered a core from outside and was recorded for re-execution (06 R174). -/
structure Outside where
  ctx : Nat
  seq : Nat
  vals : List W64
  land : Option Landing
  idx : Nat
  deriving DecidableEq, Repr

/-- An effect held until its check point matches (06 R173, R175). -/
inductive Eff where
  /-- a check point without an effect: SYSWR, EXIT -/
  | mark
  /-- a user entry of the trace buffer -/
  | trace
  /-- the check point of a word that would put a thirty-third entry in the journal -/
  | full
  /-- the check point of a trap: it is to be taken, or has been; the trap itself where no word raised it -/
  | trap (t : Option TrapRec)
  | access (ids : List Nat)
  | push (c : Cmd)
  | launch (nest : Nat)
  | remote (id : Nat)
  deriving DecidableEq, Repr

/-- A held effect with the cycle it may leave in and the contexts as they stood after its word (06 R174, R175). -/
structure Held where
  ctx : Nat
  seq : Nat
  pc : W64
  due : Nat
  eff : Eff
  snap : List Arch
  jcount : Nat
  outIdx : Nat
  trIdx : Nat
  deriving DecidableEq, Repr

/-- A page held in a core's translation cache (07 R184): the address space, the virtual page, its size level (0 for
64 KiB, 1 for 64 MiB, 2 for 64 GiB), the physical base, the permissions U, X, W of the walk, and those of its last entry. -/
structure TlbEnt where
  root : Nat
  vpage : Nat
  level : Nat
  base : Nat
  u : Bool
  x : Bool
  w : Bool
  leaf : BitVec 3
  deriving DecidableEq, Repr

/-- A walk that ended in a fault, to be taken by the word that asked (07 R183). -/
structure WalkFault where
  root : Nat
  vpage : Nat
  reason : Nat
  poison : Bool
  deriving DecidableEq, Repr

/-- A trace entry of a word not yet confirmed (15 R392, R393): its number, whether it is written, whether it fires the
trigger, and its four words. -/
structure TraceEnt where
  idx : Nat
  wr : Bool
  trig : Bool
  ws : List W64
  deriving DecidableEq, Repr

/-- The trace buffer and its control (15 R392 to R394). -/
structure Trace where
  head : BitVec 12
  frozen : Bool
  post : BitVec 12
  tcause : BitVec 8
  trig : BitVec 5
  cls : BitVec 5
  en : Bool
  pcaddr : BitVec 37
  idx : BitVec 12
  lat : List W64
  left : Option Nat
  ents : Map (List W64)
  deriving DecidableEq, Repr

def Trace.reset : Trace := ⟨0, false, 0, 0, 0, 0, false, 0, 0, [0, 0, 0, 0], none, []⟩

/-- A Hub core: its shared registers, caches, issue pointers and Tandem checker. -/
structure Core where
  tbase : W64
  rewinds : BitVec 32
  lastj : BitVec 2
  retired : Bool
  rr : Map Nat
  lastIssue : Option Nat
  lines : List Nat
  fetchWait : List Nat
  tlb : List TlbEnt
  walks : List (Nat × Nat)
  wfaults : List WalkFault
  held : List Held
  conf : List Arch
  confIdx : Nat
  jcount : Nat
  outs : List Outside
  outNext : Nat
  replay : List Outside
  misses : List (Nat × W64)
  promoted : Option Nat
  stopUntil : Nat
  landings : List Landing
  trace : Trace
  tpend : List TraceEnt
  tcount : Nat
  deriving DecidableEq, Repr

def Core.reset : Core where
  tbase := 0
  rewinds := 0
  lastj := 0
  retired := false
  rr := []
  lastIssue := none
  lines := []
  fetchWait := []
  tlb := []
  walks := []
  wfaults := []
  held := []
  conf := []
  confIdx := 0
  jcount := 0
  outs := []
  outNext := 0
  replay := []
  misses := []
  promoted := none
  stopUntil := 0
  landings := []
  trace := .reset
  tpend := []
  tcount := 0

end Sys2Proof.Machine
end

