-- ==== Sys2Proof/Machine/CodState.lean ====
section
/-!
DEFINITION. Machine/CodState.lean: the coding engines' shared state: configuration, protected regions, the write round
with its journal or staging entries, and the coordinator's view (spec file 14).
-/
namespace Sys2Proof.Machine
open Sys2Proof

/-- Round states in the codes of KRST.STATE (14 R357, R370). -/
inductive KState where
  | idle | opened | preparing | prepared | rollback | staging | staged | fenced
  deriving DecidableEq, Repr

def kCode : KState → Nat
  | .idle => 0 | .opened => 1 | .preparing => 2 | .prepared => 3 | .rollback => 4 | .staging => 5 | .staged => 6
  | .fenced => 7

/-- A protected region: its 64 KiB physical pages in order (14 R356). -/
structure PRegion where
  pages : List Nat
  deriving DecidableEq, Repr

/-- A staging entry (14 R360): its place in the area, round, region, offset, accumulated bytes. -/
structure Stage where
  slot : Nat
  round : Nat
  region : Nat
  off : Nat
  val : List Byte
  deriving DecidableEq, Repr

/-- The coding engines of the device. -/
structure Cod where
  rec_ : List Byte
  have_ : Bool
  cfg : Bool
  ovr : Bool
  role : Nat
  self : Nat
  k : Nat
  m : Nat
  entries : Map W64
  pelid : Nat
  live : List Nat
  lost : List Nat
  building : List (Nat × Nat)
  coord : Bool
  st : KState
  fenceAfter : Bool
  c : Nat
  deferCnt : BitVec 32
  regions : Map PRegion
  journal : List (Nat × Nat × List Byte)
  stages : List Stage
  waiting : List Packet
  sentN : Map (List Nat)
  acks : List (Nat × Nat)
  marks : List (Nat × Nat × Nat × Nat)
  dgot : List (Nat × Nat × Nat × Nat)
  prep : List (Nat × Nat)
  stag : List (Nat × Nat)
  decided : List (Nat × Nat × Nat)
  aborts : BitVec 16
  repairs : BitVec 16
  scrub : BitVec 16
  confirms : List (Nat × List Byte)
  lastBeat : Map W64
  ownBeat : W64
  beatAns : W64
  rbld : Option (Nat × Nat)
  rbSurv : List Nat
  rbDone : List Nat
  streams : List (Nat × Nat)
  tokens : List (Nat × Nat × W64)
  collect : Option (Nat × W64 × W64 × List (Nat × Nat))
  queryAns : List (Nat × Nat × Nat)
  querying : Bool
  rr : Map Nat
  /-- FENCED while PREPARED, its journal kept (14 R364) -/
  kept : Bool
  /-- FCOLL.RAISE has sent a request no token has answered yet (15 R390) -/
  asked : Bool
  deriving DecidableEq, Repr

def Cod.reset : Cod where
  rec_ := []
  have_ := false
  cfg := false
  ovr := false
  role := 0
  self := 0
  k := 0
  m := 0
  entries := []
  pelid := 0
  live := []
  lost := []
  building := []
  coord := false
  st := .idle
  fenceAfter := false
  c := 0
  deferCnt := 0
  regions := []
  journal := []
  stages := []
  waiting := []
  sentN := []
  acks := []
  marks := []
  dgot := []
  prep := []
  stag := []
  decided := []
  aborts := 0
  repairs := 0
  scrub := 0
  confirms := []
  lastBeat := []
  ownBeat := 0
  beatAns := 0
  rbld := none
  rbSurv := []
  rbDone := []
  streams := []
  tokens := []
  collect := none
  queryAns := []
  querying := false
  rr := []
  kept := false
  asked := false

end Sys2Proof.Machine
end

