-- ==== Sys2Proof/Machine/DerState.lean ====
section
/-!
DEFINITION. Machine/DerState.lean: the Derailleur's state: regions, nests with their records, launch queues, saved
tasks and withheld dispatch (spec file 05, R119 to R140; 06 R172; 15 R388).
-/
namespace Sys2Proof.Machine
open Sys2Proof

/-- Region states (05 R123); free is 0 in the .RGN word, then LIVE, TEARING, TORN. -/
inductive RState where
  | free | live | tearing | torn
  deriving DecidableEq, Repr

/-- A region: its index's generation, state, parent, effective fields, address space and counters (05 R119 to R123). -/
structure Region where
  gen : BitVec 12
  state : RState
  parent : Nat
  cmask : W64
  ctx : Nat
  lqmax : Nat
  fabsh : Nat
  cls : Nat
  domain : Nat
  spb : Nat
  cquota : Nat
  quotaLeft : Nat
  ovbase : W64
  ovsize : Nat
  supv : Bool
  rcb : Nat
  root : Nat
  home : Nat
  nextTicket : Nat
  cnt : Map W64
  done16 : List Nat
  ovHead : Nat
  tdWait : List (Nat × Nat)
  tdCount : Nat
  hostTd : Bool
  deriving DecidableEq, Repr

def Region.none : Region where
  gen := 0
  state := .free
  parent := 0
  cmask := 0
  ctx := 0
  lqmax := 0
  fabsh := 0
  cls := 0
  domain := 0
  spb := 0
  cquota := 0
  quotaLeft := 0
  ovbase := 0
  ovsize := 0
  supv := false
  rcb := 0
  root := 0
  home := 0
  nextTicket := 1
  cnt := []
  done16 := []
  ovHead := 0
  tdWait := []
  tdCount := 0
  hostTd := false

/-- Where a record stands (05 R130). -/
inductive NPlace where
  /-- written by LAUNCH and on its way to the home die: it holds a hardware entry, or this slot of the overflow ring, whose
  place in Global it has (05 R142) -/
  | flying (slot : Option (Nat × Nat))
  /-- written by the host and not yet accepted (01 R34) -/
  | arriving
  | hw
  /-- in the overflow area, at this slot of the ring -/
  | spilled (slot : Nat)
  /-- every iteration dispatched, or torn -/
  | gone
  deriving DecidableEq, Repr

/-- A nest: its record, its place, and what its tasks have done so far (05 R125 to R134). -/
structure Nest where
  region : Nat
  ticket : Nat
  recd : Quarter
  launcher : Option (Nat × Nat)
  ntfy : Bool
  rel : Stamp
  relDeps : List (Nat × Nat)
  /-- the number of the first access after the LAUNCH, or of the first host write after the record: earlier ones are released
  (05 R131) -/
  relId : Nat
  /-- the number of the LAUNCH among its context's words -/
  wseq : Nat
  /-- it has left its core: its check point has matched (06 R175) -/
  left : Bool
  /-- GTS at which it arrives at the home die (01 R33, R34) -/
  arr : W64
  order : Nat
  place : NPlace
  ready : Bool
  depVec : Stamp
  depStat : Nat
  next : Nat
  passed : Nat
  ended : Nat
  errs : Nat
  fail : Bool
  torn : Bool
  note : Bool
  first : Option (Nat × Nat)
  complete : Bool
  stat : Nat
  updated : Bool
  seq : Nat
  /-- accesses of ended tasks that have not performed, and tags of their commands' requests not acknowledged (05 R132) -/
  tasksAcc : List Nat
  tasksTag : List Nat
  deriving DecidableEq, Repr

/-- Why a task was saved (05 R138, 06 R170, R178). -/
inductive SaveWhy where
  | progress | ctxsv | retire
  deriving DecidableEq, Repr

/-- A SAVED task: where its image stands and its slot, the task it is, who asked, the wait it was in with the core and the records
that took its context, whether its counter has been seen at its target; and what the image has no place for: the traps that
wait, its queues' next positions, its qd reservations and what its discarded elements said (05 R138, 15 R384 to R388). -/
structure Saved where
  image : Nat
  slot : Option Nat
  bind : Bind
  why : SaveWhy
  park : Option Park
  core : Nat
  ahead : List Nat
  reached : Bool
  traps : List TrapRec
  qseq : Map Nat
  qdRsv : Nat
  disc : Nat × Bool × Bool
  discFirst : Option (Nat × Nat)
  deriving DecidableEq, Repr

/-- A save in progress or asked for (15 R384): the context, who asked (byProgress, byRetire, or a task by CTXSV), the nest
it makes room for or the SEQ of the CTXSV, the image's address, the time V of its start, and its pool slot. -/
structure SaveReq where
  ctx : Nat
  who : Nat
  n : Nat
  image : W64
  start : W64
  /-- the cycle of V on the context's cluster (00 R4) -/
  cyc : Nat
  slot : Option Nat
  /-- the words the context had issued at V: only a re-execution issues below this number (06 R176) -/
  upto : Nat
  deriving DecidableEq, Repr

/-- A dispatch withheld by QUIESCE: the context, the scope kind and its first core (06 R172). -/
structure Withhold where
  ctx : Nat
  kind : Nat
  serial : Nat
  deriving DecidableEq, Repr

end Sys2Proof.Machine
end

