-- ==== Sys2Proof/Machine/EngState.lean ====
section
/-!
DEFINITION. Machine/EngState.lean: the state of the engines a cluster or die holds: the matrix engine's planes, rows
and registers (spec file 09).
-/
namespace Sys2Proof.Machine
open Sys2Proof

/-- A weight plane (09 R236): tag, cells by K × 256 + N (default 0), E8M0 scales by block × 256 + N (default 127),
codebook, loaded depth in units of 32. -/
structure Plane where
  tag : Nat
  cells : Map Nat
  scales : Map Nat
  book : Map Nat
  depth : Nat
  deriving DecidableEq, Repr

def Plane.empty : Plane := ⟨0, [], [], [], 0⟩

/-- A row injected into the array and not yet landed (09 R242, R248, R257). -/
structure MxRow where
  ctx : Nat
  seq : Nat
  m : Nat
  tile : Nat
  row : Nat
  fmt : Nat
  kb : Nat
  ovw : Bool
  sat : Bool
  sa : Bool
  sw : Bool
  mx : Bool
  acts : List Nat
  scales : List Nat
  plane : Plane
  inj : Nat
  /-- the fill latency at its command's start -/
  lf : Nat
  replays : Nat
  deriving DecidableEq, Repr

/-- A command of a matrix queue whose element is not yet written: an MMUL that has started (09 R242, R243), or a later command
that has completed, with the element that waits for those before it. -/
structure MxRun where
  ctx : Nat
  seq : Nat
  rows : Nat
  landed : Nat
  last : Nat
  doneAt : Nat
  ret : Bool
  forced : Bool
  flags : BitVec 6
  replays : Nat
  sums : List (Nat × Byte)
  /-- the row that failed its last check (09 R257) -/
  fail : Option Nat
  lf : Nat
  /-- it has completed: its row sums are written and its locks released -/
  comp : Bool
  elem : Option Elem
  /-- the taint its command carries until it retires (02 R45) -/
  taint : Taint
  deriving DecidableEq, Repr

/-- One core's half of the matrix engine (09 R236 to R243). -/
structure MxCore where
  active : Plane
  shadow : Plane
  ready : Bool
  rows : List MxRow
  runs : List MxRun
  free : Nat
  /-- owned cycles still to pass before the next row is injected, where no cycle is owned (09 R240) -/
  wait : Nat
  /-- the MSWAP that has been chosen and waits for its boundary: context and SEQ (09 R247) -/
  swap : Option (Nat × Nat)
  rr : Nat
  plain : Map Nat
  used : List Nat
  deriving DecidableEq, Repr

/-- A line of the last-level cache (03 R77; 07 R204): whether it holds bytes HBM does not, and its retention, a HINT code. -/
structure LlcLine where
  dirty : Bool
  keep : BitVec 2
  deriving DecidableEq, Repr

def MxCore.reset : MxCore := ⟨.empty, .empty, false, [], [], 0, 0, none, 511, [], []⟩

/-- An event for a context of a cluster whose clock is stopped (16 R403): a wake, a missed promise, a trap or the raise
of a halt line. -/
inductive HeldEv where
  | waitgWake | nwaitRecheck | nwaitDeadline | lcwaitRecheck | lcwaitDeadline | waitaResume | waitaDeadline
  | gsyncRelease (entry gen : Nat) (bad : Bool)
  | gsyncDeadline
  | gsyncAbort
  | missed (seq : Nat)
  | trap (cause sub : Nat) (val : W64)
  | halt (dom cause : Nat) (val : W64)
  deriving DecidableEq, Repr

/-- A cluster: its clock (clkReq: the rate asked for, and 0 requested, 1 the cores stopping), the array's registers with the writes still pending, the power registers (09 R239 to R242;
16 R400, R402), and its two cores' halves of the array. -/
structure Cluster where
  ccy : W64
  stopped : Bool
  frac : Nat
  mode : BitVec 2
  modeNext : Option (BitVec 2)
  gap : BitVec 4
  gapNext : Option (BitVec 4)
  bandok : BitVec 4
  spused : BitVec 4
  bands : BitVec 4
  bandsNext : Option (BitVec 4)
  origin : BitVec 8
  stepC : BitVec 8
  replays : BitVec 32
  maxRetry : BitVec 4
  maxChain : BitVec 8
  mx0 : MxCore
  mx1 : MxCore
  att : Nat
  rrCopy : Nat
  thrNow : BitVec 5
  thrSticky : BitVec 5
  cappct : BitVec 8
  lowered : Nat
  aged : Nat
  thrAt : Map W64
  curPct : BitVec 8
  vmarg : BitVec 16
  gapflr : BitVec 4
  replans : BitVec 8
  slack : BitVec 16
  band : BitVec 4
  clkReq : Option (Nat × Nat)
  clkStop : Option W64
  clkLast : Option W64
  heldEv : List (W64 × Nat × HeldEv)
  deriving DecidableEq, Repr

/-- A cluster at device reset (09 R239 to R242, 16 R400); BANDOK and SPUSED are set at test (log entry 6). -/
def Cluster.reset : Cluster where
  ccy := 0
  stopped := false
  frac := 0
  mode := 1
  modeNext := none
  gap := 0
  gapNext := none
  bandok := 0xF
  spused := 0
  bands := 0xF
  bandsNext := none
  origin := 0
  stepC := 1
  replays := 0
  maxRetry := 3
  maxChain := 0x10
  mx0 := .reset
  mx1 := .reset
  att := 0
  rrCopy := 511
  thrNow := 0
  thrSticky := 0
  cappct := 0x64
  lowered := 0
  aged := 0
  thrAt := []
  curPct := 0x64
  vmarg := 0x32
  gapflr := 0
  replans := 0
  slack := 0
  band := 0
  clkReq := none
  clkStop := none
  clkLast := none
  heldEv := []

/-- A die's Commons: the size in force, requested, and being taken, in units of 8 MiB, a repartition in progress, LOSTDIRTY, the count
of spurious wakes, the next arrival number of each bank, and the context whose command its units served last (11 R285,
R286, R291, R297, R300). -/
structure Commons where
  cur : BitVec 8
  size : BitVec 8
  target : BitVec 8
  busy : Bool
  lost : Bool
  spurious : BitVec 32
  arrivals : Map (BitVec 16)
  rr : Nat
  deriving DecidableEq, Repr

def Commons.reset : Commons := ⟨2, 2, 2, false, false, 0, [], 511⟩

/-- Scratchpad granules an executing command has locked, or a waiting one asks for (02 R63): the core, the command, the 64-byte granules of the
whole scratchpad store, and whether the command writes them. -/
structure Lock where
  core : Nat
  ctx : Nat
  q : Nat
  seq : Nat
  grans : List Nat
  write : Bool
  deriving DecidableEq, Repr

/-- A watch that has woken (11 R299): the value carried, its stamp, the number of the write among those whose watches still wait,
and the cycle its context is ready in. -/
structure Woke where
  val : W64
  vec : Stamp
  write : Nat
  due : Nat
  deriving DecidableEq, Repr

/-- A bank watch (11 R297). -/
structure Watch where
  die : Nat
  bank : Nat
  ctx : Nat
  addr : Nat
  w : Nat
  expected : W64
  arrival : BitVec 16
  coarse : Bool
  deadline : Option W64
  woke : Option Woke
  deriving DecidableEq, Repr

end Sys2Proof.Machine
end

