-- ==== Sys2Proof/Machine/FabState.lean ====
section
/-!
DEFINITION. Machine/FabState.lean: the fabric port's state: registers, wavelengths and lane groups, direct accesses,
packets on their way in and out, barriers, reductions and Paceline rings (spec file 12).
-/
namespace Sys2Proof.Machine
open Sys2Proof

/-- One direction of a wavelength or electrical lane (12 R307 to R309, R332): state code, retrains since reset, PCE of the
last window, uncorrectable codewords, width changes, failed attempts in a row, and whether a parked one has been woken. -/
structure Wave where
  st : Nat
  retr : Nat
  pce : Nat
  werr : BitVec 32
  wchg : BitVec 16
  att : Nat
  woken : Bool
  /-- the GTS at which its present counting window opened -/
  win : W64
  deriving DecidableEq, Repr

def Wave.reset : Wave := ⟨0, 0, 0, 0, 0, 0, false, 0⟩

/-- One direction of a lane group (12 R304 to R306, R309, R332): parking allowed, STOP signals sent, width changes; of the
transmit side the link sequence number of the next flit, the beat of the stream it starts on, the last flit marked as sent at
an old width, and the last GTS at which its output queue held PKLO flits or more. -/
structure LaneGroup where
  park : Bool
  stops : BitVec 16
  chg : BitVec 32
  seq : Nat
  beat : Nat
  mark : Option Nat
  busy : W64
  deriving DecidableEq, Repr

def LaneGroup.reset : LaneGroup := ⟨true, 0, 0, 0, 0, none, 0⟩

/-- A packet that has left the device (12 R305, R306): the output port, the link sequence number of its first flit, the beat
of the stream that flit starts on, and the active wavelengths it was striped over. -/
structure Sent where
  pkt : Packet
  port : Nat
  seq : Nat
  beat : Nat
  act : List Nat
  deriving DecidableEq, Repr

/-- Where a direct access stands: held in the port behind queued commands, outstanding, or failed and held. -/
inductive DirSt where
  | port | sent | failed (cause : Nat)
  deriving DecidableEq, Repr

/-- A direct remote access of a context (12 R313 to R318; 15 R385 once it is late): its number among the context's
accesses, the instruction number of 15 R387 (1 RLD, 2 RST, 3 RAMO, 4 ROP), its SEQ, its request (the words after the
vector, and the bytes), and where its result goes. -/
structure Direct where
  id : Nat
  ctx : Nat
  seq : Nat
  xf : Nat
  op : Nat
  peer : Nat
  lane : Nat
  tag : Nat
  strong : Bool
  vec : Stamp
  kind : PKind
  args : List W64
  data : List Byte
  st : DirSt
  sent : W64
  /-- the cycle of sending, on the context's cluster (00 R4) -/
  cyc : Nat
  dest : Dest
  token : Option Nat
  slot : Option Nat
  deps : List (Nat × Nat)
  late : Option Nat
  deriving DecidableEq, Repr

/-- Packets of a queued command whose acknowledgement is awaited: the tag, the command (context, queue, SEQ, and the number of
the first access made after its push), the peer and the lane, and the cycle of sending on the context's cluster (12 R313, R319;
00 R4). -/
structure Await where
  tag : Nat
  ctx : Nat
  q : Nat
  seq : Nat
  before : Nat
  peer : Nat
  lane : Nat
  sent : Nat
  deriving DecidableEq, Repr

/-- A barrier entry at this device (12 R323, R324): the current generation; the arrivals of tasks (serial, generation,
whether its GSYNC has returned at a deadline); the device's next generation to send; what it holds as combiner of a group
and as root combiner (sender, generation, SETID or mismatch); the releases owed to tasks whose GSYNC runs again. -/
structure Barrier where
  gen : Nat
  arr : List (Nat × Nat × Bool)
  sent : Nat
  devs : List (Nat × Nat × Nat)
  groups : List (Nat × Nat × Bool)
  owed : List (Nat × Nat × Nat)
  deriving DecidableEq, Repr

def Barrier.none : Barrier := ⟨0, [], 0, [], [], []⟩

/-- A reduction at an entry (12 R325): its number at this device, the ranks' values (rank, serial, shape, words), whether
they have been sent, and what the device holds as combiner of a group and as root (sender, number, words); while its own value
awaits the combiner's acknowledgement, the packet's tag, the context whose cluster counts the time, and the cycle of sending. -/
structure Reduce where
  gen : Nat
  ranks : List (Nat × Nat × Nat × List W64)
  sent : Bool
  devs : List (Nat × Nat × List W64)
  groups : List (Nat × Nat × List W64)
  await : Option (Nat × Nat × Nat)
  deriving DecidableEq, Repr

def Reduce.none : Reduce := ⟨0, [], false, [], [], .none⟩

/-- A Paceline ring (12 R326 to R330): owner task, the OPEN fields, LAND, WM, SWM, the last step sent, the bytes of the
landing in progress, and the cut-through read that holds a watermark. -/
structure Ring where
  owner : Nat
  ctx : Nat
  key : W64
  succ : Nat
  pred : Nat
  ns : Nat
  lane : Nat
  slot : Nat
  blk : Nat
  lcb : Nat
  land : Nat
  wm : Nat
  swm : Option Nat
  last : Option Nat
  got : Nat
  wmSent : Nat
  reading : Option Nat
  deriving DecidableEq, Repr

/-- The fabric port. The route table is held as the rows the management firmware installs, in the port's own form
(log entry 11): the peers routed; for each group the global channel towards it; for each group with an alternate route its
intermediate group; and the peers and lanes now on it. Packets at the outputs wait in outbox and stand in wire once they have
left; served counts, for each output and region, the flits served while packets of several regions waited for it; rr is the
context of the last command chosen. -/
structure Fab where
  ngrp : Nat
  maxdev : Nat
  fxexp : W64
  fxset : W64
  expCache : Option (List (List W64))
  setCache : Option (List (List W64))
  thr : BitVec 16
  win : Nat
  rtmax : Nat
  pkhi : BitVec 8
  pklo : BitVec 8
  pkt : BitVec 8
  minw : Nat
  pkcold : Bool
  routed : List Nat
  gates : List Gate
  alts : List (Nat × Nat)
  onAlt : List (Nat × Nat)
  modes : Map Nat
  modeReq : List (Nat × Nat)
  rx : Map Wave
  tx : Map Wave
  lgs : Map LaneGroup
  stopped : List (Nat × Nat)
  outbox : List Packet
  wire : List Sent
  served : List (Nat × Nat × Nat)
  rr : Nat
  inbox : List Packet
  mcbuf : List (Nat × Packet × List Nat)
  dirs : List Direct
  awaits : List Await
  nextTag : Nat
  bars : Map Barrier
  reds : Map Reduce
  redRes : List (Nat × Nat × Nat × List W64)
  rings : Map Ring
  wmHeld : List (W64 × Nat × Nat)
  deriving DecidableEq, Repr

/-- The fabric port at device reset (12 R305, R310, R327). -/
def Fab.reset : Fab where
  ngrp := 0
  maxdev := 0
  fxexp := 0
  fxset := 0
  expCache := none
  setCache := none
  thr := 0x07D0
  win := 0x18
  rtmax := 3
  pkhi := 0x20
  pklo := 4
  pkt := 0
  minw := 1
  pkcold := false
  routed := []
  gates := []
  alts := []
  onAlt := []
  modes := []
  modeReq := []
  rx := []
  tx := []
  lgs := []
  stopped := []
  outbox := []
  wire := []
  served := []
  rr := 511
  inbox := []
  mcbuf := []
  dirs := []
  awaits := []
  nextTag := 0
  bars := []
  reds := []
  redRes := []
  rings := []
  wmHeld := []

end Sys2Proof.Machine
end

