-- ==== Sys2Proof/Machine/MgtState.lean ====
section
/-!
DEFINITION. Machine/MgtState.lean: bring-up, mailbox, interrupts, power and the fault log's and save pool's registers
(spec files 15 and 16).
-/
namespace Sys2Proof.Machine
open Sys2Proof

/-- The management and power controllers and the device's fault registers. -/
structure Mgt where
  stage : Nat
  failed : Bool
  setdev : Bool
  routed : Bool
  timed : Bool
  timeRoot : Option Nat
  mbStat : W64
  mbRes : List W64
  mbWait : Option (Nat × Nat × Nat)
  slots : Map Nat
  pending : BitVec 16
  irqs : List Nat
  digest0 : List Byte
  digest2 : List Byte
  ver0 : Nat
  ver2 : Nat
  fuse0 : Nat
  fuse2 : Nat
  idSeed : List Byte
  atSeed : List Byte
  cap : BitVec 16
  draw : BitVec 16
  flogBase : Nat
  flogSize : Nat
  flogHead : W64
  flogDrop : W64
  svBase : Nat
  svSlots : Nat
  svUsed : List Nat
  haltDom : Nat
  halted : List Nat
  collEn : Bool
  collDom : Nat
  tokens : BitVec 16
  hostRd : List Byte
  deriving DecidableEq, Repr

/-- Device reset (16 R398; 15 R394; 16 R400): bring-up at stage 0. The fused counters are the part's own (log entry 12). -/
def Mgt.reset : Mgt where
  stage := 0
  failed := false
  setdev := false
  routed := false
  timed := false
  timeRoot := none
  mbStat := 0
  mbRes := []
  mbWait := none
  slots := []
  pending := 0
  irqs := []
  digest0 := []
  digest2 := []
  ver0 := 0
  ver2 := 0
  fuse0 := 0
  fuse2 := 0
  idSeed := []
  atSeed := []
  cap := 0x0E10
  draw := 0
  flogBase := 0
  flogSize := 0
  flogHead := 0
  flogDrop := 0
  svBase := 0
  svSlots := 0
  svUsed := []
  haltDom := 0
  halted := []
  collEn := false
  collDom := 0
  tokens := 0
  hostRd := []

end Sys2Proof.Machine
end

