-- ==== Sys2Proof/Machine/State.lean ====
section
/-!
DEFINITION. Machine/State.lean: the machine's state, its faults and refusals, and the state after device reset.
-/
namespace Sys2Proof.Machine
open Sys2Proof

/-- Who moves next: a Hub core's issue slot, or an event of another agent. -/
inductive Activity where
  | issue (core : Nat)
  | event (i : Instr)
  deriving DecidableEq, Repr

/-- Reasons a step stops with a fault. -/
inductive Fault where
  /-- An agenda entry names a unit the package does not have, or a word as an event. Raised by step alone, on a state no
  run from a well-formed agenda reaches. Safe: nothing is claimed of such a step. -/
  | illFormedActivity
  deriving DecidableEq, Repr

/-- Reasons a step is refused. -/
inductive Refusal where
  /-- The instruction has no meaning in this model yet. Raised by exec's refused arms alone. Safe. -/
  | notModelled (mnemonic : String)
  deriving DecidableEq, Repr

/-- The whole machine: one LX64 package. -/
structure State where
  agenda : List Activity
  cur : Nat
  gts : W64
  gtsstat : W64
  gtsFrac : Nat
  devno : Nat
  mem : List Host.Cell
  memStamp : Map Stamp
  poison : List Nat
  poisonTab : List Nat
  scratch : Map Byte
  tiles : Map (BitVec 32)
  ctxs : Map Ctx
  cores : Map Core
  clusters : Map Cluster
  accs : List Access
  nextId : Nat
  wseq : Map W64
  llc : Map LlcLine
  hbm : Map Byte
  commons : Map Commons
  watches : List Watch
  locks : List Lock
  asks : List Lock
  walker : Map W64
  regions : Map Region
  nests : Map Nest
  nextNest : Nat
  accepts : Nat
  serial : Nat
  saved : List Saved
  withheld : List Withhold
  freeCnt : Nat
  fatals : List (Nat × Nat × W64 × W64)
  saveReqs : List SaveReq
  restoreReqs : List (Nat × Nat × Nat × W64)
  qdOwed : List (Nat × Nat × Nat × Nat × W64)
  fab : Fab
  cod : Cod
  mgt : Mgt
  deriving DecidableEq, Repr

/-- The device right after reset: every field at the value the spec gives, or at the one its log entry names. Nothing is
placed in memory and nothing is scheduled. -/
def State.reset : State where
  agenda := []
  cur := 0
  gts := 0
  gtsstat := 0
  gtsFrac := 0
  devno := 0
  mem := []
  memStamp := []
  poison := []
  poisonTab := []
  scratch := []
  tiles := []
  ctxs := []
  cores := []
  clusters := []
  accs := []
  nextId := 0
  wseq := []
  llc := []
  hbm := []
  commons := []
  watches := []
  locks := []
  asks := []
  walker := []
  regions := []
  nests := []
  nextNest := 0
  accepts := 0
  serial := 0
  saved := []
  withheld := []
  freeCnt := 0
  fatals := []
  saveReqs := []
  restoreReqs := []
  qdOwed := []
  fab := .reset
  cod := .reset
  mgt := .reset

end Sys2Proof.Machine
end

