-- ==== Sys2Proof/Machine/Map.lean ====
section
/-!
DEFINITION. Machine/Map.lean: sparse data by key, and memory as a canonical list of cells: reading and writing bytes
and little-endian words (spec file 00, R3; 02, R38).
-/
namespace Sys2Proof.Machine
open Sys2Proof

/-- The value at a key, or the default d. -/
def mapGet {α : Type} (d : α) : Map α → Nat → α
  | [], _ => d
  | (j, x) :: t, k => if j = k then x else mapGet d t k

/-- The value at a key, if one is listed. -/
def mapFind {α : Type} : Map α → Nat → Option α
  | [], _ => none
  | (j, x) :: t, k => if j = k then some x else mapFind t k

/-- Put a value at a key, keys kept in rising order. -/
def mapSet {α : Type} : Map α → Nat → α → Map α
  | [], k, v => [(k, v)]
  | (j, x) :: t, k, v =>
    if k < j then (k, v) :: (j, x) :: t
    else if j = k then (k, v) :: t
    else (j, x) :: mapSet t k v

/-- Drop a key. -/
def mapDel {α : Type} (m : Map α) (k : Nat) : Map α := m.filter (fun p => p.1 != k)

/-- A byte of memory; a byte nothing has written reads 0 (Commons: 11 R283; HBM: log entry 2). -/
def memGet (m : List Host.Cell) (a : Nat) : Byte := mapGet 0 m a

/-- Write a byte, keeping addresses rising and listing no byte that equals what an unlisted address reads as. -/
def memSet (m : List Host.Cell) (a : Nat) (b : Byte) : List Host.Cell :=
  if b = 0 then mapDel m a else mapSet m a b

/-- The canonical form: addresses strictly rising, no listed zero. -/
def memWf : List Host.Cell → Bool
  | [] => true
  | (_, x) :: [] => x != 0
  | (j, x) :: (k, y) :: t => x != 0 && decide (j < k) && memWf ((k, y) :: t)

/-- Several bytes written in order. -/
def memPut : List Host.Cell → List (Nat × Byte) → List Host.Cell
  | m, [] => m
  | m, (a, b) :: t => memPut (memSet m a b) t

/-- n bytes from an address, lowest first. -/
def memRead (m : List Host.Cell) (a : Nat) : Nat → List Byte
  | 0 => []
  | n + 1 => memGet m a :: memRead m (a + 1) n

/-- The number a little-endian byte list stands for. -/
def leNat : List Byte → Nat
  | [] => 0
  | b :: t => b.toNat + 256 * leNat t

/-- The n low bytes of a number, lowest first. -/
def leBytes : Nat → Nat → List Byte
  | 0, _ => []
  | n + 1, x => BitVec.ofNat 8 x :: leBytes n (x / 256)

/-- Bytes with their addresses, from a base upward. -/
def cellsAt (a : Nat) : List Byte → List (Nat × Byte)
  | [] => []
  | b :: t => (a, b) :: cellsAt (a + 1) t

/-- The little-endian number held by n bytes of memory. -/
def memNat (m : List Host.Cell) (a n : Nat) : Nat := leNat (memRead m a n)

/-- Write an n-byte little-endian number. -/
def memPutNat (m : List Host.Cell) (a n x : Nat) : List Host.Cell := memPut m (cellsAt a (leBytes n x))

/-- Bits hi down to lo of a number. -/
def bitsOf (x hi lo : Nat) : Nat := x / 2 ^ lo % 2 ^ (hi + 1 - lo)

/-- A number with width bits from lo on replaced. -/
def putField (old lo width v : Nat) : Nat := old - old / 2 ^ lo % 2 ^ width * 2 ^ lo + v % 2 ^ width * 2 ^ lo

/-- Put an element before the first it does not follow. -/
def sortIn {α : Type} (le : α → α → Bool) (x : α) : List α → List α
  | [] => [x]
  | y :: t => if le x y then x :: y :: t else y :: sortIn le x t

/-- A list in rising order; equal elements keep theirs. -/
def sortBy {α : Type} (le : α → α → Bool) : List α → List α
  | [] => []
  | x :: t => sortIn le x (sortBy le t)

/-- Numbers in rising order. -/
def sortNat (l : List Nat) : List Nat := sortBy (fun a b => decide (a ≤ b)) l

/-- The first n natural numbers, rising. -/
def upTo (n : Nat) : List Nat := List.range n

end Sys2Proof.Machine
end

