-- ==== Sys2Proof/Machine/Ops.lean ====
section
/-!
DEFINITION. Machine/Ops.lean: the named operations on contexts, cores and clusters: registers and taint, pending
results, load slots, held effects, the shared path of every instruction word, taking a trap and returning from one
(spec files 01 R19 to R20, 02 R45 to R52, 03 R74 to R84, 06 R148 to R177).
-/
namespace Sys2Proof.Machine
open Sys2Proof

/-! Units (01 R8). -/

def coreOf (c : Nat) : Nat := c / 4
def clusterOf (c : Nat) : Nat := c / 8
def dieOf (c : Nat) : Nat := c / 128

def getCtx (s : State) (c : Nat) : Ctx := mapGet .reset s.ctxs c
def updCtx (s : State) (c : Nat) (f : Ctx → Ctx) : State := { s with ctxs := mapSet s.ctxs c (f (getCtx s c)) }
def getArch (s : State) (c : Nat) : Arch := (getCtx s c).arch
def updArch (s : State) (c : Nat) (f : Arch → Arch) : State := updCtx s c fun x => { x with arch := f x.arch }
def getCore (s : State) (k : Nat) : Core := mapGet .reset s.cores k
def updCore (s : State) (k : Nat) (f : Core → Core) : State := { s with cores := mapSet s.cores k (f (getCore s k)) }
def getCluster (s : State) (k : Nat) : Cluster := mapGet .reset s.clusters k
def updCluster (s : State) (k : Nat) (f : Cluster → Cluster) : State :=
  { s with clusters := mapSet s.clusters k (f (getCluster s k)) }

/-- The cycle counter of a context's cluster (01 R28). -/
def ccyOf (s : State) (c : Nat) : Nat := (getCluster s (clusterOf c)).ccy.toNat

/-! Registers (03 R71). p0 reads true and discards writes (03 R74, 06 R153). -/

def rdS (a : Arch) (i : Nat) : W64 := mapGet 0 a.sreg i
def rdP (a : Arch) (i : Nat) : Bool := if i = 0 then true else mapGet false a.preg i
def rdM (a : Arch) (i : Nat) : W64 := mapGet 0 a.mreg i
def rdV (a : Arch) (i : Nat) : VReg := mapGet 0 a.vreg i
/-- Lane i of a vector value. -/
def lane (v : VReg) (i : Nat) : BitVec 32 := v.extractLsb' (32 * i) 32
/-- Quarter q of a vector value. -/
def quarterOf (v : VReg) (q : Nat) : Quarter := v.extractLsb' (512 * q) 512
/-- A vector value from its lanes, lane 0 first. -/
def ofLanes (f : Nat → Nat) : Nat → Nat
  | 0 => 0
  | n + 1 => ofLanes f n + f n % 2 ^ 32 * 2 ^ (32 * n)
def vecOf (f : Nat → Nat) : VReg := BitVec.ofNat 2048 (ofLanes f 64)

/-- A scalar operand's value: a register, or a sign-extended immediate (06 R153). -/
def valOf (a : Arch) : Operand → W64
  | .s i => rdS a i.toNat
  | .imm x => x.signExtend 64
  | .long x => x.signExtend 64
  | .p i => if rdP a i.toNat then 1 else 0
  | .m i => rdM a i.toNat
  | _ => 0
/-- The register number of an operand. -/
def idxOf : Operand → Nat
  | .s i => i.toNat
  | .p i => i.toNat
  | .m i => i.toNat
  | .v i => i.toNat
  | .vq i _ => i.toNat
  | .tile i => i.toNat
  | .queue _ n => n.toNat
  | _ => 0
/-- The quarter an operand names. -/
def qOf : Operand → Nat
  | .vq _ q => q.toNat
  | _ => 0

/-! Taint (02 R46). p0 and immediates carry the empty set. -/

def vTaint (a : Arch) (i q : Nat) : Taint := mapGet 0 a.vT (4 * i + q)
def vTaintAll (a : Arch) (i : Nat) : Taint := vTaint a i 0 ||| vTaint a i 1 ||| vTaint a i 2 ||| vTaint a i 3
def taintOf (a : Arch) : Operand → Taint
  | .s i => mapGet 0 a.sT i.toNat
  | .p i => if i = 0 then 0 else mapGet 0 a.pT i.toNat
  | .m i => mapGet 0 a.mT i.toNat
  | .v i => vTaintAll a i.toNat
  | .vq i q => vTaint a i.toNat q.toNat
  | .ctl => a.cT
  | _ => 0

/-- One guard field: the predicate named, inverted by its top bit (03 R74). -/
def guardBit (a : Arch) (g : BitVec 5) : Bool := (rdP a (g.toNat % 16)) != g.getLsbD 4
def guardVal (a : Arch) (f : Fields) : Bool :=
  if f.gc = 0 then guardBit a f.ga && guardBit a f.gb else guardBit a f.ga || guardBit a f.gb
def guardTaint (a : Arch) (f : Fields) : Taint :=
  taintOf a (.p (f.ga.truncate 4)) ||| taintOf a (.p (f.gb.truncate 4))
/-- Union of the operands' taints and the guards': what a register result carries (02 R46). -/
def srcTaint (a : Arch) (f : Fields) (l : List Operand) : Taint :=
  l.foldl (fun t o => t ||| taintOf a o) (guardTaint a f)

/-! Results (06 R151). -/

/-- Replace some lanes of a vector. -/
def mergeLanes (old new : VReg) (mask : W64) : VReg :=
  vecOf fun i => if mask.getLsbD i then (lane new i).toNat else (lane old i).toNat

/-- The taint of the quarters after a lane update; a quarter without an entry keeps its own. -/
def setVT (m : Map Taint) (i : Nat) : Nat → List (Option (Taint × Bool)) → Map Taint
  | _, [] => m
  | q, none :: t => setVT m i (q + 1) t
  | q, some (x, keep) :: t =>
    setVT (mapSet m (4 * i + q) (if keep then x ||| mapGet 0 m (4 * i + q) else x)) i (q + 1) t

/-- Land one update in a context (02 R46, 06 R151). -/
def applyUpd (a : Arch) : Upd → Arch
  | .sreg i x t => { a with sreg := mapSet a.sreg i x, sT := mapSet a.sT i t }
  | .preg i x t => if i = 0 then a else { a with preg := mapSet a.preg i x, pT := mapSet a.pT i t }
  | .mreg i x t => { a with mreg := mapSet a.mreg i x, mT := mapSet a.mT i t }
  | .lanes i mask x t => { a with vreg := mapSet a.vreg i (mergeLanes (rdV a i) x mask), vT := setVT a.vT i 0 t }
  | .flags f => { a with aflags := a.aflags ||| f }
  | .staint i t => { a with sT := mapSet a.sT i t }
  | .ptaint i t => if i = 0 then a else { a with pT := mapSet a.pT i t }
  | .mtaint i t => { a with mT := mapSet a.mT i t }
  | .vtaint i q t => { a with vT := mapSet a.vT (4 * i + q) t }
  | .ctaint t => { a with cT := t }
  | .prio x => { a with prio := x }
  | .sysreg _ _ => a

def applyUpds (a : Arch) (l : List Upd) : Arch := l.foldl applyUpd a

/-- Put a result among the pending ones: after every one that lands no later (06 R151). -/
def fxInsert (x : Fx) : List Fx → List Fx
  | [] => [x]
  | y :: t => if x.due < y.due then x :: y :: t else y :: fxInsert x t

/-- Issue results that land lat cycles from now, from the word the context is issuing. -/
def addFx (s : State) (c lat : Nat) (us : List Upd) : State :=
  let due := ccyOf s c + lat
  updArch s c fun a => { a with fx := us.foldl (fun l u => fxInsert ⟨due, a.seq, u⟩ l) a.fx }

/-! Load slots and stamps (02 R45 to R52). -/

def slotOf (a : Arch) (j : Nat) : Slot := mapGet ⟨none, zeroStamp, 0, false, 0, none⟩ a.slots j

def orMap (m : Map Taint) : Taint := m.foldl (fun t p => t ||| p.2) 0

def updTaint : Upd → Taint
  | .sreg _ _ t | .preg _ _ t | .mreg _ _ t | .staint _ t | .ptaint _ t | .mtaint _ t | .vtaint _ _ t | .ctaint t => t
  | .lanes _ _ _ l => l.foldl (fun t o => match o with | some (x, _) => t ||| x | none => t) 0
  | _ => 0

/-- The taint a read's value is to bring with it. -/
def destTaint : Dest → Taint
  | .scalar _ _ _ t | .pair _ _ _ _ t => t
  | .lanes _ _ _ _ l => l.foldl (fun t o => match o with | some (x, _) => t ||| x | none => t) 0
  | _ => 0

/-- A core's half of the matrix engine. -/
def mxHalf (s : State) (core : Nat) : MxCore := if core % 2 = 0 then (getCluster s (core / 2)).mx0 else (getCluster s (core / 2)).mx1

/-- The matrix commands of a context that have started and not retired. -/
def mxRunsOf (s : State) (c : Nat) : List MxRun :=
  (mxHalf s (coreOf c)).runs.filter fun r => r.ctx == c

/-- Every slot bit the context still holds: in a taint set, in a result on its way, or in a pushed command. -/
def heldTaint (x : Ctx) : Taint :=
  let a := x.arch
  orMap a.sT ||| orMap a.pT ||| orMap a.mT ||| orMap a.vT ||| a.cT |||
  a.fx.foldl (fun t f => t ||| updTaint f.upd) 0 ||| x.cmds.foldl (fun t k => t ||| k.taint) 0

/-- The commands of a context held for the checker. -/
def heldCmds (s : State) (c : Nat) : List Cmd :=
  (getCore s (coreOf c)).held.filterMap fun h => match h.eff with
    | .push k => if h.ctx = c then some k else none
    | _ => none

/-- A slot is live while its bit is held anywhere, or a load is pending on it (02 R45). -/
def slotLive (s : State) (c j : Nat) : Bool :=
  let x := getCtx s c
  (heldTaint x).getLsbD j || (slotOf x.arch j).pend.isSome || (heldCmds s c).any (fun k => k.taint.getLsbD j)
    || (getCore s (coreOf c)).landings.any (fun l => l.ctx == c && l.upds.any (fun u => (updTaint u).getLsbD j))
    || s.accs.any (fun x => x.ctx == c && (x.slot == some j || (destTaint x.dest).getLsbD j))
    || s.fab.dirs.any (fun x => x.ctx == c && (destTaint x.dest).getLsbD j)
    || (mxRunsOf s c).any (fun r => r.taint.getLsbD j)

def clrBit (t : Taint) (j : Nat) : Taint := t &&& ~~~(1#16 <<< j)
def clrMap (m : Map Taint) (j : Nat) : Map Taint := m.map fun p => (p.1, clrBit p.2 j)
def clrUpd (j : Nat) : Upd → Upd
  | .sreg i x t => .sreg i x (clrBit t j)
  | .preg i x t => .preg i x (clrBit t j)
  | .mreg i x t => .mreg i x (clrBit t j)
  | .staint i t => .staint i (clrBit t j)
  | .ptaint i t => .ptaint i (clrBit t j)
  | .mtaint i t => .mtaint i (clrBit t j)
  | .vtaint i q t => .vtaint i q (clrBit t j)
  | .ctaint t => .ctaint (clrBit t j)
  | .lanes i m x l => .lanes i m x (l.map fun o => o.map fun p => (clrBit p.1 j, p.2))
  | u => u

def clrDest (j : Nat) : Dest → Dest
  | .scalar r w g t => .scalar r w g (clrBit t j)
  | .pair r1 r2 w g t => .pair r1 r2 w g (clrBit t j)
  | .lanes r m w g l => .lanes r m w g (l.map fun o => o.map fun p => (clrBit p.1 j, p.2))
  | d => d

/-- A half of the array with a slot's bit cleared in a context's started commands. -/
def clrRuns (c j : Nat) (m : MxCore) : MxCore :=
  { m with runs := m.runs.map fun r => if r.ctx = c then { r with taint := clrBit r.taint j } else r }

/-- Fold slot j: its stamp enters B when it is local, and its bit leaves every set the context holds, those carried by its
unretired commands and by the reads still to come among them (02 R52). -/
def foldSlot (s : State) (c j : Nat) : State :=
  let s1 := updCtx s c fun x =>
    let a := x.arch
    let sl := slotOf a j
    { x with
      cmds := x.cmds.map fun k => { k with taint := clrBit k.taint j }
      arch := { a with
        base := if sl.dev.isNone then stampMax a.base sl.stamp else a.base
        sT := clrMap a.sT j, pT := clrMap a.pT j, mT := clrMap a.mT j, vT := clrMap a.vT j, cT := clrBit a.cT j
        fx := a.fx.map fun f => { f with upd := clrUpd j f.upd }
        slots := mapSet a.slots j { sl with mark := false }
        tsat := a.tsat + 1 } }
  let s2 := updCluster s1 (clusterOf c) fun x => { x with mx0 := clrRuns c j x.mx0, mx1 := clrRuns c j x.mx1 }
  let s3 := { s2 with
    accs := s2.accs.map fun x => if x.ctx = c then { x with dest := clrDest j x.dest } else x
    fab := { s2.fab with dirs := s2.fab.dirs.map fun x => if x.ctx = c then { x with dest := clrDest j x.dest } else x } }
  updCore s3 (coreOf c) fun k => { k with
    landings := k.landings.map fun l => if l.ctx = c then { l with upds := l.upds.map (clrUpd j) } else l
    held := k.held.map fun h => match h.eff with
      | .push q => if h.ctx = c then { h with eff := .push { q with taint := clrBit q.taint j } } else h
      | _ => h }

/-- Stamps of the local slots named in a taint set whose loads have performed, joined to a vector. -/
def stampsOf (a : Arch) (t : Taint) : Stamp :=
  (upTo 16).foldl (fun v j =>
    let sl := slotOf a j
    if t.getLsbD j && sl.pend.isNone && sl.dev.isNone then stampMax v sl.stamp else v) zeroStamp

/-- The pending loads of the slots named in a taint set. -/
def depsOf (a : Arch) (c : Nat) (t : Taint) : List (Nat × Nat) :=
  (upTo 16).filterMap fun j => if t.getLsbD j then (slotOf a j).pend.map (fun q => (c, q)) else none

/-- The live slots, oldest first. -/
def liveByAge (s : State) (c : Nat) : List Nat :=
  let a := getArch s c
  let l := (upTo 16).filter (slotLive s c)
  sortBy (fun i j => decide ((slotOf a i).age ≤ (slotOf a j).age)) l

/-- The stamps of every live local slot (02 R51). -/
def liveStamps (s : State) (c : Nat) : Stamp :=
  stampsOf (getArch s c) ((upTo 16).foldl (fun (v : Taint) j => if slotLive s c j then v ||| (1#16 <<< j) else v) 0)

/-- B takes them. -/
def baseLive (s : State) (c : Nat) : State :=
  let v := liveStamps s c
  updArch s c fun a => { a with base := stampMax a.base v }

/-! Frontiers (02 R42). -/

/-- APPLIED of a die: one less than the least sequence number of a write that has left a core and is not yet applied,
or the last number given when there is none. -/
def applied (s : State) (d : Nat) : W64 :=
  (s.accs.filterMap fun x => if x.die = d && !x.host && x.kind != .rd then x.wseq else none).foldl
    (fun m n => if n.toNat ≤ m.toNat then n - 1 else m) (mapGet 0 s.wseq d)
/-- The four frontiers. -/
def appliedAll (s : State) : Stamp := ⟨applied s 0, applied s 1, applied s 2, applied s 3⟩

/-- A write on die d takes the next sequence number (02 R42): the new state, the number and the write's stamp. -/
def takeWseq (s : State) (d : Nat) (v : Stamp) : State × W64 × Stamp :=
  let n := mapGet 0 s.wseq d + 1
  ({ s with wseq := mapSet s.wseq d n }, n, stampSet v d (maxW (stampEntry v d) n))

/-! Trace (15 R392, R393). -/

/-- Write an entry at HEAD unless the buffer is off or frozen, and follow the trigger. -/
def traceWrite (t : Trace) (e : TraceEnt) : Trace :=
  if !t.en || t.frozen then t
  else
    let t1 := if e.wr then { t with ents := mapSet t.ents t.head.toNat e.ws, head := t.head + 1 } else t
    match t.left with
    | none => if e.trig then (if t.post = 0 then { t1 with frozen := true } else { t1 with left := some t.post.toNat }) else t1
    | some n => if !e.wr then t1 else if n ≤ 1 then { t1 with left := none, frozen := true } else { t1 with left := some (n - 1) }

/-- Words 0 and 1 of an entry (15 R392). -/
def traceWords (s : State) (kind c : Nat) (pc a b : W64) : List W64 :=
  [s.gts, BitVec.ofNat 64 (kind * 2 ^ 60 + c % 4 * 2 ^ 58 + pc.toNat % 2 ^ 41), a, b]

/-- An entry for an event of the core itself, written at once. -/
def traceNow (s : State) (c kind cls : Nat) (trigBit : Option Nat) (match_ : Bool) (a b : W64) : State :=
  updCore s (coreOf c) fun k =>
    let wr := cls = 5 || k.trace.cls.getLsbD cls
    let tr := match trigBit with | some t => k.trace.trig.getLsbD t && match_ | none => false
    { k with trace := traceWrite k.trace ⟨0, wr, tr, traceWords s kind c (getArch s c).pc a b⟩ }

/-- Confirm the entries numbered below n, in order. -/
def traceConfirm (k : Core) (n : Nat) : Core :=
  let l := k.tpend.filter fun e => decide (e.idx < n)
  { k with trace := l.foldl traceWrite k.trace, tpend := k.tpend.filter fun e => !decide (e.idx < n) }

/-- The address operands and the data operand a memory word names, with its trace kind. -/
def traceMem (opc : Nat) (f : Fields) : Option (Nat × Operand × Operand × Operand) :=
  if [0x080, 0x084, 0x086, 0x200].contains opc then some (6, f.o2, f.o3, .none)
  else if opc = 0x082 then some (6, f.o3, f.o4, .none)
  else if opc = 0x091 then some (6, f.o2, f.o3, .none)
  else if [0x081, 0x083, 0x085, 0x087, 0x090, 0x201].contains opc then some (7, f.o1, f.o2, f.o3)
  else if [0x088, 0x089, 0x08A, 0x202].contains opc then some (8, f.o2, f.o3, f.o4)
  else none

/-- The events a word makes, as (class, kind, A, B), from the context before it and after it (15 R392). -/
def traceEvents (opc : Nat) (f : Fields) (a b : Arch) (npc : Option W64) (guard : Bool) : List (Nat × Nat × W64 × W64) :=
  let g : W64 := if guard then 1 else 0
  let br := if [0x030, 0x031, 0x034].contains opc then
      [(0, if npc.isSome then 0 else 1, npc.getD (a.pc + 16), g)]
    else if opc = 0x032 && guard then [(0, 2, npc.getD 0, a.pc + 16)]
    else if opc = 0x033 && guard then [(0, 3, npc.getD 0, npc.getD 0)]
    else if opc = 0x041 && guard then [(4, 12, a.tcause &&& 0xFF, a.tpc)] else []
  let wr := (b.fx.filter fun x => x.seq == a.seq).filterMap fun x => match x.upd with
    | .preg i v _ => some (1, 4, BitVec.ofNat 64 i, (if v then 1 else 0 : W64))
    | .mreg i v _ => some (1, 5, BitVec.ofNat 64 i, v)
    | _ => none
  let mem := match traceMem opc f with
    | some (k, x, y, d) => if guard then [(2, k, valOf a x + valOf a y,
        if k = 6 then BitVec.ofNat 64 (match f.mod.toNat / 2 ^ 8 % 4 with | 0 => 8 | n => 2 ^ (n - 1)) else valOf a d)] else []
    | none => []
  let push := (upTo 7).filterMap fun q =>
    if mapGet 0 a.qseq q = mapGet 0 b.qseq q then none
    else some (3, 9, BitVec.ofNat 64 q, BitVec.ofNat 64 (mapGet 0 a.qseq q % 2 ^ 16))
  let pop := if opc = 0x038 && guard then
      ((b.fx.filter fun x => x.seq == a.seq).filterMap fun x => match x.upd with
        | .sreg i v _ => if i = idxOf f.o1 then some (3, 10, BitVec.ofNat 64 (idxOf f.o3), v) else none
        | .lanes _ _ v _ => some (3, 10, BitVec.ofNat 64 (idxOf f.o3), BitVec.ofNat 64 (v.toNat / 2 ^ (512 * qOf f.o1)))
        | _ => none).take 1
    else []
  let user := if opc = 0x04C && guard then [(5, 13, valOf a f.o1, valOf a f.o2)] else []
  br ++ wr ++ mem ++ push ++ pop ++ user

/-- Record a word's trace entries, to be written when it is confirmed. -/
def traceWord (opc : Nat) (f : Fields) (s0 s : State) (c : Nat) (npc : Option W64) (guard : Bool) : State :=
  let k := coreOf c
  let t := (getCore s k).trace
  if !t.en then s
  else
    let a := getArch s0 c
    let evs := (traceEvents opc f a (getArch s c) npc guard).filter fun e => e.1 == 5 || t.cls.getLsbD e.1
    let hit := (t.trig.getLsbD 2 && a.pc == t.pcaddr.zeroExtend 64 <<< 4)
      || (t.trig.getLsbD 0 && opc == 0x04C && guard && f.mod.getLsbD 0)
    let add (x : Core) (wr trig : Bool) (ws : List W64) : Core :=
      { x with tpend := x.tpend ++ [⟨x.tcount, wr, trig, ws⟩], tcount := x.tcount + 1 }
    updCore s k fun x =>
      if evs.isEmpty then (if hit then add x false true [] else x)
      else (evs.zip (upTo evs.length)).foldl (fun x e =>
        add x true (hit && e.2 == 0) (traceWords s0 e.1.2.1 c a.pc e.1.2.2.1 e.1.2.2.2)) x

/-! Traps (06 R165, R166). -/

/-- A context-fatal fault: the context halts and the fault is reported to its domain's halt line (15 R378, R379). -/
def contextFatal (s : State) (c cause : Nat) (val : W64) : State :=
  let s1 := updCtx s c fun x => { x with apend := none, late := [], fatal := x.fatal.or (some cause), arch := { x.arch with phase := .halted, pend := none, park := none } }
  { s1 with fatals := s1.fatals ++ [(c, cause, s.gts, val)] }

/-- TBASE.ADDR × 16. -/
def handlerAddr (s : State) (c : Nat) : W64 := (getCore s (coreOf c)).tbase

/-- Take a trap now: save the pc and the value, set TCAUSE, enter supervisor mode at the handler (06 R166); a trap
inside a trap, or with no handler, is context-fatal with cause 0x01. -/
def takeTrap (s : State) (c : Nat) (t : TrapRec) : State :=
  let a := getArch s c
  if a.tcause.getLsbD 63 || handlerAddr s c == 0 then contextFatal s c 1 t.val
  else
    updArch s c fun a => { a with
      tpc := t.resume
      tval := t.val
      tcause := (1#64 <<< 63) ||| (if a.mode then 1#64 <<< 62 else 0) ||| (t.sub.zeroExtend 64 <<< 8) ||| t.cause.zeroExtend 64
      ovm := if t.cause = 0x0B then t.ovm else a.ovm
      mode := true
      pc := handlerAddr s c
      phase := .running
      park := none
      pend := none
      hold := max (t.cyc + 8) (ccyOf s c + 1) }

/-- The four contexts of a core as they stand. -/
def snapOf (s : State) (k : Nat) : List Arch := (upTo 4).map fun j => getArch s (4 * k + j)

/-- Make the present state of a core's contexts the confirmed one (06 R174). -/
def confirmNow (s : State) (k : Nat) : State :=
  let sn := snapOf s k
  updCore s k fun x => { traceConfirm x x.tcount with conf := sn, confIdx := x.outNext, jcount := 0, outs := [], misses := [] }

/-- A context whose registers an agent outside its core has set (binding, restore, save, halt): the confirmed and the
held snapshots take its present state, so that no rewind undoes it. -/
def outsideArch (s : State) (c : Nat) : State :=
  let a := getArch s c
  let sn := snapOf s (coreOf c)
  let put (l : List Arch) : List Arch := if l.length = 4 then l.set (c % 4) a else l
  updCore s (coreOf c) fun x => { x with conf := if x.conf.length = 4 then put x.conf else sn, held := x.held.map fun h => { h with snap := put h.snap } }

/-- The check point of a trap is still to be matched. -/
def trapMarked (s : State) (c : Nat) : Bool :=
  (getCore s (coreOf c)).held.any fun h => h.ctx == c && (match h.eff with | .trap _ => true | _ => false)

/-- A trap can be taken: its cycle has come, every fixed-latency result has landed and the checker has matched every earlier word
(06 R166; 08 R211). -/
def trapReady (s : State) (c : Nat) (t : TrapRec) : Bool :=
  decide (t.cyc ≤ ccyOf s c) && (getArch s c).fx.isEmpty && !trapMarked s c

/-- Hold a trap's check point (06 R173): the core's contexts as they stand go with it. -/
def markTrap (s : State) (c due : Nat) (pc : W64) (t : Option TrapRec) : State :=
  let sn := snapOf s (coreOf c)
  updCore s (coreOf c) fun x => { x with held := x.held ++ [⟨c, (getArch s c).seq, pc, due, .trap t, sn, x.jcount, x.outNext, x.tcount⟩] }
/-- A trap that must wait for earlier words takes its place behind their effects (06 R166). -/
def queueTrap (s : State) (c : Nat) (t : TrapRec) : State :=
  if (getCore s (coreOf c)).held.isEmpty then s else markTrap s c (t.cyc + 4) t.resume none

/-- A re-execution is still to take values that were recorded for words of the context (06 R176). -/
def reExecuting (s : State) (c : Nat) : Bool := (getCore s (coreOf c)).replay.any fun o => o.ctx == c

/-- From the quiesce point of a clock change to the restart no trap, stop or wake is delivered and no word issues (16 R402,
R403). -/
def frozen (cl : Cluster) : Bool := cl.stopped || (match cl.clkReq with | some (_, 1) => true | _ => false)
def frozenAt (s : State) (c : Nat) : Bool := frozen (getCluster s (clusterOf c))

/-- A trap waits to be taken by a context: one a word has raised, or one that came from elsewhere. -/
def trapWaits (s : State) (c : Nat) : Bool := (getArch s c).pend.isSome || (getCtx s c).apend.isSome

/-- The trap a context takes next: its word's own, or one from elsewhere, which resumes at the word not yet issued or at the
waiting word (06 R165). -/
def nextTrap (s : State) (c : Nat) : Option TrapRec :=
  match (getArch s c).pend with
  | some t => some t
  | none => (getCtx s c).apend.map fun t => { t with resume := (getArch s c).pc }

/-- The read of a waiting word. -/
def waitRead (x : Access) : Bool :=
  match x.dest with
  | .nwait .. | .waita .. => true
  | _ => false

/-- A waiting word of a context is left, to run again from its start: its read and its watch end. -/
def endWaits (s : State) (c : Nat) : State :=
  let mine (x : Access) : Bool := x.ctx == c && waitRead x
  let s1 := { s with
    accs := s.accs.filter fun x => !mine x
    watches := s.watches.filter fun w => w.ctx != c }
  if s.accs.any mine then updArch s1 c fun a => { a with block := none } else s1

/-- A save of the context's task has started (15 R384). -/
def saving (s : State) (c : Nat) : Bool := s.saveReqs.any fun q => q.ctx == c

/-- Take the trap that waits in a context if it can be taken now; trap entry is a check point (06 R173). A trap that comes from
elsewhere during a save is recorded in the image (15 R384). -/
def tryTrap (s : State) (c : Nat) : State :=
  match nextTrap s c with
  | none => s
  | some t =>
    if trapReady s c t && !frozenAt s c && ((getArch s c).pend.isSome || !saving s c) then
      let own := (getArch s c).pend.isSome
      let s0 := updCtx (takeTrap (endWaits s c) c t) c fun x => if own then { x with apend := none, late := x.apend.toList ++ x.late } else { x with apend := none }
      let s1 := if (getArch s0 c).phase == .halted then outsideArch s0 c else markTrap s0 c (ccyOf s c + 4) t.resume (if own then none else some t)
      traceNow s1 c 11 4 (some 1) ((getCore s (coreOf c)).trace.tcause == 0 || (getCore s (coreOf c)).trace.tcause == t.cause)
        (t.cause.zeroExtend 64) t.val
    else s

/-- Raise a word's trap: it waits in the context until it can be taken. A trap already waiting stays first. -/
def raiseTrap (s : State) (c : Nat) (t : TrapRec) : State :=
  if (getArch s c).pend.isSome then s else tryTrap (queueTrap (updArch s c fun a => { a with pend := some t }) c t) c

/-- An event for a context of a stopped cluster is held until the clock restarts (16 R403). -/
def heldStop (s : State) (c : Nat) (i : HeldEv) (f : State → State) : State :=
  let cl := getCluster s (clusterOf c)
  if frozen cl then
    if cl.heldEv.any (fun e => e.2 == (c, i)) then s
    else updCluster s (clusterOf c) fun x => { x with heldEv := x.heldEv ++ [(s.gts, c, i)] }
  else f s

/-- A trap not raised by a word (10 R272, R280; 12 R314): it resumes at the word not yet issued, or at the waiting word;
behind a trap already waiting it waits its turn. -/
def asyncTrap (s : State) (c cause sub : Nat) (val : W64) : State :=
  let t : TrapRec := ⟨BitVec.ofNat 8 cause, BitVec.ofNat 8 sub, val, (getArch s c).pc, [], ccyOf s c⟩
  heldStop s c (.trap cause sub val) fun s =>
    if trapWaits s c || reExecuting s c then updCtx s c fun x => { x with late := x.late ++ [t] }
    else tryTrap (queueTrap (updCtx s c fun x => { x with apend := some t }) c t) c

/-- Deliver the next waiting asynchronous trap once no trap is being handled. -/
def nextLate (s : State) (c : Nat) : State :=
  match (getCtx s c).late with
  | t :: rest =>
    if trapWaits s c || (getArch s c).tcause.getLsbD 63 || reExecuting s c then s
    else
      let u := { t with cyc := ccyOf s c }
      tryTrap (queueTrap (updCtx s c fun x => { x with late := rest, apend := some u }) c u) c
  | [] => s

/-- Return from a trap (06 R167): the saved pc and mode come back, IN clears, and TVAL's resume count enters the
resume latch (07 R201). -/
def trapReturn (s : State) (c : Nat) : State :=
  updArch s c fun a => { a with
    pc := a.tpc
    mode := a.tcause.getLsbD 62
    tcause := a.tcause &&& ~~~(1#64 <<< 63)
    latch := if a.tval.getLsbD 63 then some (bitsOf a.tval.toNat 62 56) else none
    hold := ccyOf s c + 2 }

/-! The shared path of every instruction word. -/

/-- Why a word does not take its effect now: it stalls and changes nothing; it waits for the walk of a page; it waits
having registered something on the way; it traps after the part of its effect already in the state; or it traps. -/
inductive Stop where
  | stall
  | walk (va : Nat)
  | wait (s : State)
  | partTrap (s : State) (cause : Nat) (val : W64)
  | trap (cause sub : Nat) (val : W64) (next : Bool := false) (ovm : Map W64 := []) (lat : Nat := 0)

/-- A word's effect: the state, the next pc where it is not the following word, the hold, and whether the context
keeps issuing from a pc the effect has set itself. -/
structure Done where
  st : State
  npc : Option W64 := none
  hold : Nat := 1
  latch : Option Nat := none
  /-- registers written at once, beside the results on their way -/
  entries : Nat := 0

abbrev Body := Except Stop Done

def ok (s : State) : Body := .ok { st := s }
def okHold (s : State) (n : Nat) : Body := .ok { st := s, hold := n }
def trapW (cause : Nat) (val : W64) : Except Stop α := .error (.trap cause 0 val)
def stallW : Except Stop α := .error .stall

/-- A token is pending, or cleared only in this cycle (01 R19). -/
def tokBusy (a : Arch) (now t : Nat) : Bool := a.tok.getLsbD t || decide (now < mapGet 0 a.tokAt t)
/-- The tokens a word waits for: those of AWAIT, and its own SETW token (01 R19). -/
def tokensWait (s : State) (c : Nat) (f : Fields) : Bool :=
  let a := getArch s c
  let now := ccyOf s c
  (upTo 8).any (fun t => f.await.getLsbD t && tokBusy a now t) ||
  (f.setw.getLsbD 3 && a.tok.getLsbD (f.setw.toNat % 8))
def setwTok (f : Fields) : Option Nat := if f.setw.getLsbD 3 then some (f.setw.toNat % 8) else none

/-- The journal entries an update takes: one for each register written (06 R174). -/
def updEntries : Upd → Nat
  | .preg i _ _ | .ptaint i _ => if i = 0 then 0 else 1
  | .sreg .. | .mreg .. | .lanes .. | .staint .. | .mtaint .. | .vtaint .. => 1
  | _ => 0

/-- The journal entries a read's value takes. -/
def destEntries : Dest → Nat
  | .none => 0
  | .pair .. => 2
  | _ => 1

/-- The journal entries of the word a context is issuing: one for each register it writes, at once or later (06 R174). -/
def journalled (s0 s1 : State) (c : Nat) : Nat :=
  let n := (getArch s0 c).seq
  let sum (l : List Nat) : Nat := l.foldl (· + ·) 0
  sum (((getArch s1 c).fx.filter fun x => x.seq == n).map fun x => updEntries x.upd)
    + sum (((getCore s1 (coreOf c)).landings.filter fun l => l.ctx == c && l.seq == n).map fun l => sum (l.upds.map updEntries))
    + sum ((s1.accs.filter fun x => x.ctx == c && x.seq == n && x.eng.isNone).map fun x => destEntries x.dest)
    + sum ((s1.fab.dirs.filter fun x => x.ctx == c && x.seq == n).map fun x => destEntries x.dest)

/-- Fill the snapshots of the effects a word has just had held; a word that would put a thirty-third entry in the
journal becomes a check point of its own (06 R173, R174). -/
def sealHeld (s0 s : State) (c : Nat) (more : Nat := 0) : State :=
  let k := coreOf c
  let co := getCore s k
  let n := journalled s0 s c + more
  let full := n != 0 && decide (32 < co.jcount + n) && !(co.held.any fun h => h.snap.isEmpty)
  let extra : List Held :=
    if full then [⟨c, (getArch s0 c).seq, (getArch s0 c).pc, ccyOf s c + 4, .full, [], 0, 0, 0⟩] else []
  let sn := snapOf s k
  let jc := co.jcount + n
  updCore s k fun x => { x with
    jcount := jc
    held := (x.held ++ extra).map fun h => if h.snap.isEmpty then { h with snap := sn, jcount := jc, outIdx := x.outNext, trIdx := x.tcount } else h }

/-- Leave the issue slot: the pc moves on, the word is counted, and its hold and YLD are set (06 R148, R149). -/
def advance (s : State) (c : Nat) (f : Fields) (npc : Option W64) (hold : Nat) (latch : Option Nat := none) : State :=
  let now := ccyOf s c
  let s1 := updCtx s c fun x => { x with
    unsel := 0
    arch := { x.arch with
      pc := match npc with
        | some p => p
        | none => x.arch.pc + 16
      seq := x.arch.seq + 1
      hold := max x.arch.hold (now + hold)
      yldAt := if f.yld = 1 then some now else none
      latch := latch } }
  updCore s1 (coreOf c) fun k => { k with lastIssue := some now }

/-- The table root of a context's address space (07 R181). -/
def ctxRoot (s : State) (c : Nat) : Nat :=
  match (getCtx s c).bind with
  | some b => b.root
  | none => 0

/-- Forget the walk faults recorded for a context's address space: the word that asked is taking its fault. -/
def dropWalkFaults (s : State) (c : Nat) : State :=
  updCore s (coreOf c) fun k => { k with wfaults := k.wfaults.filter (fun w => w.root != ctxRoot s c) }

/-- Ask for the walk of a page; the word waits for TRANSLATION_WALK_COMPLETE (07 R188). -/
def askWalk (s : State) (c va : Nat) : State :=
  updCore s (coreOf c) fun k =>
    let q := (ctxRoot s c, va / 0x10000)
    if k.walks.contains q then k else { k with walks := k.walks ++ [q] }

/-- The trap a word takes, at its own address or at the next word's, lat cycles after its issue. It has issued, which clears the
resume latch (07 R201). -/
def wordTrap (s : State) (c : Nat) (cause sub : Nat) (val : W64) (next : Bool) (ovm : Map W64) (lat : Nat) : State :=
  let pc := (getArch s c).pc
  let s0 := if cause = 0x03 ∨ cause = 0x0F then dropWalkFaults s c else s
  let s1 := updArch s0 c fun a => { a with seq := a.seq + 1, latch := none }
  raiseTrap (updCore s1 (coreOf c) fun k => { k with lastIssue := some (ccyOf s c) }) c
    ⟨BitVec.ofNat 8 cause, BitVec.ofNat 8 sub, val, if next then pc + 16 else pc, ovm, ccyOf s c + lat⟩

/-- What a branch adds to the control taint beside its guards' taint: that of its target register, or of its count register,
whatever its guard (02 R48; 06 R152). -/
def branchTaint (opc : Nat) (a : Arch) (f : Fields) : Taint :=
  if opc = 0x032 then taintOf a f.o2 else if opc = 0x030 then 0 else taintOf a f.o1

/-- The hold of a word whose guard is false: 1, but for the words R190 of 07 names. -/
def guardFalse (opc : Nat) (s : State) (c : Nat) (f : Fields) (branch : Bool) (hold : Nat) : State :=
  let s1 := if branch then updArch s c fun a => { a with cT := a.cT ||| guardTaint a f ||| branchTaint opc a f } else s
  sealHeld s (traceWord opc f s (advance s1 c f none hold) c none false) c

/-- A waiting word that has parked its context, or gone on at once, has used its issue slot (06 R149); one that only registered
something has not. -/
def waitIssued (s s1 : State) (c : Nat) : State :=
  let a := getArch s c
  let b := getArch s1 c
  if b.phase != a.phase || b.pc != a.pc || b.block != a.block then
    updCore (updCtx s1 c fun x => { x with unsel := 0, arch := { x.arch with latch := none } }) (coreOf c) fun k => { k with lastIssue := some (ccyOf s c) }
  else s1

/-- One instruction word issued by the current context (06 R148; 03 R74, R75, R83, R84): nothing happens unless the
context is RUNNING with no trap waiting; a pending token stalls it; a privileged word traps in task mode whatever its
guard; a false guard lets it pass; otherwise its body gives the effect, the stall or the trap. A word that traps leaves nothing of its
body behind, its count in RSCOUNT included: whether a .RS word that takes the overflow trap counts is not stated (04 R102; DESIGN
CHOICE, log entry 41). -/
def runWord (opc : Nat) (priv branch : Bool) (fhold : Nat) (f : Fields) (s : State) (body : State → Nat → Body) : State :=
  let c := s.cur
  let a := getArch s c
  if a.phase != .running || trapWaits s c || tokensWait s c f then s
  else if priv && !a.mode then wordTrap s c 0x02 0 (BitVec.ofNat 64 opc) false [] 0
  else if guardVal a f = false then guardFalse opc s c f branch fhold
  else
    match body s c with
    | .ok d => sealHeld s (traceWord opc f s (advance d.st c f d.npc d.hold d.latch) c d.npc true) c d.entries
    | .error .stall => s
    | .error (.walk va) => askWalk s c va
    | .error (.wait s1) => waitIssued s s1 c
    | .error (.partTrap s1 cause val) => sealHeld s (wordTrap s1 c cause 0 val false [] 0) c
    | .error (.trap cause sub val next ovm lat) => wordTrap s c cause sub val next ovm lat

/-- An externally visible effect: what occupies the effect buffer (06 R173, R175). -/
def isEff : Eff → Bool
  | .mark | .full | .trap _ => false
  | _ => true

/-- Hold an effect at its issue point until its check point matches; with eight effects held the word stalls (06 R175). A check
point that makes no effect needs no room. -/
def holdEff (s : State) (c : Nat) (e : Eff) : Except Stop State :=
  let k := getCore s (coreOf c)
  if isEff e && decide (8 ≤ (k.held.filter fun h => isEff h.eff).length) then .error .stall
  else
    let a := getArch s c
    .ok (updCore s (coreOf c) fun k => { k with held := k.held ++ [⟨c, a.seq, a.pc, ccyOf s c + 4, e, [], 0, 0, 0⟩] })

/-- A value from outside the core for the word being issued: a re-executed word takes the one recorded for it, any
other takes the present one, which is recorded (06 R174, R176 point 4). -/
def outsideVal (s : State) (c : Nat) (vals : List W64) : State × List W64 :=
  let k := coreOf c
  let n := (getArch s c).seq
  match (getCore s k).replay.find? (fun o => o.ctx == c && o.seq == n && o.land.isNone) with
  | some o => (updCore s k fun x => { x with replay := x.replay.erase o, outs := x.outs ++ [{ o with idx := x.outNext }], outNext := x.outNext + 1 }, o.vals)
  | none => (updCore s k fun x => { x with outs := x.outs ++ [⟨c, n, vals, none, x.outNext⟩], outNext := x.outNext + 1 }, vals)

/-- A value recorded for this word is waiting to be taken again. -/
def replaying (s : State) (c : Nat) : Bool :=
  (getCore s (coreOf c)).replay.any fun o => o.ctx == c && o.seq == (getArch s c).seq

/-- A fresh free value (Config.freeValue at the counter, which advances). -/
def takeFree (s : State) : State × W64 := ({ s with freeCnt := s.freeCnt + 1 }, Config.freeValue s.freeCnt)

/-- Write a scalar result that lands lat cycles after issue. -/
def putS (s : State) (c lat : Nat) (o : Operand) (x : W64) (t : Taint) : State := addFx s c lat [.sreg (idxOf o) x t]
def putP (s : State) (c lat : Nat) (o : Operand) (x : Bool) (t : Taint) : State := addFx s c lat [.preg (idxOf o) x t]
def putM (s : State) (c lat : Nat) (o : Operand) (x : W64) (t : Taint) : State := addFx s c lat [.mreg (idxOf o) x t]

/-- What stochastic rounding captures at issue (04 R102): RSEED with RSCOUNT, or with the GTS of the issue, which a
re-execution takes from the journal. -/
def rsCap (s : State) (c : Nat) : State × RsKey :=
  let a := getArch s c
  if a.actl.getLsbD 1 then (s, ⟨a.rseed, a.actl >>> 32, 0⟩)
  else
    let (s1, l) := outsideVal s c [s.gts]
    (s1, ⟨a.rseed, l.getD 0 0, c⟩)

/-- A word carrying .RS issues: RSCOUNT rises by one, modulo 2^32 (04 R102). -/
def bumpRs (s : State) (c : Nat) : State :=
  updArch s c fun a => { a with actl := (((a.actl >>> 32) + 1) <<< 32) ||| (a.actl &&& 0xFFFFFFFF) }

/-- The key of a word's stochastic rounding, with RSCOUNT counted when the word carries .RS (rounding code 100). -/
def rsFor (s : State) (c code : Nat) : State × RsKey :=
  if code = 4 then
    let (s1, k) := rsCap s c
    (bumpRs s1 c, k)
  else (s, ⟨0, 0, 0⟩)

end Sys2Proof.Machine
end

