-- ==== Sys2Proof/Machine/Operands.lean ====
section
/-!
DEFINITION. Machine/Operands.lean: the MOD sub-fields of an instruction word and the operand forms the scalar units
share (spec file 03, R79 to R81; 06, R153).
-/
namespace Sys2Proof.Machine
open Sys2Proof

/-- MOD bits hi..lo, numbered as bits of the word: MOD[90:80] (03 R69). -/
def modBits (f : Fields) (hi lo : Nat) : Nat := bitsOf f.mod.toNat (hi - 80) (lo - 80)
def modBit (f : Fields) (b : Nat) : Bool := f.mod.getLsbD (b - 80)
/-- The type code in MOD[90:85] (03 R81, 06 R153). -/
def modTy (f : Fields) : Nat := modBits f 90 85
/-- Signedness and width of a scalar integer type; the default is .I64 (06 R153). -/
def scalarTy (f : Fields) : Bool × Nat :=
  match tyOfCode (modTy f) with
  | some (.int sg n) => (sg, n)
  | _ => (true, 64)
/-- An integer result of width n extended to 64 bits: sign-extended for .I, zero-extended for .N (06 R153). -/
def extInt (signed : Bool) (n : Nat) (x : Int) : W64 := BitVec.ofInt 64 (intOfBits signed n (intBits n x))
/-- A source read as a type's integer (06 R153). -/
def srcInt (signed : Bool) (n : Nat) (x : W64) : Int := intOfBits signed n x.toNat

/-- Clear the low bits of a number below k. -/
def maskLow (k : Nat) : W64 := BitVec.ofNat 64 (2 ^ k - 1)

/-- The width in bytes and the signedness WD names; the default is d bytes (07 R186). -/
def wdOf (f : Fields) (d : Nat) : Nat × Bool :=
  match modBits f 90 88 with
  | 1 => (1, true) | 2 => (2, true) | 3 => (4, true)
  | 5 => (1, false) | 6 => (2, false) | 7 => (4, false)
  | _ => (d, true)

/-- A narrow value extended to 64 bits (07 R186). -/
def extLoad (w : Nat) (signed : Bool) (x : Nat) : W64 := BitVec.ofInt 64 (intOfBits signed (8 * w) x)

/-- The observer mask in MOD[85:80] (07 R186). -/
def obsOf (f : Fields) : BitVec 6 := f.mod.extractLsb' 0 6

/-- The address [sB + e] (07 R187). -/
def addrOf (a : Arch) (b e : Operand) : W64 := valOf a b + valOf a e

end Sys2Proof.Machine
end

