-- ==== Sys2Proof/Machine/Flags.lean ====
section
/-!
DEFINITION. Machine/Flags.lean: the flag results of scalar words: saturation, rounding flags and the overflow trap
(spec file 04, R104 to R109).
-/
namespace Sys2Proof.Machine
open Sys2Proof

/-- A flag update, where there is one to make. -/
def flagUpd (fl : Flags) : List Upd := if fl = 0 then [] else [.flags fl]

/-- An exact integer narrowed to n bits: clamped with IO under SAT, wrapped otherwise (04 R109, 06 R153). -/
def narrowInt (sat signed : Bool) (n : Nat) (x : Int) : W64 × Flags :=
  if sat && (decide (x < intMin signed n) || decide (intMax signed n < x)) then
    (extInt signed n (intClamp signed n x), flIO)
  else (extInt signed n x, 0)

/-- A scalar integer result with its flag, landing lat cycles after issue. -/
def putInt (s : State) (c lat : Nat) (o : Operand) (r : W64 × Flags) (t : Taint) : State :=
  addFx s c lat (.sreg (idxOf o) r.1 t :: flagUpd r.2)

/-- A scalar floating result: written with its flags, or the overflow trap with lane mask 1 (04 R108, 06 R158). -/
def putFlt (s : State) (c lat : Nat) (o : Operand) (r : FRes) (x : W64) (t : Taint) : Body :=
  if r.trap then .error (.trap 0x0B 0 1 false [(0, 1)])
  else ok (addFx s c lat (.sreg (idxOf o) x t :: flagUpd r.flags))

end Sys2Proof.Machine
end

