-- ==== Sys2Proof/Machine/Xlate.lean ====
section
/-!
DEFINITION. Machine/Xlate.lean: address forms, the physical map, the table walk, the translation cache, and the checks
every access makes in their order (spec file 01, R13, R21 to R26; 07, R181 to R188).
-/
namespace Sys2Proof.Machine
open Sys2Proof

/-- The classes an access can have at this device; Remote is told by bit 63 of the address (01 R24). -/
inductive Cls where
  | scratch | commons | global | host
  deriving DecidableEq, Repr

/-- The class of a physical address, or none outside every range (01 R23). -/
def classOf (pa : Nat) : Option Cls :=
  if pa < 0x8000000000 then some .global
  else if pa < 0x8040000000 then some .commons
  else if pa < 0xC000000000 then none
  else if pa < 0x10000000000 then some .host
  else none

/-- The die whose controllers hold a physical address (01 R8, R23). -/
def homeDie (pa : Nat) : Nat :=
  if pa < 0x8000000000 then pa / 0x1000000000 / 2 else (pa - 0x8000000000) / 0x10000000 % 4

def getCommons (s : State) (d : Nat) : Commons := mapGet .reset s.commons d
/-- Commons bytes in force on a die (11 R283, R285). -/
def commonsSize (s : State) (d : Nat) : Nat := (getCommons s d).cur.toNat * 0x800000
/-- A physical Commons address lies within its die's configured size (01 R23). -/
def commonsOk (s : State) (pa : Nat) : Bool := decide ((pa - 0x8000000000) % 0x10000000 < commonsSize s (homeDie pa))

/-- One level of the walk: the entry's problems in order, or its fields (07 R182). -/
structure Pte where
  addr : Nat
  u : Bool
  x : Bool
  w : Bool
  leaf : Bool

/-- Decode the entry at a level; level 2 is the top, 0 the third. The errors are the REASON codes of 07 R183. -/
def readPte (e level : Nat) : Except Nat Pte :=
  let leaf := bitsOf e 1 1 == 1
  let addr := bitsOf e 39 13 * 0x2000
  if e % 2 = 0 then .error (3 - level)
  else if bitsOf e 63 40 ≠ 0 ∨ bitsOf e 12 5 ≠ 0 ∨ (level = 0 ∧ !leaf) ∨ (leaf ∧ addr % 2 ^ (16 + 10 * level) ≠ 0) then .error 7
  else .ok ⟨addr, bitsOf e 4 4 == 1, bitsOf e 3 3 == 1, bitsOf e 2 2 == 1, leaf⟩

/-- The table walk of a virtual address (07 R181, R182), its entries read by rd: a translation-cache entry, or a REASON
and whether it is a poisoned table (07 R185). -/
def walkBy (rd : Nat → Nat) (bad : Nat → Bool) (root va : Nat) : Except (Nat × Bool) TlbEnt :=
  let mk (level : Nat) (u x w : Bool) (p : Pte) : TlbEnt :=
    ⟨root, va / 2 ^ (16 + 10 * level), level, p.addr, u, x, w,
      BitVec.ofNat 3 ((if p.u then 4 else 0) + (if p.x then 2 else 0) + (if p.w then 1 else 0))⟩
  if bad root then .error (1, true) else
  match readPte (rd (root + 8 * bitsOf va 40 36)) 2 with
  | .error r => .error (r, false)
  | .ok p2 =>
    if p2.leaf then .ok (mk 2 p2.u p2.x p2.w p2)
    else if bad p2.addr then .error (2, true) else
    match readPte (rd (p2.addr + 8 * bitsOf va 35 26)) 1 with
    | .error r => .error (r, false)
    | .ok p1 =>
      if p1.leaf then .ok (mk 1 (p2.u && p1.u) (p2.x && p1.x) (p2.w && p1.w) p1)
      else if bad p1.addr then .error (3, true) else
      match readPte (rd (p1.addr + 8 * bitsOf va 25 16)) 0 with
      | .error r => .error (r, false)
      | .ok p0 => .ok (mk 0 (p2.u && p1.u && p0.u) (p2.x && p1.x && p0.x) (p2.w && p1.w && p0.w) p0)

/-- A walk by the Derailleur or a unit, on the tables as they stand. -/
def walk (s : State) (root va : Nat) : Except (Nat × Bool) TlbEnt :=
  walkBy (fun a => memNat s.mem a 8) (fun t => s.poisonTab.contains t) root va

/-- The table entries a walk reads, in order (07 R182). -/
def walkReads (rd : Nat → Nat) (root va : Nat) : List Nat :=
  let a2 := root + 8 * bitsOf va 40 36
  match readPte (rd a2) 2 with
  | .error _ => [a2]
  | .ok p2 =>
    if p2.leaf then [a2]
    else
      let a1 := p2.addr + 8 * bitsOf va 35 26
      match readPte (rd a1) 1 with
      | .error _ => [a2, a1]
      | .ok p1 => if p1.leaf then [a2, a1] else [a2, a1, p1.addr + 8 * bitsOf va 25 16]

/-- The access kinds in the ACC codes of 07 R183. -/
inductive Acc where
  | read | write | atomic | fetch | pushRead | pushWrite
  deriving DecidableEq, Repr

def accCode : Acc → Nat
  | .read => 0 | .write => 1 | .atomic => 2 | .fetch => 3 | .pushRead => 4 | .pushWrite => 5
def accWrites : Acc → Bool
  | .write | .atomic | .pushWrite => true
  | _ => false

/-- The physical address an entry gives, or the REASON that refuses the access (07 R183 order: U, then W or X, then
the range). -/
def permit (e : TlbEnt) (mode : Bool) (acc : Acc) (va : Nat) : Except Nat Nat :=
  let pa := e.base + va % 2 ^ (16 + 10 * e.level)
  if !mode && !e.u then .error 6
  else if accWrites acc && !e.w then .error 4
  else if acc == .fetch && !e.x then .error 5
  else if (classOf pa).isNone then .error 8
  else .ok pa

/-- The entry of a core's translation cache that covers an address (07 R184). -/
def tlbFind (k : Core) (root va : Nat) : Option TlbEnt :=
  k.tlb.find? fun e => e.root == root && e.vpage == va / 2 ^ (16 + 10 * e.level)

/-- How one address translates for a context: at once, after a walk, or with a fault (REASON, poisoned). -/
inductive Xl where
  | hit (pa : Nat)
  | miss
  | fault (reason : Nat) (poison : Bool)

def translate (s : State) (c va : Nat) (acc : Acc) : Xl :=
  let k := getCore s (coreOf c)
  let root := ctxRoot s c
  match k.wfaults.find? (fun w => w.root == root && w.vpage == va / 0x10000) with
  | some w => .fault w.reason w.poison
  | none =>
    match tlbFind k root va with
    | none => .miss
    | some e =>
      match permit e (getArch s c).mode acc va with
      | .error r => .fault r false
      | .ok pa => .hit pa

/-- TVAL of a translation or poison fault (07 R183); rs is RS and COUNT together. -/
def xlateTval (rs : Option Nat) (acc : Acc) (reason va : Nat) : W64 :=
  let r := match rs with
    | some n => 2 ^ 63 + n % 64 * 2 ^ 56
    | none => 0
  BitVec.ofNat 64 (r + accCode acc * 2 ^ 52 + reason * 2 ^ 48 + va % 2 ^ 41)

/-- Where an access lies: its class and the address of each of its bytes (scratchpad bytes by core). -/
structure Loc where
  cls : Cls
  addrs : List Nat
  va : W64
  deriving DecidableEq, Repr

/-- The scratchpad byte a window offset denotes (01 R13). -/
def spAddr (s : State) (c off : Nat) : Nat :=
  coreOf c * 0x200000 + (match (getCtx s c).bind with
    | some b => if b.supv then off else b.spbase + off
    | none => off)
/-- The window length: 2 MiB for a SUPV region (01 R13). -/
def spLen (s : State) (c : Nat) : Nat :=
  match (getCtx s c).bind with
  | some b => if b.supv then 0x200000 else b.splen
  | none => 0

/-- Translate every byte address of a list, in its order; the first one that fails gives the fault's VA. -/
def pagesOf (s : State) (c : Nat) (acc : Acc) (rs : Option Nat) : List Nat → Except Stop (List Nat)
  | [] => .ok []
  | va :: t =>
    match translate s c va acc with
    | .miss => .error (.walk va)
    | .fault r p => .error (.trap (if p then 0x0F else 0x03) 0 (xlateTval rs acc r va) false [])
    | .hit pa =>
      match pagesOf s c acc rs t with
      | .error e => .error e
      | .ok l => .ok (pa :: l)

/-- Every class is allowed. -/
def anyCls (_ : Cls) : Bool := true

/-- A page of a protected region on a parity member, which only the coding engine writes (14 R356). -/
def parityPage (s : State) (pa : Nat) : Bool :=
  s.cod.cfg && s.cod.role == 2 && s.cod.regions.any fun r => r.2.pages.contains (pa / 0x10000 * 0x10000)

/-- The checks of an access to the bytes at va + off, off rising, in the order of 07 R188: form, alignment, scratchpad
bounds, translation, class, Commons range. An access without an active byte has nothing to check. -/
def locate (s : State) (c : Nat) (acc : Acc) (va : W64) (offs : List Nat) (align : Nat) (allowed : Cls → Bool)
    (rs : Option Nat := none) : Except Stop Loc :=
  let bytes := offs.map fun o => (va.toNat + o) % 2 ^ 64
  if bytes.any (fun a => decide (a < 2 ^ 63) && decide (2 ^ 41 ≤ a)) then .error (.trap 0x04 0 va false [])
  else if !offs.isEmpty && va.toNat % align != 0 then .error (.trap 0x07 0 va false [])
  else if bytes.any (fun a => decide (2 ^ 63 ≤ a)) then .error (.trap 0x05 0 va false [])
  else if bytes.headD 0 < 0x200000 then
    if bytes.any (fun a => decide (spLen s c ≤ a)) then .error (.trap 0x06 0 va false [])
    else if !offs.isEmpty && !allowed .scratch then .error (.trap 0x05 0 va false [])
    else .ok ⟨.scratch, bytes.map (spAddr s c), va⟩
  else
    match pagesOf s c acc rs bytes with
    | .error e => .error e
    | .ok l =>
      match classOf (l.headD 0) with
      | none => .error (.trap 0x05 0 va false [])
      | some cl =>
        if !allowed cl || l.any (fun q => classOf q != some cl) then .error (.trap 0x05 0 va false [])
        else if cl == .commons && l.any (fun q => !commonsOk s q) then .error (.trap 0x08 0 va false [])
        else if accWrites acc && cl == .global && l.any (fun q => parityPage s q) then .error (.trap 0x05 0 va false [])
        else .ok ⟨cl, l, va⟩

/-- The physical address of a counter or table the Derailleur uses on a region's behalf: a walk of the region's space
with supervisor rights (05 R125, R133). A scratchpad address is never translated (01 R22), and one beyond the form is none. -/
def walkPhys (s : State) (root va : Nat) (acc : Acc) : Option Nat :=
  if va < 0x200000 ∨ 2 ^ 41 ≤ va then none
  else match walk s root va with
  | .error _ => none
  | .ok e => match permit e true acc va with
    | .error _ => none
    | .ok pa => some pa

end Sys2Proof.Machine
end

