-- ==== Sys2Proof/Machine/MemOps.lean ====
section
/-!
DEFINITION. Machine/MemOps.lean: taking load slots, making pending accesses, scratchpad bytes and locks, and the
values of bytes at their homes (spec file 02, R37 to R63; 07, R186 to R190).
-/
namespace Sys2Proof.Machine
open Sys2Proof

/-- Some of these scratchpad bytes lie in a cluster whose clock is stopped: what arrives for them waits (16 R402). -/
def spStopped (s : State) (l : List Nat) : Bool := l.any fun a => (getCluster s (a / 0x400000)).stopped

/-! Load slots. -/

/-- Give slot j to the load a context is issuing (02 R45, R54). -/
def fillSlot (s : State) (c j : Nat) (dev : Option Nat) : State :=
  updArch s c fun a =>
    let sl := slotOf a j
    { a with
      base := if sl.mark && sl.dev.isNone then stampMax a.base sl.stamp else a.base
      slots := mapSet a.slots j ⟨dev, zeroStamp, sl.gen + 1, false, a.slotAge + 1, some a.seq⟩
      slotAge := a.slotAge + 1 }

/-- Take a slot: the lowest free one, or the oldest folded; while that one's load is pending the word stalls (02 R45,
R52). -/
def takeSlot (s : State) (c : Nat) (dev : Option Nat) : Except Stop (State × Nat) :=
  match (upTo 16).find? (fun j => !slotLive s c j) with
  | some j => .ok (fillSlot s c j dev, j)
  | none =>
    match liveByAge s c with
    | [] => .error .stall
    | j :: _ =>
      if (slotOf (getArch s c) j).pend.isSome then .error .stall
      else .ok (fillSlot (foldSlot s c j) c j dev, j)

/-- The bit of an optional slot. -/
def slotBit : Option Nat → Taint
  | some j => 1#16 <<< j
  | none => 0

/-! Tokens. -/

/-- Mark the SETW token pending; a word without one holds its context until its result lands (01 R19, 07 R190). -/
def markToken (s : State) (c : Nat) (f : Fields) : State :=
  updArch s c fun a =>
    match setwTok f with
    | some t => { a with tok := a.tok ||| (1#8 <<< t) }
    | none => { a with block := some a.seq }

/-! Scratchpad. -/

/-- A counter update of the core still held for the checker touches these bytes: later accesses follow it (02 R65; 12 R326). -/
def heldCounter (s : State) (core : Nat) (addrs : List Nat) : Bool :=
  (getCore s core).held.any fun h => match h.eff with
    | .push k => match k.instr with
      | .lcinit _ | .lcadd _ => addrs.any fun a => a / 8 * 8 == k.aux.getD 0 1
      | .plcfgOpen _ => addrs.any fun a => (k.aux.drop 1).contains (a / 8 * 8)
      | _ => false
    | _ => false

/-- A lock of the core's scratchpad stands against an access to these bytes (02 R63), or an earlier counter update does. -/
def spLocked (s : State) (core : Nat) (addrs : List Nat) (write : Bool) : Bool :=
  heldCounter s core addrs ||
  s.locks.any fun l => l.core == core && (l.write || write) && addrs.any fun a => l.grans.contains (a / 64)

def spRead (s : State) (addrs : List Nat) : List Byte := addrs.map fun a => mapGet 0 s.scratch a
def spWrite (s : State) (cells : List (Nat × Byte)) : State := { s with scratch := memPut s.scratch cells }
/-- The little-endian number held by n scratchpad bytes. -/
def spNat (s : State) (a n : Nat) : Nat := leNat (spRead s ((upTo n).map fun i => a + i))
def spPutNat (s : State) (a n x : Nat) : State := spWrite s (cellsAt a (leBytes n x))

/-! Accesses. -/

/-- The vector and the pending loads of an access with a taint (02 R47, R50). -/
def accVec (a : Arch) (t : Taint) : Stamp := stampMax a.base (stampsOf a t)

/-- The access a word of context c makes, with the control taint joined to the taints named (02 R47). -/
def mkAcc (s : State) (c : Nat) (kind : AccKind) (cells : List (Nat × Byte)) (loc : Loc) (t : Taint)
    (strong : Option (BitVec 6)) (dest : Dest) (token slot : Option Nat) (hint : BitVec 2 := 0) : Access :=
  let a := getArch s c
  let t := t ||| a.cT
  { id := s.nextId, ctx := c, seq := a.seq, eng := none, die := dieOf c, kind := kind, cells := cells, addrs := loc.addrs,
    vec := accVec a t, deps := (depsOf a c t).filter (fun d => d.2 != a.seq), wseq := none, out := false, strong := strong,
    host := (loc.addrs.headD 0) ≥ 0xC000000000, dest := dest, token := token, slot := slot, deferred := false, va := loc.va, hint := hint }

def addAcc (s : State) (x : Access) : State := { s with accs := s.accs ++ [x], nextId := s.nextId + 1 }

/-- A direct remote access that has not performed and has not failed. -/
def dirSent (d : Direct) : Bool := match d.st with | .failed _ => false | _ => true
/-- One that is not late either (15 R385). -/
def dirOpen (d : Direct) : Bool := d.late.isNone && dirSent d

/-- The context has an access, made before id, that has not performed (02 R37). -/
def earlierAcc (s : State) (c id : Nat) : Bool :=
  (s.accs.any fun x => x.ctx == c && x.eng.isNone && decide (x.id < id)) || s.fab.dirs.any fun d => dirOpen d && d.ctx == c && decide (d.id < id)

/-- A strong load of the context, made before id, that has not performed: later accesses wait behind it (07 R191). -/
def earlierStrongRead (s : State) (c id : Nat) : Bool :=
  (s.accs.any fun x => x.ctx == c && x.eng.isNone && decide (x.id < id) && x.strong.isSome && x.kind != .wr) ||
    s.fab.dirs.any fun d => dirOpen d && d.ctx == c && decide (d.id < id) && d.strong && d.op != 2

/-- A request of a command the context pushed before making access id has not been acknowledged (02 R57 clause 3, R67). -/
def awaitsBefore (s : State) (c id : Nat) : Bool := s.fab.awaits.any fun a => a.ctx == c && decide (a.before ≤ id)

/-- Every access the context has made has performed, and its flushes are complete (02 R58, 07 R197). -/
def quietAcc (s : State) (c : Nat) : Bool :=
  !(s.accs.any fun x => x.ctx == c && x.eng.isNone) && !(s.fab.dirs.any fun d => dirOpen d && d.ctx == c) && (getCtx s c).flushes.isEmpty

/-- A FENCE of a mask, before access id, is met (02 R58; 07 R197): the accesses before it have performed, and with PEER in the
mask the remote writes of earlier commands have been acknowledged. -/
def fenceMet (s : State) (c : Nat) (m : BitVec 6) (id : Nat) : Bool :=
  quietAcc s c && (!m.getLsbD 4 || !awaitsBefore s c id)

/-- The last value and stamp of a byte as one context sees it: its own latest write not yet applied and made before
the access id, else the byte at its home (02 R39, 06 R175). -/
def byteFor (s : State) (c id a : Nat) : Byte × Stamp :=
  let own := s.accs.filter fun x => x.ctx == c && x.eng.isNone && decide (x.id < id) && x.cells.any (fun p => p.1 == a)
  match own.getLast? with
  | some x => (((x.cells.filter (fun p => p.1 == a)).getLastD (a, 0)).2,
      match x.wseq with
      | some n => stampSet x.vec x.die (maxW (stampEntry x.vec x.die) n)
      | none => x.vec)
  | none => (memGet s.mem a, mapGet zeroStamp s.memStamp a)

/-- The context's own plain writes, made before the access id, that are not yet applied and touch word w (02 R38). -/
def ownWrites (s : State) (c id w : Nat) : List Access :=
  s.accs.filter fun x => x.ctx == c && x.eng.isNone && decide (x.id < id) && x.kind == .wr && x.cells.any (fun p => p.1 / 8 == w)

/-- A read can be answered as a value that stands in each word's coherence order (02 R38, R39, R43): no own write to the word
is pending, or the last one has its number and gives every byte the read takes of the word. -/
def forwards (s : State) (c id : Nat) (addrs : List Nat) : Bool :=
  ((addrs.map (· / 8)).eraseDups).all fun w =>
    match (ownWrites s c id w).getLast? with
    | none => true
    | some x => x.wseq.isSome && addrs.all fun a => a / 8 != w || x.cells.any fun p => p.1 == a

/-- The value of a read and its observed stamp (02 R43). -/
def readFor (s : State) (c id : Nat) (addrs : List Nat) : List Byte × Stamp :=
  addrs.foldr (fun a r => let b := byteFor s c id a; (b.1 :: r.1, stampMax b.2 r.2)) ([], zeroStamp)

/-- Bytes and their observed stamp at the home, for an engine or a host. -/
def readHome (s : State) (addrs : List Nat) : List Byte × Stamp :=
  addrs.foldr (fun a r => (memGet s.mem a :: r.1, stampMax (mapGet zeroStamp s.memStamp a) r.2)) ([], zeroStamp)

/-- Lanes of a value read with w bytes per active lane, extended to 32 bits. -/
def lanesFrom (mask : W64) (w : Nat) (signed : Bool) (bs : List Byte) : VReg :=
  let order := (upTo 64).filter fun i => mask.getLsbD i
  vecOf fun i =>
    match order.idxOf? i with
    | some k => (extLoad w signed (leNat ((bs.drop (k * w)).take w))).toNat
    | none => 0

/-- The register updates a read's value makes (07 R191 to R196). -/
def destUpds : Dest → List Byte → List Upd
  | .scalar r w sg t, bs => [.sreg r (extLoad w sg (leNat (bs.take w))) t]
  | .pair r1 r2 w sg t, bs =>
    [.sreg r1 (extLoad w sg (leNat (bs.take w))) t, .sreg r2 (extLoad w sg (leNat ((bs.drop w).take w))) t]
  | .lanes r mask w sg t, bs => [.lanes r mask (lanesFrom mask w sg bs) t]
  | _, _ => []

/-- Put a value on its way to its destination, recorded for re-execution (06 R174). -/
def addLanding (s : State) (l : Landing) : State :=
  updCore s (coreOf l.ctx) fun k => { k with landings := k.landings ++ [l] }

/-- FENCE's wait, met before the context's next memory word or push (07 R197): the fence ends once it is met, and B takes the
live slots' stamps (02 R58). -/
def fenceGate (s : State) (c : Nat) (push : Option Nat) : Except Stop State :=
  match (getArch s c).fence with
  | none => .ok s
  | some m =>
    let binds := match push with
      | none => true
      | some bit => m.1.getLsbD bit
    if !binds then .ok s
    else if fenceMet s c m.1 m.2 then .ok (updArch (baseLive s c) c fun a => { a with fence := none })
    else .error .stall

end Sys2Proof.Machine
end

