-- ==== Sys2Proof/Machine/Branch.lean ====
section
/-!
DEFINITION. Machine/Branch.lean: branches, YIELD, EXIT, the queue words and the trap words (spec file 06, R152, R159 to
R161, R167; 01, R17, R18).
-/
namespace Sys2Proof.Machine
open Sys2Proof Host

/-- A branch word with a true guard: it goes to the target when taken; what it adds to the control taint, it adds
taken or not (06 R152, 02 R48). -/
def branchWord (opc : Nat) (f : Fields) (s : State)
    (eff : State → Nat → State × Option W64) : State :=
  runWord opc false true 1 f s fun s c =>
    let a := getArch s c
    let (s1, target) := eff s c
    let s2 := updArch s1 c fun b => { b with cT := b.cT ||| guardTaint a f ||| branchTaint opc a f }
    .ok { st := s2, npc := target, hold := if target.isSome then 2 else 1 }

/-- The target a code offset gives: the word's own address + 16 × k (06 R159). -/
def codeTarget (a : Arch) (o : Operand) : W64 := a.pc + (valOf a o <<< 4)

def execBr (f : Fields) (s : State) : Outcome State Fault Refusal :=
  .next (branchWord 0x030 f s fun s c => (s, some (codeTarget (getArch s c) f.o1)))

def execBri (f : Fields) (s : State) : Outcome State Fault Refusal :=
  .next (branchWord 0x031 f s fun s c => (s, some (valOf (getArch s c) f.o1)))

def execCall (f : Fields) (s : State) : Outcome State Fault Refusal :=
  .next (branchWord 0x032 f s fun s c =>
    let a := getArch s c
    let target := match f.o2 with
      | .s i => rdS a i.toNat
      | o => codeTarget a o
    (putS s c 1 f.o1 (a.pc + 16) (srcTaint a f [f.o2]), some target))

def execRet (f : Fields) (s : State) : Outcome State Fault Refusal :=
  .next (branchWord 0x033 f s fun s c => (s, some (valOf (getArch s c) f.o1)))

def execLoop (f : Fields) (s : State) : Outcome State Fault Refusal :=
  .next (branchWord 0x034 f s fun s c =>
    let a := getArch s c
    let n := valOf a f.o1 - 1
    (putS s c 1 f.o1 n (srcTaint a f [f.o1]), if n = 0 then none else some (codeTarget a f.o2)))

/-- EXIT is a check point and moves the context to EXITING (06 R161, R173). -/
def execExit (f : Fields) (s : State) : Outcome State Fault Refusal :=
  .next (runWord 0x035 false false 1 f s fun s c => do
    let s1 ← holdEff s c .mark
    ok (updArch s1 c fun a => { a with phase := .exiting }))

def execYield (f : Fields) (s : State) : Outcome State Fault Refusal :=
  .next (runWord 0x036 false false 1 f s fun s c =>
    let n := if f.o1 = .none then 1 else (valOf (getArch s c) f.o1).toNat
    okHold s (max n 1))

/-! Queues. -/

/-- Result elements of one queue. -/
def resOf (s : State) (c q : Nat) : List Elem := (getCtx s c).res.filter fun e => e.q == q
/-- Commands of one queue, executing one included. -/
def cmdsOf (s : State) (c q : Nat) : List Cmd := (getCtx s c).cmds.filter fun k => k.q == q
/-- A context's MMULs whose element is not yet written (09 R242). -/
def runsOf (s : State) (c q : Nat) : List MxRun :=
  if q = 0 then (mxHalf s (coreOf c)).runs.filter fun r => r.ctx == c else []
/-- Those of them still executing. -/
def running (s : State) (c q : Nat) : Nat := ((runsOf s c q).filter fun r => !r.comp).length
/-- Entries of a command queue occupied: those pushed, those still held for the checker, and MMULs in execution (01 R14). -/
def occupied (s : State) (c q : Nat) : Nat :=
  (cmdsOf s c q).length + ((heldCmds s c).filter fun k => k.q == q).length + running s c q

def isGate (k : Cmd) : Bool := match k.instr with | .carm _ => true | _ => false

/-- A gated entry after a firing: it waits for the next (10 R278). -/
def rearm (k : Cmd) : Cmd :=
  { k with held := none, gateOpen := false, started := false, fired := k.fired + 1, prog := 0, promise := 0, missed := false, flags := 0, aux := [], stamp := zeroStamp }

/-- Take commands whose element waited for room off their queue once there is room (01 R18). -/
def settle (x : Ctx) (q : Nat) : Ctx :=
  match x.cmds.find? (fun k => k.q == q && k.held.isSome) with
  | some k =>
    match k.held with
    | some e =>
      if (x.res.filter fun r => r.q == q).length < 16 then
        { x with res := x.res ++ [e], cmds := if k.err ≠ 0 then x.cmds.map (fun y => if y = k then { k with held := none, err := 0 } else y)
            else if k.gateOpen then x.cmds.map (fun y => if y = k then rearm k else y) else x.cmds.erase k }
      else x
    | none => x
  | none => x

/-- Elements written before this cycle. -/
def readyElem (s : State) (c q : Nat) : Option Elem := (resOf s c q).find? fun e => decide (e.at_ < ccyOf s c)

def statusOf (e : Elem) : Nat := e.stat.toNat / 2 ^ 60

/-- An element as the journal records it (06 R174). -/
def elemVals (e : Elem) : List W64 := [e.stat, e.val, e.vec.d0, e.vec.d1, e.vec.d2, e.vec.d3, BitVec.ofNat 64 e.q]

/-- What POPQ writes with an element (06 R161). -/
def popUpds (f : Fields) (stat val : W64) (gt : Taint) : List Upd :=
  let d := match f.o1 with
    | .vq i q =>
      let x := (stat.toNat + val.toNat * 2 ^ 64) * 2 ^ (512 * q.toNat)
      [.lanes i.toNat (BitVec.ofNat 64 (0xFFFF * 2 ^ (16 * q.toNat))) (BitVec.ofNat 2048 x)
        ((upTo 4).map fun j => if j = q.toNat then some (0, false) else none)]
    | o => [.sreg (idxOf o) stat 0, .sreg (idxOf f.o2) val 0]
  d ++ (if modBit f 80 then [.preg (idxOf f.o4) true gt] else [])

def execPopq (f : Fields) (s : State) : Outcome State Fault Refusal :=
  .next (runWord 0x038 false false 1 f s fun s c =>
    let a := getArch s c
    let q := idxOf f.o3
    let gt := guardTaint a f
    let deliver (s : State) (l : List W64) : Body :=
      let stat := l.getD 1 0
      let vec : Stamp := ⟨l.getD 3 0, l.getD 4 0, l.getD 5 0, l.getD 6 0⟩
      let fl := if q = 0 ∨ q = 1 then flagUpd (stat.truncate 6) else []
      ok (addFx (updArch s c fun a => { a with base := stampMax a.base vec }) c 2 (popUpds f stat (l.getD 2 0) gt ++ fl))
    let fail (s : State) : Body := ok (addFx s c 2 [.preg (idxOf f.o4) false gt])
    if replaying s c then
      let (s1, l) := outsideVal s c []
      if l.getD 0 0 = 1 then deliver s1 l else fail s1
    else
      match readyElem s c q with
      | some e =>
        let (s1, l) := outsideVal s c (1 :: elemVals e)
        deliver (updCtx s1 c fun x => settle { x with res := x.res.erase e } q) l
      | none =>
        if modBit f 80 then fail (outsideVal s c [0]).1
        else if (resOf s c q).isEmpty && occupied s c q == 0 && (runsOf s c q).isEmpty && !(q == 6 && (getCtx s c).qdRsv != 0) then
          trapW 0x12 (BitVec.ofNat 64 q)
        else stallW)

def execQstat (f : Fields) (s : State) : Outcome State Fault Refusal :=
  .next (runWord 0x039 false false 1 f s fun s c =>
    let q := idxOf f.o2
    let rs := resOf s c q
    let x := mapGet 0 (getArch s c).qseq q % 2 ^ 16 * 2 ^ 48
      + rs.foldl (fun m e => max m (statusOf e)) 0 * 2 ^ 36
      + (if q = 6 then (getCtx s c).qdRsv else 0) * 2 ^ 24
      + (if (cmdsOf s c q).any (fun k => k.started) || running s c q != 0 then 2 ^ 20 else 0)
      + rs.length * 2 ^ 8 + (if q = 6 then 0 else occupied s c q)
    let (s1, l) := outsideVal s c [BitVec.ofNat 64 x]
    ok (putS s1 c 2 f.o1 (l.getD 0 0) (guardTaint (getArch s c) f)))

/-- DRAINQ's report: the largest discarded STATUS and the count (06 R161). -/
def drainWord (l : List Elem) : W64 := BitVec.ofNat 64 (l.foldl (fun m e => max m (statusOf e)) 0 * 2 ^ 60 + l.length)

def execDrainq (f : Fields) (s : State) : Outcome State Fault Refusal :=
  .next (runWord 0x03A false false 1 f s fun s c =>
    let q := idxOf f.o2
    if modBit f 80 && !replaying s c && (occupied s c q != 0 || (q == 6 && (getCtx s c).qdRsv != 0)) then stallW
    else
      let (s1, l) := outsideVal s c (drainWord (resOf s c q) :: (resOf s c q).flatMap elemVals)
      let s2 := if replaying s c then s1 else updCtx s1 c fun x => settle { x with res := x.res.filter fun e => e.q != q } q
      ok (putS s2 c 2 f.o1 (l.getD 0 0) (guardTaint (getArch s c) f)))

/-! Trap words (06 R167). -/

def execTrap (f : Fields) (s : State) : Outcome State Fault Refusal :=
  .next (runWord 0x040 false false 1 f s fun s c =>
    .error (.trap 0x0D 0 (valOf (getArch s c) f.o1) true []))

/-- TRET (06 R167): supervisor only; the resume count in TVAL enters the resume latch for the next word. -/
def execTret (f : Fields) (s : State) : Outcome State Fault Refusal :=
  .next (runWord 0x041 true false 1 f s fun s c =>
    let s1 := trapReturn s c
    let a := getArch s1 c
    .ok { st := s1, npc := some a.pc, hold := 2, latch := a.latch })

def execBrk (f : Fields) (s : State) : Outcome State Fault Refusal :=
  .next (runWord 0x042 false false 1 f s fun s c =>
    .error (.trap 0x0E 0 (valOf (getArch s c) f.o1) false []))

end Sys2Proof.Machine
end

