-- ==== Sys2Proof/Machine/Bytes.lean ====
section
/-!
DEFINITION. Machine/Bytes.lean: bytes at their homes: packets sent, the coding engine's field and protected granules, the
last-level cache, uncorrectable words, and a write with its journal entries and deltas (spec files 02, R42; 03, R77; 07, R189;
11, R286, R289; 12, R304, R305; 14, R353 to R361).
-/
namespace Sys2Proof.Machine
open Sys2Proof

/-! Packets. -/

/-- The intermediate group of a packet to a device on a lane, where that lane is on its alternate route (12 R303). -/
def viaOf (s : State) (dst lane : Nat) : Option Nat :=
  if s.fab.onAlt.contains (dst, lane) then (s.fab.alts.find? fun a => a.1 == dst / 32).map (·.2) else none

/-- Send a packet for a region, 0 for none: it waits at its output with the low 24 bits of GTS (01 R29; 12 R304). -/
def sendFor (s : State) (reg dst vl lane : Nat) (kind : PKind) (tag : Nat) (args : List W64) (data : List Byte) : State :=
  let p : Packet := ⟨dst, s.devno, vl, lane, kind, tag, args, data, s.gts.truncate 24, viaOf s dst lane, false, reg, 0⟩
  { s with fab := { s.fab with outbox := s.fab.outbox ++ [p] } }

/-- Send a packet of no region: a reply, an arrival or release, a control message. -/
def sendPkt (s : State) (dst vl lane : Nat) (kind : PKind) (tag : Nat) (args : List W64) (data : List Byte) : State :=
  sendFor s 0 dst vl lane kind tag args data

/-- A coding message, on ordering lane 3 (14 R362). -/
def sendK (s : State) (dst : Nat) (kind : PKind) (args : List W64) (data : List Byte) : State :=
  sendPkt s dst 3 3 kind 0 args data

def w64 (n : Nat) : W64 := BitVec.ofNat 64 n

/-! Galois field of 14 R353. -/

def gfLow : Nat → Nat → Nat → Nat
  | 0, _, _ => 0
  | n + 1, a, b => (gfLow n a b) ^^^ (if b.testBit n then a <<< n else 0)
def gfRed : Nat → Nat → Nat
  | 0, p => p
  | n + 1, p => gfRed n (if p.testBit (n + 8) then p ^^^ (0x11D <<< n) else p)
def gfMul (a b : Nat) : Nat := gfRed 7 (gfLow 8 a b) % 256
/-- The inverse, found by search; 0 has none. -/
def gfInv (a : Nat) : Nat := ((upTo 256).find? fun b => gfMul a b == 1).getD 0

/-- Byte b of the configuration record. -/
def recByte (k : Cod) (b : Nat) : Nat := (k.rec_.getD b 0).toNat
/-- The coefficient c(j, i) (14 R353). -/
def coef (k : Cod) (j i : Nat) : Nat := if k.m = 1 then 1 else gfInv (recByte k (0x40 + j) ^^^ recByte k (0x48 + i))

/-- Device number of member i. -/
def memberDev (k : Cod) (i : Nat) : Nat := bitsOf (mapGet 0 k.entries i).toNat 21 0
/-- Live parity members, as indices. -/
def liveParity (k : Cod) : List Nat := k.live.filter fun i => decide (k.k ≤ i)
def liveData (k : Cod) : List Nat := k.live.filter fun i => decide (i < k.k)
/-- The coordinator: the lowest-numbered live parity member (14 R355). -/
def coordOf (k : Cod) : Option Nat := (liveParity k).foldl (fun b i => match b with | none => some i | some j => some (min i j)) none

/-- The protected region and offset of a physical byte (14 R356). -/
def protAt (s : State) (pa : Nat) : Option (Nat × Nat) :=
  if !s.cod.cfg && s.cod.regions.isEmpty then none
  else s.cod.regions.findSome? fun r =>
    let i := r.2.pages.idxOf (pa / 0x10000 * 0x10000)
    if i < r.2.pages.length then some (r.1, i * 0x10000 + pa % 0x10000) else none

/-- An uncorrectable byte here is repaired from the Peloton: it lies in a protected region and k peers live (07 R189; 14
R368). -/
def repairable (s : State) (pa : Nat) : Bool :=
  s.cod.cfg && (protAt s pa).isSome && decide (s.cod.k ≤ (s.cod.live.filter fun i => i != s.cod.self).length)

/-- The physical byte of an offset of a protected region. -/
def protPa (s : State) (r off : Nat) : Nat :=
  ((mapGet ⟨[]⟩ s.cod.regions r).pages.getD (off / 0x10000) 0) + off % 0x10000

/-- The granules a list of bytes lies in. -/
def granules (l : List Nat) : List Nat := (l.map fun a => a / 64).eraseDups

def jcap (k : Cod) : Nat := (leNat ((upTo 4).map fun i => k.rec_.getD (0x18 + i) 0)) * 512
def scap (k : Cod) : Nat := (leNat ((upTo 4).map fun i => k.rec_.getD (0x30 + i) 0)) * 512
/-- A 34-bit base address of the record (bits [39:6]). -/
def recBase (k : Cod) (o : Nat) : Nat := bitsOf (leNat ((upTo 8).map fun i => k.rec_.getD (o + i) 0)) 39 6 * 64

/-- Granules of a data member's protected regions among these bytes. -/
def protGrans (s : State) (l : List Nat) : List Nat :=
  if s.cod.role = 1 then (granules l).filter fun g => (protAt s (64 * g)).isSome else []

/-- A home of one of these bytes accepts nothing while its die is being repartitioned (11 R286). -/
def busyHome (s : State) (l : List Nat) : Bool :=
  l.any fun a => decide (a < 0x8040000000) && (getCommons s (homeDie a)).busy

/-- A write to these bytes is held at its home: the die is busy, a protected granule is touched and the member is not OPEN, or the
journal has no room for the old values (14 R358). -/
def holdsWrite (s : State) (l : List Nat) : Bool :=
  let gs := protGrans s l
  let fresh := gs.filter fun g => !(s.cod.journal.any fun e => e.1 == 64 * g)
  busyHome s l || !gs.isEmpty && (s.cod.st != .opened || decide (jcap s.cod < s.cod.journal.length + fresh.length))

/-- A read of these bytes waits: the die is busy, a held write stands at one of their granules, or the member is rolling back (14 R358,
R366). -/
def holdsRead (s : State) (l : List Nat) : Bool :=
  let gs := protGrans s l
  busyHome s l || !gs.isEmpty && (s.cod.st == .rollback ||
    s.accs.any fun x => x.deferred && x.cells.any fun p => gs.contains (p.1 / 64))

/-- A Global line of the last-level cache that a read reaches: one absent is filled at the hint's retention, but not by a
bypass (03 R77). -/
def lineRead (hint : BitVec 2) (m : Map LlcLine) (pa : Nat) : Map LlcLine :=
  if hint = 3 ∨ 0x8000000000 ≤ pa ∨ (mapFind m (pa / 1024)).isSome then m else mapSet m (pa / 1024) ⟨false, hint⟩
def llcRead (s : State) (l : List Nat) (hint : BitVec 2) : State := { s with llc := l.foldl (lineRead hint) s.llc }

/-- Bytes put into memory with a stamp. A whole word rewritten is no longer uncorrectable (07 R189, 11 R289). A Global line
present takes the bytes, and one absent is filled at the hint's retention; a bypass of an absent line goes to HBM (03 R77). -/
def putBytes (s : State) (cells : List (Nat × Byte)) (st : Stamp) (hint : BitVec 2 := 0) : State :=
  let ws := (cells.map fun p => p.1 / 8).eraseDups
  let whole := ws.filter fun w => (upTo 8).all fun i => cells.any fun p => p.1 == 8 * w + i
  let glob := cells.filter fun p => p.1 < 0x8000000000 && (hint != 3 || (mapFind s.llc (p.1 / 1024)).isSome)
  { s with
    mem := memPut s.mem cells
    memStamp := cells.foldl (fun m p => mapSet m p.1 st) s.memStamp
    poison := s.poison.filter fun a => !whole.contains (a / 8)
    hbm := glob.foldl (fun m p => if (mapFind m p.1).isSome then m else mapSet m p.1 (memGet s.mem p.1)) s.hbm
    llc := glob.foldl (fun m p => mapSet m (p.1 / 1024) ⟨true, ((mapFind m (p.1 / 1024)).map (·.keep)).getD hint⟩) s.llc }

/-- Both copies of journal entry i: PA, round, zeros, the old 64 bytes (14 R361). -/
def journalBytes (pa n : Nat) (old : List Byte) : List Byte :=
  leBytes 8 pa ++ leBytes 8 n ++ List.replicate 48 0 ++ old
/-- A write by the coding engine of die d: it takes the die's next number (02 R42). -/
def codPut (s : State) (d : Nat) (cells : List (Nat × Byte)) : State :=
  let (s1, _, st) := takeWseq s d (appliedAll s)
  putBytes s1 cells st
/-- The engine of die d writes both copies of entry i. -/
def putBoth (s : State) (d base0 base1 : Nat) (i : Nat) (bs : List Byte) : State :=
  codPut (codPut s d (cellsAt (base0 + 128 * i) bs)) d (cellsAt (base1 + 128 * i) bs)

/-- Log a granule's old value in the round's journal, once (14 R358). -/
def logGranule (s : State) (g : Nat) : State :=
  if s.cod.journal.any (fun e => e.1 == 64 * g) then s
  else
    let old := memRead s.mem (64 * g) 64
    let i := s.cod.journal.length
    let s1 := putBoth s (homeDie (64 * g)) (recBase s.cod 0x08) (recBase s.cod 0x10) i (journalBytes (64 * g) (s.cod.c + 1) old)
    { s1 with cod := { s1.cod with journal := s1.cod.journal ++ [(64 * g, s.cod.c + 1, old)] } }

/-- Send the delta of a written granule to every live parity member (14 R358). -/
def sendDelta (s : State) (g : Nat) (old : List Byte) : State :=
  match protAt s (64 * g) with
  | none => s
  | some (r, off) =>
    let d := List.zipWith (fun a b => a ^^^ b) old (memRead s.mem (64 * g) 64)
    (liveParity s.cod).foldl (fun t j =>
      let f := coef s.cod (j - s.cod.k) s.cod.self
      let die := homeDie (64 * g)
      let t1 := sendK t (memberDev s.cod j) .delta [w64 (s.cod.c + 1), w64 r, w64 off, w64 s.cod.self, w64 die]
        (d.map fun x => BitVec.ofNat 8 (gfMul f x.toNat))
      { t1 with cod := { t1.cod with sentN := mapSet t1.cod.sentN (4 * j + die) (mapGet [] t1.cod.sentN (4 * j + die) ++ [g]) } }) s

/-- Bytes written at their homes: the journal takes what a protected granule held, and the parity members its delta (14 R358). The
caller has seen that no byte is held. -/
def rawWrite (s : State) (cells : List (Nat × Byte)) (st : Stamp) (hint : BitVec 2 := 0) : State :=
  let gs := protGrans s (cells.map (·.1))
  let olds := gs.map fun g => (g, memRead s.mem (64 * g) 64)
  olds.foldl (fun t p => sendDelta t p.1 p.2) (putBytes (gs.foldl logGranule s) cells st hint)

/-- Some byte is uncorrectable. -/
def poisoned (s : State) (l : List Nat) : Bool := l.any fun a => s.poison.contains a

/-- An access finds its bytes uncorrectable: the whole 8-byte words they lie in are marked, and stay so until they are
rewritten (07 R189; 11 R289). -/
def markPoison (s : State) (l : List Nat) : State :=
  let ws := (l.map (· / 8)).eraseDups.flatMap fun w => (upTo 8).map fun i => 8 * w + i
  { s with poison := s.poison ++ ws.filter fun a => !s.poison.contains a }

/-- Some byte is uncorrectable, and its line will be repaired from the Peloton (07 R189; 14 R368). -/
def awaitsRepair (s : State) (l : List Nat) : Bool := l.any fun a => s.poison.contains a && repairable s a

end Sys2Proof.Machine
end

