-- ==== Sys2Proof/Machine/DerOps.lean ====
section
/-!
DEFINITION. Machine/DerOps.lean: regions, nest records, launch queues, readiness, eligibility and the classes of groups
(spec file 05, R119 to R140; 01, R33 to R36).
-/
namespace Sys2Proof.Machine
open Sys2Proof

/-! Regions. -/

def getRegion (s : State) (r : Nat) : Region := mapGet .none s.regions r
def updRegion (s : State) (r : Nat) (f : Region → Region) : State := { s with regions := mapSet s.regions r (f (getRegion s r)) }
def live (s : State) (r : Nat) : Bool := (getRegion s r).state == .live

/-- The regions from r up to its root; a chain has at most as many links as there are regions. -/
def ancestors (s : State) : Nat → Nat → List Nat
  | 0, _ => []
  | n + 1, r => if r = 0 then [] else r :: ancestors s n (getRegion s r).parent
def chain (s : State) (r : Nat) : List Nat := ancestors s (s.regions.length + 1) r
/-- r lies in the subtree of a. -/
def inSubtree (s : State) (a r : Nat) : Bool := (chain s r).contains a
def subtree (s : State) (a : Nat) : List Nat := (s.regions.map (fun p => p.1)).filter fun r => (getRegion s r).state != .free && inSubtree s a r

/-- The handle of a region: GEN in [31:20], INDEX in [11:0] (05 R122). -/
def handleOf (s : State) (r : Nat) : Nat := (getRegion s r).gen.toNat * 2 ^ 20 + r

/-- The region of the task bound to a context. -/
def regionOfCtx (s : State) (c : Nat) : Nat :=
  match (getCtx s c).bind with
  | some b => b.region
  | none => 0

/-- A handle operand resolved for a context: 0 names its own region; a stale handle names none (05 R122). DESIGN CHOICE (log entry
26): a handle is 32 bits, and bits [63:32] of the scalar that holds it are ignored. -/
def resolve (s : State) (c : Nat) (h : W64) : Option Nat :=
  let x := h.toNat % 2 ^ 32
  if x = 0 then some (regionOfCtx s c)
  else
    let r := x % 4096
    if r = 0 ∨ bitsOf x 19 12 ≠ 0 ∨ (getRegion s r).state = .free ∨ bitsOf x 63 20 ≠ (getRegion s r).gen.toNat then none
    else some r

/-- In task mode a handle names the own region or a descendant; in supervisor mode any (05 R141). -/
def permitted (s : State) (c r : Nat) : Bool := (getArch s c).mode || inSubtree s (regionOfCtx s c) r

/-- Contexts bound to tasks of a region. -/
def boundTo (s : State) (r : Nat) : List Nat :=
  (s.ctxs.filter fun p => match p.2.bind with | some b => b.region == r | none => false).map fun p => p.1
/-- Contexts a region and its descendants hold bound (05 R121). -/
def boundCount (s : State) (r : Nat) : Nat :=
  (s.ctxs.filter fun p => match p.2.bind with | some b => inSubtree s r b.region | none => false).length

def bumpCnt (s : State) (r i : Nat) : State :=
  updRegion s r fun g => { g with cnt := mapSet g.cnt i (mapGet 0 g.cnt i + 1) }

/-! Nest records (05 R125 to R127). -/

def word (q : Quarter) (k : Nat) : Nat := (q.toNat / 2 ^ (64 * k)) % 2 ^ 64
def tripOf (q : Quarter) (d : Nat) : Nat := bitsOf (word q (2 + d / 2)) (32 * (d % 2) + 31) (32 * (d % 2))
def tripTotal (q : Quarter) : Nat := tripOf q 0 * tripOf q 1 * tripOf q 2 * tripOf q 3
def ctrl (q : Quarter) : Nat := word q 4
def orderOf (q : Quarter) (k : Nat) : Nat := bitsOf (ctrl q) (29 + 2 * k) (28 + 2 * k)
def preOf (q : Quarter) (d : Nat) : Option Nat :=
  let x := bitsOf (ctrl q) (7 * d + 6) (7 * d)
  if x / 64 = 1 then some (x % 64) else none
def depRun (q : Quarter) : Bool := (ctrl q).testBit 37
/-- Counter k of a record: DONE, DEP0, DEP1 at words 5, 6, 7. -/
def cntValid (q : Quarter) (k : Nat) : Bool := (word q (5 + k)).testBit 0
def cntAddr (q : Quarter) (k : Nat) : Nat := bitsOf (word q (5 + k)) 40 3 * 8
/-- TARGET of dependence counter k (DEP0 at word 6, DEP1 at word 7). -/
def depTarget (q : Quarter) (k : Nat) : Nat := bitsOf (word q (6 + k)) 63 41

/-- Pairwise different elements. -/
def distinct (l : List Nat) : Bool := l.eraseDups.length == l.length

/-- A malformed record (05 R126). -/
def malformed (q : Quarter) : Bool :=
  let pres := (upTo 4).filterMap (preOf q)
  bitsOf (word q 0) 63 41 != 0 || word q 0 % 16 != 0 || bitsOf (ctrl q) 63 38 != 0 ||
  bitsOf (word q 5) 2 1 != 0 || bitsOf (word q 5) 63 41 != 0 || bitsOf (word q 6) 2 1 != 0 || bitsOf (word q 7) 2 1 != 0 ||
  !distinct ((upTo 4).map (orderOf q)) || !distinct pres || pres.contains 63 || decide (2 ^ 32 < tripTotal q)

/-- The indices of iteration n in the declared order (05 R127): a position per dimension in order of speed. -/
def iterIdx (q : Quarter) (n : Nat) : List Nat :=
  let d := (upTo 4).map (orderOf q)
  let t := d.map (tripOf q)
  let c0 := n % t.getD 0 1
  let c1 := n / t.getD 0 1 % t.getD 1 1
  let c2 := n / (t.getD 0 1 * t.getD 1 1) % t.getD 2 1
  let c3 := n / (t.getD 0 1 * t.getD 1 1 * t.getD 2 1)
  let c := [c0, c1, c2, c3]
  let o := [c1 + c2 + c3, c2 + c3, c3, 0]
  let serp := (ctrl q).testBit 36
  (upTo 4).map fun dim =>
    let k := (d.idxOf dim)
    if serp && o.getD k 0 % 2 == 1 then t.getD k 1 - 1 - c.getD k 0 else c.getD k 0

/-! Nests. -/

def updNest (s : State) (n : Nat) (f : Nest → Nest) : State :=
  match mapFind s.nests n with
  | some x => { s with nests := mapSet s.nests n (f x) }
  | none => s

/-- Every iteration that is to be dispatched has been (05 R133). -/
def allOut (x : Nest) : Bool := x.place == .gone

/-- Hardware entries a region holds, those taken by launches on their way included (05 R130, R142). -/
def hwHeld (s : State) (r : Nat) : Nat :=
  (s.nests.filter fun p => p.2.region == r && (p.2.place == .hw || p.2.place == .flying none)).length
/-- Those whose records have arrived (05 R144). -/
def hwIn (s : State) (r : Nat) : Nat := (s.nests.filter fun p => p.2.region == r && p.2.place == .hw).length
def spilledOf (s : State) (r : Nat) : List (Nat × Nat) :=
  s.nests.filterMap fun p => match p.2.place with
    | .spilled k => if p.2.region = r then some (p.1, k) else none
    | _ => none
/-- The overflow slots a region's records hold, those taken by launches on their way included. -/
def slotsHeld (s : State) (r : Nat) : List Nat :=
  s.nests.filterMap fun p => match p.2.place with
    | .spilled k | .flying (some (k, _)) => if p.2.region = r then some k else none
    | _ => none

/-- A supervisor read of a counter on the region's behalf: its word, or none when it does not translate to Global or Commons
(05 R125, R133). -/
def counterAt (s : State) (r va : Nat) : Option Nat :=
  match walkPhys s (getRegion s r).root va .read with
  | some pa =>
    match classOf pa with
    | some .global => some pa
    | some .commons => if commonsOk s pa then some pa else none
    | _ => none
  | none => none

/-- The stamp of an eight-byte word. -/
def stampAt (s : State) (pa n : Nat) : Stamp := (upTo n).foldl (fun v i => stampMax v (mapGet zeroStamp s.memStamp (pa + i))) zeroStamp

/-- The state of a record's dependences: not met (a die that is being repartitioned answers nothing, 11 R286), untranslatable, or
met with the larger STAT among TORN and FAIL, and the vector of the counters (05 R134). -/
inductive Deps where
  | no
  | bad
  | met (stat : Nat) (v : Stamp)

def depsOfRecord (s : State) (x : Nest) : Deps :=
  let one (k : Nat) (acc : Deps) : Deps :=
    if !cntValid x.recd (1 + k) then acc
    else
      match acc with
      | .bad => .bad
      | a =>
        match counterAt s x.region (cntAddr x.recd (1 + k)) with
        | none => .bad
        | some pa =>
          let w := memNat s.mem pa 8
          let st1 := if w / 2 ^ 60 = 2 ∨ w / 2 ^ 60 = 3 then w / 2 ^ 60 else 0
          if busyHome s [pa] || decide (w % 2 ^ 32 < depTarget x.recd k) then .no
          else
            match a with
            | .met st v => .met (max st st1) (stampMax v (stampAt s pa 8))
            | o => o
  match one 0 (.met 0 zeroStamp) with
  | .no => match one 1 (.met 0 zeroStamp) with
    | .bad => .bad
    | _ => .no
  | a => one 1 a

/-- A record that is not ready looks at its counters again: it becomes ready, or ends at once on TORN, FAIL or a counter
that does not translate (05 R133, R134). -/
def recheckNest (s : State) (n : Nat) : State :=
  match mapFind s.nests n with
  | none => s
  | some x =>
    let here := match x.place with | .hw | .spilled _ => true | _ => false
    if x.ready || !here then s
    else
      match depsOfRecord s x with
      | .no => s
      | .bad => updNest s n fun y => { y with fail := true, place := .gone }
      | .met st v =>
        if st ≥ 2 && !depRun x.recd then
          updNest s n fun y => { y with ready := true, depVec := v, depStat := st, place := .gone }
        else if tripTotal x.recd = 0 then updNest s n fun y => { y with ready := true, depVec := v, place := .gone }
        else updNest s n fun y => { y with ready := true, depVec := v }

/-- The physical place of slot k of a region's overflow area, or none when it does not translate to Global. -/
def overflowAt (s : State) (r k : Nat) : Option Nat :=
  let g := getRegion s r
  match walkPhys s g.root ((g.ovbase.toNat + 64 * k) % 2 ^ 64) .write with
  | some pa => if classOf pa = some .global then some pa else none
  | none => none

/-- A write by the Derailleur at its home: bytes and stamp on the region's home die (01 R34, 02 R42). -/
def derWrite (s : State) (r pa : Nat) (bs : List Byte) : State :=
  let (s1, _, st) := takeWseq s (getRegion s r).home (appliedAll s)
  rawWrite s1 (cellsAt pa bs) st

def quarterBytes (q : Quarter) : List Byte := leBytes 64 q.toNat

/-- The overflow area can take one more record, at this slot: the next of the ring that no record holds (05 R130). -/
def overflowSlot (s : State) (r : Nat) : Option Nat :=
  let g := getRegion s r
  let l := slotsHeld s r
  if g.ovsize ≤ l.length then none
  else ((upTo (l.length + 1)).map fun i => (g.ovHead + i) % g.ovsize).find? fun k => !l.contains k
/-- The slot is taken: the ring goes on behind it. -/
def takeOvSlot (s : State) (r k : Nat) : State := updRegion s r fun g => { g with ovHead := k + 1 }

/-- The place of a slot takes no write now (11 R286; 14 R358). -/
def slotHeld (s : State) (r k : Nat) : Bool :=
  match overflowAt s r k with
  | some pa => holdsWrite s ((upTo 64).map fun i => pa + i)
  | none => false

/-- Write an accepted record into the overflow area at this place (05 R130). -/
def spillTo (s : State) (n k pa : Nat) : State :=
  match mapFind s.nests n with
  | none => s
  | some x => updNest (derWrite s x.region pa (quarterBytes x.recd)) n fun y => { y with place := .spilled k }
def spillAt (s : State) (n k : Nat) : State :=
  match (mapFind s.nests n).bind fun x => overflowAt s x.region k with
  | some pa => spillTo s n k pa
  | none => s

/-- The nest of a list with the least acceptance number. -/
def oldest (s : State) (l : List Nat) : Option Nat :=
  l.foldl (fun b n => match b with
    | none => some n
    | some m => if ((mapFind s.nests n).map (·.order)).getD 0 < ((mapFind s.nests m).map (·.order)).getD 0 then some n else b) none

def youngest (s : State) (l : List Nat) : Option Nat :=
  l.foldl (fun b n => match b with
    | none => some n
    | some m => if ((mapFind s.nests m).map (·.order)).getD 0 < ((mapFind s.nests n).map (·.order)).getD 0 then some n else b) none

/-- Refill: the oldest spilled record moves into a free hardware entry (05 R130). -/
def refill (s : State) (r : Nat) : State :=
  if hwHeld s r < (getRegion s r).lqmax then
    match oldest s ((spilledOf s r).map (·.1)) with
    | some n => updNest s n fun y => { y with place := .hw }
    | none => s
  else s

/-- Exchange: no hardware record has its dependences met and a spilled one has: the youngest waiting hardware record and
the oldest ready spilled one change places (05 R130). -/
def exchange (s : State) (r : Nat) : State :=
  let hw := (s.nests.filter fun p => p.2.region == r && p.2.place == .hw)
  if hw.any (fun p => p.2.ready) then s
  else
    let rdy := (spilledOf s r).filter fun p => ((mapFind s.nests p.1).map (·.ready)).getD false
    match oldest s (rdy.map (·.1)), youngest s (hw.map (·.1)) with
    | some a, some b =>
      match (spilledOf s r).find? (fun p => p.1 == a && !slotHeld s r p.2) with
      | some (_, k) => updNest (spillAt s b k) a fun y => { y with place := .hw }
      | none => s
    | _, _ => s

def settleQueue (s : State) (r : Nat) : State := exchange (refill s r) r

/-- A task saved while it waited in NWAIT has seen its counter reach its target (05 R138). -/
def latchSaved (s : State) : State :=
  { s with saved := s.saved.map fun v => match v.park with
      | some k => if k.kind == .nwait && !busyHome s [k.addr] && decide ((k.target.toNat % 2 ^ 32) ≤ memNat s.mem k.addr 4) then { v with reached := true } else v
      | none => v }

/-- After writes: every waiting record looks at its counters again, and the queues settle (05 R134, R130). -/
def recheckNests (s : State) : State :=
  let s1 := latchSaved ((s.nests.map (·.1)).foldl recheckNest s)
  let rs := ((s1.nests.filter fun p => match p.2.place with | .spilled _ => true | _ => false).map (·.2.region)).eraseDups
  rs.foldl settleQueue s1

/-- The release of a record is complete (05 R131; 02 R57): every access its launcher made before it has performed, the remote
writes of earlier commands are acknowledged, and the record's vector is covered. -/
def released (s : State) (x : Nest) : Bool :=
  (match x.launcher with
    | some (c, _) =>
      x.relDeps.isEmpty && !(s.accs.any fun a => a.ctx == c && a.eng.isNone && decide (a.id < x.relId)) &&
      !(s.fab.dirs.any fun d => d.ctx == c && dirSent d && decide (d.id < x.relId)) && !awaitsBefore s c x.relId
    | none => true) && stampCovers (appliedAll s) x.rel

/-- A nest record enters a region's queue (05 R130; 01 R34): into a hardware entry or the overflow area. -/
def newNest (r ticket : Nat) (rcd : Quarter) (launcher : Option (Nat × Nat)) (ntfy : Bool) (order : Nat) : Nest where
  region := r
  ticket := ticket
  recd := rcd
  launcher := launcher
  ntfy := ntfy
  rel := zeroStamp
  relDeps := []
  relId := 0
  wseq := 0
  left := true
  arr := 0
  order := order
  place := .arriving
  ready := false
  depVec := zeroStamp
  depStat := 0
  next := 0
  passed := 0
  ended := 0
  errs := 0
  fail := false
  torn := false
  note := false
  first := none
  complete := false
  stat := 0
  updated := false
  seq := 0
  tasksAcc := []
  tasksTag := []

/-- The ticket after t: modulo 2³², 0 skipped (05 R142). -/
def nextTicket (t : Nat) : Nat := if (t + 1) % 2 ^ 32 = 0 then 1 else (t + 1) % 2 ^ 32

/-- A record takes its place in the order of acceptance (01 R34). -/
def acceptAt (s : State) (n : Nat) : State := updNest { s with accepts := s.accepts + 1 } n fun y => { y with order := s.accepts }

/-- A launch code's word in the registers a LAUNCH has still to write becomes DEAD: code 3 without a ticket (05 R140, R142). -/
def deadUpd (q : Nat) (x : Fx) : Fx :=
  if x.seq = q then { x with upd := match x.upd with | .sreg i _ t => .sreg i 3 t | u => u } else x
def deadArch (q : Nat) (ntfy : Bool) (a : Arch) : Arch :=
  { a with fx := a.fx.map (deadUpd q), qseq := if ntfy then mapSet a.qseq 6 (mapGet 0 a.qseq 6 - 1) else a.qseq }

/-- A record that finds its region no longer LIVE is DEAD: it was never accepted, its LAUNCH returns code 3 and reserves nothing
(05 R140, R142). -/
def deadRecord (s : State) (n : Nat) : State :=
  match mapFind s.nests n with
  | none => s
  | some x =>
    let s1 := { s with nests := mapDel s.nests n }
    match x.launcher with
    | none => bumpCnt s1 x.region 0
    | some (c, serial) =>
      if ((getCtx s c).bind.map (·.serial)) != some serial then s1
      else
        let f := deadArch x.wseq x.ntfy
        let one (l : List Arch) : List Arch := if l.length = 4 then l.modify (c % 4) f else l
        updCore (updCtx s1 c fun y => { y with arch := f y.arch, qdRsv := if x.ntfy then y.qdRsv - 1 else y.qdRsv }) (coreOf c) fun k =>
          { k with conf := one k.conf, held := k.held.map fun h => { h with snap := one h.snap } }

/-- A host's record is accepted with the region's next ticket (05 R142), or refused for want of room (05 R130). -/
def acceptHost (s : State) (n : Nat) (x : Nest) : State :=
  let s1 := updRegion (updNest (acceptAt s n) n fun y => { y with ticket := (getRegion s x.region).nextTicket, rel := appliedAll s })
    x.region fun g => { g with nextTicket := nextTicket g.nextTicket }
  if hwHeld s x.region < (getRegion s x.region).lqmax then recheckNests (updNest s1 n fun y => { y with place := .hw })
  else
    match overflowSlot s x.region with
    | some k =>
      match overflowAt s x.region k with
      | some pa => if slotHeld s x.region k then s else recheckNests (spillTo (takeOvSlot (bumpCnt s1 x.region 2) x.region k) n k pa)
      | none => { bumpCnt s x.region 4 with nests := mapDel s.nests n }
    | none => { s with nests := mapDel s.nests n }

/-- A record arrives at its home die: into the entry or the slot its LAUNCH took, or as the host's; a spill waits while its
place takes no write (05 R130, R131). -/
def landRecord (s : State) (n : Nat) : State :=
  match mapFind s.nests n with
  | none => s
  | some x =>
    if !live s x.region then deadRecord s n
    else
      match x.place with
      | .arriving => if malformed x.recd then bumpCnt { s with nests := mapDel s.nests n } x.region 1 else acceptHost s n x
      | .flying none => recheckNests (updNest (acceptAt s n) n fun y => { y with place := .hw })
      | .flying (some (k, pa)) =>
        if holdsWrite s ((upTo 64).map fun i => pa + i) then s else recheckNests (spillTo (bumpCnt (acceptAt s n) x.region 2) n k pa)
      | _ => s

/-! Status of a nest (05 R133). -/

def nestStat (s : State) (x : Nest) : Nat :=
  if x.fail || x.depStat == 3 then 3
  else if x.torn || x.depStat == 2 || (getRegion s x.region).state != .live && !x.complete then 2
  else if x.note then 1 else 0

/-- Every task of the nest has ended. -/
def nestDone (x : Nest) : Bool := allOut x && x.ended == x.next && !x.complete

/-! Eligibility (05 R124). -/

def spAlign (spb : Nat) : Nat := if 0x10000 ≤ spb then 0x10000 else 0x1000

/-- The lowest free window of a core for spb bytes. -/
def windowAt (s : State) (core spb : Nat) : Option Nat :=
  let wins := (upTo 4).filterMap fun j => (getCtx s (4 * core + j)).bind.map fun b => (b.spbase, b.splen)
  (upTo (0x200000 / spAlign spb)).findSome? fun k =>
    let b := k * spAlign spb
    if b + spb ≤ 0x200000 && wins.all (fun w => decide (b + spb ≤ w.1) || decide (w.1 + w.2 ≤ b)) then some b else none

/-- Dispatch to a context's cluster is withheld by QUIESCE or a clock change (06 R172, 16 R402). -/
def withheldAt (s : State) (c : Nat) : Bool :=
  (s.withheld.any fun w => match w.kind with
    | 0 => coreOf w.ctx == coreOf c
    | 1 => clusterOf w.ctx == clusterOf c
    | _ => dieOf w.ctx == dieOf c) || (getCluster s (clusterOf c)).clkReq.isSome

/-- A context that a task of region r can be bound to, with its window (05 R124; 06 R178; 15 R379). -/
def eligible (s : State) (r c : Nat) : Option Nat :=
  let g := getRegion s r
  let x := getCtx s c
  if x.bind.isNone && x.arch.phase == .free && g.cmask.getLsbD (clusterOf c) && !(getCore s (coreOf c)).retired
      && !withheldAt s c && !(s.restoreReqs.any fun q => q.1 == c) && !s.mgt.halted.contains g.domain
      && (chain s r).all (fun a => decide (boundCount s a < (getRegion s a).ctx)) then
    windowAt s (coreOf c) g.spb
  else none

/-- The eligible context of a region: the home die first, then the lowest number (05 R135). -/
def pickCtx (s : State) (r : Nat) : Option (Nat × Nat) :=
  let l := (upTo 512).filterMap fun c => (eligible s r c).map fun w => (c, w)
  match l.find? (fun p => dieOf p.1 == (getRegion s r).home) with
  | some p => some p
  | none => l.head?

/-! Current classes (05 R136). -/

/-- An outstanding wait: the nest of the waiter (of a task restored from another device, a number no nest has), its region, and
what it waits on. -/
structure Wait where
  nest : Nat
  region : Nat
  ctx : Nat
  park : Park

/-- A parked GSYNC with the generation its task has arrived for (12 R323). -/
def withGen (s : State) (serial : Nat) (k : Park) : Park :=
  if k.kind = .gsync then { k with aux := (((mapGet .none s.fab.bars k.addr).arr.find? fun a => a.1 == serial).map fun a => a.2.1).getD k.aux } else k

/-- Every outstanding wait: parked contexts, and saved tasks that were parked. -/
def waits (s : State) : List Wait :=
  (s.ctxs.filterMap fun p => match p.2.bind, p.2.arch.park with
    | some b, some k => some ⟨b.nest, b.region, p.1, withGen s b.serial k⟩
    | _, _ => none) ++
  (s.saved.filterMap fun v => v.park.map fun k => ⟨v.bind.nest, v.bind.region, 512 + v.bind.serial, withGen s v.bind.serial k⟩)

/-- Nests not yet complete. -/
def liveNests (s : State) : List (Nat × Nest) := s.nests.filter fun p => !p.2.updated

/-- The physical word a nest's DONE names. -/
def doneAt (s : State) (x : Nest) : Option Nat := if cntValid x.recd 0 then counterAt s x.region (cntAddr x.recd 0) else none
def depAt (s : State) (x : Nest) (k : Nat) : Option Nat :=
  if cntValid x.recd (1 + k) then counterAt s x.region (cntAddr x.recd (1 + k)) else none

/-- The root of a region's tree. -/
def rootOf (s : State) (r : Nat) : Nat := (chain s r).getLastD 0

/-- A queued copy command counts on the landing counter at this scratchpad byte (10 R277). -/
def countsOn (s : State) (c addr : Nat) (k : Cmd) : Bool :=
  k.q == 2 && (k.desc.toNat / 2 ^ 416) % 2 == 1 && spAddr s c (k.desc.toNat / 2 ^ 448 % 2 ^ 32) == addr

/-- The nests a wait is directed at, before the transitive clause (05 R136; 10 R277; 11 R300; 12 R323). -/
def directedAt (s : State) (w : Wait) : List Nat :=
  match w.park.kind with
  | .waitg => []
  | .nwait => (liveNests s).filterMap fun p => if doneAt s p.2 = some w.park.addr then some p.1 else none
  | .lcwait => s.ctxs.filterMap fun p => match p.2.bind with
      | some b => if p.2.cmds.any (countsOn s p.1 w.park.addr) then some b.nest else none
      | none => none
  | .waita =>
    let root := rootOf s w.region
    s.ctxs.filterMap fun p => match p.2.bind with
      | some b => if dieOf p.1 = homeDie w.park.addr ∧ rootOf s b.region = root then some b.nest else none
      | none => none
  | .gsync => s.ctxs.filterMap fun p => match p.2.bind with
      | some b =>
        if (mapGet .none s.fab.bars w.park.addr).arr.any (fun a => a.1 == b.serial && a.2.1 == w.park.aux) then none else some b.nest
      | none => none

/-- One round of inheritance: each nest takes the classes of the waits directed at it. -/
def classStep (ws : List (Nat × List Nat)) (cl : Map Nat) : Map Nat :=
  ws.foldl (fun m w =>
    let x := mapGet 0 cl w.1
    w.2.foldl (fun m n => if mapGet 0 m n < x then mapSet m n x else m) m) cl

def classRounds (ws : List (Nat × List Nat)) : Nat → Map Nat → Map Nat
  | 0, m => m
  | n + 1, m => classRounds ws n (classStep ws m)

/-- The live nests whose DONE is named by a DEP field of nest n (05 R136). -/
def feeders (s : State) (n : Nat) : List Nat :=
  match mapFind s.nests n with
  | none => []
  | some t => (liveNests s).filterMap fun p =>
      match doneAt s p.2 with
      | some d => if depAt s t 0 = some d ∨ depAt s t 1 = some d then some p.1 else none
      | none => none

def closeUp (s : State) : Nat → List Nat → List Nat
  | 0, l => l
  | n + 1, l => closeUp s n ((l ++ l.flatMap (feeders s)).eraseDups)

/-- Each outstanding wait: the waiter's nest, and the nests it is directed at, transitively. -/
def directed (s : State) : List (Nat × List Nat) :=
  (waits s).map fun w => (w.nest, closeUp s s.nests.length (directedAt s w))

/-- The tasks bound or saved whose nest is not this device's: the number that stands for it, and the region. -/
def foreignTasks (s : State) : List (Nat × Nat) :=
  ((s.ctxs.filterMap fun p => p.2.bind) ++ s.saved.map (·.bind)).filterMap fun b =>
    if (mapFind s.nests b.nest).isNone then some (b.nest, b.region) else none

/-- The current class of every nest: the least values meeting R136 of 05. -/
def classes (s : State) : Map Nat :=
  let groups := s.nests.map (fun p => (p.1, p.2.region)) ++ foreignTasks s
  classRounds (directed s) groups.length (groups.foldl (fun m p => mapSet m p.1 (getRegion s p.2).cls) ([] : Map Nat))

/-- The largest class a nest inherits from the waits directed at it. -/
def inherited (s : State) (cl : Map Nat) (n : Nat) : Nat :=
  (directed s).foldl (fun m w => if w.2.contains n then max m (mapGet 0 cl w.1) else m) 0

def classOfCtx (s : State) (cl : Map Nat) (c : Nat) : Nat :=
  match (getCtx s c).bind with
  | some b => mapGet 0 cl b.nest
  | none => 0

/-- The issue class of a context: max(min(REQ, C), I) (06 R150). -/
def issueClass (s : State) (cl : Map Nat) (c : Nat) : Nat :=
  match (getCtx s c).bind with
  | none => 0
  | some b =>
    max (min (getArch s c).prio.toNat (getRegion s b.region).cls) (inherited s cl b.nest)

/-- The next queue an engine serves: highest current class, then round robin after the last one served (01 R16). -/
def rrPick (s : State) (cl : Map Nat) (last : Nat) (l : List Nat) : Option Nat :=
  let top := l.foldl (fun m c => max m (classOfCtx s cl (c % 512))) 0
  let l := sortNat (l.filter fun c => classOfCtx s cl (c % 512) == top)
  match l.find? (fun c => decide (last < c)) with
  | some c => some c
  | none => l.head?

end Sys2Proof.Machine
end

