-- ==== Sys2Proof/Machine/Homes.lean ====
section
/-!
DEFINITION. Machine/Homes.lean: applying a write at its home with its watches and dependence counters, the stamping point, and
performing pending accesses (spec files 02, R42 to R57; 11, R298; 14, R358).
-/
namespace Sys2Proof.Machine
open Sys2Proof

/-- The bank of a Commons byte (11 R284). -/
def bankOf (s : State) (pa : Nat) : Nat := (pa - 0x8000000000) % 0x10000000 / 256 % ((getCommons s (homeDie pa)).cur.toNat * 32)

/-- Arrival number a is older than b (11 R297). -/
def olderArrival (a b : BitVec 16) : Bool := let d := (b - a).toNat; decide (1 ≤ d ∧ d ≤ 32767)

/-- Watches wake together, carrying what val gives: those of one bank leave it one per cycle in arrival order, and each makes its
context ready 22 cycles on, or 34 on another die. A wake that carries the expected value counts as spurious (11 R299). -/
def wakeThese (s : State) (hit : Watch → Bool) (val : Watch → W64 × Stamp) : State :=
  let n := s.watches.foldl (fun m w => match w.woke with | some x => max m (x.write + 1) | none => m) 0
  let goes (w : Watch) : Bool := w.woke.isNone && hit w
  let wake (w : Watch) : Watch :=
    if goes w then
      let k := (s.watches.filter fun y => goes y && y.die == w.die && y.bank == w.bank && olderArrival y.arrival w.arrival).length
      { w with woke := some ⟨(val w).1, (val w).2, n, ccyOf s w.ctx + (if dieOf w.ctx = w.die then 22 else 34) + k⟩ }
    else w
  let spur (d : Nat) : Nat := (s.watches.filter fun w => goes w && w.die == d && (val w).1 == w.expected).length
  (upTo 4).foldl (fun t d => if spur d = 0 then t else
    { t with commons := mapSet t.commons d { getCommons t d with spurious := (getCommons t d).spurious + BitVec.ofNat 32 (spur d) } })
    { s with watches := s.watches.map wake }

/-- The watches a write wakes (11 R298): exact ones whose word now differs, and every coarse one of the bank. -/
def wakeWatches (s : State) (cells : List (Nat × Byte)) (st : Stamp) : State :=
  let com := cells.filter fun p => decide (0x8000000000 ≤ p.1) && decide (p.1 < 0x8040000000)
  if com.isEmpty || s.watches.isEmpty then s
  else
    let banks := (com.map fun p => (homeDie p.1, bankOf s p.1)).eraseDups
    let val (w : Watch) : W64 × Stamp := (w64 (memNat s.mem w.addr w.w), stampMax st (stampAt s w.addr w.w))
    wakeThese s (fun w => if w.coarse then banks.contains (w.die, w.bank)
      else com.any (fun p => decide (w.addr ≤ p.1) && decide (p.1 < w.addr + w.w)) && (val w).1 != w.expected) val

/-- Apply a write at its home (02 R43; 05 R134; 11 R298; 14 R358). The caller has seen that no byte is held. -/
def homeWrite (s : State) (cells : List (Nat × Byte)) (st : Stamp) (hint : BitVec 2 := 0) : State :=
  if cells.isEmpty then s
  else
    recheckNests (wakeWatches (rawWrite s cells st hint) cells st)

/-- A write by a unit of die d with vector v: it takes the die's next number and is applied (02 R42). -/
def unitWrite (s : State) (d : Nat) (cells : List (Nat × Byte)) (v : Stamp) (hint : BitVec 2 := 0) : State × Stamp :=
  let (s1, _, st) := takeWseq s d v
  (homeWrite s1 cells st hint, st)

/-! Performing pending accesses. -/

def getAcc (s : State) (id : Nat) : Option Access := s.accs.find? fun x => x.id == id

/-- The access has its place in memory order: its loads have performed and its vector is covered (02 R43, R50). -/
def accCovered (s : State) (x : Access) : Bool := x.deps.isEmpty && stampCovers (appliedAll s) x.vec

def overlaps (l m : List Nat) : Bool := l.any fun a => m.any fun b => a / 8 == b / 8

/-- A strong access's further conditions: it performs after every earlier access of the context, and with PEER in its mask after
every earlier remote write has been acknowledged (02 R57, R67; 07 R191). -/
def strongReady (s : State) (x : Access) : Bool :=
  match x.strong with
  | none => true
  | some m => !earlierAcc s x.ctx x.id && (!m.getLsbD 4 || !awaitsBefore s x.ctx x.id)

/-- A read may perform (02 R38, R39, R43, R56; 14 R358). -/
def canRead (s : State) (x : Access) : Bool :=
  x.kind == .rd && (!x.host || x.wseq.isSome) && accCovered s x && !earlierStrongRead s x.ctx x.id && strongReady s x
    && !holdsRead s x.addrs && forwards s x.ctx x.id x.addrs
    && !(s.accs.any fun y => y.ctx == x.ctx && y.eng.isNone && decide (y.id < x.id) &&
      (match y.kind with | .wr => x.host | _ => true) && overlaps y.addrs x.addrs)

/-- A write or atomic may be applied: it has left its core, and its vector is covered (02 R43, R56, R57). -/
def canApply (s : State) (x : Access) : Bool :=
  x.kind != .rd && x.wseq.isSome && !busyHome s x.addrs && accCovered s x && !earlierStrongRead s x.ctx x.id && strongReady s x
    && (x.kind == .wr || !holdsRead s x.addrs)
    && !(s.accs.any fun y => y.ctx == x.ctx && y.eng.isNone && decide (y.id < x.id) && y.kind != .rd && overlaps y.addrs x.addrs)

/-- The commands and launches the context has made after access id carry a vector (02 R44, R59; 05 R131). -/
def joinLater (s : State) (c id : Nat) (v : Stamp) : State :=
  if 512 ≤ c then s else
  let cmd (k : Cmd) : Cmd := if id < k.before then { k with base := stampMax k.base v } else k
  let s1 := updCtx s c fun x => { x with cmds := x.cmds.map cmd }
  let s2 := updCore s1 (coreOf c) fun k => { k with held := k.held.map fun h => match h.eff with
    | .push q => if h.ctx = c then { h with eff := .push (cmd q) } else h
    | _ => h }
  { s2 with nests := s2.nests.map fun p => if (p.2.launcher.map (·.1)) == some c && decide (id < p.2.relId) then
      (p.1, { p.2 with rel := stampMax p.2.rel v }) else p }

/-- B takes a vector, and so does all that the context has made from access id on: an acquire or release orders it (02 R44, R51,
R56). -/
def raiseFrom (s : State) (c id : Nat) (v : Stamp) : State :=
  let s1 := joinLater (updArch s c fun a => { a with base := stampMax a.base v }) c id v
  { s1 with accs := s1.accs.map fun x => if x.ctx = c ∧ x.eng.isNone ∧ id ≤ x.id then { x with vec := stampMax x.vec v } else x }

/-! The stamping point (02 R42, R44). -/

/-- The next write of a context to pass the stamping point, once it has left the core: behind a strong load it is held in the
pipe (07 R191), and a strong one waits for its release first (07 R191, R195). -/
def nextStamped (s : State) (c : Nat) : Option Access :=
  match s.accs.find? fun x => x.ctx == c && x.eng.isNone && x.kind != .rd && !x.host && x.wseq.isNone with
  | some x => if x.out && x.deps.isEmpty && !earlierStrongRead s c x.id && strongReady s x then some x else none
  | none => none

/-- A write passes it: the context's previous write enters its vector, and it takes its die's next number. Those of a task that
has ended carry the stamp on themselves. -/
def stampOne (s : State) (x : Access) : State :=
  let gone := decide (512 ≤ x.ctx)
  let v := if gone then x.vec else stampMax x.vec (getCtx s x.ctx).lastWrite
  let (s1, n, st) := takeWseq s x.die v
  let s2 := if gone then s1 else updCtx s1 x.ctx fun y => { y with lastWrite := st }
  joinLater { s2 with accs := s2.accs.map fun z => if z.id = x.id then { z with vec := v, wseq := some n }
    else if gone ∧ z.ctx = x.ctx then { z with vec := stampMax z.vec st } else z } x.ctx x.id st

def stampLoop : Nat → State → Nat → State
  | 0, s, _ => s
  | n + 1, s, c => match nextStamped s c with
    | some x => stampLoop n (stampOne s x) c
    | none => s
/-- Every write of a context that may now pass the stamping point does, in program order. -/
def stampWrites (s : State) (c : Nat) : State := stampLoop s.accs.length s c

/-- The first strong access of the context that follows word seq and has not performed (02 R51). -/
def strongAfter (s : State) (c seq : Nat) : Option Nat :=
  (((s.accs.filter fun x => x.ctx == c && x.eng.isNone && x.strong.isSome && decide (seq < x.seq)).map (·.id)) ++
    ((s.fab.dirs.filter fun d => dirOpen d && d.ctx == c && d.strong && decide (seq < d.seq)).map (·.id))).foldl
    (fun b i => match b with | none => some i | some j => some (min i j)) none

/-- The load made by word seq of a context has performed with this stamp: its slot takes the stamp, what waited for it carries
the stamp instead (02 R43, R50), and a strong access behind it takes the stamp into B (02 R51). -/
def loadDone (s : State) (c seq : Nat) (st : Stamp) : State :=
  if 512 ≤ c then s else
  let s := match strongAfter s c seq with
    | some id => raiseFrom s c id st
    | none => s
  let drop (l : List (Nat × Nat)) : List (Nat × Nat) := l.filter fun d => d != (c, seq)
  let s1 := { s with accs := s.accs.map fun x =>
    if x.deps.contains (c, seq) then { x with deps := drop x.deps, vec := stampMax x.vec st } else x }
  let s2 := updCtx s1 c fun x => { x with
    cmds := x.cmds.map fun k => if k.deps.contains (c, seq) then { k with deps := drop k.deps, base := stampMax k.base st } else k
    arch := { x.arch with
      slots := x.arch.slots.map fun p =>
        if p.2.pend == some seq then (p.1, { p.2 with pend := none, stamp := if p.2.dev.isNone then st else zeroStamp }) else p } }
  let s2 := updCore s2 (coreOf c) fun k => { k with held := k.held.map fun h => match h.eff with
    | .push q => if q.deps.contains (c, seq) then { h with eff := .push { q with deps := drop q.deps, base := stampMax q.base st } } else h
    | _ => h }
  { s2 with
    fab := { s2.fab with dirs := s2.fab.dirs.map fun d => { d with deps := drop d.deps } }
    nests := s2.nests.map fun p => if p.2.relDeps.contains (c, seq) then (p.1, { p.2 with relDeps := drop p.2.relDeps, rel := stampMax p.2.rel st }) else p }

def dropAcc (s : State) (id : Nat) : State := { s with accs := s.accs.filter fun x => x.id != id }

/-- A load or atomic met uncorrectable data: its destination stays, its token clears, and the fault is context-fatal
with cause 0x02 (07 R189). -/
def poisonFault (s : State) (x : Access) : State :=
  let s1 := updArch (dropAcc s x.id) x.ctx fun a => { a with
    tok := match x.token with | some t => a.tok &&& ~~~(1#8 <<< t) | none => a.tok
    block := if a.block = some x.seq then none else a.block }
  contextFatal s1 x.ctx 2 (w64 (x.addrs.headD 0))

/-- Land the value of a read (01 R19; 06 R174). A strong one is an acquire: B, and every later access of the context, take its
stamp and those of the live slots (02 R44, R56). -/
def finishRead (s : State) (x : Access) (bs : List Byte) (st : Stamp) : State :=
  let s1 := loadDone (dropAcc s x.id) x.ctx x.seq st
  let s2 := if x.strong.isSome then raiseFrom s1 x.ctx x.id (stampMax st (liveStamps s1 x.ctx)) else s1
  match x.dest with
  | .none => s2
  | _ => addLanding s2 ⟨x.ctx, x.seq, destUpds x.dest bs, x.token, x.slot.map fun j => (j, st, none),
      if x.strong.isSome then some st else none⟩

/-! Atomics (07 R195, R196). -/

/-- The word an AMO writes. -/
def amoNew (op w old a : Nat) : Nat :=
  let n := 8 * w
  let so := intOfBits true n old
  let sa := intOfBits true n a
  match op with
  | 0 => (old + a) % 2 ^ n
  | 1 => old &&& (a % 2 ^ n)
  | 2 => old ||| (a % 2 ^ n)
  | 3 => old ^^^ (a % 2 ^ n)
  | 4 => intBits n (min so sa)
  | 5 => intBits n (max so sa)
  | 6 => min old (a % 2 ^ n)
  | 7 => max old (a % 2 ^ n)
  | _ => a % 2 ^ n

/-- The bytes an atomic writes over the old ones, or none when a comparison fails. -/
def atomicNew (k : AccKind) (old : List Byte) : Option (List Byte) :=
  let x := leNat old
  match k with
  | .amo op w a => some (leBytes w (amoNew op w x a.toNat))
  | .cas w c n => if x = c.toNat % 2 ^ (8 * w) then some (leBytes w n.toNat) else none
  | .cas2 c0 c1 n0 n1 =>
    if x = c0.toNat + c1.toNat * 2 ^ 64 then some (leBytes 8 n0.toNat ++ leBytes 8 n1.toNat) else none
  | _ => none

/-! Reports of the device (15 R382, R383; 16 R397). -/

/-- The host's accesses stand under this number, beside no context. -/
def hostCtx : Nat := 512
/-- The accesses of the device's own units stand under this number, beside no context; what a task left behind when it ended
stands under its own (its serial number and context). -/
def unitCtx : Nat := 513
def orphan (serial c : Nat) : Nat := 1024 + 512 * serial + c

/-- A write by a unit of die d, which waits its turn where its home takes none (11 R286; 14 R358); a strong one waits for all the
unit has written before. -/
def laterWrite (s : State) (d : Nat) (cells : List (Nat × Byte)) (v : Stamp) (strong : Bool := false) : State :=
  let addrs := cells.map (·.1)
  if holdsWrite s addrs || s.accs.any (fun x => x.ctx == unitCtx) then
    let (s1, n, _) := takeWseq s d v
    addAcc s1 {
      id := s1.nextId, ctx := unitCtx, seq := 0, eng := none, die := d, kind := .wr, cells := cells, addrs := addrs, vec := v, deps := [],
      wseq := some n, out := true, strong := if strong then some 0 else none, host := false, dest := .none, token := none, slot := none,
      deferred := false, va := w64 (addrs.headD 0), hint := 0 }
  else (unitWrite s d cells v).1

/-- Write a record of a time into the fault log: the record, then HEAD, which raises vector 1; a full log counts DROP, and
no log discards (15 R382, R383; 16 R395). -/
def flogAt (s : State) (gts : W64) (src kind cause dom : Nat) (ws : List W64) : State :=
  let base := s.mgt.flogBase
  if s.mgt.flogSize = 0 then s
  else
    let head := s.mgt.flogHead
    let d := homeDie base
    if head - w64 (memNat s.mem (base + 8) 8) = w64 (2 ^ s.mgt.flogSize) then
      let s1 := laterWrite s d (cellsAt (base + 16) (leBytes 8 (s.mgt.flogDrop + 1).toNat)) (appliedAll s)
      { s1 with mgt := { s1.mgt with flogDrop := s1.mgt.flogDrop + 1 } }
    else
      let bs := leBytes 8 gts.toNat ++ leBytes 8 (s.devno * 2 ^ 10 + src + kind * 2 ^ 32 + cause * 2 ^ 40 + dom * 2 ^ 48)
        ++ ((upTo 6).flatMap fun i => leBytes 8 (ws.getD i 0).toNat)
      let s1 := laterWrite s d (cellsAt (base + 64 + 64 * (head.toNat % 2 ^ s.mgt.flogSize)) bs) (appliedAll s)
      let s2 := laterWrite s1 d (cellsAt base (leBytes 8 (head + 1).toNat)) (appliedAll s1) true
      { s2 with mgt := { s2.mgt with flogHead := head + 1, irqs := s2.mgt.irqs ++ [1] } }
def flogRecord (s : State) (src kind cause dom : Nat) (ws : List W64) : State := flogAt s s.gts src kind cause dom ws

/-- The mailbox status word after a command (16 R397): 0 done, 1 busy, 2 refused. -/
def mbWord (st reason tag code : Nat) : W64 := w64 (st * 2 ^ 60 + reason * 2 ^ 48 + tag % 2 ^ 32 * 2 ^ 16 + code)

/-- A mailbox command finishes: status, result and vector 0. -/
def mbFinish (s : State) (st reason tag code : Nat) (res : List W64) : State :=
  { s with mgt := { s.mgt with mbStat := mbWord st reason tag code, mbRes := res, irqs := s.mgt.irqs ++ [0], mbWait := none } }

/-- The Derailleur has updated a completion counter: an armed slot's bit is set and vector 2 raised (16 R397). -/
def cntIrq (s : State) (pa : Nat) : State :=
  let hit := s.mgt.slots.filter fun p => p.2 == pa && pa != 0
  if hit.isEmpty then s
  else { s with mgt := { s.mgt with
    pending := hit.foldl (fun b p => b ||| (1#16 <<< p.1)) s.mgt.pending
    irqs := s.mgt.irqs ++ [2] } }

end Sys2Proof.Machine
end

