-- ==== Sys2Proof/Machine/Queue.lean ====
section
/-!
DEFINITION. Machine/Queue.lean: building and pushing commands, walk descriptors, starting and completing commands, and
result elements (spec files 01, R14 to R18; 02, R59 to R63; 03, R85 to R87; 06, R161; 07, R184).
-/
namespace Sys2Proof.Machine
open Sys2Proof

/-! Result elements. -/

/-- A status word (01 R17). -/
def statWord (status cause seq info : Nat) : W64 :=
  w64 (status * 2 ^ 60 + cause * 2 ^ 48 + seq % 2 ^ 16 * 2 ^ 32 + info % 2 ^ 32)

/-- The unit a queue's reports name (01 R11, R14). -/
def unitOfQueue (c q : Nat) : Nat :=
  match q with
  | 0 => 0x280 + clusterOf c
  | 1 => 0x2C0 + clusterOf c
  | 2 => 0x300 + clusterOf c
  | 3 => 0x340 + 8 * dieOf c + 1
  | 4 => 0x340 + 8 * dieOf c + 4
  | 5 => 0x340 + 8 * dieOf c + 2
  | _ => 0x340 + 8 * dieOf c

/-- A discarded element of an EXITING context counts towards its nest (05 R133, 06 R161); one of a cancelled task is
not delivered at all (05 R139). -/
def discard (x : Ctx) (c : Nat) (e : Elem) : Ctx :=
  if x.cancelled then x
  else
    let st := statusOf e
    { x with
      discStat := max x.discStat st
      discFail := x.discFail || st == 3 || st == 4
      discNote := x.discNote || st == 1
      discFirst := if x.discFirst.isNone && (st == 3 || st == 4) then some (unitOfQueue c e.q, bitsOf e.stat.toNat 55 48)
        else x.discFirst }

/-- Move held elements onto a queue while there is room (01 R18). -/
def settleAll : Nat → Ctx → Nat → Ctx
  | 0, x, _ => x
  | n + 1, x, q => settleAll n (settle x q) q

/-- The result elements present are discarded, with those that waited for room (05 R133; 06 R161). -/
def discardAll (x : Ctx) (c : Nat) : Ctx :=
  let take (y : Ctx) : Ctx := { y.res.foldl (fun y e => discard y c e) y with res := [] }
  take ((upTo 6).foldl (settleAll 16) (take x))

/-- An element is written: onto its result queue, or discarded when the context is EXITING. -/
def putElem (s : State) (c : Nat) (e : Elem) : State :=
  updCtx s c fun x => if x.arch.phase == .exiting then discard x c e else { x with res := x.res ++ [e] }

/-- A command completes with an element: it leaves its queue, or stays with the element while the result queue is full. -/
def finishCmd (s : State) (c : Nat) (k : Cmd) (status cause info : Nat) (val : W64) : State :=
  let e : Elem := ⟨k.q, statWord status cause k.seq info, val, k.stamp, ccyOf s c⟩
  updCtx s c fun x =>
    let drop : Ctx := { x with cmds := x.cmds.filter fun y => !(y.q == k.q && y.seq == k.seq) }
    if x.arch.phase == .exiting then discard drop c e
    else if (x.res.filter fun r => r.q == k.q).length < 16 then { drop with res := drop.res ++ [e] }
    else { x with cmds := x.cmds.map fun y => if y.q == k.q && y.seq == k.seq then { k with held := some e } else y }

/-- A command leaves its queue without an element. -/
def dropCmd (s : State) (c : Nat) (k : Cmd) : State :=
  updCtx s c fun x => { x with cmds := x.cmds.filter fun y => !(y.q == k.q && y.seq == k.seq) }

def setCmd (s : State) (c : Nat) (k : Cmd) : State :=
  updCtx s c fun x => { x with cmds := x.cmds.map fun y => if y.q == k.q && y.seq == k.seq then k else y }

/-- An element whose value word the spec does not state: a free value (log entry 1). -/
def finishFree (s : State) (c : Nat) (k : Cmd) (status cause info : Nat) : State :=
  let (s1, fv) := takeFree s
  finishCmd s1 c k status cause info fv

/-- Every other entry of a queue completes FLAGGED (01 R17). -/
def flagRest (s : State) (c q : Nat) : State :=
  let l := (cmdsOf s c q).filter fun k => k.held.isNone
  l.foldl (fun t k => finishFree t c k 4 0 0) s

/-- A queue-fatal failure: the element, then FLAGGED for what follows. -/
def failCmd (s : State) (c : Nat) (k : Cmd) (cause info : Nat) (val : W64) : State :=
  flagRest (finishCmd s c k 3 cause info val) c k.q

/-- One whose value word the spec does not state. -/
def failFree (s : State) (c : Nat) (k : Cmd) (cause info : Nat) : State :=
  flagRest (finishFree s c k 3 cause info) c k.q

/-! Descriptors (03 R85 to R87). -/

/-- Field f of a descriptor. -/
def dField (d : Quarter) (f : Nat) : Nat := d.toNat / 2 ^ (32 * f) % 2 ^ 32
def dSigned (d : Quarter) (f : Nat) : Int := (BitVec.ofNat 32 (dField d f)).toInt
def dTrip (d : Quarter) (k : Nat) : Nat := dField d k
def dEsize (d : Quarter) : Nat := dField d 12 % 16
def dSfmt (d : Quarter) : Nat := bitsOf (dField d 12) 13 8
def dDfmt (d : Quarter) : Nat := bitsOf (dField d 12) 21 16
def dEng (d : Quarter) : Nat := bitsOf (dField d 13) 7 4
def dLcen (d : Quarter) : Bool := (dField d 13).testBit 0
def dTotal (d : Quarter) : Nat := dTrip d 0 * dTrip d 1 * dTrip d 2 * dTrip d 3

/-- The indices of element n of a walk (03 R86). -/
def walkIdx (d : Quarter) (n : Nat) : List Nat :=
  [n % dTrip d 0, n / dTrip d 0 % dTrip d 1, n / (dTrip d 0 * dTrip d 1) % dTrip d 2, n / (dTrip d 0 * dTrip d 1 * dTrip d 2)]

/-- The displacement of element n on the source side (base field 4) or the destination side (base field 8). -/
def walkOff (d : Quarter) (side n : Nat) : Int :=
  let i := walkIdx d n
  (upTo 4).foldl (fun x k => x + (i.getD k 0 : Int) * dSigned d (side + k)) 0

/-- The address of element n. -/
def walkAddr (base : W64) (d : Quarter) (side n : Nat) : W64 := BitVec.ofInt 64 (base.toNat + walkOff d side n)

/-- The stride field a fault at element n names: the lowest dimension whose index is not zero (03 R87). -/
def strideField (d : Quarter) (side n : Nat) : Nat :=
  side + ((upTo 4).find? fun k => (walkIdx d n).getD k 0 != 0).getD 0

def walkFault (field : Nat) : Except Stop α := .error (.trap 0x09 0 (w64 field) false [])
/-- Raise a walk-descriptor fault on a field when a condition holds. -/
def faultIf (b : Bool) (field : Nat) : Except Stop Unit := if b then walkFault field else .ok ()

/-- Type codes reserved in every instruction (03 R79). -/
def codeReserved (c : Nat) : Bool :=
  [0x07, 0x08, 0x0E, 0x0F].contains c || decide (0x1A ≤ c ∧ c ≤ 0x20) || decide (0x24 ≤ c ∧ c ≤ 0x28)
    || decide (0x2C ≤ c ∧ c ≤ 0x31) || decide (0x3A ≤ c)

/-- Reserved bits and values of the format and flag fields, then what the engine does not accept in them (03 R87). Of one case's
two fields the lower number is reported: DESIGN CHOICE (log entry 30). -/
def descForm (d : Quarter) (okFmt : Bool) (engOk : Nat → Bool) (lcen : Bool) : Except Stop Unit := do
  let m := dField d 12
  faultIf (bitsOf m 31 22 != 0 || bitsOf m 15 14 != 0 || bitsOf m 7 4 != 0 || decide (6 < dEsize d)
    || codeReserved (dSfmt d) || codeReserved (dDfmt d)) 12
  let g := dField d 13
  faultIf (bitsOf g 31 8 != 0 || bitsOf g 3 2 != 0) 13
  faultIf (!okFmt) 12
  faultIf (g.testBit 1 || (!lcen && g.testBit 0) || !engOk (dEng d)) 13

def descTotal (d : Quarter) : Except Stop Unit := do
  let t (k : Nat) : Nat := (upTo (k + 1)).foldl (fun x i => x * dTrip d i) 1
  match (upTo 4).find? fun k => decide (2 ^ 32 < t k) with
  | some k => if 2 ^ 32 < dTotal d then walkFault k else .ok ()
  | none => .ok ()

/-- The class of a base address for a walk: remote, scratchpad, or the class its page has. -/
inductive WalkCls where
  | remote
  | loc (c : Cls)
  deriving DecidableEq, Repr

/-- The page an address lies in: its size level and its number, from the cache or else the tables. -/
def pageOf (s : State) (c va : Nat) : Nat × Nat :=
  match tlbFind (getCore s (coreOf c)) (ctxRoot s c) va with
  | some e => (e.level, e.vpage)
  | none => match walk s (ctxRoot s c) va with
    | .ok e => (e.level, e.vpage)
    | .error _ => (0, va / 0x10000)

/-- The first address, in order, that touches a ninety-seventh page, given the pages seen before it. -/
def page97 (s : State) (c : Nat) : List (Nat × Nat) → List (Nat × Acc) → Option (Nat × Acc)
  | _, [] => none
  | seen, p :: t =>
    let g := pageOf s c p.1
    if seen.contains g then page97 s c seen t
    else if 96 ≤ seen.length then some p
    else page97 s c (g :: seen) t

/-- Distinct pages of a command beyond 96 raise REASON 0x9 (07 R184). -/
def pageLimit (s : State) (c : Nat) (l : List (Nat × Acc)) : Except Stop Unit :=
  match page97 s c [] l with
  | some p => .error (.trap 0x03 0 (xlateTval none p.2 9 p.1) false [])
  | none => .ok ()

/-- Translate a list of virtual addresses in its order, each for its access: the first that fails gives the fault (07 R183). -/
def pushPages (s : State) (c : Nat) : List (Nat × Acc) → Except Stop (List Nat)
  | [] => .ok []
  | p :: t => do
    let a ← pagesOf s c p.2 none [p.1]
    let l ← pushPages s c t
    .ok (a ++ l)

/-- One side of a walk as the push checks it: the elements' address, size and the side's base field (03 R87, 07 R183,
R187). The class of the base decides; every element must lie in it. -/
structure Side where
  base : W64
  side : Nat
  acc : Acc
  allowed : Cls → Bool
  remote : Bool
  addr : Nat → W64

/-- The class of a side's base, as far as its form gives it: none for an address that is translated. -/
def baseForm (w : Side) : Except Stop (Option WalkCls) :=
  let b := w.base.toNat
  if 2 ^ 63 ≤ b then (if !w.remote then .error (.trap 0x05 0 w.base false []) else .ok (some .remote))
  else if 2 ^ 41 ≤ b then .error (.trap 0x04 0 w.base false [])
  else if b < 0x200000 then
    if w.allowed .scratch then .ok (some (.loc .scratch)) else .error (.trap 0x05 0 w.base false [])
  else .ok none

/-- The class of a side's base. -/
def baseCls (s : State) (c : Nat) (w : Side) : Except Stop WalkCls := do
  let b := w.base.toNat
  match ← baseForm w with
  | some k => .ok k
  | none =>
    let pas ← pagesOf s c w.acc none [b]
    match classOf (pas.headD 0) with
    | some cl =>
      if !w.allowed cl then .error (.trap 0x05 0 w.base false [])
      else if cl == .commons && !commonsOk s (pas.headD 0) then .error (.trap 0x08 0 w.base false [])
      else .ok (.loc cl)
    | none => .error (.trap 0x05 0 w.base false [])

/-- An element is misaligned (03 R87). -/
def elemMisaligned (w : Side) (esz n : Nat) : Bool := (w.addr n).toNat % min esz 64 != 0

/-- An element lies outside the window or outside the class of its base (03 R87). A remote element at another peer than its
base's counts as outside: DESIGN CHOICE (log entry 31). -/
def elemBad (s : State) (c : Nat) (w : Side) (cl : WalkCls) (esz : Nat) (n : Nat) : Bool :=
  let a := w.addr n
  let x := a.toNat
  match cl with
  | .remote => decide (x < 2 ^ 63) || decide (2 ^ 63 < x + esz - 2 ^ 63) || x / 2 ^ 41 != w.base.toNat / 2 ^ 41 || (x + esz - 1) / 2 ^ 41 != x / 2 ^ 41
  | .loc .scratch => decide (spLen s c < x + esz)
  | .loc k => decide (x < 0x200000) || decide (2 ^ 41 < x + esz) ||
      (match translate s c x w.acc, translate s c (x + esz - 1) w.acc with
        | .hit p, .hit q => classOf p != some k || classOf q != some k || parityPage s p && accWrites w.acc
        | _, _ => false)

/-- The local addresses an element of a side is translated at. -/
def elemPages (w : Side) (esz n : Nat) : List (Nat × Acc) :=
  if w.base.toNat < 0x200000 ∨ 2 ^ 63 ≤ w.base.toNat then []
  else
    let x := (w.addr n).toNat
    if x < 0x200000 ∨ 2 ^ 41 < x + esz then []
    else (if x / 0x10000 = (x + esz - 1) / 0x10000 then [x] else [x, (x + esz - 1) / 0x10000 * 0x10000]).map fun a => (a, w.acc)

/-- The push checks of a walk with the given sides (source before destination), after the format checks (03 R87; 07
R184; 11 R286). The answer is the class of each side and the virtual pages pinned. -/
def checkWalk (s : State) (c : Nat) (d : Quarter) (esz : Nat) (sides : List Side) : Except Stop (List WalkCls × List Nat) := do
  descTotal d
  match (upTo (dTotal d)).findSome? fun i => sides.findSome? fun w =>
      if elemMisaligned w esz i then some (strideField d w.side i) else none with
  | some f => walkFault f
  | none => .ok ()
  let _ ← sides.mapM baseForm
  let n := upTo (dTotal d)
  let vas := n.flatMap fun i => sides.flatMap fun w => elemPages w esz i
  pageLimit s c vas
  let cls ← sides.mapM (baseCls s c)
  let ws := sides.zip cls
  let _ ← pushPages s c vas
  match n.findSome? fun i => ws.findSome? fun p => if elemBad s c p.1 p.2 esz i then some (strideField d p.1.side i) else none with
  | some f => walkFault f
  | none => .ok ()
  for p in ws do
    let l ← pushPages s c (n.flatMap (elemPages p.1 esz))
    if p.2 == .loc .commons && l.any (fun q => !commonsOk s q) then .error (.trap 0x08 0 p.1.base false [])
  .ok (cls, (vas.map fun p => p.1 / 0x10000).eraseDups)

/-! Pushing (01 R15; 02 R59, R60). -/

/-- The observer bit of an engine's queue (02 R37). -/
def queueBit (q : Nat) : Nat := match q with | 0 => 2 | 1 => 2 | 2 => 1 | 3 => 0 | 4 => 4 | _ => 3

/-- The operands of a word, in order. -/
def opsOf (f : Fields) : List Operand := [f.o1, f.o2, f.o3, f.o4, f.o5]

/-- The command a word pushes: its operands read now, with their taint (02 R59). -/
def mkCmd (s : State) (c : Nat) (f : Fields) (q : Nat) (i : Instr) (desc : Quarter) : Cmd :=
  let a := getArch s c
  let t := srcTaint a f (opsOf f) ||| a.cT
  { q := q, seq := mapGet 0 a.qseq q % 2 ^ 16, instr := i,
    x1 := valOf a f.o1, x2 := valOf a f.o2, x3 := valOf a f.o3, x4 := valOf a f.o4, x5 := valOf a f.o5,
    desc := desc, vec := 0, mask := 0, list := [], taint := t, base := accVec a t, deps := depsOf a c t,
    rs := ⟨0, 0, 0⟩, gts := s.gts, before := s.nextId, started := false, prog := 0, fired := 0, gateOpen := false,
    gateF := 0, gateP := false, promise := 0, missed := false, flags := 0, stamp := zeroStamp, err := 0, aux := [],
    pins := [], held := none }

/-- Push a command: it waits for room and for the fence, takes its SEQ, and is held for the checker (01 R15, R17; 06
R173). -/
def pushCmd (s : State) (c : Nat) (k : Cmd) : Except Stop State := do
  let s ← fenceGate s c (some (queueBit k.q))
  if 16 ≤ occupied s c k.q then .error .stall
  else
    let s1 ← holdEff s c (.push k)
    .ok (updArch s1 c fun a => { a with qseq := mapSet a.qseq k.q (mapGet 0 a.qseq k.q + 1) })

/-- A word's vector quarter operand: a walk descriptor. -/
def descOf (a : Arch) (o : Operand) : Quarter := quarterOf (rdV a (idxOf o)) (qOf o)

/-! qd entries (05 R141). -/

def qdRoom (s : State) (c : Nat) : Bool := decide ((resOf s c 6).length + (getCtx s c).qdRsv < 16)

/-- Reserve a qd entry and hold the request for the Derailleur. -/
def pushQd (s : State) (c : Nat) (k : Cmd) : Except Stop State := do
  if !qdRoom s c then .error .stall
  else
    let s1 ← holdEff s c (.push k)
    let s2 := updArch s1 c fun a => { a with qseq := mapSet a.qseq 6 (mapGet 0 a.qseq 6 + 1) }
    .ok (updCtx s2 c fun x => { x with qdRsv := x.qdRsv + 1 })

/-- The context a task is bound to, by its serial number. -/
def ctxOfSerial (s : State) (serial : Nat) : Option Nat :=
  s.ctxs.findSome? fun p => match p.2.bind with
    | some b => if b.serial = serial then some p.1 else none
    | none => none

/-- A qd element for a task (05 R142; 06 R161): on its result queue; kept for a SAVED task until it is restored; dropped
when the task is EXITING or has ended. -/
def qdElem (s : State) (serial : Nat) (seq status cause info : Nat) (val : W64) (vec : Stamp := zeroStamp) : State :=
  match ctxOfSerial s serial with
  | some c =>
    let s1 := updCtx s c fun x => { x with qdRsv := x.qdRsv - 1 }
    if (getArch s c).phase == .exiting then s1
    else putElem s1 c ⟨6, statWord status cause seq info, val, vec, ccyOf s c⟩
  | none =>
    if s.saved.any (fun v => v.bind.serial == serial) then
      { s with qdOwed := s.qdOwed ++ [(serial, seq, status * 2 ^ 8 + cause, info, val)] }
    else s

/-- A FAIL element in qd whose value word the spec does not state: a free value (log entry 1). -/
def qdFree (s : State) (serial seq cause info : Nat) (vec : Stamp := zeroStamp) : State :=
  let (s1, fv) := takeFree s
  qdElem s1 serial seq 3 cause info fv vec

def serialOf (s : State) (c : Nat) : Nat := match (getCtx s c).bind with | some b => b.serial | none => 0

/-! Starting commands (01 R16, R18; 02 R60, R61, R63). -/

/-- The head of a queue: its first command not waiting with its element. -/
def headCmd (s : State) (c q : Nat) : Option Cmd := (cmdsOf s c q).head?

/-- What a command waits for before it starts: room for its element, its loads and vector, and the context's earlier
writes and strong reads, remote ones among them (02 R43, R56, R58, R60). -/
def cmdReady (s : State) (c : Nat) (k : Cmd) : Bool :=
  k.held.isNone && k.deps.isEmpty && stampCovers (appliedAll s) k.base && decide ((resOf s c k.q).length < 16)
    && !(s.accs.any fun x => x.ctx == c && x.eng.isNone && decide (x.id < k.before) && (x.kind != .rd || x.strong.isSome) && !x.deferred)
    && !(s.fab.dirs.any fun d => dirOpen d && d.ctx == c && decide (d.id < k.before) && d.strong && d.op != 2)

/-- The matrix queue of a context stands at a retirement point, or can reach none: no plain MMUL has been executed since the last, no
entry is left, the next starts only when the rows have landed, or a full result queue lets no command start (01 R18; 09 R252,
R254). -/
def atRetirement (s : State) (c : Nat) : Bool :=
  let m := mxHalf s (coreOf c)
  mapGet 0 m.plain c == 0 || decide (16 ≤ (resOf s c 0).length) ||
  (match headCmd s c 0 with
    | none => true
    | some k => match k.instr with
      | .mzero _ | .mswap _ | .msave _ | .msavePl _ | .mrest _ | .mrestPl _ => true
      | _ => false)

/-- A command stands at its stopping point (15 R384 step 3; 09 R254, R255; 10 R281; 11 R295; 12 R319; 13 R350; 14 R375). -/
def cmdStopped (s : State) (c : Nat) (k : Cmd) : Bool :=
  match k.q, k.instr with
  | 0, _ => (getCtx s c).cut || !k.started && atRetirement s c
  | 1, _ => (getCtx s c).cut || k.aux.isEmpty
  | 2, _ => k.aux.isEmpty || isGate k
  | 4, .gred _ => true
  | 4, _ => k.aux.isEmpty || isGate k
  | 5, .krbld _ => !k.started || s.cod.rbld.isNone
  | 5, .kscrb _ => !k.started
  | _, _ => true

/-- The engines bring the context's queues to their stopping points: its task is being saved, or was cut off by a teardown. -/
def resting (s : State) (c : Nat) : Bool := saving s c || (getCtx s c).cut

/-- A command of the context may run: its task is not SAVED, and it does not stand where it is to stop; of a halted task only a
copy goes on, to the end of its block (05 R139; 15 R380, R384). -/
def engineMay (s : State) (c : Nat) (k : Cmd) : Bool :=
  match (getArch s c).phase with
  | .running | .waiting | .exiting => !(resting s c && cmdStopped s c k)
  | .halted => k.q == 2 && !cmdStopped s c k
  | _ => false

/-- None of some locks stands against a command that reads and writes these granules (02 R63): those another command writes, and for
a write those it reads. -/
def clearOf (locks : List Lock) (core c q seq : Nat) (rd wr : List Nat) : Bool :=
  locks.all fun l => l.core != core || (l.ctx == c && l.q == q && l.seq == seq) ||
    !((l.write && (rd ++ wr).any (fun g => l.grans.contains g)) || wr.any (fun g => l.grans.contains g))

/-- The granules a command's locks would cover, a lock for those read and one for those written. -/
def locksOf (core c q seq : Nat) (rd wr : List Nat) : List Lock :=
  let add (l : List Nat) (w : Bool) : List Lock := if l.isEmpty then [] else [⟨core, c, q, seq, granules l, w⟩]
  add rd false ++ add wr true

/-- The commands that wait for locks and asked before this one. -/
def asksBefore (s : State) (c q seq : Nat) : List Lock :=
  s.asks.takeWhile fun l => !(l.ctx == c && l.q == q && l.seq == seq)

/-- A command can take its locks: no granule it touches is locked against it, and of the commands waiting for the same granules none
that could take its locks now asked before it (02 R63). -/
def lockFree (s : State) (core c q seq : Nat) (rd wr : List Nat) : Bool :=
  let r := granules rd
  let w := granules wr
  let able (l : Lock) : Bool := (s.asks.filter fun x => x.ctx == l.ctx && x.q == l.q && x.seq == l.seq).all fun x =>
    clearOf s.locks x.core x.ctx x.q x.seq (if x.write then [] else x.grans) (if x.write then x.grans else [])
  clearOf s.locks core c q seq r w && clearOf ((asksBefore s c q seq).filter able) core c q seq r w

/-- A command that finds its granules locked asks for them. -/
def askLocks (s : State) (core c q seq : Nat) (rd wr : List Nat) : State :=
  if s.asks.any fun l => l.ctx == c && l.q == q && l.seq == seq then s else { s with asks := s.asks ++ locksOf core c q seq rd wr }

def dropAsks (s : State) (c q seq : Nat) : State := { s with asks := s.asks.filter fun l => !(l.ctx == c && l.q == q && l.seq == seq) }

/-- Take a command's locks for the whole of its execution. -/
def takeLocks (s : State) (core c q seq : Nat) (rd wr : List Nat) : State :=
  let t := dropAsks s c q seq
  { t with locks := t.locks ++ locksOf core c q seq rd wr }
def dropLocks (s : State) (c q seq : Nat) : State :=
  let t := dropAsks s c q seq
  { t with locks := t.locks.filter fun l => !(l.ctx == c && l.q == q && l.seq == seq) }

/-- Translate a virtual address of a command again at its execution, on its pinned entry or by a walk. -/
def cmdPa (s : State) (c va : Nat) : Nat :=
  match tlbFind (getCore s (coreOf c)) (ctxRoot s c) va with
  | some e => e.base + va % 2 ^ (16 + 10 * e.level)
  | none => match walk s (ctxRoot s c) va with
    | .ok e => e.base + va % 2 ^ (16 + 10 * e.level)
    | .error _ => 0

/-- The bytes of an element of a local side: scratchpad bytes of the whole store, or physical bytes. -/
def localBytes (s : State) (c : Nat) (a : W64) (n : Nat) : Bool × List Nat :=
  if a.toNat < 0x200000 then (true, (upTo n).map fun i => spAddr s c (a.toNat + i))
  else (false, (upTo n).map fun i => cmdPa s c (a.toNat + i))

/-- The hint an engine command's Global accesses carry (03 R77; 09, 10, 12, 13: the words that accept one). -/
def hintOf : Instr → BitVec 2
  | .mdrain f | .msave f | .msavePl f | .mrest f | .mrestPl f | .aldq f | .akv f | .akvPl f | .afin f
  | .cpy f | .cpyg f | .cpys f | .cfil f | .ctrn f | .rput f | .rget f | .mcast f => f.hint
  | _ => 0

/-- The last-level cache lines an engine's reads reach. -/
def engLines (s : State) (c : Nat) (k : Cmd) (rd : List (W64 × Nat)) : State :=
  rd.foldl (fun t p => let (sp, l) := localBytes t c p.1 p.2; if sp then t else llcRead t l (hintOf k.instr)) s

/-- Read local bytes for an engine: the bytes and the stamp observed. -/
def engRead (s : State) (c : Nat) (a : W64) (n : Nat) : List Byte × Stamp :=
  let (sp, l) := localBytes s c a n
  if sp then (spRead s l, zeroStamp) else readHome s l

/-- Write local bytes for an engine on the die of the context's cluster, with the command's vector (02 R59). -/
def engWrite (s : State) (c : Nat) (k : Cmd) (cells : List (W64 × List Byte)) : State × Stamp :=
  cells.foldl (fun r p =>
    let (sp, l) := localBytes r.1 c p.1 p.2.length
    if sp then (spWrite r.1 (l.zip p.2), r.2)
    else
      let (s2, st) := unitWrite r.1 (dieOf c) (l.zip p.2) k.base (hintOf k.instr)
      (s2, stampMax r.2 st)) (s, zeroStamp)

/-- Some byte an engine is to read or write is held at its home, or waits for its repair (07 R189). -/
def engHeld (s : State) (c : Nat) (rd wr : List (W64 × Nat)) : Bool :=
  (rd.any fun p => let (sp, l) := localBytes s c p.1 p.2; !sp && (holdsRead s l || l.any fun a => s.poison.contains a && repairable s a)) ||
  (wr.any fun p => let (sp, l) := localBytes s c p.1 p.2; !sp && holdsWrite s l)
/-- A unit finds a source uncorrectable: the first word at a home among what it reads is marked (11 R289). -/
def engMark (s : State) (c : Nat) (rd : List (W64 × Nat)) : State :=
  match rd.findSome? fun p => let (sp, l) := localBytes s c p.1 p.2; if sp then none else l.head? with
  | some a => markPoison s [a]
  | none => s
def engBad (s : State) (c : Nat) (rd : List (W64 × Nat)) : Bool :=
  rd.any fun p => let (sp, l) := localBytes s c p.1 p.2; !sp && poisoned s l

end Sys2Proof.Machine
end

