-- ==== Sys2Proof/Machine/Memory.lean ====
section
/-!
DEFINITION. Machine/Memory.lean: the words of the memory pipe: loads, stores, atomics, fences, taint words, spills and
fills, and maintenance (spec file 07, R186 to R205; 02, R37 to R58).
-/
namespace Sys2Proof.Machine
open Sys2Proof Host

/-- A load the checker re-executes: its recorded value comes again, or its access is still outstanding (06 R176). -/
def replayLoad (s : State) (c : Nat) : Option State :=
  let k := coreOf c
  let n := (getArch s c).seq
  match (getCore s k).replay.find? (fun o => o.ctx == c && o.seq == n && o.land.isSome) with
  | some o =>
    let s1 := updCore s k fun x => { x with replay := x.replay.erase o }
    some (match o.land with
      | some l => addLanding s1 l
      | none => s1)
  | none =>
    if s.accs.any (fun x => x.ctx == c && x.seq == n && x.kind != .wr) || (getCore s k).landings.any (fun l => l.ctx == c && l.seq == n)
    then some s else none

/-- The strong part of a word's MOD: the observer mask when S is set (07 R186). -/
def strongOf (f : Fields) : Option (BitVec 6) := if modBit f 86 then some (obsOf f) else none

/-- A read made at issue: a scratchpad read takes its value now and lands later; any other becomes a pending access,
with a slot for Commons and Global, and held for the checker when it is of the host class (07 R190, R191; 06 R173). The
destination is given the slot's bit. -/
def memLoad (s : State) (c : Nat) (f : Fields) (loc : Loc) (t : Taint) (mkDest : Taint → Dest)
    (strong : Option (BitVec 6)) : Body :=
  match loc.cls with
  | .scratch =>
    if spLocked s (coreOf c) loc.addrs false || earlierStrongRead s c s.nextId || (strong.isSome && earlierAcc s c s.nextId) then stallW
    else
      let s1 := markToken (if strong.isSome then baseLive s c else s) c f
      match replayLoad s1 c with
      | some s2 => ok s2
      | none => ok (addLanding s1 ⟨c, (getArch s c).seq, destUpds (mkDest 0) (spRead s loc.addrs), setwTok f, none, none⟩)
  | .host => do
    let s0 := if strong.isSome then baseLive s c else s
    let x := mkAcc s0 c .rd [] loc t strong (mkDest 0) (setwTok f) none f.hint
    let s1 ← holdEff s0 c (.access [x.id])
    let s2 := markToken s1 c f
    match replayLoad s2 c with
    | some s3 => ok s3
    | none => ok (addAcc s2 x)
  | _ => do
    let (s1, j) ← takeSlot s c none
    let s2 := markToken (if strong.isSome then baseLive s1 c else s1) c f
    match replayLoad s2 c with
    | some s3 => ok s3
    | none => ok (addAcc s2 (mkAcc s2 c .rd [] loc t strong (mkDest (slotBit (some j))) (setwTok f) (some j) f.hint))

/-- A write made at issue: a scratchpad write is done at the arbiter; any other is held for the checker (07 R191). -/
def memStore (s : State) (c : Nat) (f : Fields) (loc : Loc) (bs : List Byte) (t : Taint) (strong : Option (BitVec 6)) : Body :=
  let cells := loc.addrs.zip bs
  match loc.cls with
  | .scratch =>
    if spLocked s (coreOf c) loc.addrs true || earlierStrongRead s c s.nextId || (strong.isSome && earlierAcc s c s.nextId) then stallW
    else ok (spWrite (if strong.isSome then baseLive s c else s) cells)
  | _ => do
    let s0 := if strong.isSome then baseLive s c else s
    let x := mkAcc s0 c .wr cells loc t strong .none none none f.hint
    let s1 ← holdEff s0 c (.access [x.id])
    ok (addAcc s1 x)

/-- A memory word: the fence gate, then its body. -/
def memWord (opc : Nat) (fhold : Nat) (f : Fields) (s : State) (body : State → Nat → Body) : State :=
  runWord opc false false fhold f s fun s c =>
    match fenceGate s c none with
    | .error e => .error e
    | .ok s1 => body s1 c

def execLd (f : Fields) (s : State) : Outcome State Fault Refusal :=
  .next (memWord 0x080 1 f s fun s c => do
    let a := getArch s c
    let (w, sg) := wdOf f 8
    let loc ← locate s c .read (addrOf a f.o2 f.o3) (upTo w) (if modBit f 86 then w else 1) anyCls
    let t := srcTaint a f [f.o2, f.o3]
    memLoad s c f loc t (fun u => .scalar (idxOf f.o1) w sg (t ||| u)) (strongOf f))

def execSt (f : Fields) (s : State) : Outcome State Fault Refusal :=
  .next (memWord 0x081 1 f s fun s c => do
    let a := getArch s c
    let (w, _) := wdOf f 8
    let loc ← locate s c .write (addrOf a f.o1 f.o2) (upTo w) (if modBit f 86 then w else 1) anyCls
    memStore s c f loc (leBytes w (valOf a f.o3).toNat) (srcTaint a f [f.o1, f.o2, f.o3]) (strongOf f))

def execLdp (f : Fields) (s : State) : Outcome State Fault Refusal :=
  .next (memWord 0x082 1 f s fun s c => do
    let a := getArch s c
    let (w, sg) := wdOf f 8
    let loc ← locate s c .read (addrOf a f.o3 f.o4) (upTo (2 * w)) (2 * w) anyCls
    let t := srcTaint a f [f.o3, f.o4]
    memLoad s c f loc t (fun u => .pair (idxOf f.o1) (idxOf f.o2) w sg (t ||| u)) none)

def execStp (f : Fields) (s : State) : Outcome State Fault Refusal :=
  .next (memWord 0x083 1 f s fun s c => do
    let a := getArch s c
    let (w, _) := wdOf f 8
    let loc ← locate s c .write (addrOf a f.o1 f.o2) (upTo (2 * w)) (2 * w) anyCls
    let bs := leBytes w (valOf a f.o3).toNat ++ leBytes w (valOf a f.o4).toNat
    memStore s c f loc bs (srcTaint a f [f.o1, f.o2, f.o3, f.o4]) none)

/-- The lanes a vector operand covers: all 64, or the sixteen of a quarter. -/
def lanesOf : Operand → List Nat
  | .vq _ q => (upTo 16).map fun j => 16 * q.toNat + j
  | _ => upTo 64
/-- The lane mask an optional mask operand gives (07 R193). -/
def maskOf (a : Arch) : Operand → W64
  | .m i => rdM a i.toNat
  | _ => BitVec.allOnes 64
/-- The active lanes of an operand under a mask, as a mask of the whole register. -/
def activeMask (l : List Nat) (m : W64) : W64 := BitVec.ofNat 64 (l.foldl (fun n i => if m.getLsbD i then n + 2 ^ i else n) 0)
/-- Per-quarter taints of a lane write: a quarter with an active lane takes t, and keeps its old taint beside it when
some lane of it is inactive (07 R193, R194). -/
def quarterTaints (mask : W64) (t : Nat → Taint) : List (Option (Taint × Bool)) :=
  (upTo 4).map fun q =>
    let n := popCount16 (mask.toNat / 2 ^ (16 * q) % 2 ^ 16)
    if n = 0 then none else some (t q, n != 16)
where
  popCount16 (x : Nat) : Nat := (upTo 16).foldl (fun n i => n + x / 2 ^ i % 2) 0
/-- Byte offsets of the active lanes of a vector access: w bytes each, from the first lane of the operand. -/
def laneOffs (l : List Nat) (m : W64) (w : Nat) : List Nat :=
  (l.filter fun i => m.getLsbD i).flatMap fun i => (upTo w).map fun b => w * (i - l.headD 0) + b

def execLdv (f : Fields) (s : State) : Outcome State Fault Refusal :=
  .next (memWord 0x084 1 f s fun s c => do
    let a := getArch s c
    let ls := lanesOf f.o1
    let m := activeMask ls (maskOf a f.o4)
    let loc ← locate s c .read (addrOf a f.o2 f.o3) (laneOffs ls m 4) 4 anyCls
    let t := srcTaint a f [f.o2, f.o3, f.o4]
    memLoad s c f loc t (fun u => .lanes (idxOf f.o1) m 4 false (quarterTaints m fun _ => t ||| u)) (strongOf f))

/-- The taints of the quarters a store reads its active lanes from. -/
def storeQTaint (a : Arch) (v : Nat) (m : W64) : Taint :=
  (upTo 4).foldl (fun t q => if m.toNat / 2 ^ (16 * q) % 2 ^ 16 = 0 then t else t ||| vTaint a v q) 0

def execStv (f : Fields) (s : State) : Outcome State Fault Refusal :=
  .next (memWord 0x085 1 f s fun s c => do
    let a := getArch s c
    let ls := lanesOf f.o3
    let m := activeMask ls (maskOf a f.o4)
    let loc ← locate s c .write (addrOf a f.o1 f.o2) (laneOffs ls m 4) 4 anyCls
    let v := rdV a (idxOf f.o3)
    let bs := (ls.filter fun i => m.getLsbD i).flatMap fun i => leBytes 4 (lane v i).toNat
    memStore s c f loc bs (srcTaint a f [f.o1, f.o2, f.o4] ||| storeQTaint a (idxOf f.o3) m) (strongOf f))

/-- The address of one lane of a gather or scatter (07 R194). -/
def gatherAddr (base : W64) (idx : VReg) (sc i : Nat) : W64 :=
  base + (((lane idx i).signExtend 64) <<< sc)

/-- Check the active lanes from lane 0 upward, each through the whole order (07 R188), all in one class. -/
def locateLanes (s : State) (c : Nat) (acc : Acc) (w : Nat) (cl : Option Cls) : List W64 → Except Stop Loc
  | [] => .ok ⟨cl.getD .global, [], 0⟩
  | va :: t => do
    let l ← locate s c acc va (upTo w) w (fun x => cl.isNone || cl == some x)
    let r ← locateLanes s c acc w (some l.cls) t
    .ok ⟨r.cls, l.addrs ++ r.addrs, va⟩

def execLdvg (f : Fields) (s : State) : Outcome State Fault Refusal :=
  .next (memWord 0x086 1 f s fun s c => do
    let a := getArch s c
    let (w, sg) := wdOf f 4
    let m := maskOf a f.o5
    let base := addrOf a f.o2 f.o3
    let vas := ((upTo 64).filter fun i => m.getLsbD i).map (gatherAddr base (rdV a (idxOf f.o4)) (modBits f 81 80))
    let loc ← locateLanes s c .read w none vas
    let t := srcTaint a f [f.o2, f.o3, f.o5]
    memLoad s c f loc (t ||| vTaintAll a (idxOf f.o4))
      (fun u => .lanes (idxOf f.o1) m w sg (quarterTaints m fun q => u ||| t ||| vTaint a (idxOf f.o4) q)) none)

/-- The higher lane's bytes come last, so they remain where lanes overlap (07 R194). -/
def execStvs (f : Fields) (s : State) : Outcome State Fault Refusal :=
  .next (memWord 0x087 1 f s fun s c => do
    let a := getArch s c
    let (w, _) := wdOf f 4
    let m := maskOf a f.o5
    let base := addrOf a f.o1 f.o2
    let ls := (upTo 64).filter fun i => m.getLsbD i
    let vas := ls.map (gatherAddr base (rdV a (idxOf f.o3)) (modBits f 81 80))
    let loc ← locateLanes s c .write w none vas
    let v := rdV a (idxOf f.o4)
    memStore s c f loc (ls.flatMap fun i => leBytes w (lane v i).toNat)
      (srcTaint a f [f.o1, f.o2, f.o3, f.o4, f.o5]) none)

/-! Atomics (07 R195, R196). -/

/-- The classes an atomic accepts (07 R187). -/
def atomicCls : Cls → Bool
  | .commons | .global => true
  | _ => false

/-- A pending atomic, held for the checker; with a destination it takes a slot and a token. -/
def memAtomic (s : State) (c : Nat) (f : Fields) (loc : Loc) (kind : AccKind) (t : Taint) (mkDest : Option (Taint → Dest)) :
    Body := do
  match mkDest with
  | none =>
    let s0 := baseLive s c
    let x := mkAcc s0 c kind [] loc t (some (obsOf f)) .none none none f.hint
    let s1 ← holdEff s0 c (.access [x.id])
    ok (addAcc s1 x)
  | some mk =>
    let (s0, j) ← takeSlot s c none
    let s1 := baseLive s0 c
    let x := mkAcc s1 c kind [] loc t (some (obsOf f)) (mk (t ||| slotBit (some j))) (setwTok f) (some j) f.hint
    let s2 ← holdEff s1 c (.access [x.id])
    let s3 := markToken s2 c f
    match replayLoad s3 c with
    | some s4 => ok s4
    | none => ok (addAcc s3 x)

def execAmo (f : Fields) (s : State) : Outcome State Fault Refusal :=
  .next (memWord 0x088 1 f s fun s c => do
    let a := getArch s c
    let w := if modBit f 86 then 4 else 8
    let loc ← locate s c .atomic (addrOf a f.o2 f.o3) (upTo w) w atomicCls
    memAtomic s c f loc (.amo (modBits f 90 87) w (valOf a f.o4)) (srcTaint a f [f.o2, f.o3, f.o4])
      (if f.o1 = .none then none else some (.scalar (idxOf f.o1) w false)))

def execCas (f : Fields) (s : State) : Outcome State Fault Refusal :=
  .next (memWord 0x089 1 f s fun s c => do
    let a := getArch s c
    let w := if modBit f 86 then 4 else 8
    let loc ← locate s c .atomic (addrOf a f.o2 f.o3) (upTo w) w atomicCls
    memAtomic s c f loc (.cas w (valOf a f.o4) (valOf a f.o5)) (srcTaint a f [f.o2, f.o3, f.o4, f.o5])
      (some (.scalar (idxOf f.o1) w false)))

/-- The second register of an even pair (07 R196). -/
def pairTaint (a : Arch) (o : Operand) : Taint := taintOf a o ||| mapGet 0 a.sT (idxOf o + 1)

def execCas2 (f : Fields) (s : State) : Outcome State Fault Refusal :=
  .next (memWord 0x08A 1 f s fun s c => do
    let a := getArch s c
    let loc ← locate s c .atomic (addrOf a f.o2 f.o3) (upTo 16) 16 atomicCls
    memAtomic s c f loc
      (.cas2 (valOf a f.o4) (rdS a (idxOf f.o4 + 1)) (valOf a f.o5) (rdS a (idxOf f.o5 + 1)))
      (srcTaint a f [f.o2, f.o3] ||| pairTaint a f.o4 ||| pairTaint a f.o5)
      (some (.pair (idxOf f.o1) (idxOf f.o1 + 1) 8 false)))

/-- FENCE (07 R197): B takes the live slots' stamps, and the wait stands before the next memory word and pushes. -/
def execFence (f : Fields) (s : State) : Outcome State Fault Refusal :=
  .next (memWord 0x08B 1 f s fun s c =>
    ok (updArch (baseLive s c) c fun a => { a with fence := some (obsOf f, s.nextId) }))

/-! Taint words (07 R198). -/

/-- The updates that make X's taint set what g gives for each of its sets. -/
def taintUpds (g : Nat → Taint) : Operand → List Upd
  | .s i => [.staint i.toNat (g 0)]
  | .p i => if i = 0 then [] else [.ptaint i.toNat (g 0)]
  | .m i => [.mtaint i.toNat (g 0)]
  | .vq i q => [.vtaint i.toNat q.toNat (g q.toNat)]
  | .v i => (upTo 4).map fun q => .vtaint i.toNat q (g q)
  | .ctl => [.ctaint (g 0)]
  | _ => []

def execTclr (f : Fields) (s : State) : Outcome State Fault Refusal :=
  .next (runWord 0x08C false false 1 f s fun s c => ok (addFx s c 1 (taintUpds (fun _ => 0) f.o1)))

def execTadd (f : Fields) (s : State) : Outcome State Fault Refusal :=
  .next (runWord 0x08D false false 1 f s fun s c =>
    let a := getArch s c
    let g (q : Nat) : Taint :=
      match f.o1, f.o2 with
      | .v i, .v j => vTaint a i.toNat q ||| vTaint a j.toNat q
      | .v i, y => vTaint a i.toNat q ||| taintOf a y
      | x, y => taintOf a x ||| taintOf a y
    ok (addFx s c 1 (taintUpds g f.o1)))

/-- The mask of live slots. -/
def liveMask (s : State) (c : Nat) : Taint := BitVec.ofNat 16 ((upTo 16).foldl (fun n j => if slotLive s c j then n + 2 ^ j else n) 0)

def execTrd (f : Fields) (s : State) : Outcome State Fault Refusal :=
  .next (runWord 0x08E false false 1 f s fun s c =>
    let t := taintOf (getArch s c) f.o2
    ok (putS s c 1 f.o1 (BitVec.ofNat 64 (t.toNat + (liveMask s c).toNat * 2 ^ 16)) 0))

/-- The load of a live slot is pending. -/
def slotsPend (s : State) (c : Nat) : Bool := (liveByAge s c).any fun j => (slotOf (getArch s c) j).pend.isSome

/-- TFOLD waits for the loads of the live slots, then folds them oldest first (07 R198). A false guard waits as long and folds
none (07 R190). -/
def execTfold (f : Fields) (s : State) : Outcome State Fault Refusal :=
  let c := s.cur
  .next (if guardVal (getArch s c) f = false && slotsPend s c then s
    else runWord 0x08F false false 4 f s fun s c =>
      if slotsPend s c then stallW
      else okHold ((liveByAge s c).foldl (fun s j => foldSlot s c j) s) 4)

/-! Spills and fills (07 R199 to R201). -/

/-- Registers of a spill range: number, value bytes and taint word. -/
def spillReg (a : Arch) (o : Operand) (r : Nat) : List Byte × Nat :=
  match o with
  | .v _ => (leBytes 256 (rdV a r).toNat,
      (vTaint a r 0).toNat + (vTaint a r 1).toNat * 2 ^ 16 + (vTaint a r 2).toNat * 2 ^ 32 + (vTaint a r 3).toNat * 2 ^ 48)
  | .p i => (leBytes 8 (if rdP a r then 1 else 0), if r = 0 then 0 else (mapGet 0 a.pT r).toNat + 0 * i.toNat)
  | .m _ => (leBytes 8 (rdM a r).toNat, (mapGet 0 a.mT r).toNat)
  | _ => (leBytes 8 (rdS a r).toNat, (mapGet 0 a.sT r).toNat)

def spillSize : Operand → Nat
  | .v _ => 256
  | _ => 8
/-- Offset of the values, D of 07 R199. -/
def spillD (o : Operand) (n : Nat) : Nat := if spillSize o = 256 then (16 + 8 * n + 63) / 64 * 64 else 16 + 8 * n
/-- Bytes of the whole image. -/
def spillBytes (o : Operand) (n : Nat) : Nat := spillD o n + n * spillSize o

def spillCls : Cls → Bool
  | .scratch | .global => true
  | _ => false

/-- A fault met at the bytes of register k of the image is taken with RS = 1 and COUNT = k after the registers before
it are transferred; every other fault comes first, with RS = 0 (07 R201). The translations of the header and of each
register's bytes, in order: the byte addresses, and the stop that ends them. -/
def spillLocs (s : State) (c : Nat) (acc : Acc) (va : W64) (d size : Nat) : Nat → Nat → List Loc × Option Stop
  | _, 0 => ([], none)
  | k, n + 1 =>
    match locate s c acc (va + BitVec.ofNat 64 (d + k * size)) (upTo size) 1 spillCls (some k) with
    | .error e => ([], some e)
    | .ok l =>
      let (r, e) := spillLocs s c acc va d size (k + 1) n
      (l :: r, e)

/-- The stop is a translation or poison fault, which leaves the registers before it transferred. -/
def isXlate : Stop → Bool
  | .trap 0x03 _ _ _ _ _ | .trap 0x0F _ _ _ _ _ => true
  | _ => false

/-- Checks that come before any transfer: form, alignment, bounds and class of the whole image (07 R188, R199). -/
def spillCheck (s : State) (c : Nat) (acc : Acc) (va : W64) (o : Operand) (n : Nat) : Except Stop Unit :=
  match locate s c acc va (upTo (spillBytes o n)) (if spillSize o = 256 then 64 else 16) spillCls with
  | .ok _ => .ok ()
  | .error e => if isXlate e then .ok () else .error e

/-- Generations of the sixteen slots (GEN of 07 R199). -/
def genBytes (a : Arch) : List Byte := (upTo 16).map fun j => (slotOf a j).gen

/-- Write a spill's bytes: to the scratchpad at once, else as one pending plain write. -/
def spillWrite (s : State) (c : Nat) (f : Fields) (locs : List Loc) (bs : List Byte) (t : Taint) : Except Stop State :=
  let addrs := locs.flatMap (·.addrs)
  match memStore s c f ⟨(locs.headD ⟨.scratch, [], 0⟩).cls, addrs, (locs.headD ⟨.scratch, [], 0⟩).va⟩ bs t none with
  | .error e => .error e
  | .ok d => .ok d.st

def execSpillm (f : Fields) (s : State) : Outcome State Fault Refusal :=
  let n := idxOf f.o4 - idxOf f.o3 + 1
  let hold := 4 + (spillBytes f.o3 n + 63) / 64
  .next (memWord 0x090 hold f s fun s c => do
    let a := getArch s c
    let va := addrOf a f.o1 f.o2
    let k0 := a.latch.getD 0
    spillCheck s c .write va f.o3 n
    let d := spillD f.o3 n
    let regs := (upTo n).map fun i => spillReg a f.o3 (idxOf f.o3 + i)
    let words := regs.map (·.2)
    let named : Taint := BitVec.ofNat 16 (words.foldl (fun t w => t ||| w ||| w / 2 ^ 16 ||| w / 2 ^ 32 ||| w / 2 ^ 48) 0 % 2 ^ 16)
    let t := srcTaint a f [f.o1, f.o2] ||| named
    let hd ← if k0 = 0 then locate s c .write va (upTo (16 + 8 * n)) 1 spillCls (some 0) else .ok ⟨.scratch, [], 0⟩
    let (ls, stop) := spillLocs s c .write va d (spillSize f.o3) k0 (n - k0)
    let done := ls.length
    let hbs := if k0 = 0 then genBytes a ++ words.flatMap (leBytes 8) else []
    let vbs := ((regs.drop k0).take done).flatMap (·.1)
    match stop with
    | some (.walk v) => .error (.walk v)
    | _ =>
      let s1 ← spillWrite s c f ((if k0 = 0 then [hd] else []) ++ ls) (hbs ++ vbs) t
      let s2 := if k0 = 0 then updArch s1 c fun a => { a with
          slots := (upTo 16).foldl (fun m j => if named.getLsbD j then mapSet m j { slotOf a j with mark := true } else m) a.slots }
        else s1
      match stop with
      | some (.trap cause _ v _ _ _) => .error (.partTrap s2 cause v)
      | _ => okHold s2 hold)

/-- A filled register: its value with its taint word's bits whose slot still has its generation (07 R200). -/
def fillUpd (o : Operand) (r : Nat) (v : List Byte) (w : Nat) (keep : Taint) : Upd :=
  let tq (q : Nat) : Taint := BitVec.ofNat 16 (w / 2 ^ (16 * q) % 2 ^ 16) &&& keep
  match o with
  | .v _ => .lanes r (BitVec.allOnes 64) (BitVec.ofNat 2048 (leNat v)) ((upTo 4).map fun q => some (tq q, false))
  | .p _ => .preg r (leNat v != 0) (tq 0)
  | .m _ => .mreg r (BitVec.ofNat 64 (leNat v)) (tq 0)
  | _ => .sreg r (BitVec.ofNat 64 (leNat v)) (tq 0)

/-- The read a fill makes of a Global image, as if it were made now: no slot, no destination (07 R200). -/
def fillAcc (s : State) (c : Nat) (f : Fields) (addrs : List Nat) : Access :=
  mkAcc s c .rd [] ⟨.global, addrs, 0⟩ (srcTaint (getArch s c) f [f.o2, f.o3]) none .none none none f.hint

/-- The bytes a fill reads: scratchpad, or Global as the context sees it (02 R39). -/
def fillRead (s : State) (c : Nat) (l : Loc) : List Byte :=
  if l.cls == .scratch then spRead s l.addrs else (readFor s c s.nextId l.addrs).1

/-- A fill may make its reads now (02 R38, R39, R50, R56, R63; 07 R189). -/
def fillReady (s : State) (c : Nat) (f : Fields) (cls : Cls) (addrs : List Nat) : Bool :=
  if cls == .scratch then !spLocked s (coreOf c) addrs false && !earlierStrongRead s c s.nextId
  else canRead s (fillAcc s c f addrs) && !awaitsRepair s addrs

/-- A load's latency from Global, line present, for a stack on the core's die or another (07 R205). -/
def globalLatency (c pa : Nat) : Nat := if homeDie pa = dieOf c then 48 else 72

/-- FILLM's hold: 6 cycles or the Global load latency, and the image's bytes / 64 rounded up (07 R205). A false guard holds as
long; while its page is not in the translation cache, as for the core's own die (log entry 25). -/
def fillHold (s : State) (c : Nat) (f : Fields) (n : Nat) : Nat :=
  let va := (addrOf (getArch s c) f.o2 f.o3).toNat
  (if va < 0x200000 then 6 else match tlbFind (getCore s (coreOf c)) (ctxRoot s c) va with
    | some e => globalLatency c (e.base + va % 2 ^ (16 + 10 * e.level))
    | none => 48) + (spillBytes f.o1 n + 63) / 64

def execFillm (f : Fields) (s : State) : Outcome State Fault Refusal :=
  let n := idxOf f.o4 - idxOf f.o1 + 1
  let hold := fillHold s s.cur f n
  .next (memWord 0x091 hold f s fun s c => do
    let a := getArch s c
    let va := addrOf a f.o2 f.o3
    let k0 := a.latch.getD 0
    spillCheck s c .read va f.o1 n
    let hd ← locate s c .read va (upTo (16 + 8 * n)) 1 spillCls (some 0)
    let (ls, stop) := spillLocs s c .read va (spillD f.o1 n) (spillSize f.o1) k0 (n - k0)
    let all := hd :: ls
    let addrs := all.flatMap (·.addrs)
    if !replaying s c && !fillReady s c f hd.cls addrs then stallW
    else if !replaying s c && hd.cls != .scratch && poisoned s addrs then
      .error (.wait (contextFatal s c 2 (BitVec.ofNat 64 ((addrs.find? fun p => s.poison.contains p).getD 0))))
    else
      match stop with
      | some (.walk v) => .error (.walk v)
      | _ =>
        let s0 := if hd.cls == .scratch then s else llcRead s addrs f.hint
        let (s1, rec_) := outsideVal s0 c ((all.flatMap (fillRead s c)).map fun b => b.zeroExtend 64)
        let bs : List Byte := rec_.map fun (x : W64) => (x.truncate 8 : Byte)
        let keep : Taint := BitVec.ofNat 16 ((upTo 16).foldl (fun t j => if bs.getD j 0 = (slotOf a j).gen then t + 2 ^ j else t) 0)
        let size := spillSize f.o1
        let upd (i : Nat) : Upd :=
          fillUpd f.o1 (idxOf f.o1 + k0 + i) ((bs.drop (16 + 8 * n + i * size)).take size)
            (leNat ((bs.drop (16 + 8 * (k0 + i))).take 8)) keep
        let s2 := updArch s1 c fun a => applyUpds a ((upTo ls.length).map upd)
        match stop with
        | some (.trap cause _ v _ _ _) => .error (.partTrap s2 cause v)
        | _ => .ok { st := s2, hold := hold, entries := ls.length })

/-! Maintenance (07 R202 to R204). -/

/-- The Global physical address a maintenance word reaches, if its address forms, translates and is Global; a walk not
yet made is waited for. -/
def softLocate (s : State) (c : Nat) (acc : Acc) (va : W64) : Except Stop (Option Nat) :=
  match locate s c acc va [0] 1 anyCls with
  | .ok l => .ok (if l.cls == .global then l.addrs.head? else none)
  | .error (.walk v) => .error (.walk v)
  | .error _ => .ok none

def execPref (f : Fields) (s : State) : Outcome State Fault Refusal :=
  .next (memWord 0x092 1 f s fun s c => do
    match ← softLocate s c .read (addrOf (getArch s c) f.o1 f.o2) with
    | none => ok (dropWalkFaults s c)
    | some pa => ok (llcRead s [pa] f.hint))

/-- XLATE's report word (07 R203). -/
def xlateWord (fault : Option Nat) (size cls : Nat) (perm : BitVec 3) (pa : Nat) : W64 :=
  BitVec.ofNat 64 ((match fault with | some r => 2 ^ 63 + r * 2 ^ 52 | none => 0) + size * 2 ^ 50 + cls * 2 ^ 47
    + perm.toNat * 2 ^ 44 + pa % 2 ^ 40)

/-- The code of a class (07 R203). -/
def clsCode : Cls → Nat
  | .scratch => 0 | .commons => 1 | .global => 2 | .host => 3

def execXlate (f : Fields) (s : State) : Outcome State Fault Refusal :=
  .next (memWord 0x093 1 f s fun s c => do
    let a := getArch s c
    let va := addrOf a f.o2 f.o3
    let n := va.toNat
    let put (x : W64) : Body :=
      let s1 := markToken s c f
      ok (addLanding s1 ⟨c, a.seq, [.sreg (idxOf f.o1) x 0], setwTok f, none, none⟩)
    let pa (x : Nat) : Nat := if a.mode then x else 0
    if n < 2 ^ 63 ∧ 2 ^ 41 ≤ n then trapW 0x04 va
    else if 2 ^ 63 ≤ n then trapW 0x05 va
    else match replayLoad (markToken s c f) c with
    | some s1 => ok s1
    | none =>
    if n < 0x200000 then
      if spLen s c ≤ n then put (xlateWord (some 0) 3 0 0 0) else put (xlateWord none 3 0 0 (pa (spAddr s c n % 0x200000)))
    else
      match translate s c n (if modBit f 80 then .write else .read) with
      | .miss => .error (.walk n)
      | .fault r _ =>
        -- SIZE, CLASS and PERM that no leaf gives are not stated: free values of their fields (log entry 1)
        let (s1, fv) := takeFree (dropWalkFaults s c)
        let n1 := fv.toNat
        let x := match tlbFind (getCore s (coreOf c)) (ctxRoot s c) n with
          | some e => xlateWord (some r) e.level ((classOf (e.base + n % 2 ^ (16 + 10 * e.level))).map clsCode |>.getD (n1 % 4)) e.leaf 0
          | none => xlateWord (some r) (n1 % 4) (n1 / 4 % 4) (BitVec.ofNat 3 (n1 / 16)) 0
        ok (addLanding (markToken s1 c f) ⟨c, a.seq, [.sreg (idxOf f.o1) x 0], setwTok f, none, none⟩)
      | .hit p =>
        let (size, perm) := match tlbFind (getCore s (coreOf c)) (ctxRoot s c) n with
          | some e => (e.level, e.leaf)
          | none => (0, 0)
        let cls := ((classOf p).map clsCode).getD 0
        put (xlateWord none size cls perm (pa p)))

/-- FLUSHL (07 R204): the write-back of a line present is outstanding until FLUSHL_WRITEBACK_COMPLETE. -/
def execFlushl (f : Fields) (s : State) : Outcome State Fault Refusal :=
  .next (memWord 0x094 1 f s fun s c => do
    match ← softLocate s c .read (addrOf (getArch s c) f.o1 f.o2) with
    | none => ok (dropWalkFaults s c)
    | some pa =>
      let line := pa / 1024
      if (mapFind s.llc line).isNone && !(s.accs.any fun x => x.ctx == c && x.addrs.any (fun q => q / 1024 == line)) then ok s
      else ok (updCtx s c fun x => { x with flushes := x.flushes ++ [2 * line + modBits f 81 80 % 2] }))

end Sys2Proof.Machine
end

