-- ==== Sys2Proof/Machine/Scalar.lean ====
section
/-!
DEFINITION. Machine/Scalar.lean: the scalar integer, move, predicate and floating-point words (spec file 06, R153 to
R158, latencies R180).
-/
namespace Sys2Proof.Machine
open Sys2Proof Host

/-- A two-source integer word (06 R154): the operation on the two integers of width n, narrowed. -/
def int2 (opc lat : Nat) (f : Fields) (s : State) (satOk : Bool) (op : Bool → Nat → Int → Int → Int) : State :=
  runWord opc false false 1 f s fun s c =>
    let a := getArch s c
    let (sg, n) := scalarTy f
    let x := srcInt sg n (valOf a f.o2)
    let y := srcInt sg n (valOf a f.o3)
    ok (putInt s c lat f.o1 (narrowInt (satOk && modBit f 80) sg n (op sg n x y)) (srcTaint a f [f.o2, f.o3]))

/-- A two-source word on n-bit patterns (06 R154). -/
def bits2 (opc : Nat) (f : Fields) (s : State) (op : Nat → Nat → Nat → Nat) : State :=
  int2 opc 1 f s false fun _ n x y => (op n (intBits n x) (intBits n y) : Nat)

def execNop (f : Fields) (s : State) : Outcome State Fault Refusal :=
  .next (runWord 0x000 false false 1 f s fun s _ => ok s)

def execMovi (f : Fields) (s : State) : Outcome State Fault Refusal :=
  .next (runWord 0x001 false false 1 f s fun s c =>
    ok (putS s c 1 f.o1 (valOf (getArch s c) f.o2) (srcTaint (getArch s c) f [])))

def execMovhi (f : Fields) (s : State) : Outcome State Fault Refusal :=
  .next (runWord 0x002 false false 1 f s fun s c =>
    let a := getArch s c
    let x := (valOf a f.o3).toNat % 2 ^ 16 * 2 ^ 48 + (valOf a f.o2).toNat % 2 ^ 48
    ok (putS s c 1 f.o1 (BitVec.ofNat 64 x) (srcTaint a f [f.o2, f.o3])))

def execMov (f : Fields) (s : State) : Outcome State Fault Refusal :=
  .next (runWord 0x003 false false 1 f s fun s c =>
    let a := getArch s c
    let x := valOf a f.o2
    let t := srcTaint a f [f.o2]
    match f.o1 with
    | .m _ => ok (putM s c 1 f.o1 x t)
    | _ => ok (putS s c 1 f.o1 x t))

def execAdd (f : Fields) (s : State) : Outcome State Fault Refusal :=
  .next (int2 0x004 1 f s true fun _ _ x y => x + y)
def execSub (f : Fields) (s : State) : Outcome State Fault Refusal :=
  .next (int2 0x005 1 f s true fun _ _ x y => x - y)
def execMul (f : Fields) (s : State) : Outcome State Fault Refusal :=
  .next (int2 0x006 3 f s true fun _ _ x y => x * y)
/-- Bits [2n−1:n] of the exact product: its floor quotient by 2^n. -/
def execMulh (f : Fields) (s : State) : Outcome State Fault Refusal :=
  .next (int2 0x007 3 f s false fun _ n x y => (x * y) / 2 ^ n)

/-- The divide words (06 R155): division by zero traps under ACTL.DZTRAP. -/
def divide (opc : Nat) (f : Fields) (s : State) (satOk : Bool) (op : Bool → Nat → Int → Int → Int) : State :=
  runWord opc false false 1 f s fun s c =>
    let a := getArch s c
    let (sg, n) := scalarTy f
    let x := srcInt sg n (valOf a f.o2)
    let y := srcInt sg n (valOf a f.o3)
    if y = 0 ∧ a.actl.getLsbD 0 then trapW 0x0A (valOf a f.o2)
    else ok (putInt s c 18 f.o1 (narrowInt (satOk && modBit f 80 && y != 0) sg n (op sg n x y)) (srcTaint a f [f.o2, f.o3]))

def execDiv (f : Fields) (s : State) : Outcome State Fault Refusal :=
  .next (divide 0x008 f s true fun _ _ x y => if y = 0 then -1 else Int.tdiv x y)
def execRem (f : Fields) (s : State) : Outcome State Fault Refusal :=
  .next (divide 0x009 f s false fun _ _ x y => if y = 0 then x else Int.tmod x y)

def execAnd (f : Fields) (s : State) : Outcome State Fault Refusal :=
  .next (bits2 0x00A f s fun _ x y => x &&& y)
def execOr (f : Fields) (s : State) : Outcome State Fault Refusal :=
  .next (bits2 0x00B f s fun _ x y => x ||| y)
def execXor (f : Fields) (s : State) : Outcome State Fault Refusal :=
  .next (bits2 0x00C f s fun _ x y => x ^^^ y)
def execAndn (f : Fields) (s : State) : Outcome State Fault Refusal :=
  .next (bits2 0x00D f s fun n x y => x &&& (2 ^ n - 1 - y))

/-- a × 2^(b mod n); only SAT sees what the shift pushes out. -/
def execShl (f : Fields) (s : State) : Outcome State Fault Refusal :=
  .next (int2 0x00E 1 f s true fun _ n x y => x * 2 ^ (intBits n y % n))
def execShr (f : Fields) (s : State) : Outcome State Fault Refusal :=
  .next (bits2 0x00F f s fun n x y => x / 2 ^ (y % n))
/-- Right shift filling with bit n − 1, for .I and .N alike. -/
def execSar (f : Fields) (s : State) : Outcome State Fault Refusal :=
  .next (bits2 0x010 f s fun n x y => intBits n (intOfBits true n x / 2 ^ (y % n)))
def execRot (f : Fields) (s : State) : Outcome State Fault Refusal :=
  .next (bits2 0x011 f s fun n x y => x * 2 ^ (y % n) % 2 ^ n + x / 2 ^ (n - y % n))
def execMin (f : Fields) (s : State) : Outcome State Fault Refusal :=
  .next (int2 0x012 1 f s false fun _ _ x y => min x y)
def execMax (f : Fields) (s : State) : Outcome State Fault Refusal :=
  .next (int2 0x013 1 f s false fun _ _ x y => max x y)

/-- |a|; the minimum stays, or clamps to the maximum with IO under SAT (06 R156). -/
def execAbs (f : Fields) (s : State) : Outcome State Fault Refusal :=
  .next (runWord 0x014 false false 1 f s fun s c =>
    let a := getArch s c
    let (sg, n) := scalarTy f
    let x := srcInt sg n (valOf a f.o2)
    ok (putInt s c 1 f.o1 (narrowInt (modBit f 80) sg n (x.natAbs : Int)) (srcTaint a f [f.o2])))

/-- A one-source count on the n-bit pattern (06 R156). -/
def count1 (opc : Nat) (f : Fields) (s : State) (op : Nat → Nat → Nat) : State :=
  runWord opc false false 1 f s fun s c =>
    let a := getArch s c
    let (_, n) := scalarTy f
    ok (putS s c 1 f.o1 (BitVec.ofNat 64 (op n ((valOf a f.o2).toNat % 2 ^ n))) (srcTaint a f [f.o2]))

/-- Ones among the n low bits. -/
def popCount : Nat → Nat → Nat
  | 0, _ => 0
  | n + 1, x => x % 2 + popCount n (x / 2)
/-- Leading zeros of an n-bit pattern. -/
def leadZeros (n x : Nat) : Nat := if x = 0 then n else n - 1 - Nat.log2 x
/-- Trailing zeros of an n-bit pattern. -/
def trailZeros : Nat → Nat → Nat
  | 0, _ => 0
  | n + 1, x => if x % 2 = 1 then 0 else 1 + trailZeros n (x / 2)

def execClz (f : Fields) (s : State) : Outcome State Fault Refusal :=
  .next (count1 0x015 f s leadZeros)
def execCtz (f : Fields) (s : State) : Outcome State Fault Refusal :=
  .next (count1 0x016 f s trailZeros)
def execPopc (f : Fields) (s : State) : Outcome State Fault Refusal :=
  .next (count1 0x017 f s popCount)

/-- The extension width: W mod 64, with 0 meaning 64 (06 R156). -/
def extWidth (w : W64) : Nat := if w.toNat % 64 = 0 then 64 else w.toNat % 64

def execSext (f : Fields) (s : State) : Outcome State Fault Refusal :=
  .next (runWord 0x018 false false 1 f s fun s c =>
    let a := getArch s c
    let w := extWidth (valOf a f.o3)
    ok (putS s c 1 f.o1 (BitVec.ofInt 64 (intOfBits true w (valOf a f.o2).toNat)) (srcTaint a f [f.o2, f.o3])))
def execZext (f : Fields) (s : State) : Outcome State Fault Refusal :=
  .next (runWord 0x019 false false 1 f s fun s c =>
    let a := getArch s c
    let w := extWidth (valOf a f.o3)
    ok (putS s c 1 f.o1 (BitVec.ofInt 64 (intOfBits false w (valOf a f.o2).toNat)) (srcTaint a f [f.o2, f.o3])))

/-- Position and width of a bit field: P[5:0] and min(W[6:0], 64 − pos) (06 R156). -/
def bfOf (p w : W64) : Nat × Nat :=
  let pos := p.toNat % 64
  (pos, min (w.toNat % 128) (64 - pos))

def execBfx (f : Fields) (s : State) : Outcome State Fault Refusal :=
  .next (runWord 0x01A false false 1 f s fun s c =>
    let a := getArch s c
    let (pos, w) := bfOf (valOf a f.o3) (valOf a f.o4)
    let x := (valOf a f.o2).toNat / 2 ^ pos % 2 ^ w
    let r : Int := if w = 0 then 0 else intOfBits (modBit f 80) w x
    ok (putS s c 1 f.o1 (BitVec.ofInt 64 r) (srcTaint a f [f.o2, f.o3, f.o4])))

def execBfi (f : Fields) (s : State) : Outcome State Fault Refusal :=
  .next (runWord 0x01B false false 1 f s fun s c =>
    let a := getArch s c
    let (pos, w) := bfOf (valOf a f.o4) (valOf a f.o5)
    let m := maskLow w <<< pos
    let r := (valOf a f.o2 &&& ~~~m) ||| ((valOf a f.o3 <<< pos) &&& m)
    ok (putS s c 1 f.o1 r (srcTaint a f [f.o2, f.o3, f.o4, f.o5])))

def execLea (f : Fields) (s : State) : Outcome State Fault Refusal :=
  .next (runWord 0x01C false false 1 f s fun s c =>
    let a := getArch s c
    let r := valOf a f.o2 + (valOf a f.o3 <<< ((valOf a f.o4).toNat % 64))
    ok (putS s c 1 f.o1 r (srcTaint a f [f.o2, f.o3, f.o4])))

def execMada (f : Fields) (s : State) : Outcome State Fault Refusal :=
  .next (runWord 0x01D false false 1 f s fun s c =>
    let a := getArch s c
    let (sg, n) := scalarTy f
    let r := srcInt sg n (valOf a f.o2) * srcInt sg n (valOf a f.o3) + srcInt sg n (valOf a f.o4)
    ok (putInt s c 3 f.o1 (narrowInt (modBit f 80) sg n r) (srcTaint a f [f.o2, f.o3, f.o4])))

/-- SEL's result carries the taint of the predicate and of both sources (06 R156). -/
def execSel (f : Fields) (s : State) : Outcome State Fault Refusal :=
  .next (runWord 0x01E false false 1 f s fun s c =>
    let a := getArch s c
    let r := if rdP a (idxOf f.o2) then valOf a f.o3 else valOf a f.o4
    ok (putS s c 1 f.o1 r (srcTaint a f [f.o2, f.o3, f.o4])))

def execCmp (f : Fields) (s : State) : Outcome State Fault Refusal :=
  .next (runWord 0x01F false false 1 f s fun s c =>
    let a := getArch s c
    let (sg, n) := scalarTy f
    let x := valOf a f.o2
    let y := valOf a f.o3
    let r := intRel (modBits f 83 80) (srcInt sg n x) (srcInt sg n y) (x.toNat % 2 ^ n) (y.toNat % 2 ^ n)
    ok (putP s c 1 f.o1 r (srcTaint a f [f.o2, f.o3])))

/-- The eight predicate operations, in code order (06 R157; VMLOG uses them too, 08 R219). -/
def logic8 (op : Nat) (a b : Bool) : Bool :=
  match op with
  | 0 => a && b
  | 1 => a || b
  | 2 => a != b
  | 3 => a && !b
  | 4 => !(a && b)
  | 5 => !(a || b)
  | 6 => a == b
  | _ => a || !b

def execPlog (f : Fields) (s : State) : Outcome State Fault Refusal :=
  .next (runWord 0x020 false false 1 f s fun s c =>
    let a := getArch s c
    let r := logic8 (modBits f 82 80) (rdP a (idxOf f.o2)) (rdP a (idxOf f.o3))
    ok (putP s c 1 f.o1 r (srcTaint a f [f.o2, f.o3])))

def execPmov (f : Fields) (s : State) : Outcome State Fault Refusal :=
  .next (runWord 0x021 false false 1 f s fun s c =>
    let a := getArch s c
    let x := valOf a f.o2
    let t := srcTaint a f [f.o2]
    match f.o1 with
    | .p _ => ok (putP s c 1 f.o1 (x != 0) t)
    | _ => ok (putS s c 1 f.o1 x t))

/-- The scalar floating format: .F64 for code 0x11, else .F32 (06 R158). -/
def scalarFmt (f : Fields) : Fmt := if modTy f = 0x11 then .f64 else .f32
/-- A floating source: the low bits of its scalar (06 R158). -/
def srcFlt (a : Arch) (fm : Fmt) (o : Operand) : FV := fvOfBits fm ((valOf a o).toNat % 2 ^ fmtW fm)

/-- A scalar floating word: the exact value, rounded once (06 R158). -/
def flt (opc : Nat) (f : Fields) (s : State) (srcs : List Operand) (op : Arch → Fmt → Rm → FV × Flags) : State :=
  runWord opc false false 1 f s fun s c =>
    let a := getArch s c
    let fm := scalarFmt f
    let (s1, k) := rsFor s c (modBits f 84 82)
    let rm := rmOf (modBits f 84 82) k 0 0
    let (v, fl) := op a fm rm
    let r := fvToFmt fm rm (ovOf (modBits f 81 80)) v
    let r := { r with flags := r.flags ||| fl }
    putFlt s1 c 4 f.o1 r (BitVec.ofNat 64 r.bits) (srcTaint a f srcs)

def execFadd (f : Fields) (s : State) : Outcome State Fault Refusal :=
  .next (flt 0x022 f s [f.o2, f.o3] fun a fm rm => fvAdd rm (srcFlt a fm f.o2) (srcFlt a fm f.o3))
def execFmul (f : Fields) (s : State) : Outcome State Fault Refusal :=
  .next (flt 0x023 f s [f.o2, f.o3] fun a fm _ => fvMul (srcFlt a fm f.o2) (srcFlt a fm f.o3))
def execFfma (f : Fields) (s : State) : Outcome State Fault Refusal :=
  .next (flt 0x024 f s [f.o2, f.o3, f.o4] fun a fm rm =>
    fvFma rm (srcFlt a fm f.o2) (srcFlt a fm f.o3) (srcFlt a fm f.o4))

def execFcmp (f : Fields) (s : State) : Outcome State Fault Refusal :=
  .next (runWord 0x025 false false 1 f s fun s c =>
    let a := getArch s c
    let fm := scalarFmt f
    let r := fvRel (modBits f 83 80) (srcFlt a fm f.o2) (srcFlt a fm f.o3)
    ok (putP s c 2 f.o1 r (srcTaint a f [f.o2, f.o3])))

/-- The type FCVT's codes name; 0 means .F32 (06 R158). -/
def cvtTy (code : Nat) : ElTy := if code = 0 then .flt .f32 else (tyOfCode code).getD (.flt .f32)

/-- A converted result in a scalar: .I32 sign-extended, the rest zero-extended (06 R158). -/
def cvtOut (t : ElTy) (bits : Nat) : W64 :=
  match t with
  | .int sg n => extInt sg n (bits : Int)
  | _ => BitVec.ofNat 64 bits

def execFcvt (f : Fields) (s : State) : Outcome State Fault Refusal :=
  .next (runWord 0x026 false false 1 f s fun s c =>
    let a := getArch s c
    let td := cvtTy (modTy f)
    let ts := cvtTy (valOf a f.o3).toNat
    let (s1, k) := rsFor s c (modBits f 84 82)
    let r := tyConvert ts td (rmOf (modBits f 84 82) k 0 0) (ovOf (modBits f 81 80)) ((valOf a f.o2).toNat % 2 ^ tyBits ts)
    putFlt s1 c 4 f.o1 r (cvtOut td r.bits) (srcTaint a f [f.o2]))

end Sys2Proof.Machine
end

