-- ==== Sys2Proof/Machine/Special.lean ====
section
/-!
DEFINITION. Machine/Special.lean: the special functions of spec file 04, R111 to R114: the F32 algorithms step by
step, and the correctly rounded BF16 and F16 functions.
-/
namespace Sys2Proof.Machine

/-- Table E: the F32 nearest to 2^(i/64) (04 R111). -/
def tabE : List Nat :=
  [0x3F800000, 0x3F8164D2, 0x3F82CD87, 0x3F843A29, 0x3F85AAC3, 0x3F871F62, 0x3F88980F, 0x3F8A14D5] ++
  [0x3F8B95C2, 0x3F8D1ADF, 0x3F8EA43A, 0x3F9031DC, 0x3F91C3D3, 0x3F935A2B, 0x3F94F4F0, 0x3F96942D] ++
  [0x3F9837F0, 0x3F99E046, 0x3F9B8D3A, 0x3F9D3EDA, 0x3F9EF532, 0x3FA0B051, 0x3FA27043, 0x3FA43516] ++
  [0x3FA5FED7, 0x3FA7CD94, 0x3FA9A15B, 0x3FAB7A3A, 0x3FAD583F, 0x3FAF3B79, 0x3FB123F6, 0x3FB311C4] ++
  [0x3FB504F3, 0x3FB6FD92, 0x3FB8FBAF, 0x3FBAFF5B, 0x3FBD08A4, 0x3FBF179A, 0x3FC12C4D, 0x3FC346CD] ++
  [0x3FC5672A, 0x3FC78D75, 0x3FC9B9BE, 0x3FCBEC15, 0x3FCE248C, 0x3FD06334, 0x3FD2A81E, 0x3FD4F35B] ++
  [0x3FD744FD, 0x3FD99D16, 0x3FDBFBB8, 0x3FDE60F5, 0x3FE0CCDF, 0x3FE33F89, 0x3FE5B907, 0x3FE8396A] ++
  [0x3FEAC0C7, 0x3FED4F30, 0x3FEFE4BA, 0x3FF28177, 0x3FF5257D, 0x3FF7D0DF, 0x3FFA83B3, 0x3FFD3E0C]
/-- Table G: the F32 nearest to 1/(1 + i/64) (04 R111). -/
def tabG : List Nat :=
  [0x3F800000, 0x3F7C0FC1, 0x3F783E10, 0x3F74898D, 0x3F70F0F1, 0x3F6D7304, 0x3F6A0EA1, 0x3F66C2B4] ++
  [0x3F638E39, 0x3F607038, 0x3F5D67C9, 0x3F5A740E, 0x3F579436, 0x3F54C77B, 0x3F520D21, 0x3F4F6475] ++
  [0x3F4CCCCD, 0x3F4A4588, 0x3F47CE0C, 0x3F4565C8, 0x3F430C31, 0x3F40C0C1, 0x3F3E82FA, 0x3F3C5264] ++
  [0x3F3A2E8C, 0x3F381703, 0x3F360B61, 0x3F340B41, 0x3F321643, 0x3F302C0B, 0x3F2E4C41, 0x3F2C7692] ++
  [0x3F2AAAAB, 0x3F28E83F, 0x3F272F05, 0x3F257EB5, 0x3F23D70A, 0x3F2237C3, 0x3F20A0A1, 0x3F1F1166] ++
  [0x3F1D89D9, 0x3F1C09C1, 0x3F1A90E8, 0x3F191F1A, 0x3F17B426, 0x3F164FDA, 0x3F14F209, 0x3F139A86] ++
  [0x3F124925, 0x3F10FDBC, 0x3F0FB824, 0x3F0E7835, 0x3F0D3DCB, 0x3F0C08C1, 0x3F0AD8F3, 0x3F09AE41] ++
  [0x3F088889, 0x3F0767AB, 0x3F064B8A, 0x3F053408, 0x3F042108, 0x3F03126F, 0x3F020821, 0x3F010204]
/-- Table L: the F32 nearest to log2(1 + i/64) (04 R111). -/
def tabL : List Nat :=
  [0x00000000, 0x3CB73CB4, 0x3D35D69C, 0x3D8759C5, 0x3DB31FB8, 0x3DDE4212, 0x3E0462C4, 0x3E19574F] ++
  [0x3E2E00D2, 0x3E42615F, 0x3E567AF1, 0x3E6A4F72, 0x3E7DE0B6, 0x3E88983F, 0x3E92203D, 0x3E9B8926] ++
  [0x3EA4D3C2, 0x3EAE00D2, 0x3EB7110E, 0x3EC0052B, 0x3EC8DDD4, 0x3ED19BB0, 0x3EDA3F60, 0x3EE2C97D] ++
  [0x3EEB3A9F, 0x3EF39355, 0x3EFBD42B, 0x3F01FED4, 0x3F060828, 0x3F0A0650, 0x3F0DF989, 0x3F11E20F] ++
  [0x3F15C01A, 0x3F1993E3, 0x3F1D5DA0, 0x3F211D84, 0x3F24D3C2, 0x3F28808C, 0x3F2C2411, 0x3F2FBE80] ++
  [0x3F335004, 0x3F36D8CB, 0x3F3A58FF, 0x3F3DD0C8, 0x3F41404F, 0x3F44A7BA, 0x3F480731, 0x3F4B5ED7] ++
  [0x3F4EAED0, 0x3F51F740, 0x3F553848, 0x3F587209, 0x3F5BA4A4, 0x3F5ED039, 0x3F61F4E5, 0x3F6512C7] ++
  [0x3F6829FB, 0x3F6B3A9F, 0x3F6E44CD, 0x3F7148A1, 0x3F744636, 0x3F773DA4, 0x3F7A2F04, 0x3F7D1A71]
/-- Table Y: the F32 nearest to 1/(1 + (i + 0.5)/64) (04 R111). -/
def tabY : List Nat :=
  [0x3F7E03F8, 0x3F7A232D, 0x3F76603E, 0x3F72B9D6, 0x3F6F2EB7, 0x3F6BBDB3, 0x3F6865AC, 0x3F652598] ++
  [0x3F61FC78, 0x3F5EE95C, 0x3F5BEB62, 0x3F5901B2, 0x3F562B81, 0x3F53680D, 0x3F50B6A0, 0x3F4E168A] ++
  [0x3F4B8728, 0x3F4907DA, 0x3F46980C, 0x3F443730, 0x3F41E4BC, 0x3F3FA030, 0x3F3D6910, 0x3F3B3EE7] ++
  [0x3F392144, 0x3F370FBB, 0x3F3509E7, 0x3F330F63, 0x3F311FD4, 0x3F2F3ADE, 0x3F2D602B, 0x3F2B8F6A] ++
  [0x3F29C84A, 0x3F280A81, 0x3F2655C4, 0x3F24A9CF, 0x3F23065E, 0x3F216B31, 0x3F1FD80A, 0x3F1E4CAD] ++
  [0x3F1CC8E1, 0x3F1B4C70, 0x3F19D723, 0x3F1868C8, 0x3F17012E, 0x3F15A025, 0x3F144581, 0x3F12F114] ++
  [0x3F11A2B4, 0x3F105A38, 0x3F0F177A, 0x3F0DDA52, 0x3F0CA29C, 0x3F0B7034, 0x3F0A42F8, 0x3F091AC7] ++
  [0x3F07F781, 0x3F06D905, 0x3F05BF37, 0x3F04A9FA, 0x3F039930, 0x3F028CC0, 0x3F01848E, 0x3F008081]
/-- Table Q: the F32 nearest to 1/sqrt((1 + (j + 0.5)/32) 2^o), i = 32 o + j (04 R111). -/
def tabQ : List Nat :=
  [0x3F7E05EC, 0x3F7A33F9, 0x3F768CDC, 0x3F730D8A, 0x3F6FB345, 0x3F6C7B90, 0x3F69642A, 0x3F666B02] ++
  [0x3F638E39, 0x3F60CC16, 0x3F5E2305, 0x3F5B9193, 0x3F59166B, 0x3F56B051, 0x3F545E22, 0x3F521ED0] ++
  [0x3F4FF162, 0x3F4DD4ED, 0x3F4BC89B, 0x3F49CBA2, 0x3F47DD45, 0x3F45FCD6, 0x3F4429AF, 0x3F426337] ++
  [0x3F40A8DE, 0x3F3EFA1C, 0x3F3D5671, 0x3F3BBD67, 0x3F3A2E8C, 0x3F38A975, 0x3F372DBF, 0x3F35BB09] ++
  [0x3F339F19, 0x3F30EB96, 0x3F2E565C, 0x3F2BDD46, 0x3F297E62, 0x3F2737F0, 0x3F250855, 0x3F22EE1D] ++
  [0x3F20E7F5, 0x3F1EF4A4, 0x3F1D130E, 0x3F1B422C, 0x3F19810C, 0x3F17CED0, 0x3F162AA9, 0x3F1493D9] ++
  [0x3F1309AF, 0x3F118B87, 0x3F1018C6, 0x3F0EB0E0, 0x3F0D534F, 0x3F0BFF97, 0x3F0AB544, 0x3F0973E8] ++
  [0x3F083B1E, 0x3F070A87, 0x3F05E1C7, 0x3F04C08B, 0x3F03A682, 0x3F029362, 0x3F0186E2, 0x3F0080C1]
/-- The constant C1 = 0.6931471806, nearest F32 (04 R112, R114). -/
def kC1 : Nat := 0x3F317218
/-- The constant C2 = 0.2402265070, nearest F32 (04 R112, R114). -/
def kC2 : Nat := 0x3E75FDF0
/-- The constant C3 = 0.0555041087, nearest F32 (04 R112, R114). -/
def kC3 : Nat := 0x3D635847
/-- The constant D1 = 1.4426950409, nearest F32 (04 R112, R114). -/
def kD1 : Nat := 0x3FB8AA3B
/-- The constant D2 = −0.7213475204, nearest F32 (04 R112, R114). -/
def kD2 : Nat := 0xBF38AA3B
/-- The constant D3 = 0.4808983470, nearest F32 (04 R112, R114). -/
def kD3 : Nat := 0x3EF6384F
/-- The constant K2 = 2.8853900818, nearest F32 (04 R112, R114). -/
def kK2 : Nat := 0x4038AA3B
/-- The constant T3 = −0.3333333333, nearest F32 (04 R112, R114). -/
def kT3 : Nat := 0xBEAAAAAB
/-- The constant T5 = 0.1333333333, nearest F32 (04 R112, R114). -/
def kT5 : Nat := 0x3E088889
/-- The constant T7 = −0.0539682540, nearest F32 (04 R112, R114). -/
def kT7 : Nat := 0xBD5D0DD1
/-- The constant T9 = 0.0218694885, nearest F32 (04 R112, R114). -/
def kT9 : Nat := 0x3CB327A4
/-- floor(ln 2 × 2^160). -/
def fxLn2 : Nat := 0xB17217F7D1CF79ABC9E3B39803F2F6AF40F34326
/-- floor(log2 e × 2^160). -/
def fxLog2e : Nat := 0x171547652B82FE1777D0FFDA0D23A7D11D6AEF551

/-- The F32 value of a bit pattern. -/
def f32v (b : Nat) : FV := fvOfBits .f32 b
/-- rne of R111: round to F32 by .RNE, no flag kept. -/
def f32rne (v : FV) : FV := f32v (fvToFmt .f32 .rne .none v).bits
/-- fma of R111. -/
def f32fma (a b c : FV) : FV := f32rne (fvFma .rne a b c).1
/-- rne of a product, and of a sum. -/
def f32mul (a b : FV) : FV := f32rne (fvMul a b).1
def f32add (a b : FV) : FV := f32rne (fvAdd .rne a b).1
/-- Entry i of a table. -/
def tabAt (t : List Nat) (i : Nat) : FV := f32v (t.getD i 0)
/-- A value times 2^k, exactly. -/
def fvScale (v : FV) (k : Int) : FV :=
  match v with
  | .fin s m e => .fin s m (e + k)
  | w => w
/-- scale of R111: round y × 2^k to F32; the exponent is clamped where the result no longer depends on it. -/
def f32scale (y : FV) (k : Int) : FRes := fvToFmt .f32 .rne .none (fvScale y (max (-2000) (min 2000 k)))
/-- A special result with its flags. -/
def spRes (bits : Nat) (fl : Flags) : FRes := ⟨bits, fl, false⟩

/-- exp2_f32 (04 R112). -/
def exp2F32 (x : FV) : FRes :=
  match x with
  | .nan => spRes (fmtNaN .f32) 0
  | .inf false => spRes 0x7F800000 0
  | .inf true => spRes 0 0
  | .fin s m e =>
    let v : Int := if s then -(m : Int) else m
    let n : Int := if 0 ≤ e + 6 then v * pow2n (e + 6) else v / (pow2n (-(e + 6)) : Int)
    let i := n % 64
    let k := (n - i) / 64
    let f := f32rne (fvAdd .rne x (fvOfInt (-n) 6)).1
    let p := f32fma f (f32v kC3) (f32v kC2)
    let p := f32fma f p (f32v kC1)
    let p := f32mul f p
    let t := tabAt tabE i.toNat
    f32scale (f32fma t p t) k

/-- log2_f32 (04 R112). -/
def log2F32 (x : FV) : FRes :=
  match x with
  | .nan => spRes (fmtNaN .f32) 0
  | .inf false => spRes 0x7F800000 0
  | .inf true => spRes (fmtNaN .f32) flNV
  | .fin s m e =>
    if m = 0 then spRes 0xFF800000 flDZ
    else if s then spRes (fmtNaN .f32) flNV
    else
      let l := Nat.log2 m
      let i := (m - 2 ^ l) * 64 / 2 ^ l
      let mm : FV := .fin false m (-(l : Int))
      let t := f32mul (fvAdd .rne mm (fvOfInt (-(64 + i : Nat)) 6)).1 (tabAt tabG i)
      let q := f32fma t (f32v kD3) (f32v kD2)
      let q := f32fma t q (f32v kD1)
      let q := f32mul t q
      let a := f32add (fvOfInt (e + l) 0) (tabAt tabL i)
      fvToFmt .f32 .rne .none (fvAdd .rne a q).1

/-- A result with the sign of an input put on it. -/
def withSign (w : Nat) (neg : Bool) (r : FRes) : FRes := if neg then { r with bits := r.bits + 2 ^ (w - 1) } else r

/-- rcp_f32 (04 R113). -/
def rcpF32 (x : FV) : FRes :=
  match x with
  | .nan => spRes (fmtNaN .f32) 0
  | .inf s => spRes (if s then 0x80000000 else 0) 0
  | .fin s m e =>
    if m = 0 then spRes (if s then 0xFF800000 else 0x7F800000) flDZ
    else
      let l := Nat.log2 m
      let mm : FV := .fin false m (-(l : Int))
      let one := fvOfInt 1 0
      let y := tabAt tabY ((m - 2 ^ l) * 64 / 2 ^ l)
      let y := f32fma y (f32fma (fvNeg mm) y one) y
      let y := f32fma y (f32fma (fvNeg mm) y one) y
      withSign 32 s (f32scale y (-(e + l)))

/-- rsq_core (04 R113), for a finite positive m × 2^e: (a, y, k). -/
def rsqCore (m : Nat) (e : Int) : FV × FV × Int :=
  let l := Nat.log2 m
  let e' := e + l
  let o := e' % 2
  let a : FV := .fin false m (-(l : Int) + o)
  let one := fvOfInt 1 0
  let half : FV := .fin false 1 (-1)
  let y := tabAt tabQ (32 * o.toNat + (m - 2 ^ l) * 32 / 2 ^ l)
  let round (y : FV) : FV :=
    let h := f32mul a y
    let d := f32fma (fvNeg h) y one
    f32fma (f32mul half y) d y
  (a, round (round y), (e' - o) / 2)

/-- rsq_f32 (04 R113). -/
def rsqF32 (x : FV) : FRes :=
  match x with
  | .nan => spRes (fmtNaN .f32) 0
  | .inf false => spRes 0 0
  | .inf true => spRes (fmtNaN .f32) flNV
  | .fin s m e =>
    if m = 0 then spRes (if s then 0xFF800000 else 0x7F800000) flDZ
    else if s then spRes (fmtNaN .f32) flNV
    else
      let (_, y, k) := rsqCore m e
      f32scale y (-k)

/-- sqrt_f32 (04 R113). -/
def sqrtF32 (x : FV) : FRes :=
  match x with
  | .nan => spRes (fmtNaN .f32) 0
  | .inf false => spRes 0x7F800000 0
  | .inf true => spRes (fmtNaN .f32) flNV
  | .fin s m e =>
    if m = 0 then spRes (if s then 0x80000000 else 0) 0
    else if s then spRes (fmtNaN .f32) flNV
    else
      let (a, y, k) := rsqCore m e
      let t := f32mul a y
      let d := f32fma (fvNeg t) t a
      let t := f32fma (f32mul (.fin false 1 (-1)) y) d t
      f32scale t k

/-- tanh_f32 (04 R114). -/
def tanhF32 (x : FV) : FRes :=
  match x with
  | .nan => spRes (fmtNaN .f32) 0
  | .inf s => spRes (if s then 0xBF800000 else 0x3F800000) 0
  | .fin s _ _ =>
    let ax := fvAbs x
    let below (v : FV) : Bool := decide (fvCmp ax v < 0)
    if !below (fvOfInt 10 0) then spRes (if s then 0xBF800000 else 0x3F800000) flNX
    else if below (.fin false 1 (-12)) then
      let r := fvToFmt .f32 .rne .none x
      if fvIsZero x then spRes r.bits 0
      else spRes r.bits (if decide (fvCmp ax (.fin false 1 (-126)) < 0) then flNX ||| flUF else flNX)
    else if below (.fin false 1 (-2)) then
      let z := f32mul x x
      let p := f32fma z (f32v kT9) (f32v kT7)
      let p := f32fma z p (f32v kT5)
      let p := f32fma z p (f32v kT3)
      let p := f32mul z p
      fvToFmt .f32 .rne .none (fvFma .rne x p x).1
    else
      let u := exp2F32 (f32mul ax (f32v kK2))
      let w := rcpF32 (f32add (f32v u.bits) (fvOfInt 1 0))
      let r := fvToFmt .f32 .rne .none (fvFma .rne (fvOfInt (-2) 0) (f32v w.bits) (fvOfInt 1 0)).1
      withSign 32 s { r with flags := r.flags ||| u.flags ||| w.flags }

/-- Fixed point of the half-precision functions: 160 fraction bits. -/
def fxP : Nat := 160
/-- Terms t^n/n! from n = start, for fixed-point t. -/
def expTerms : Nat → Nat → Nat → Nat → Nat
  | 0, _, _, _ => 0
  | fuel + 1, n, term, t => term + expTerms fuel (n + 1) (term * t / (2 ^ fxP * n)) t
/-- 2^f for a fixed-point fraction 0 ≤ f < 1, in fixed point. -/
def fxExp2 (f : Nat) : Nat := expTerms 48 1 (2 ^ fxP) (f * fxLn2 / 2 ^ fxP)
/-- Terms z^(2k+1)/(2k+1). -/
def atanhTerms : Nat → Nat → Nat → Nat → Nat
  | 0, _, _, _ => 0
  | fuel + 1, k, pw, z2 => pw / (2 * k + 1) + atanhTerms fuel (k + 1) (pw * z2 / 2 ^ fxP) z2
/-- log2 of num/den, 1 ≤ num/den < 2, in fixed point. -/
def fxLog2 (num den : Nat) : Nat :=
  let z := (num - den) * 2 ^ fxP / (num + den)
  2 * atanhTerms 56 0 z (z * z / 2 ^ fxP) * fxLog2e / 2 ^ fxP

/-- The exact 2^x rounded once (04 R111). -/
def exp2Half (f : Fmt) (x : FV) : FRes :=
  match x with
  | .nan => spRes (fmtNaN f) 0
  | .inf false => spRes (fmtInf f) 0
  | .inf true => spRes 0 0
  | .fin s m e =>
    if m = 0 then roundFrac f .rne .none false 1 1 0
    else if fvCmp (.fin false m e) (fvOfInt 512 0) ≥ 0 then
      roundFrac f .rne .none false (2 ^ fxP + 1) (2 ^ fxP) (if s then -600 else 600)
    else
      let v : Int := if s then -(m : Int) else m
      let fx : Int := v * pow2n (e + fxP) / (pow2n (-(e + fxP)) : Int)
      let k := fx / (2 ^ fxP : Int)
      let fr := (fx % (2 ^ fxP : Int)).toNat
      roundFrac f .rne .none false (fxExp2 fr) (2 ^ fxP) k

/-- The exact log2 x rounded once (04 R111). -/
def log2Half (f : Fmt) (x : FV) : FRes :=
  match x with
  | .nan => spRes (fmtNaN f) 0
  | .inf false => spRes (fmtInf f) 0
  | .inf true => spRes (fmtNaN f) flNV
  | .fin s m e =>
    if m = 0 then spRes (2 ^ (fmtW f - 1) + fmtInf f) flDZ
    else if s then spRes (fmtNaN f) flNV
    else
      let l := Nat.log2 m
      let t : Int := (e + l) * 2 ^ fxP + (if m = 2 ^ l then 0 else fxLog2 m (2 ^ l))
      roundFrac f .rne .none (decide (t < 0)) t.natAbs (2 ^ fxP) 0

/-- The exact reciprocal rounded once. -/
def rcpHalf (f : Fmt) (x : FV) : FRes :=
  let sb (s : Bool) : Nat := if s then 2 ^ (fmtW f - 1) else 0
  match x with
  | .nan => spRes (fmtNaN f) 0
  | .inf s => spRes (sb s) 0
  | .fin s m e => if m = 0 then spRes (sb s + fmtInf f) flDZ else roundFrac f .rne .none s 1 m (-e)

/-- Integer square root by bisection on bits, from bit k − 1 down. -/
def isqrtAux : Nat → Nat → Nat → Nat
  | 0, r, _ => r
  | k + 1, r, n => if (r + 2 ^ k) * (r + 2 ^ k) ≤ n then isqrtAux k (r + 2 ^ k) n else isqrtAux k r n

/-- The exact square root of num/den (values up to 2^300) as an integer at scale 2^150, with a sticky low bit. -/
def fxSqrt (num den : Nat) : Nat :=
  let a := num * 2 ^ 300 / den
  let r := isqrtAux 320 0 a
  if r * r = a ∧ num * 2 ^ 300 % den = 0 then 2 * r else 2 * r + 1

/-- The exact square root rounded once. -/
def sqrtHalf (f : Fmt) (x : FV) : FRes :=
  match x with
  | .nan => spRes (fmtNaN f) 0
  | .inf false => spRes (fmtInf f) 0
  | .inf true => spRes (fmtNaN f) flNV
  | .fin s m e =>
    if m = 0 then spRes (if s then 2 ^ (fmtW f - 1) else 0) 0
    else if s then spRes (fmtNaN f) flNV
    else
      let o := e % 2
      roundFrac f .rne .none false (fxSqrt (m * pow2n o) 1) (2 ^ 151) ((e - o) / 2)

/-- The exact reciprocal square root rounded once. -/
def rsqHalf (f : Fmt) (x : FV) : FRes :=
  match x with
  | .nan => spRes (fmtNaN f) 0
  | .inf false => spRes 0 0
  | .inf true => spRes (fmtNaN f) flNV
  | .fin s m e =>
    if m = 0 then spRes ((if s then 2 ^ (fmtW f - 1) else 0) + fmtInf f) flDZ
    else if s then spRes (fmtNaN f) flNV
    else
      let o := e % 2
      roundFrac f .rne .none false (fxSqrt 1 (m * pow2n o)) (2 ^ 151) (-((e - o) / 2))

/-- The exact hyperbolic tangent rounded once. A tiny argument is rounded from just below itself, a large one from
just below one: the exact value lies there and no rounding boundary lies between. -/
def tanhHalf (f : Fmt) (x : FV) : FRes :=
  match x with
  | .nan => spRes (fmtNaN f) 0
  | .inf s => roundFrac f .rne .none s 1 1 0
  | .fin s m e =>
    let ax : FV := .fin false m e
    if m = 0 then spRes (if s then 2 ^ (fmtW f - 1) else 0) 0
    else if fvCmp ax (fvOfInt 40 0) ≥ 0 then roundFrac f .rne .none s (2 ^ fxP - 1) (2 ^ fxP) 0
    else if fvCmp ax (.fin false 1 (-20)) < 0 then roundFrac f .rne .none s (m * 2 ^ fxP - 1) (2 ^ fxP) e
    else
      let t := 2 * m * fxLog2e * pow2n e / pow2n (-e)
      let ex := fxExp2 (t % 2 ^ fxP) * 2 ^ (t / 2 ^ fxP)
      roundFrac f .rne .none s (ex - 2 ^ fxP) (ex + 2 ^ fxP) 0

/-- The six functions, in opcode order (08 R221). -/
inductive SpFn where
  | exp2 | log2 | rcp | rsq | sqrt | tanh
  deriving DecidableEq, Repr

/-- A special function on a bit pattern of F32, BF16 or F16 (04 R111). -/
def spApply (fn : SpFn) (f : Fmt) (b : Nat) : FRes :=
  let x := fvOfBits f b
  match f, fn with
  | .f32, .exp2 => exp2F32 x
  | .f32, .log2 => log2F32 x
  | .f32, .rcp => rcpF32 x
  | .f32, .rsq => rsqF32 x
  | .f32, .sqrt => sqrtF32 x
  | .f32, .tanh => tanhF32 x
  | _, .exp2 => exp2Half f x
  | _, .log2 => log2Half f x
  | _, .rcp => rcpHalf f x
  | _, .rsq => rsqHalf f x
  | _, .sqrt => sqrtHalf f x
  | _, .tanh => tanhHalf f x

end Sys2Proof.Machine
end

