-- ==== Sys2Proof/Machine/Vector.lean ====
section
/-!
DEFINITION. Machine/Vector.lean: the vector unit: operand forms, lane arithmetic, compares, special functions,
conversions, lane moves and reductions (spec file 08, R206 to R234).
-/
namespace Sys2Proof.Machine
open Sys2Proof Host

/-! Elements and types. -/

/-- The elements a destination names: 64 of a whole register, 16 of a quarter (08 R207). -/
def elemCount : Operand → Nat
  | .vq _ _ => 16
  | _ => 64
/-- The lane of a register that element i of an operand lies in. -/
def elemLane : Operand → Nat → Nat
  | .vq _ q, i => 16 * q.toNat + i
  | _, i => i
/-- Element i of a source: a lane, or a scalar or immediate standing in every lane (08 R207). -/
def srcElem (a : Arch) (o : Operand) (i : Nat) : Nat :=
  match o with
  | .v r => (lane (rdV a r.toNat) i).toNat
  | .vq r q => (lane (rdV a r.toNat) (16 * q.toNat + i)).toNat
  | o => (valOf a o).toNat % 2 ^ 32
/-- A source element as a signed 32-bit integer. -/
def srcI32 (a : Arch) (o : Operand) (i : Nat) : Int := intOfBits true 32 (srcElem a o i)

/-- The code of MOD[90:85], with 0 standing for the instruction's default (03 R79). -/
def tyCode (f : Fields) (d : Nat) : Nat := if modTy f = 0 then d else modTy f
/-- The type a code names, CB4 acting as N4 (08 R224). -/
def vecTy (code : Nat) : ElTy :=
  match tyOfCode code with
  | some .cb4 => .int false 4
  | some t => t
  | none => .flt .f32
/-- Sub-elements of a lane (03 R80). -/
def subCount (code : Nat) : Nat :=
  if code < 32 then 1 else match tyBits (vecTy code) with
    | 16 => 2 | 8 => 4 | 6 => 4 | _ => 8
/-- Sub-element j of a lane's bits. -/
def subOf (code j x : Nat) : Nat := x / 2 ^ (tyBits (vecTy code) * j) % 2 ^ tyBits (vecTy code)
def isFlt : ElTy → Bool
  | .flt _ => true
  | _ => false

/-- One element's result: its 32 bits, its flags, and the sub-elements that overflowed under .OVTRAP. -/
structure LaneRes where
  val : Nat
  flags : Flags
  ov : Nat

/-- Put sub-element results together (03 R80, 04 R108). -/
def packSubs (code : Nat) (g : Nat → FRes) : LaneRes :=
  (upTo (subCount code)).foldl (fun r j =>
    let x := g j
    ⟨r.val + x.bits % 2 ^ tyBits (vecTy code) * 2 ^ (tyBits (vecTy code) * j), r.flags ||| x.flags,
      if x.trap then r.ov + 2 ^ j else r.ov⟩) ⟨0, 0, 0⟩

/-! The shared path of the lane-preserving words (08 R207 to R211). -/

/-- Taint of destination quarter q from its sources (08 R208). -/
def vecTaint (a : Arch) (f : Fields) (srcs : List Operand) (q : Nat) : Taint :=
  srcs.foldl (fun t o => t ||| match o with
    | .v r => vTaint a r.toNat q
    | o => taintOf a o) (guardTaint a f)

/-- The active destination lanes of a word with an optional mask. -/
def activeOf (a : Arch) (d m : Operand) : W64 := activeMask (lanesOf d) (maskOf a m)

/-- Overflow masks per sub-element position (04 R108). -/
def ovMasks (l : List (Nat × LaneRes)) : Map W64 :=
  (upTo 8).map fun j => (j, BitVec.ofNat 64 (l.foldl (fun n p => if p.2.ov / 2 ^ j % 2 = 1 then n + 2 ^ p.1 else n) 0))

/-- The lanes of the quarters in which some lane is active. -/
def wholeQuarters (act : W64) : W64 :=
  activeMask ((upTo 4).flatMap fun q => if act.toNat / 2 ^ (16 * q) % 2 ^ 16 = 0 then [] else (upTo 16).map fun j => 16 * q + j) (BitVec.allOnes 64)

/-- A result for the active lanes of a register: the other lanes of their quarters keep the value and the taint that are read at issue
(08 R207, R208). -/
def lanesAtIssue (a : Arch) (r : Nat) (act : W64) (v : VReg) (t : Nat → Taint) : Upd :=
  .lanes r (wholeQuarters act) (mergeLanes (rdV a r) v act) (((quarterTaints act t).zip (upTo 4)).map fun p => p.1.map fun (x, keep) =>
    (if keep then x ||| vTaint a r p.2 else x, false))

/-- Land a lane-preserving result, or take the overflow trap (08 R209, R211). The list pairs destination lanes with
their results. -/
def putLanes (s : State) (c lat : Nat) (f : Fields) (ovtrap : Bool) (d : Operand) (act : W64)
    (taint : Nat → Taint) (l : List (Nat × LaneRes)) : Body :=
  if l.any (fun p => p.2.ov != 0) then
    let tv : W64 := BitVec.ofNat 64 (l.foldl (fun n p => if p.2.ov = 0 then n else n + 2 ^ p.1) 0)
    .error (.trap 0x0B 0 tv false (ovMasks l) lat)
  else
    let v := vecOf fun i => match l.find? (fun p => p.1 == i) with
      | some p => p.2.val
      | none => 0
    let fl := l.foldl (fun t p => t ||| p.2.flags) 0
    let s1 := addFx s c lat (lanesAtIssue (getArch s c) (idxOf d) act v taint :: flagUpd fl)
    .ok { st := s1, hold := if ovtrap then lat else (let _ := f; 1) }

/-- A lane-preserving word: each active element computed from its source elements. -/
def laneWord (opc lat : Nat) (f : Fields) (s : State) (rs ovtrap : Bool) (mask : Operand) (srcs : List Operand)
    (g : Arch → RsKey → Nat → Nat → LaneRes) : State :=
  runWord opc false false 1 f s fun s c =>
    let a := getArch s c
    let (s1, k) := rsFor s c (if rs then modBits f 84 82 else 0)
    let act := activeOf a f.o1 mask
    let l := ((upTo (elemCount f.o1)).filter fun i => act.getLsbD (elemLane f.o1 i)).map fun i =>
      (elemLane f.o1 i, g a k (elemLane f.o1 i) i)
    putLanes s1 c lat f ovtrap f.o1 act (vecTaint a f (srcs ++ [mask])) l

/-- An element operation of the arithmetic layout: floating results rounded once, integers wrapped or clamped (08 R213). -/
def arith (f : Fields) (code : Nat) (k : RsKey) (ln : Nat) (fop : Rm → List FV → FV × Flags) (iop : Nat → List Int → Int)
    (xs : List Nat) : LaneRes :=
  packSubs code fun j =>
    let es := xs.map (subOf code j)
    match vecTy code with
    | .flt fm =>
      let rm := rmOf (modBits f 84 82) k ln j
      let (v, fl) := fop rm (es.map (fvOfBits fm))
      let r := fvToFmt fm rm (ovOf (modBits f 81 80)) v
      { r with flags := r.flags ||| fl }
    | .int sg n =>
      let x := iop n (es.map (intOfBits sg n))
      if modBit f 82 && (decide (x < intMin sg n) || decide (intMax sg n < x)) then ⟨intBits n (intClamp sg n x), flIO, false⟩
      else ⟨intBits n x, 0, false⟩
    | _ => ⟨0, 0, false⟩

/-- A word of R213's forms, with its sources in order and its mask. -/
def arithWord (opc latI latF dflt : Nat) (f : Fields) (s : State) (srcs : List Operand) (mask : Operand)
    (fop : Rm → List FV → FV × Flags) (iop : Nat → List Int → Int) : State :=
  let code := tyCode f dflt
  let fl := isFlt (vecTy code)
  laneWord opc (if fl then latF else latI) f s fl (fl && modBits f 81 80 == 3) mask srcs fun a k ln i =>
    arith f code k ln fop iop (srcs.map fun o => srcElem a o i)

def at0 (l : List FV) : FV := l.getD 0 .nan
def at1 (l : List FV) : FV := l.getD 1 .nan
def at2 (l : List FV) : FV := l.getD 2 .nan
def i0 (l : List Int) : Int := l.getD 0 0
def i1 (l : List Int) : Int := l.getD 1 0
def i2 (l : List Int) : Int := l.getD 2 0

def execVadd (f : Fields) (s : State) : Outcome State Fault Refusal :=
  .next (arithWord 0x100 2 4 0x10 f s [f.o2, f.o3] f.o4 (fun rm l => fvAdd rm (at0 l) (at1 l)) fun _ l => i0 l + i1 l)
def execVsub (f : Fields) (s : State) : Outcome State Fault Refusal :=
  .next (arithWord 0x101 2 4 0x10 f s [f.o2, f.o3] f.o4 (fun rm l => fvAdd rm (at0 l) (fvNeg (at1 l))) fun _ l => i0 l - i1 l)
def execVmul (f : Fields) (s : State) : Outcome State Fault Refusal :=
  .next (arithWord 0x102 4 4 0x10 f s [f.o2, f.o3] f.o4 (fun _ l => fvMul (at0 l) (at1 l)) fun _ l => i0 l * i1 l)
def execVfma (f : Fields) (s : State) : Outcome State Fault Refusal :=
  .next (arithWord 0x103 4 4 0x10 f s [f.o2, f.o3, f.o4] f.o5 (fun rm l => fvFma rm (at0 l) (at1 l) (at2 l))
    fun _ l => i0 l * i1 l + i2 l)
def execVfms (f : Fields) (s : State) : Outcome State Fault Refusal :=
  .next (arithWord 0x104 4 4 0x10 f s [f.o2, f.o3, f.o4] f.o5 (fun rm l => fvFma rm (at0 l) (at1 l) (fvNeg (at2 l)))
    fun _ l => i0 l * i1 l - i2 l)
def execVmin (f : Fields) (s : State) : Outcome State Fault Refusal :=
  .next (arithWord 0x107 2 2 0x10 f s [f.o2, f.o3] f.o4 (fun _ l => (fvMin (at0 l) (at1 l), 0)) fun _ l => min (i0 l) (i1 l))
def execVmax (f : Fields) (s : State) : Outcome State Fault Refusal :=
  .next (arithWord 0x108 2 2 0x10 f s [f.o2, f.o3] f.o4 (fun _ l => (fvMax (at0 l) (at1 l), 0)) fun _ l => max (i0 l) (i1 l))
def execVmulh (f : Fields) (s : State) : Outcome State Fault Refusal :=
  .next (arithWord 0x109 4 4 0x04 f s [f.o2, f.o3] f.o4 (fun _ l => (at0 l, 0)) fun n l => (i0 l * i1 l) / 2 ^ n)
def execVneg (f : Fields) (s : State) : Outcome State Fault Refusal :=
  .next (arithWord 0x105 2 2 0x10 f s [f.o2] f.o3 (fun _ l => (fvNeg (at0 l), 0)) fun _ l => 0 - i0 l)
def execVabs (f : Fields) (s : State) : Outcome State Fault Refusal :=
  .next (arithWord 0x106 2 2 0x10 f s [f.o2] f.o3 (fun _ l => (fvAbs (at0 l), 0)) fun _ l => ((i0 l).natAbs : Int))

/-- A bitwise word on whole lanes (08 R215). -/
def bitWord (opc : Nat) (f : Fields) (s : State) (op : Nat → Nat → Nat) : State :=
  laneWord opc 2 f s false false f.o4 [f.o2, f.o3] fun a _ _ i => ⟨op (srcElem a f.o2 i) (srcElem a f.o3 i), 0, 0⟩

def execVand (f : Fields) (s : State) : Outcome State Fault Refusal := .next (bitWord 0x10A f s fun x y => x &&& y)
def execVor (f : Fields) (s : State) : Outcome State Fault Refusal := .next (bitWord 0x10B f s fun x y => x ||| y)
def execVxor (f : Fields) (s : State) : Outcome State Fault Refusal := .next (bitWord 0x10C f s fun x y => x ^^^ y)

/-- A shift word: counts by sub-element of a vector B, or one count from a scalar or immediate (08 R215). -/
def shiftWord (opc : Nat) (f : Fields) (s : State) (op : Bool → Nat → Nat → Nat → Int) : State :=
  let code := tyCode f 0x04
  laneWord opc 2 f s false false f.o4 [f.o2, f.o3] fun a _ _ i =>
    packSubs code fun j =>
      match vecTy code with
      | .int sg n =>
        let x := subOf code j (srcElem a f.o2 i)
        let b := match f.o3 with
          | .v _ | .vq _ _ => subOf code j (srcElem a f.o3 i)
          | _ => srcElem a f.o3 i
        let r := op sg n x (b % n)
        if modBit f 82 && (decide (r < intMin sg n) || decide (intMax sg n < r)) then ⟨intBits n (intClamp sg n r), flIO, false⟩
        else ⟨intBits n r, 0, false⟩
      | _ => ⟨0, 0, false⟩

def execVshl (f : Fields) (s : State) : Outcome State Fault Refusal :=
  .next (shiftWord 0x10D f s fun sg n x b => intOfBits sg n x * 2 ^ b)
def execVshr (f : Fields) (s : State) : Outcome State Fault Refusal :=
  .next (shiftWord 0x10E f s fun _ _ x b => (x / 2 ^ b : Nat))
def execVsar (f : Fields) (s : State) : Outcome State Fault Refusal :=
  .next (shiftWord 0x10F f s fun _ n x b => intOfBits true n x / 2 ^ b)

def countWord (opc : Nat) (f : Fields) (s : State) (op : Nat → Nat → Nat) : State :=
  let code := tyCode f 0x04
  laneWord opc 2 f s false false f.o3 [f.o2] fun a _ _ i =>
    packSubs code fun j => ⟨op (tyBits (vecTy code)) (subOf code j (srcElem a f.o2 i)), 0, false⟩
def execVclz (f : Fields) (s : State) : Outcome State Fault Refusal := .next (countWord 0x110 f s leadZeros)
def execVpopc (f : Fields) (s : State) : Outcome State Fault Refusal := .next (countWord 0x111 f s popCount)

/-! Compare, select, masks (08 R217 to R220). -/

/-- Union of every source quarter, scalar, mask and guard: a mask or scalar destination (08 R208). -/
def crossTaint (a : Arch) (f : Fields) (srcs : List Operand) : Taint := srcTaint a f srcs

def execVcmp (f : Fields) (s : State) : Outcome State Fault Refusal :=
  .next (runWord 0x112 false false 1 f s fun s c =>
    let a := getArch s c
    let code := tyCode f 0x10
    let cc := modBits f 83 80
    let act := activeOf a f.o2 f.o4
    let rel (i : Nat) : Bool :=
      let x := subOf code 0 (srcElem a f.o2 i)
      let y := subOf code 0 (srcElem a f.o3 i)
      match vecTy code with
      | .flt fm => fvRel cc (fvOfBits fm x) (fvOfBits fm y)
      | .int sg n => intRel (if cc = 8 then 6 else cc) (intOfBits sg n x) (intOfBits sg n y) x y
      | _ => false
    let bits := ((upTo (elemCount f.o2)).filter fun i => act.getLsbD (elemLane f.o2 i) && rel i).foldl
      (fun n i => n + 2 ^ elemLane f.o2 i) 0
    let old := rdM a (idxOf f.o1)
    let written := activeMask (lanesOf f.o2) (BitVec.allOnes 64)
    let whole := elemCount f.o2 == 64
    let t := crossTaint a f [f.o2, f.o3, f.o4]
    ok (putM s c 2 f.o1 ((old &&& ~~~written) ||| BitVec.ofNat 64 bits) (if whole then t else t ||| mapGet 0 a.mT (idxOf f.o1))))

def execVsel (f : Fields) (s : State) : Outcome State Fault Refusal :=
  .next (laneWord 0x113 2 f s false false .none [f.o2, f.o3, f.o4] fun a _ ln i =>
    ⟨if (rdM a (idxOf f.o2)).getLsbD ln then srcElem a f.o3 i else srcElem a f.o4 i, 0, 0⟩)

def execVmlog (f : Fields) (s : State) : Outcome State Fault Refusal :=
  .next (runWord 0x114 false false 1 f s fun s c =>
    let a := getArch s c
    let x := rdM a (idxOf f.o2)
    let y := rdM a (idxOf f.o3)
    let r := (upTo 64).foldl (fun n i => if logic8 (modBits f 82 80) (x.getLsbD i) (y.getLsbD i) then n + 2 ^ i else n) 0
    ok (putM s c 2 f.o1 (BitVec.ofNat 64 r) (srcTaint a f [f.o2, f.o3])))

/-- mA AND mB, mB absent reading as all ones (08 R219). -/
def maskAnd (a : Arch) (f : Fields) : Nat := (rdM a (idxOf f.o2) &&& maskOf a f.o3).toNat

def execVmpop (f : Fields) (s : State) : Outcome State Fault Refusal :=
  .next (runWord 0x115 false false 1 f s fun s c =>
    let a := getArch s c
    ok (putS s c 2 f.o1 (BitVec.ofNat 64 (popCount 64 (maskAnd a f))) (srcTaint a f [f.o2, f.o3])))
def execVmfst (f : Fields) (s : State) : Outcome State Fault Refusal :=
  .next (runWord 0x116 false false 1 f s fun s c =>
    let a := getArch s c
    ok (putS s c 2 f.o1 (BitVec.ofNat 64 (trailZeros 64 (maskAnd a f))) (srcTaint a f [f.o2, f.o3])))

def execVmov (f : Fields) (s : State) : Outcome State Fault Refusal :=
  .next (laneWord 0x117 2 f s false false f.o3 [f.o2] fun a _ _ i => ⟨srcElem a f.o2 i, 0, 0⟩)

/-! Special functions (08 R221). -/

def spWord (opc : Nat) (fn : SpFn) (f : Fields) (s : State) : State :=
  let code := tyCode f 0x10
  laneWord opc 8 f s false false f.o3 [f.o2] fun a _ _ i =>
    packSubs code fun j =>
      match vecTy code with
      | .flt fm => spApply fn fm (subOf code j (srcElem a f.o2 i))
      | _ => ⟨0, 0, false⟩

def execVexp2 (f : Fields) (s : State) : Outcome State Fault Refusal := .next (spWord 0x120 .exp2 f s)
def execVlog2 (f : Fields) (s : State) : Outcome State Fault Refusal := .next (spWord 0x121 .log2 f s)
def execVrcp (f : Fields) (s : State) : Outcome State Fault Refusal := .next (spWord 0x122 .rcp f s)
def execVrsq (f : Fields) (s : State) : Outcome State Fault Refusal := .next (spWord 0x123 .rsq f s)
def execVsqrt (f : Fields) (s : State) : Outcome State Fault Refusal := .next (spWord 0x124 .sqrt f s)
def execVtanh (f : Fields) (s : State) : Outcome State Fault Refusal := .next (spWord 0x125 .tanh f s)

/-! Conversions (08 R222 to R228). -/

/-- The MX formats (08 R222). -/
def isMx : ElTy → Bool
  | .flt .e4m3 | .flt .e5m2 | .flt .e3m2 | .flt .e2m3 | .flt .e2m1 => true
  | _ => false

/-- A value with its optional block scale c applied on the MX side; code 0xFF makes it NaN (04 R99, 08 R222). -/
def scaled (ts td : ElTy) (sc : Option Nat) (v : FV) : FV :=
  match sc with
  | none => v
  | some c =>
    if c = 0xFF then .nan
    else if isMx ts then fvScale v ((c : Int) - 127)
    else if isMx td then fvScale v (127 - (c : Int))
    else v

/-- The scale an optional operand gives an element. -/
def scaleOf (a : Arch) (o : Operand) (i : Nat) : Option Nat :=
  match o with
  | .none => none
  | o => some (srcElem a o i % 256)

/-- Convert one element (08 R223). -/
def cvtElem (f : Fields) (k : RsKey) (ln j : Nat) (ts td : ElTy) (sc : Option Nat) (x : Nat) : FRes :=
  tyRound td (rmOf (modBits f 84 82) k ln j) (ovOf (modBits f 81 80)) (scaled ts td sc (tyVal ts x))

def ovTrapCode (f : Fields) : Bool := modBits f 81 80 == 3

def execVcvt (f : Fields) (s : State) : Outcome State Fault Refusal :=
  let td := tyCode f 0x10
  .next (laneWord 0x130 4 f s true (ovTrapCode f) f.o5 [f.o2, f.o4] fun a k ln i =>
    let ts := (valOf a f.o3).toNat
    let ts := if ts = 0 then 0x10 else ts
    packSubs td fun j =>
      cvtElem f k ln j (vecTy ts) (vecTy td) (scaleOf a f.o4 i) (subOf ts j (srcElem a f.o2 i)))

def execVpack (f : Fields) (s : State) : Outcome State Fault Refusal :=
  let td := tyCode f 0x10
  let n := subCount td
  .next (runWord 0x131 false false 1 f s fun s c =>
    let a := getArch s c
    let ts := if (valOf a f.o3).toNat = 0 then 0x10 else (valOf a f.o3).toNat
    let base := idxOf f.o2
    let (s1, k) := rsFor s c (modBits f 84 82)
    let act := activeOf a f.o1 f.o5
    let l := ((upTo 64).filter fun i => act.getLsbD i).map fun i => (i, packSubs td fun j =>
      cvtElem f k i j (vecTy ts) (vecTy td) (scaleOf a f.o4 i) (subOf ts 0 (lane (rdV a (base + j)) i).toNat))
    let t (q : Nat) : Taint := (upTo n).foldl (fun t j => t ||| vTaint a (base + j) q) (vecTaint a f [f.o4, f.o5] q)
    putLanes s1 c 4 f (ovTrapCode f) f.o1 act t l)

/-- VUNPK: all n registers land in the same cycle; an overflow in any element of any of them traps (08 R225). The spec does not say
which sub-element position an unpacked result of VUNPK has: under .RS its random bits are those of lane i and sub-element j, the
position j it had in the source (04 R102; DESIGN CHOICE, log entry 39), and an overflow under .OVTRAP is reported in OVMj of that
same position (04 R108; DESIGN CHOICE, log entry 40). -/
def execVunpk (f : Fields) (s : State) : Outcome State Fault Refusal :=
  let td := tyCode f 0x10
  .next (runWord 0x132 false false 1 f s fun s c =>
    let a := getArch s c
    let ts := (valOf a f.o3).toNat
    let n := subCount ts
    let (s1, k) := rsFor s c (modBits f 84 82)
    let act := activeOf a f.o1 f.o5
    let ls := (upTo 64).filter fun i => act.getLsbD i
    let el (i j : Nat) : FRes := cvtElem f k i j (vecTy ts) (vecTy td) (scaleOf a f.o4 i) (subOf ts j (srcElem a f.o2 i))
    let all : List (Nat × LaneRes) := ls.map fun i =>
      (i, (upTo n).foldl (fun r j => ⟨0, r.flags ||| (el i j).flags, if (el i j).trap then r.ov + 2 ^ j else r.ov⟩) ⟨0, 0, 0⟩)
    if all.any (fun p => p.2.ov != 0) then
      putLanes s1 c 4 f true f.o1 act (fun _ => 0) all
    else
      let us := (upTo n).map fun j =>
        lanesAtIssue a (idxOf f.o1 + j) act (vecOf fun i => if act.getLsbD i then (el i j).bits else 0) (vecTaint a f [f.o2, f.o4, f.o5])
      let fl := all.foldl (fun t p => t ||| p.2.flags) 0
      .ok { st := addFx s1 c 4 (us ++ flagUpd fl), hold := if ovTrapCode f then 4 else 1 })

def execVscale (f : Fields) (s : State) : Outcome State Fault Refusal :=
  let code := tyCode f 0x10
  .next (laneWord 0x133 4 f s true (ovTrapCode f) f.o4 [f.o2, f.o3] fun a k ln i =>
    packSubs code fun j =>
      match vecTy code with
      | .flt fm => fvToFmt fm (rmOf (modBits f 84 82) k ln j) (ovOf (modBits f 81 80))
          (fvScale (fvOfBits fm (subOf code j (srcElem a f.o2 i))) (max (-4000) (min 4000 (srcI32 a f.o3 i))))
      | _ => ⟨0, 0, false⟩)

/-- Requantisation shared with MDRAIN (08 R227, 09 R249): round(x × m / 2^s) + z into a type, IO alone on overflow. -/
def requant (td : ElTy) (rm : Rm) (ov : Ov) (x m : Int) (sh : Nat) (z : Int) : FRes :=
  let p := x * m
  let q := (roundInt rm (decide (p < 0)) p.natAbs (2 ^ sh) 0).1 + z
  match td with
  | .int sg n => intOv ov sg n q false
  | _ => ⟨0, 0, false⟩

def execVqnt (f : Fields) (s : State) : Outcome State Fault Refusal :=
  let code := tyCode f 0x02
  .next (laneWord 0x134 6 f s true (ovTrapCode f) f.o5 [f.o2, f.o3, f.o4] fun a k ln i =>
    let sw := srcElem a f.o4 i
    let r := requant (vecTy code) (rmOf (modBits f 84 82) k ln 0) (ovOf (modBits f 81 80)) (srcI32 a f.o2 i)
      (srcI32 a f.o3 i) (sw % 64) (intOfBits true 16 (sw / 2 ^ 16))
    match vecTy code with
    | .int sg n => ⟨intBits 32 (intOfBits sg n r.bits), r.flags, if r.trap then 1 else 0⟩
    | _ => ⟨0, 0, 0⟩)

def execVdeq (f : Fields) (s : State) : Outcome State Fault Refusal :=
  let code := tyCode f 0x10
  .next (laneWord 0x135 4 f s true (ovTrapCode f) f.o5 [f.o2, f.o3, f.o4] fun a k ln i =>
    packSubs code fun _ =>
      let rm := rmOf (modBits f 84 82) k ln 0
      let d := srcI32 a f.o2 i - srcI32 a f.o4 i
      let (v, fl) := fvMul (fvOfInt d 0) (fvOfBits .f32 (srcElem a f.o3 i))
      match vecTy code with
      | .flt fm => let r := fvToFmt fm rm (ovOf (modBits f 81 80)) v; { r with flags := r.flags ||| fl }
      | _ => ⟨0, 0, false⟩)

/-! Lane moves (08 R229, R230): a destination quarter takes the union of every quarter of every source (02 R49). -/

def moveWord (opc lat : Nat) (f : Fields) (s : State) (mask : Operand) (srcs : List Operand) (g : Arch → Nat → Nat) : State :=
  runWord opc false false 1 f s fun s c =>
    let a := getArch s c
    let act := activeOf a f.o1 mask
    let v := vecOf fun i => if act.getLsbD i then g a i else 0
    ok (addFx s c lat [lanesAtIssue a (idxOf f.o1) act v fun _ => srcTaint a f (srcs ++ [mask])])

/-- Lane i of a vector source. -/
def vl (a : Arch) (o : Operand) (i : Nat) : Nat := (lane (rdV a (idxOf o)) i).toNat
/-- An index operand's bits [31:0] modulo n (08 R229). -/
def idxMod (a : Arch) (o : Operand) (n : Nat) : Nat := (valOf a o).toNat % 2 ^ 32 % n
/-- The 128-lane sequence c of vA and vB. -/
def cat2 (a : Arch) (x y : Operand) (i : Nat) : Nat := if i < 64 then vl a x i else vl a y (i - 64)

def execVbcst (f : Fields) (s : State) : Outcome State Fault Refusal :=
  .next (moveWord 0x140 2 f s f.o4 [f.o2, f.o3] fun a _ =>
    match f.o2 with
    | .s _ => (valOf a f.o2).toNat
    | o => vl a o (idxMod a f.o3 64))
def execVext (f : Fields) (s : State) : Outcome State Fault Refusal :=
  .next (runWord 0x141 false false 1 f s fun s c =>
    let a := getArch s c
    let x := vl a f.o2 (idxMod a f.o3 64)
    ok (putS s c 2 f.o1 (extLoad 4 (modBit f 80) x) (srcTaint a f [f.o2, f.o3])))
def execVins (f : Fields) (s : State) : Outcome State Fault Refusal :=
  .next (runWord 0x142 false false 1 f s fun s c =>
    let a := getArch s c
    let i := idxMod a f.o3 64
    let act : W64 := 1#64 <<< i
    ok (addFx s c 2 [lanesAtIssue a (idxOf f.o1) act (vecOf fun _ => (valOf a f.o2).toNat) fun _ => srcTaint a f [f.o2, f.o3]]))
def execVshuf (f : Fields) (s : State) : Outcome State Fault Refusal :=
  .next (moveWord 0x143 3 f s f.o5 [f.o2, f.o3, f.o4] fun a i =>
    match f.o3 with
    | .none => vl a f.o2 (vl a f.o4 i % 64)
    | o => cat2 a f.o2 o (vl a f.o4 i % 128))
def execVrot (f : Fields) (s : State) : Outcome State Fault Refusal :=
  .next (moveWord 0x144 2 f s f.o4 [f.o2, f.o3] fun a i => vl a f.o2 ((i + 64 - idxMod a f.o3 64) % 64))
def execVzip (f : Fields) (s : State) : Outcome State Fault Refusal :=
  .next (moveWord 0x145 2 f s f.o4 [f.o2, f.o3] fun a i =>
    let h := if modBit f 80 then 32 else 0
    if i % 2 = 0 then vl a f.o2 (h + i / 2) else vl a f.o3 (h + i / 2))
def execVuzp (f : Fields) (s : State) : Outcome State Fault Refusal :=
  .next (moveWord 0x146 2 f s f.o4 [f.o2, f.o3] fun a i => cat2 a f.o2 f.o3 (2 * i + if modBit f 80 then 1 else 0))
def execVsld (f : Fields) (s : State) : Outcome State Fault Refusal :=
  .next (moveWord 0x147 2 f s f.o5 [f.o2, f.o3, f.o4] fun a i =>
    let n := i + idxMod a f.o4 128
    if n < 128 then cat2 a f.o2 f.o3 n else 0)

/-! Reductions (04 R117, 08 R231 to R233). -/

/-- One level of the fixed tree: node n of level lvl combines its two inputs; the flags gather. -/
def treeLevel {α : Type} (node : Nat → Nat → α → α → α × Flags) (lvl : Nat) : Nat → List α → List α × Flags
  | n, x :: y :: t =>
    let (z, f1) := node lvl (n * 2 ^ lvl) x y
    let (r, f2) := treeLevel node lvl (n + 1) t
    (z :: r, f1 ||| f2)
  | _, l => (l, 0)

/-- The levels of the tree from lvl upward. -/
def treeUp {α : Type} (node : Nat → Nat → α → α → α × Flags) : Nat → Nat → List α → List α × Flags
  | 0, _, l => (l, 0)
  | fuel + 1, lvl, l =>
    let (l1, f1) := treeLevel node lvl 0 l
    let (l2, f2) := treeUp node fuel (lvl + 1) l1
    (l2, f1 ||| f2)

/-- The six-level tree over 64 leaves (04 R117). -/
def tree64 {α : Type} (node : Nat → Nat → α → α → α × Flags) (d : α) (l : List α) : α × Flags :=
  let (r, f) := treeUp node 6 1 l
  (r.getD 0 d, f)

/-- The reduction operations. -/
inductive RedOp where
  | add | max | min
  deriving DecidableEq, Repr

/-- A floating node, rounded once in F32 (04 R117). -/
def fnode (op : RedOp) (code : Nat) (k : RsKey) (lvl low : Nat) (x y : FV) : FV × Flags :=
  let rm := rmOf code k low lvl
  let (v, f1) := match op with
    | .add => fvAdd rm x y
    | .max => (fvMax x y, 0)
    | .min => (fvMin x y, 0)
  let r := fvToFmt .f32 rm .none v
  (fvOfBits .f32 r.bits, r.flags ||| f1)

/-- An integer node in 32 bits (08 R231). -/
def inode (op : RedOp) (sg sat : Bool) (_ _ : Nat) (x y : Int) : Int × Flags :=
  let z := match op with
    | .add => x + y
    | .max => max x y
    | .min => min x y
  if sat && (decide (z < intMin sg 32) || decide (intMax sg 32 < z)) then (intClamp sg 32 z, flIO)
  else (intOfBits sg 32 (intBits 32 z), 0)

/-- Identities (04 R117). -/
def fIdent : RedOp → FV
  | .add => .fin true 0 0
  | .max => .inf true
  | .min => .inf false
def iIdent (sg : Bool) : RedOp → Int
  | .add => 0
  | .max => intMin sg 32
  | .min => intMax sg 32

/-- Bits of a value known to be an F32, NaN canonical. -/
def f32Bits (v : FV) : Nat := (fvToFmt .f32 .rne .none v).bits

/-- A reduction's result in a scalar: F32 bits, or an integer extended (08 R231). -/
def redWord (opc lat : Nat) (f : Fields) (s : State) (srcs : List Operand) (mask : Operand) (op : RedOp)
    (fleaf : Arch → Nat → FV × Flags) (ileaf : Arch → Nat → Int) (ty : ElTy) (sg : Bool) : State :=
  runWord opc false false 1 f s fun s c =>
    let a := getArch s c
    let m := maskOf a mask
    let t := srcTaint a f (srcs ++ [mask])
    match ty with
    | .flt _ =>
      let (s1, k) := rsFor s c (modBits f 84 82)
      let leaves := (upTo 64).map fun i => if m.getLsbD i then fleaf a i else (fIdent op, 0)
      let (v, fl) := tree64 (fnode op (modBits f 84 82) k) .nan (leaves.map (·.1))
      ok (addFx s1 c lat (.sreg (idxOf f.o1) (BitVec.ofNat 64 (f32Bits v)) t ::
        flagUpd (leaves.foldl (fun x l => x ||| l.2) fl)))
    | _ =>
      let leaves := (upTo 64).map fun i => if m.getLsbD i then ileaf a i else iIdent sg op
      let (v, fl) := tree64 (inode op sg (modBit f 82)) 0 leaves
      ok (addFx s c lat (.sreg (idxOf f.o1) (extInt sg 32 v) t :: flagUpd fl))

def signedTy : ElTy → Bool
  | .int sg _ => sg
  | _ => true

def reduce (opc : Nat) (op : RedOp) (f : Fields) (s : State) : State :=
  let ty := vecTy (tyCode f 0x10)
  redWord opc 8 f s [f.o2] f.o3 op (fun a i => (fvOfBits .f32 (vl a f.o2 i), 0))
    (fun a i => intOfBits (signedTy ty) 32 (vl a f.o2 i)) ty (signedTy ty)

def execVredadd (f : Fields) (s : State) : Outcome State Fault Refusal := .next (reduce 0x150 .add f s)
def execVredmax (f : Fields) (s : State) : Outcome State Fault Refusal := .next (reduce 0x151 .max f s)
def execVredmin (f : Fields) (s : State) : Outcome State Fault Refusal := .next (reduce 0x152 .min f s)

/-- Scan: lane i is the tree with every lane above i, and every inactive lane, entering as the identity (08 R232). -/
def execVscan (f : Fields) (s : State) : Outcome State Fault Refusal :=
  let ty := vecTy (tyCode f 0x10)
  let sg := signedTy ty
  let op : RedOp := match modBits f 81 80 with
    | 0 => .add | 1 => .max | _ => .min
  .next (runWord 0x153 false false 1 f s fun s c =>
    let a := getArch s c
    let m := maskOf a f.o3
    let (s1, k) := rsFor s c (if isFlt ty then modBits f 84 82 else 0)
    let one (i : Nat) : Nat × Flags :=
      let on (j : Nat) : Bool := m.getLsbD j && decide (j ≤ i)
      match ty with
      | .flt _ =>
        let (v, fl) := tree64 (fnode op (modBits f 84 82) k) .nan
          ((upTo 64).map fun j => if on j then fvOfBits .f32 (vl a f.o2 j) else fIdent op)
        (f32Bits v, fl)
      | _ =>
        let (v, fl) := tree64 (inode op sg (modBit f 82)) 0
          ((upTo 64).map fun j => if on j then intOfBits sg 32 (vl a f.o2 j) else iIdent sg op)
        (intBits 32 v, fl)
    let rs := ((upTo 64).filter fun i => m.getLsbD i).map fun i => (i, one i)
    let v := vecOf fun i => match rs.find? (fun p => p.1 == i) with
      | some p => p.2.1
      | none => 0
    let fl := rs.foldl (fun t p => t ||| p.2.2) 0
    ok (addFx s1 c 10 ((lanesAtIssue a (idxOf f.o1) m v fun _ => srcTaint a f [f.o2, f.o3]) :: flagUpd fl)))

/-- A lane's leaf of VDOT: the exact sum of its sub-element products (08 R233); an exact zero sum of products of opposite sign has the
sign the word's rounding mode gives it (04 R97). -/
def dotLeafF (rm : Rm) (code x y : Nat) : FV × Flags :=
  match vecTy code with
  | .flt fm =>
    let ps := (upTo (subCount code)).map fun j => fvMul (fvOfBits fm (subOf code j x)) (fvOfBits fm (subOf code j y))
    let nv : Flags := ps.foldl (fun t p => t ||| p.2) 0
    let both := ps.any (fun p => p.1 == .inf true) && ps.any (fun p => p.1 == .inf false)
    let v := ps.foldl (fun (v : Option FV) p => match v with
      | none => some p.1
      | some u => some (fvAdd rm u p.1).1) none
    (v.getD .nan, if both then nv ||| flNV else nv)
  | _ => (.nan, 0)
def dotLeafI (code x y : Nat) : Int :=
  match vecTy code with
  | .int sg n => (upTo (subCount code)).foldl (fun t j => t + intOfBits sg n (subOf code j x) * intOfBits sg n (subOf code j y)) 0
  | _ => 0

def execVdot (f : Fields) (s : State) : Outcome State Fault Refusal :=
  let code := tyCode f 0x10
  .next (redWord 0x154 10 f s [f.o2, f.o3] f.o4 .add (fun a i => dotLeafF (if modBits f 84 82 = 3 then .rd else .rne) code (vl a f.o2 i) (vl a f.o3 i))
    (fun a i => dotLeafI code (vl a f.o2 i) (vl a f.o3 i)) (vecTy code) (signedTy (vecTy code)))

end Sys2Proof.Machine
end

