-- ==== Sys2Proof/Machine/Matrix.lean ====
section
/-!
DEFINITION. Machine/Matrix.lean: the matrix engine's shared operations and the words that push its commands or move
tile rows (spec file 09, R235 to R250).
-/
namespace Sys2Proof.Machine
open Sys2Proof Host

/-! Formats of the array (09 R236, R243). -/

/-- K indices a PE row holds for a plane tag; 0 for a code that is no tag. -/
def mxE (code : Nat) : Nat :=
  if [0x12, 0x13].contains code then 1
  else if [0x14, 0x15, 0x16, 0x17, 0x0A].contains code then 2
  else if [0x18, 0x19, 0x09].contains code then 4 else 0
/-- An activation format. -/
def mxAct (code : Nat) : Bool := [0x12, 0x13, 0x14, 0x15, 0x16, 0x17, 0x18, 0x0A, 0x09].contains code
/-- A plane of this tag accepts these activations. -/
def mxAccepts (tag act : Nat) : Bool :=
  if [0x12, 0x13].contains tag then [0x12, 0x13].contains act
  else if [0x14, 0x15, 0x16, 0x17].contains tag then [0x14, 0x15, 0x16, 0x17].contains act
  else if [0x18, 0x19].contains tag then act == 0x18
  else [0x0A, 0x09].contains tag && act == tag
/-- The block-scaled formats. -/
def mxScaled (code : Nat) : Bool := [0x14, 0x15, 0x16, 0x17, 0x18].contains code
def mxInt (code : Nat) : Bool := [0x0A, 0x09].contains code
/-- Bits of one element of a code. -/
def codeBits (code : Nat) : Nat := match tyOfCode code with | some t => tyBits t | none => 8
/-- ESIZE of a format (09 R243). -/
def esizeOf (code : Nat) : Nat := if codeBits code = 32 then 2 else if codeBits code = 16 then 1 else 0
/-- Elements a byte or element step counts for: two in a 4-bit format. -/
def perStep (code : Nat) : Nat := if codeBits code = 4 then 2 else 1

/-- Elements of a row of bytes, first element first; a 4-bit format packs the low nibble first. -/
def elemsOf (code : Nat) (bs : List Byte) : List Nat :=
  match codeBits code with
  | 4 => bs.flatMap fun b => [b.toNat % 16, b.toNat / 16]
  | 16 => (upTo (bs.length / 2)).map fun i => leNat ((bs.drop (2 * i)).take 2)
  | 32 => (upTo (bs.length / 4)).map fun i => leNat ((bs.drop (4 * i)).take 4)
  | w => bs.map fun b => b.toNat % 2 ^ w

/-- Bytes of a row of elements. -/
def packElems (code : Nat) (l : List Nat) : List Byte :=
  match codeBits code with
  | 4 => (upTo ((l.length + 1) / 2)).map fun i => BitVec.ofNat 8 (l.getD (2 * i) 0 % 16 + l.getD (2 * i + 1) 0 % 16 * 16)
  | 16 => l.flatMap (leBytes 2)
  | 32 => l.flatMap (leBytes 4)
  | _ => l.map fun x => BitVec.ofNat 8 x

/-! The array's halves and registers. -/

def mxOf (s : State) (core : Nat) : MxCore := mxHalf s core
def updMx (s : State) (core : Nat) (f : MxCore → MxCore) : State :=
  updCluster s (core / 2) fun c => if core % 2 = 0 then { c with mx0 := f c.mx0 } else { c with mx1 := f c.mx1 }
def nbOf (s : State) (core : Nat) : Nat :=
  let b := (getCluster s (core / 2)).bands.toNat
  (upTo 4).foldl (fun n i => n + b / 2 ^ i % 2) 0
/-- Depth of a plane of a tag under the bands in force (09 R236). -/
def depthOf (s : State) (core tag : Nat) : Nat := 64 * mxE tag * nbOf s core
/-- The fill latency (09 R242). -/
def fillLat (s : State) (core : Nat) : Nat := 64 * nbOf s core + 264

/-- The cadence in force: the written GAP, or the controller's floor (16 R399). -/
def gapOf (c : Cluster) : Nat := max c.gap.toNat c.gapflr.toNat

/-- Window length of a sharing mode and the core that owns a cycle (09 R239, R240). -/
def windowLen (m : BitVec 2) : Nat := if m = 0 then 16 else 64
def ownerAt (m : BitVec 2) (cy : Nat) : Nat :=
  match m.toNat with
  | 2 => 0
  | 3 => 1
  | _ => cy / windowLen m % 2
/-- A half that owns some cycles under the mode. -/
def ownsAny (m : BitVec 2) (half : Nat) : Bool := !(m.toNat = 2 && half = 1) && !(m.toNat = 3 && half = 0)
/-- The n-th cycle (0 for the first) at or after cy that a half owns. A window of 64 holds at most 64 foreign cycles. -/
def ownedFrom (m : BitVec 2) (half : Nat) : Nat → Nat → Nat → Nat
  | 0, cy, _ => cy
  | fuel + 1, cy, n =>
    if ownerAt m cy = half then (if n = 0 then cy else ownedFrom m half fuel (cy + 1) (n - 1))
    else ownedFrom m half fuel (cy + 1) n
/-- The cycle of what waits for a cycle its core does not own (09 R240). -/
def never : Nat := 2 ^ 80
/-- Owned cycles from a up to, not including, b. -/
def ownedIn (m : BitVec 2) (half a b : Nat) : Nat := ((upTo (b - a)).filter fun i => ownerAt m (a + i) == half).length
/-- n injection points in a row (09 R242): the first in the w-th owned cycle (from 1) at or after cy, each next one the c-th owned cycle
after it; never where the core owns none. -/
def injections (m : BitVec 2) (half c : Nat) : Nat → Nat → Nat → List Nat
  | 0, _, _ => []
  | n + 1, cy, w =>
    if !ownsAny m half then never :: injections m half c n cy w
    else let i := ownedFrom m half (64 * (w + 2)) cy (w - 1); i :: injections m half c n (i + 1) c

/-! Tiles (09 R238). -/

/-- Physical tile named ai by a context, if it holds it. -/
def tileOf (s : State) (c i : Nat) : Option Nat :=
  match (getCtx s c).bind with
  | some b =>
    if b.supv then (if i < 32 then some i else none)
    else if i < b.splen / 0x10000 then some (b.spbase / 0x10000 + i) else none
  | none => none
/-- The tiles a context holds: the first, and how many. -/
def tilesHeld (s : State) (c : Nat) : Nat × Nat :=
  match (getCtx s c).bind with
  | some b => if b.supv then (0, 32) else (if b.splen / 0x10000 = 0 then 0 else b.spbase / 0x10000, b.splen / 0x10000)
  | none => (0, 0)
def tileKey (core tile row col : Nat) : Nat := (core * 32 + tile) * 65536 + row * 256 + col
def tileGet (s : State) (core tile row col : Nat) : BitVec 32 := mapGet 0 s.tiles (tileKey core tile row col)
/-- Write tile elements. -/
def tilePut (s : State) (l : List (Nat × BitVec 32)) : State := { s with tiles := l.foldl (fun m p => mapSet m p.1 p.2) s.tiles }

def checkTile (s : State) (c : Nat) (o : Operand) : Except Stop Nat :=
  match tileOf s c (idxOf o) with
  | some t => .ok t
  | none => .error (.trap 0x06 0 (w64 (2 ^ 63 + idxOf o)) false [])

/-! Push checks (09 R243; 03 R87). -/

/-- The rules every matrix descriptor obeys: reserved bits, the format side, SCL alone among the flags, the two outer
dimensions. -/
def mxForm (d : Quarter) (dst scl okFmt : Bool) : Except Stop Unit := do
  descForm d (okFmt && dEsize d == esizeOf (if dst then dDfmt d else dSfmt d)) (fun e => e == 0 || (scl && e == 1)) false
  faultIf (dTrip d 2 != 1) 2
  faultIf (dTrip d 3 != 1) 3
  faultIf (dField d 6 != 0) 6
  faultIf (dField d 7 != 0) 7
  faultIf (dField d 10 != 0) 10
  faultIf (dField d 11 != 0) 11

/-- A scratchpad table named by a descriptor field: aligned, and within the window (01 R13). -/
def checkTable (s : State) (c off size field align : Nat) : Except Stop Unit := do
  faultIf (off % align != 0) field
  if spLen s c < off + size then .error (.trap 0x06 0 (w64 off) false [])

/-- The one source or destination a matrix walk has. -/
def mxSide (d : Quarter) (base : W64) (field : Nat) (acc : Acc) (ok : Cls → Bool) : Side :=
  ⟨base, field, acc, ok, false, walkAddr base d field⟩
def scratchOnly (k : Cls) : Bool := k == .scratch
def localOnly (k : Cls) : Bool := k != .host

/-- A matrix word: its queue's command, pushed after its checks. -/
def mxWord (opc : Nat) (f : Fields) (s : State) (body : State → Nat → Except Stop Cmd) : State :=
  runWord opc false false 1 f s fun s c => do
    let k ← body s c
    let s1 ← pushCmd s c k
    ok s1

def baseOf (a : Arch) (b e : Operand) : W64 := addrOf a b e

def execMldw (f : Fields) (s : State) : Outcome State Fault Refusal :=
  .next (mxWord 0x180 f s fun s c => do
    let a := getArch s c
    let d := descOf a f.o1
    let sf := dSfmt d
    mxForm d false (mxScaled sf) (mxE sf != 0 && (dDfmt d == 0 || dDfmt d == sf))
    faultIf (decide (256 < dTrip d 0 * perStep sf)) 0
    faultIf (dEng d == 1 && dTrip d 1 % 32 != 0) 1
    faultIf (dField d 4 != 2 ^ dEsize d) 4
    faultIf (dField d 8 != 0) 8
    faultIf (dField d 9 != 0) 9
    faultIf (dField d 14 != 0) 14
    let kb := (valOf a f.o4).toNat
    faultIf (decide (32 ≤ kb) || decide (depthOf s (coreOf c) sf < 32 * kb + dTrip d 1)) 1
    let (_, pg) ← checkWalk s c d (2 ^ dEsize d) [mxSide d (baseOf a f.o2 f.o3) 4 .pushRead scratchOnly]
    if dEng d = 1 then checkTable s c (dField d 15) (dTrip d 0 * perStep sf * (dTrip d 1 / 32)) 15 1
    .ok { mkCmd s c f 0 (.mldw f) d with pins := pg })

def execMswap (f : Fields) (s : State) : Outcome State Fault Refusal :=
  .next (mxWord 0x181 f s fun s c => .ok (mkCmd s c f 0 (.mswap f) 0))

def execMmul (f : Fields) (s : State) : Outcome State Fault Refusal :=
  .next (mxWord 0x182 f s fun s c => do
    let a := getArch s c
    let d := descOf a f.o2
    let sf := dSfmt d
    let sat := modBit f 81
    let sa := modBit f 82
    let sw := modBit f 83
    let rsum := modBit f 84
    mxForm d false (mxScaled sf) (mxAct sf && (dDfmt d == 0 || dDfmt d == sf))
    faultIf (!mxInt sf && (sat || sa || sw || rsum)) 12
    let p := (valOf a f.o5).toNat
    let k := dTrip d 0 * perStep sf
    faultIf (decide (depthOf s (coreOf c) sf < 32 * bitsOf p 12 8 + k)) 0
    faultIf (dTrip d 1 == 0 || decide (256 < p % 256 + dTrip d 1)) 1
    faultIf (dField d 4 != 2 ^ dEsize d) 4
    faultIf (dField d 8 != 0) 8
    faultIf (dField d 9 != 0) 9
    faultIf (!rsum && dField d 14 != 0) 14
    let (_, pg) ← checkWalk s c d (2 ^ dEsize d) [mxSide d (baseOf a f.o3 f.o4) 4 .pushRead scratchOnly]
    if rsum then checkTable s c (dField d 14) (4 * dTrip d 1) 14 4
    if dEng d = 1 then checkTable s c (dField d 15) (dTrip d 1 * ((k + 31) / 32)) 15 1
    let _ ← checkTile s c f.o1
    .ok { mkCmd s c f 0 (.mmul f) d with pins := pg })

/-- The destination formats of MDRAIN (09 R249). -/
def drainFmt (code : Nat) : Bool :=
  [0x10, 0x12, 0x13, 0x14, 0x15, 0x16, 0x17, 0x18, 0x04, 0x03, 0x02, 0x0C, 0x0B, 0x0A, 0x01, 0x09].contains code
def drainInt (code : Nat) : Bool := [0x04, 0x03, 0x02, 0x0C, 0x0B, 0x0A, 0x01, 0x09].contains code

def execMdrain (f : Fields) (s : State) : Outcome State Fault Refusal :=
  .next (runWord 0x183 false false 1 f s fun s c => do
    let a := getArch s c
    let d := descOf a f.o3
    let sf := dSfmt d
    let df := dDfmt d
    let rq := modBit f 85
    let zp := modBit f 87
    mxForm d true false ((sf == 0x10 || sf == 0x04) && drainFmt df)
    faultIf ((zp && sf != 0x04) || (rq && sf == 0x04 && !drainInt df)) 12
    let e14 := dField d 14
    let nc := dTrip d 0 * perStep df
    faultIf (decide (256 < bitsOf e14 15 8 + nc)) 0
    faultIf (decide (256 < e14 % 256 + dTrip d 1)) 1
    faultIf (dField d 4 != 0) 4
    faultIf (dField d 5 != 0) 5
    faultIf (dField d 8 != 2 ^ dEsize d) 8
    faultIf (decide (65536 ≤ e14)) 14
    let (_, pg) ← checkWalk s c d (2 ^ dEsize d) [mxSide d (baseOf a f.o1 f.o2) 8 .pushWrite localOnly]
    if rq || zp then checkTable s c (dField d 15) (16 * nc) 15 16
    if zp then
      let r := (valOf a f.o5).toNat
      if r % 4 ≠ 0 then .error (.trap 0x07 0 (w64 r) false [])
      else if spLen s c < r + 4 * dTrip d 1 then .error (.trap 0x06 0 (w64 r) false [])
    let _ ← checkTile s c f.o4
    let (s1, rk) := rsFor s c (modBits f 84 82)
    let s2 ← pushCmd s1 c { mkCmd s c f 0 (.mdrain f) d with pins := pg, rs := rk }
    ok s2)

def execMzero (f : Fields) (s : State) : Outcome State Fault Refusal :=
  .next (mxWord 0x184 f s fun s c => do
    let _ ← checkTile s c f.o1
    .ok (mkCmd s c f 0 (.mzero f) 0))

/-- A block of scratchpad or Global bytes named by an address, checked at the push: form, alignment, class. -/
def mxBlock (s : State) (c : Nat) (va : W64) (n align : Nat) (acc : Acc) (ok : Cls → Bool) : Except Stop (List Nat) := do
  let _ ← locate s c acc va (upTo n) align ok
  .ok (if va.toNat < 0x200000 then [] else ((upTo ((va.toNat % 0x10000 + n + 0xFFFF) / 0x10000)).map fun i => va.toNat / 0x10000 + i))

def imageCls (k : Cls) : Bool := k == .scratch || k == .global
def tileImage : Nat := 262208
def planeImage : Nat := 278656

def execMcbt (f : Fields) (s : State) : Outcome State Fault Refusal :=
  .next (mxWord 0x185 f s fun s c => do
    let _ ← mxBlock s c (baseOf (getArch s c) f.o1 f.o2) 32 32 .pushRead scratchOnly
    .ok (mkCmd s c f 0 (.mcbt f) 0))

/-- MSAVE and MREST of a tile or of the planes (09 R258, R260). -/
def execMsave (f : Fields) (s : State) : Outcome State Fault Refusal :=
  .next (mxWord 0x188 f s fun s c => do
    let pg ← mxBlock s c (baseOf (getArch s c) f.o1 f.o2) tileImage 64 .pushWrite imageCls
    let _ ← checkTile s c f.o3
    .ok { mkCmd s c f 0 (.msave f) 0 with pins := pg })

def execMsavePl (f : Fields) (s : State) : Outcome State Fault Refusal :=
  .next (mxWord 0x188 f s fun s c => do
    let pg ← mxBlock s c (baseOf (getArch s c) f.o1 f.o2) planeImage 64 .pushWrite imageCls
    .ok { mkCmd s c f 0 (.msavePl f) 0 with pins := pg })

def execMrest (f : Fields) (s : State) : Outcome State Fault Refusal :=
  .next (mxWord 0x189 f s fun s c => do
    let pg ← mxBlock s c (baseOf (getArch s c) f.o2 f.o3) tileImage 64 .pushRead imageCls
    let _ ← checkTile s c f.o1
    .ok { mkCmd s c f 0 (.mrest f) 0 with pins := pg })

def execMrestPl (f : Fields) (s : State) : Outcome State Fault Refusal :=
  .next (mxWord 0x189 f s fun s c => do
    let pg ← mxBlock s c (baseOf (getArch s c) f.o1 f.o2) planeImage 64 .pushRead imageCls
    .ok { mkCmd s c f 0 (.mrestPl f) 0 with pins := pg })

/-! MRDA and MWRA (09 R250). -/

/-- The elements an MWRA writes: row and column of each active lane. -/
def mwraCells (core tile : Nat) (p : Nat) (v : VReg) (m : W64) : List (Nat × BitVec 32) :=
  ((upTo 64).filter fun i => m.getLsbD i).map fun i => (tileKey core tile (p % 256) (64 * bitsOf p 9 8 + i), lane v i)

/-- A context's tile contents with its MWRAs not yet released in front. -/
def tileView (s : State) (c : Nat) : State :=
  tilePut s (((heldCmds s c).filter fun k => k.q == 7).flatMap fun k => mwraCells (coreOf c) (k.aux.getD 0 0) k.x2.toNat k.vec k.mask)

def execMrda (f : Fields) (s : State) : Outcome State Fault Refusal :=
  .next (runWord 0x186 false false 1 f s fun s c => do
    let a := getArch s c
    let t ← checkTile s c f.o2
    let p := (valOf a f.o3).toNat
    let m := maskOf a f.o4
    let act := activeMask (upTo 64) m
    let sv := tileView s c
    let v := vecOf fun i => (tileGet sv (coreOf c) t (p % 256) (64 * bitsOf p 9 8 + i)).toNat
    let s1 := markToken s c f
    match replayLoad s1 c with
    | some s2 => ok s2
    | none =>
      let tt := srcTaint a f [f.o3, f.o4]
      ok (addLanding s1 ⟨c, a.seq, [.lanes (idxOf f.o1) act v (quarterTaints act fun _ => tt)], setwTok f, none, none⟩))

/-- MWRA is held for the checker and applied when it leaves the core. -/
def execMwra (f : Fields) (s : State) : Outcome State Fault Refusal :=
  .next (runWord 0x187 false false 1 f s fun s c => do
    let a := getArch s c
    let t ← checkTile s c f.o1
    let k : Cmd := { mkCmd s c f 7 (.mwra f) 0 with vec := rdV a (idxOf f.o3), mask := maskOf a f.o4, aux := [t] }
    let s1 ← holdEff s c (.push k)
    ok s1)

/-- Apply a released MWRA. -/
def mwraApply (s : State) (c : Nat) (k : Cmd) : State :=
  tilePut s (mwraCells (coreOf c) (k.aux.getD 0 0) k.x2.toNat k.vec k.mask)

end Sys2Proof.Machine
end

