-- ==== Sys2Proof/Machine/Rings.lean ====
section
/-!
DEFINITION. Machine/Rings.lean: the Paceline's shared operations: a ring's watermark and its slots (spec file 12, R326
to R330).
-/
namespace Sys2Proof.Machine
open Sys2Proof

def getRing (s : State) (g : Nat) : Option Ring := mapFind s.fab.rings g
def updRing (s : State) (g : Nat) (f : Ring → Ring) : State :=
  match mapFind s.fab.rings g with
  | some r => { s with fab := { s.fab with rings := mapSet s.fab.rings g (f r) } }
  | none => s

/-- Ring g of a task. -/
def ownRing (s : State) (c g : Nat) : Option Ring := (getRing s g).filter fun r => r.owner == serialOf s c && g < 16

/-- Send the ring's watermark when it has changed, unless a cut-through send still reads a released step (12 R327, R329). -/
def flushWm (s : State) (g : Nat) : State :=
  match getRing s g with
  | none => s
  | some r =>
    let busy := match r.reading with
      | some k => decide (k < r.wm)
      | none => false
    if r.wmSent = r.wm + 1 || busy then s
    else updRing (sendPkt s r.pred 6 r.lane .watermark 0 [r.key, w64 r.wm] []) g fun x => { x with wmSent := r.wm + 1 }

/-- Release the steps up to st (12 R329). -/
def ringRelease (s : State) (g st : Nat) : State :=
  flushWm (updRing s g fun r => { r with wm := max r.wm (st + 1) }) g

/-- The window offset of the slot of a step, and of its counter. -/
def slotAt (r : Ring) (st : Nat) : Nat := r.slot + st % r.ns * r.blk
def slotCtr (r : Ring) (st : Nat) : Nat := r.lcb + 8 * (st % r.ns)

end Sys2Proof.Machine
end

