-- ==== Sys2Proof/Machine/MatrixExec.lean ====
section
/-!
DEFINITION. Machine/MatrixExec.lean: the array unit and the loader: choosing, starting, landing and completing matrix
commands, the array's registers taking effect, and images (spec file 09, R236 to R262).
-/
namespace Sys2Proof.Machine
open Sys2Proof Host

/-! What commands touch. -/

/-- The contiguous rows of a walk of two dimensions: address and length of each. -/
def walkRows (base : W64) (d : Quarter) (side : Nat) : List (W64 × Nat) :=
  (upTo (dTrip d 1)).map fun i : Nat => (BitVec.ofInt 64 (base.toNat + (i : Int) * dSigned d (side + 1)), dTrip d 0 * 2 ^ dEsize d)

/-- K elements of a row of an array walk. -/
def stepElems (d : Quarter) : Nat := dTrip d 0 * perStep (dSfmt d)

/-- The slot of a ring command: its ring number, step and base. -/
def ringCmd (k : Cmd) : Nat × Nat := (k.x1.toNat % 2 ^ 32, k.x2.toNat % 2 ^ 32)

/-- What a command reads and writes: address and length of each piece. -/
def touches (s : State) (k : Cmd) : List (W64 × Nat) × List (W64 × Nat) :=
  let d := k.desc
  match k.instr with
  | .mldw _ =>
    (walkRows (k.x2 + k.x3) d 4 ++ (if dEng d = 1 then [(w64 (dField d 15), stepElems d * (dTrip d 1 / 32))] else []), [])
  | .mmul f =>
    (walkRows (k.x3 + k.x4) d 4 ++ (if dEng d = 1 then [(w64 (dField d 15), dTrip d 1 * ((stepElems d + 31) / 32))] else []),
      if modBit f 84 then [(w64 (dField d 14), 4 * dTrip d 1)] else [])
  | .mdrain f =>
    ((if modBit f 85 || modBit f 87 then [(w64 (dField d 15), 16 * (dTrip d 0 * perStep (dDfmt d)))] else []) ++
      (if modBit f 87 then [(k.x5, 4 * dTrip d 1)] else []), walkRows (k.x1 + k.x2) d 8)
  | .mcbt _ => ([(k.x1 + k.x2, 32)], [])
  | .msave _ => ([], [(k.x1 + k.x2, tileImage)])
  | .msavePl _ => ([], [(k.x1 + k.x2, planeImage)])
  | .mrest _ => ([(k.x2 + k.x3, tileImage)], [])
  | .mrestPl _ => ([(k.x1 + k.x2, planeImage)], [])
  | .aldq _ => (walkRows (k.x1 + k.x2) d 4, [])
  | .akv _ => (walkRows (k.x1 + k.x2) d 4 ++ walkRows (k.x1 + k.x2 + w64 (dField d 14)) d 8, [])
  | .akvPl _ =>
    let (g, st) := ringCmd k
    match getRing s g with
    | some r => ([(w64 (slotAt r st), r.blk)], [])
    | none => ([], [])
  | .afin f => ([], walkRows (k.x1 + k.x2) d 8 ++ (if f.o4 = .none then [] else [(k.x4, 4 * dTrip d 1)]))
  | _ => ([], [])

/-- The scratchpad bytes among pieces. -/
def spPieces (s : State) (c : Nat) (l : List (W64 × Nat)) : List Nat :=
  l.flatMap fun p => if p.1.toNat < 0x200000 then (upTo p.2).map fun i => spAddr s c (p.1.toNat + i) else []

/-! Choosing (01 R16; 09 R240, R243, R247). -/

/-- A command the loader executes. -/
def loaderCmd (i : Instr) : Bool := match i with | .mldw _ | .mcbt _ => true | _ => false

/-- Every earlier command of a context's matrix queue has completed, and none of them has failed (02 R61). -/
def runsDone (m : MxCore) (c : Nat) : Bool := m.runs.all fun r => r.ctx != c || r.comp && r.fail.isNone

/-- The locks a command needs are free (02 R63). -/
def mxLocks (s : State) (core c : Nat) (k : Cmd) : Bool :=
  let t := touches s k
  lockFree s core c k.q k.seq (spPieces s c t.1) (spPieces s c t.2)

/-- What a command kind waits for before it is chosen (09 R240, R242, R247). -/
def kindReady (s : State) (core c : Nat) (k : Cmd) : Bool :=
  let cl := getCluster s (core / 2)
  let m := mxOf s core
  let now := cl.ccy.toNat
  let unit := decide (m.free ≤ now) && m.swap.isNone && runsDone m c
  let idle := unit && m.rows.isEmpty
  match k.instr with
  | .mldw _ | .mcbt _ => runsDone m c
  | .mmul _ => unit && ownsAny cl.mode (core % 2)
  | .mswap _ => idle && m.ready
  | .akv _ => idle && ownsAny cl.mode (core % 2)
  | .akvPl _ =>
    let (g, st) := ringCmd k
    idle && ownsAny cl.mode (core % 2) && (match ownRing s c g with
      | some r => decide (st < r.land) || decide (st < r.wm)
      | none => true)
  | _ => idle

/-- A command that may start but for its locks. -/
def asking (s : State) (core c : Nat) (k : Cmd) : Bool :=
  cmdReady s c k && engineMay s c k && !k.started && !(getCluster s (core / 2)).stopped && (getCluster s (core / 2)).bandsNext.isNone && kindReady s core c k
    && (let t := touches s k; !engHeld s c t.1 t.2)

def startable (s : State) (core c : Nat) (k : Cmd) : Bool := asking s core c k && mxLocks s core c k

/-- The queues of a core's contexts with a startable head of the loader's or the array unit's kind. -/
def mxHeads (s : State) (core : Nat) (loader : Bool) : List (Nat × Nat × Cmd) :=
  (upTo 8).filterMap fun j =>
    let c := 4 * core + j / 2
    match headCmd s c (j % 2) with
    | some k => if loaderCmd k.instr == loader && startable s core c k then some (c, j % 2, k) else none
    | none => none

/-- The next command: the highest current class, then round robin. -/
def pickMx (s : State) (core : Nat) (loader : Bool) : Option (Nat × Nat × Cmd) :=
  let l := mxHeads s core loader
  let cl := classes s
  let top := l.foldl (fun m p => max m (classOfCtx s cl p.1)) 0
  let l := l.filter fun p => classOfCtx s cl p.1 == top
  match l.find? (fun p => decide ((mxOf s core).rr < 2 * p.1 + p.2.1)) with
  | some p => some p
  | none => l.head?

/-- The heads of a core's matrix and attention queues whose granules are locked ask for them (02 R63). -/
def mxAsk (s : State) (core : Nat) : State :=
  (upTo 8).foldl (fun t j =>
    let c := 4 * core + j / 2
    match headCmd s c (j % 2) with
    | some k =>
      if asking s core c k && !mxLocks s core c k then let p := touches s k; askLocks t core c k.q k.seq (spPieces s c p.1) (spPieces s c p.2) else t
    | none => t) s

/-- Run the next command of a unit when it is of a kind. -/
def mxRun (s0 : State) (core : Nat) (loader : Bool) (kind : Instr → Bool) (run : State → Nat → Cmd → State) : State :=
  let s := mxAsk s0 core
  match pickMx s core loader with
  | some (c, q, k) =>
    if kind k.instr then run (updMx s core fun m => { m with rr := 2 * c + q }) c k else s
  | none => s

/-! Planes (09 R236, R237). -/

def planeCell (p : Plane) (k n : Nat) : Nat := mapGet 0 p.cells (k * 256 + n)
def planeScale (p : Plane) (j n : Nat) : Nat := mapGet 127 p.scales (j * 256 + n)

/-- The context's task has used the core's planes (09 R254). -/
def markUsed (s : State) (core c : Nat) : State :=
  updMx s core fun m => { m with used := if m.used.contains (serialOf s c) then m.used else m.used ++ [serialOf s c] }

/-- What follows a started MMUL of its queue and completes before that one's element is written waits to write its own (09 R243). -/
def waitElem (s : State) (core c : Nat) (k : Cmd) (status cause info : Nat) (val : W64) : State :=
  updMx s core fun m => { m with runs := m.runs ++ [{
    ctx := c, seq := k.seq, rows := 0, landed := 0, last := 0, doneAt := 0, ret := false, forced := false, flags := 0, replays := 0, sums := []
    fail := none, lf := 0, comp := true, elem := some ⟨k.q, statWord status cause k.seq info, val, k.stamp, 0⟩, taint := k.taint }] }

/-- A matrix command completes: its element is written behind those of the commands before it. -/
def mxFinish (s : State) (core c : Nat) (k : Cmd) (status cause info : Nat) (val : W64) : State :=
  if k.q == 0 && (mxOf s core).runs.any (fun r => r.ctx == c) then
    waitElem (dropCmd (dropLocks s c k.q k.seq) c k) core c k status cause info val
  else finishCmd s c k status cause info val

/-- Every entry of a matrix queue completes FLAGGED (01 R17). -/
def mxFlagRest (s : State) (core c : Nat) : State :=
  ((cmdsOf s c 0).filter fun k => k.held.isNone).foldl (fun t k => let (u, fv) := takeFree t; mxFinish u core c k 4 0 0 fv) s

/-- A queue-fatal failure whose value word the spec does not state. -/
def mxFail (s : State) (core c : Nat) (k : Cmd) (cause info : Nat) : State :=
  let (s1, fv) := takeFree s
  mxFlagRest (mxFinish s1 core c k 3 cause info fv) core c

/-- A retirement point of a queue (09 R252). -/
def retire (s : State) (core c : Nat) : State := updMx s core fun m => { m with plain := mapDel m.plain c }

/-- Scratchpad bytes of a context's window offset. -/
def winBytes (s : State) (c off n : Nat) : List Byte := spRead s ((upTo n).map fun i => spAddr s c (off + i))

/-- The scale cells of a loaded block (09 R236, R245): those of the table, or 127 where an MX block comes without scales. -/
def loadedScales (sf kb nb n : Nat) (tab : Option (List Byte)) (old : Map Nat) : Map Nat :=
  if !mxScaled sf then old
  else (upTo (nb * n)).foldl (fun m i => mapSet m ((kb + i / n) * 256 + i % n) (match tab with | some l => (l.getD i 0).toNat | none => 127)) old

/-- MLDW (09 R245). An empty walk completes whatever the plane's tag, and loads nothing (03 R86). -/
def runMldw (core : Nat) (s : State) (c : Nat) (k : Cmd) : State :=
  match k.instr with
  | .mldw f =>
    let d := k.desc
    let sf := dSfmt d
    let p := (mxOf s core).shadow
    let z := modBit f 80
    if !z && p.tag != 0 && p.tag != sf then
      if dTotal d = 0 then mxFinish s core c k 0 0 0 0 else mxFail s core c k 5 p.tag
    else
      let p0 : Plane := if z then { Plane.empty with tag := sf, book := p.book } else { p with tag := sf }
      let kb := k.x4.toNat
      let rows := (walkRows (k.x2 + k.x3) d 4).map fun r => elemsOf sf (engRead s c r.1 r.2).1
      let n := stepElems d
      let cells := (rows.zip (upTo rows.length)).foldl (fun m r =>
        (upTo n).foldl (fun m j => mapSet m ((32 * kb + r.2) * 256 + j) (r.1.getD j 0)) m) p0.cells
      let nb := (dTrip d 1 + 31) / 32
      let tab := if dEng d = 1 then winBytes s c (dField d 15) (n * nb) else []
      let scales := loadedScales sf kb nb n (if dEng d = 1 then some tab else none) p0.scales
      let p1 := { p0 with cells := cells, scales := scales, depth := if dTotal d = 0 then p0.depth else max p0.depth (kb + nb) }
      let s1 := updMx (markUsed s core c) core fun m => { m with shadow := p1, ready := m.ready || modBit f 81 }
      mxFinish s1 core c k 0 0 0 (w64 (dTotal d * 2 ^ dEsize d + tab.length))
  | _ => s

def execMldwExec (core : Nat) (s : State) : Outcome State Fault Refusal :=
  .next (mxRun s core true (fun i => match i with | .mldw _ => true | _ => false) (runMldw core))

/-- MCBT (09 R246). -/
def runMcbt (core : Nat) (s : State) (c : Nat) (k : Cmd) : State :=
  let l := elemsOf 0x12 (engRead s c (k.x1 + k.x2) 32).1
  let s1 := updMx (markUsed s core c) core fun m => { m with shadow := { m.shadow with
    book := (upTo 16).foldl (fun b i => mapSet b i (l.getD i 0)) m.shadow.book } }
  mxFinish s1 core c k 0 0 0 32

def execMcbtExec (core : Nat) (s : State) : Outcome State Fault Refusal :=
  .next (mxRun s core true (fun i => match i with | .mcbt _ => true | _ => false) (runMcbt core))

/-- An MSWAP is chosen: it occupies the array unit until its boundary (09 R247). -/
def runMswap (core : Nat) (s : State) (c : Nat) (k : Cmd) : State :=
  updMx (setCmd s c { k with started := true }) core fun m => { m with swap := some (c, k.seq) }

/-- The planes exchange at the boundary (09 R247). -/
def exchangePlanes (core : Nat) (s : State) (c : Nat) (k : Cmd) : State :=
  let s1 := updMx (retire (markUsed s core c) core c) core fun m => { m with
    active := m.shadow, shadow := m.active, ready := false, swap := none }
  let s2 := updCluster s1 (core / 2) fun x => { x with origin := x.origin + x.stepC }
  let a := (mxOf s2 core).active
  mxFinish s2 core c k 0 0 0 (w64 (a.tag + a.depth * 2 ^ 24))

/-- The chosen MSWAP goes at the first window boundary; one cut off meanwhile is gone. -/
def swapNow (s : State) (core : Nat) : State :=
  match (mxOf s core).swap with
  | none => s
  | some (c, seq) =>
    match (cmdsOf s c 0).find? fun k => k.seq == seq && k.started with
    | none => updMx s core fun m => { m with swap := none }
    | some k =>
      let cl := getCluster s (core / 2)
      if cl.stopped || cl.ccy.toNat % windowLen cl.mode != 0 then s else exchangePlanes core s c k

def execMswapExchange (core : Nat) (s : State) : Outcome State Fault Refusal :=
  .next (swapNow (mxRun s core false (fun i => match i with | .mswap _ => true | _ => false) (runMswap core)) core)

/-! MMUL (09 R242, R248, R253). -/

/-- The exact sum of a row's activations (09 R248). -/
def rowSum (code : Nat) (sa : Bool) (acts : List Nat) : Int := acts.foldl (fun t x => t + intOfBits sa (codeBits code) x) 0

def runMmul (core : Nat) (s : State) (c : Nat) (k : Cmd) : State :=
  match k.instr with
  | .mmul f =>
    let cl := getCluster s (core / 2)
    let m := mxOf s core
    let d := k.desc
    let sf := dSfmt d
    let p := k.x5.toNat
    let kk := stepElems d
    let empty := dTotal d == 0
    if !empty && !mxAccepts m.active.tag sf then mxFail s core c k 4 m.active.tag
    else if !empty && depthOf s core m.active.tag < 32 * bitsOf p 12 8 + kk then mxFail s core c k 2 0
    else
      let n := if empty then 0 else dTrip d 1
      let plain := mapGet 0 m.plain c + 1
      let forced := !modBit f 85 && decide (cl.maxChain.toNat ≤ plain)
      let ret := modBit f 85 || forced
      let gap := gapOf cl + 1
      let half := core % 2
      let lf := fillLat s core
      let inj := injections cl.mode half gap (n + 1) (max m.free cl.ccy.toNat) 1
      let last := (inj.take n).getLastD ((m.rows.getLast?.map (·.inj)).getD (cl.ccy.toNat - lf - 2))
      let rowsB := (walkRows (k.x3 + k.x4) d 4).map fun r => elemsOf sf (engRead s c r.1 r.2).1
      let nblk := (kk + 31) / 32
      let sc := if dEng d = 1 then (winBytes s c (dField d 15) (n * nblk)).map (·.toNat) else []
      let tile := (tileOf s c (idxOf f.o1)).getD 0
      let rows := (upTo n).map fun i : Nat => (
        { ctx := c, seq := k.seq, m := i, tile := tile, row := p % 256 + i, fmt := sf, kb := bitsOf p 12 8, ovw := modBit f 80
          sat := modBit f 81, sa := modBit f 82, sw := modBit f 83, mx := dEng d == 1, acts := rowsB.getD i []
          scales := (sc.drop (i * nblk)).take nblk, plane := m.active, inj := inj.getD i 0, lf := lf, replays := 0 } : MxRow)
      let e14 := spAddr s c (dField d 14)
      let sums := if modBit f 84 && !empty then
          cellsAt e14 (rowsB.flatMap fun r => leBytes 4 (intBits 32 (rowSum sf (modBit f 82) r)))
        else []
      let comp := if ret then max cl.ccy.toNat (last + lf + 1) else inj.getD n 0
      let run : MxRun := { ctx := c, seq := k.seq, rows := n, landed := 0, last := last, doneAt := comp, ret := ret, forced := forced, flags := 0
                           replays := 0, sums := sums, fail := none, lf := lf, comp := false, elem := none, taint := k.taint }
      let t := touches s k
      let s1 := takeLocks (setCmd (markUsed s core c) c { k with started := true, held := none }) core c k.q k.seq
        (spPieces s c t.1) (spPieces s c t.2)
      let s2 := updMx s1 core fun m => { m with
        rows := m.rows ++ rows, runs := m.runs ++ [run], free := comp
        plain := if ret then mapDel m.plain c else mapSet m.plain c plain }
      -- the command leaves the head so that the next of its queue may start at I(M); its element comes in order
      updCtx s2 c fun x => { x with cmds := x.cmds.filter fun y => !(y.q == k.q && y.seq == k.seq) }
  | _ => s

def execMmulExec (core : Nat) (s : State) : Outcome State Fault Refusal :=
  .next (mxRun s core false (fun i => match i with | .mmul _ => true | _ => false) (runMmul core))

/-- Decode a weight of a plane. -/
def weightVal (p : Plane) (k n : Nat) : FV :=
  let x := planeCell p k n
  if p.tag = 0x19 then fvOfBits .bf16 (mapGet 0 p.book x)
  else match tyOfCode p.tag with
    | some t => tyVal t x
    | none => .fin false 0 0
def actVal (code x : Nat) : FV := match tyOfCode code with | some t => tyVal t x | none => .fin false 0 0

def isInf (pos : Bool) : FV → Bool
  | .inf n => n != pos
  | _ => false

/-- The exact sum of a group of products, with the special values and flags of 04 R115. -/
def groupSum (l : List (FV × FV)) : FV × Flags :=
  let ps := l.map fun p => fvMul p.1 p.2
  let fl := ps.foldl (fun (t : Flags) p => t ||| p.2) 0
  let nv := if ps.any (fun p => isInf true p.1) && ps.any (fun p => isInf false p.1) then flNV else 0
  let v := match ps with
    | [] => FV.fin false 0 0
    | p :: t => t.foldl (fun x q => (fvAdd .rne x q.1).1) p.1
  (v, fl ||| nv)

/-- Round to F32, nearest even, overflow to infinity (04 R115). -/
def rneF32 (v : FV) : FV × Flags :=
  let r := fvToFmt .f32 .rne .inf v
  (f32v r.bits, r.flags)
def accF32 (x g : FV) : FV × Flags :=
  let (v, f1) := fvAdd .rne x g
  let (y, f2) := rneF32 v
  (y, f1 ||| f2)

/-- A list in blocks of 32. -/
def blocks32 (n : Nat) : List (List Nat) :=
  (upTo ((n + 31) / 32)).map fun j => (upTo (min 32 (n - 32 * j))).map fun i => 32 * j + i

/-- One accumulator element after a row (09 R248; 04 R115, R116). -/
def rowElem (r : MxRow) (n : Nat) (acc : BitVec 32) : BitVec 32 × Flags :=
  if mxInt r.fmt then
    let w := codeBits r.fmt
    let x0 : Int := if r.ovw then 0 else acc.toInt
    let step (a : Int × Flags) (b : List Nat) : Int × Flags :=
      let g := b.foldl (fun t k => t + intOfBits r.sa w (r.acts.getD k 0) * intOfBits r.sw w (planeCell r.plane (32 * r.kb + k) n)) (0 : Int)
      let y := a.1 + g
      if r.sat then (intClamp true 32 y, if y = intClamp true 32 y then a.2 else a.2 ||| flIO)
      else (intOfBits true 32 (intBits 32 y), a.2)
    let (x, fl) := (blocks32 r.acts.length).foldl step (x0, 0)
    (BitVec.ofInt 32 x, fl)
  else
    let x0 : FV := if r.ovw then .fin true 0 0 else f32v acc.toNat
    let step (a : FV × Flags) (b : List Nat) : FV × Flags :=
      let j := b.headD 0 / 32
      let (g, f1) := groupSum (b.map fun k => (actVal r.fmt (r.acts.getD k 0), weightVal r.plane (32 * r.kb + k) n))
      let sa := if r.mx then r.scales.getD j 127 else 127
      let sw := if mxScaled r.fmt then planeScale r.plane (r.kb + j) n else 127
      -- under a scale of 0xFF every element of the block reads as NaN, which raises no flag (04 R99, R115)
      let (g, f1) := if sa = 255 ∨ sw = 255 then (FV.nan, (0 : Flags)) else (fvScale g ((sa : Int) + sw - 254), f1)
      let (y, f2) := accF32 a.1 g
      (y, a.2 ||| f1 ||| f2)
    let (x, fl) := (blocks32 r.acts.length).foldl step (x0, 0)
    (BitVec.ofNat 32 (f32Bits x), fl)

/-- A row lands (09 R242): its 256 elements accumulated, its flags gathered. -/
def landRow (s : State) (core : Nat) (r : MxRow) : State :=
  let res := (upTo 256).map fun n => (tileKey core r.tile r.row n, rowElem r n (tileGet s core r.tile r.row n))
  let fl := res.foldl (fun (t : Flags) p => t ||| p.2.2) 0
  updMx (tilePut s (res.map fun p => (p.1, p.2.1))) core fun m => { m with
    rows := m.rows.drop 1
    runs := m.runs.map fun x => if x.ctx = r.ctx && x.seq = r.seq then { x with landed := x.landed + 1, flags := x.flags ||| fl } else x }

def execMmulRowLand (core : Nat) (s : State) : Outcome State Fault Refusal :=
  .next (match (mxOf s core).rows with
    | r :: _ => if r.inj + r.lf ≤ (getCluster s (core / 2)).ccy.toNat then landRow s core r else s
    | [] => s)

/-- An MMUL completes (09 R242, R248): its row sums are written and its locks released. -/
def completeRun (core : Nat) (s : State) (r : MxRun) : State :=
  spWrite (dropLocks (updMx s core fun m => { m with
    runs := m.runs.map fun x => if x.ctx = r.ctx && x.seq = r.seq then { x with comp := true } else x }) r.ctx 0 r.seq) r.sums

/-- The MMULs whose completion has come. -/
def runsDue (s : State) (core : Nat) : List MxRun :=
  (mxOf s core).runs.filter fun r => !r.comp && decide (r.doneAt ≤ (getCluster s (core / 2)).ccy.toNat)

/-- An MMUL whose check failed reports once the rows before the failed one have landed: FAIL, and FLAGGED for every later command of
its queue (01 R17; 09 R251, R257). -/
def failRun (s : State) (core : Nat) (r : MxRun) (row : Nat) : State :=
  let bad : Elem := ⟨0, statWord 3 3 r.seq (row % 256), w64 row, zeroStamp, 0⟩
  let flag (t : State) (x : MxRun) : State :=
    let (u, fv) := takeFree t
    updMx (dropLocks u r.ctx 0 x.seq) core fun m => { m with runs := m.runs.map fun y =>
      if y.ctx = x.ctx && y.seq = x.seq then { y with comp := true, elem := some ⟨0, statWord 4 0 x.seq 0, fv, zeroStamp, 0⟩ } else y }
  let later := (((mxOf s core).runs.filter fun x => x.ctx == r.ctx).dropWhile fun x => x.seq != r.seq).drop 1
  let s1 := updMx s core fun m => { m with runs := m.runs.map fun y => if y.ctx = r.ctx && y.seq = r.seq then { y with fail := none, elem := some bad } else y }
  mxFlagRest (later.foldl flag s1) core r.ctx

/-- A failed MMUL of the core whose earlier rows have landed. -/
def failDue (s : State) (core : Nat) : Option (MxRun × Nat) :=
  (mxOf s core).runs.findSome? fun r => match r.fail with
    | some row => if r.rows ≤ r.landed then some (r, row) else none
    | none => none

/-- The element of a command that has completed (09 R251). -/
def runElem (r : MxRun) : Elem :=
  match r.elem with
  | some e => e
  | none =>
    let st := if r.flags = 0 then 0 else 1
    ⟨0, statWord st st r.seq (r.flags.toNat + r.replays % 256 * 256), w64 (r.rows + (if r.ret then 2 ^ 16 else 0) + (if r.forced then 2 ^ 17 else 0)),
      zeroStamp, 0⟩

/-- A run's element is due: everything of it has landed (09 R242). -/
def runLanded (s : State) (core : Nat) (r : MxRun) : Bool :=
  r.elem.isSome || r.comp && r.fail.isNone && decide (r.rows ≤ r.landed) && decide (r.last + r.lf + 2 ≤ (getCluster s (core / 2)).ccy.toNat)

/-- A run whose element can be written: the first of its context's, with room for it (01 R18). -/
def runReady (s : State) (core : Nat) (r : MxRun) : Bool :=
  (((mxOf s core).runs.find? fun x => x.ctx == r.ctx).map (·.seq) == some r.seq) && decide ((resOf s r.ctx 0).length < 16) && runLanded s core r

/-- Completions that have come, a failure, then the next element of the core's matrix queues. -/
def execMmulComplete (core : Nat) (s : State) : Outcome State Fault Refusal :=
  .next (
    let s1 := (runsDue s core).foldl (completeRun core) s
    let s2 := match failDue s1 core with
      | some (r, row) => failRun s1 core r row
      | none => s1
    match (mxOf s2 core).runs.find? (runReady s2 core) with
    | some r =>
      putElem (updMx s2 core fun m => { m with runs := m.runs.filter fun x => !(x.ctx == r.ctx && x.seq == r.seq) }) r.ctx
        { runElem r with at_ := ccyOf s2 r.ctx }
    | none => s2)

/-! Injection planned again (09 R240, R242, R257). -/

/-- The last place in the rows planned again that belongs to a command. -/
def lastOf (rows : List MxRow) (x : MxRun) : Option Nat :=
  ((rows.zip (upTo rows.length)).filter fun p => p.1.ctx == x.ctx && p.1.seq == x.seq).getLast?.map (·.2)

/-- The command that holds the array unit, or held it last. -/
def lastRun (m : MxCore) : Option MxRun := (m.runs.filter fun x => x.elem.isNone).getLast?

/-- Rows not injected are planned from a cycle on, the first in the w-th owned cycle, and with them the completions that follow them:
a plain MMUL's is the injection point behind its last row, an MMUL.RET's comes with its last landing. -/
def planRows (c : Cluster) (core : Nat) (m : MxCore) (keep again : List MxRow) (w now : Nat) : MxCore :=
  let l := injections c.mode (core % 2) (gapOf c + 1) (again.length + 1) now w
  let fix (x : MxRun) : MxRun :=
    match lastOf again x with
    | some i =>
      let x1 := { x with last := l.getD i 0 }
      if x.ret then { x1 with doneAt := l.getD i 0 + x.lf + 1 } else if x.comp then x1 else { x1 with doneAt := l.getD (i + 1) 0 }
    | none => if again.isEmpty && !x.comp && !x.ret && decide (now < x.doneAt) then { x with doneAt := l.getD 0 0 } else x
  let runs := m.runs.map fix
  let free := match lastRun { m with runs := runs } with
    | some x => if x.ret then max x.doneAt now else l.getLastD now
    | none => l.getLastD now
  { m with rows := keep ++ (again.zip l).map (fun p => { p.1 with inj := p.2 }), runs := runs, free := free, wait := w }

/-- The registers of injection have changed at this boundary: what is not injected yet takes the cycles they give. The next injection
keeps the number of owned cycles it still waits for. -/
def replan (old : BitVec 2) (s : State) (core : Nat) : State :=
  let c := getCluster s (core / 2)
  let now := c.ccy.toNat
  updMx s core fun m =>
    let again := m.rows.filter fun r => decide (now ≤ r.inj)
    let pending := match lastRun m with
      | some x => !x.comp && !x.ret && decide (now ≤ x.doneAt)
      | none => false
    if again.isEmpty && !pending then m
    else
      let first := match again with
        | r :: _ => r.inj
        | [] => m.free
      planRows c core m (m.rows.filter fun r => !decide (now ≤ r.inj)) again (if first = never then m.wait else ownedIn old (core % 2) now (first + 1)) now

/-- Row n of those in flight fails its check: it and every later one are injected again from now, each row that had been injected
counting as a replay; or its command fails, and the later rows of its queue are discarded. -/
def replayRows (s : State) (core n : Nat) : State :=
  let cl := getCluster s (core / 2)
  let m := mxOf s core
  let now := cl.ccy.toNat
  match m.rows[n]? with
  | none => s
  | some r =>
    if now + 8 < r.inj + r.lf then s
    else
      let spent := decide (cl.maxRetry.toNat ≤ r.replays)
      let again := ((m.rows.drop n).filter fun x => !spent || x.ctx != r.ctx).map fun x => if x.inj < now then { x with replays := x.replays + 1 } else x
      let made (x : MxRun) : Nat := ((m.rows.drop n).filter fun y => (!spent || y.ctx != r.ctx) && y.ctx == x.ctx && y.seq == x.seq && decide (y.inj < now)).length
      let total := ((m.rows.drop n).filter fun y => (!spent || y.ctx != r.ctx) && decide (y.inj < now)).length
      let failed (x : MxRun) : MxRun :=
        if spent && x.ctx = r.ctx && x.seq = r.seq then { x with rows := r.m, fail := some r.m, comp := true }
        else { x with replays := x.replays + made x }
      let m1 := planRows cl core { m with runs := m.runs.map failed } (m.rows.take n) again 1 now
      let s1 := updMx s core fun _ => if spent && again.isEmpty then { m1 with free := now } else m1
      let s2 := if spent then dropLocks s1 r.ctx 0 r.seq else s1
      updCluster s2 (core / 2) fun c => { c with replays := c.replays + BitVec.ofNat 32 total }

/-- The attention command in execution, and a row of one of its passes that fails its check. -/
def replayAkv (s : State) (core n c : Nat) (k : Cmd) : State :=
  let made := (k.aux.filter (· == n)).length
  if (getCluster s (core / 2)).maxRetry.toNat ≤ made then failFree s c k 3 (n % 65536 * 65536 + k.aux.length % 256 * 256)
  else
    let s1 := setCmd s c { k with aux := k.aux ++ [n] }
    updCluster s1 (core / 2) fun x => { x with replays := x.replays + 1 }

def execRowCheckMismatch (core n : Nat) (s : State) : Outcome State Fault Refusal :=
  .next (
    if !(mxOf s core).rows.isEmpty then replayRows s core n
    else match pickMx s core false with
      | some (c, _, k) => match k.instr with
        | .akv _ | .akvPl _ => replayAkv s core n c k
        | _ => s
      | none => s)

/-! MDRAIN and MZERO (09 R249, R250). -/

/-- The converted elements of a drained rectangle, row-major: row, column and result. -/
def drainElems (s : State) (core c : Nat) (f : Fields) (k : Cmd) (tile : Nat) : List (Nat × Nat × FRes) :=
  let d := k.desc
  let df := dDfmt d
  let nc := dTrip d 0 * perStep df
  let row0 := dField d 14 % 256
  let col0 := bitsOf (dField d 14) 15 8
  let rq := modBit f 85
  let zp := modBit f 87
  let ov := ovOf (modBits f 81 80)
  let td := (tyOfCode df).getD (.flt .f32)
  let ent (j : Nat) : Nat := leNat (winBytes s c (dField d 15 + 16 * j) 16)
  let tab := if rq || zp then (upTo nc).map ent else []
  let rs := if zp then (upTo (dTrip d 1)).map fun i => intOfBits true 32 (leNat (winBytes s c (k.x5.toNat + 4 * i) 4)) else []
  (upTo (dTrip d 1)).flatMap fun i => (upTo nc).map fun j =>
    let x := tileGet s core tile (row0 + i) (col0 + j)
    let rm := rmOf (modBits f 84 82) k.rs (col0 + j) (row0 + i)
    let e := tab.getD j 0
    let r : FRes :=
      if dSfmt d = 0x04 then
        let xi := x.toInt + (if zp then rs.getD i 0 * intOfBits true 32 (bitsOf e 95 64) else 0)
        if rq then requant td rm ov xi (intOfBits true 32 (bitsOf e 31 0)) (bitsOf e 37 32) (intOfBits true 16 (bitsOf e 63 48))
        else tyRound td rm ov (fvOfInt xi 0)
      else if rq then
        let (v, fl) := fvMul (f32v x.toNat) (f32v (bitsOf e 31 0))
        let r := tyRound td rm ov v
        { r with flags := r.flags ||| fl }
      else tyRound td rm ov (f32v x.toNat)
    (row0 + i, col0 + j, r)

/-- INFO and value word of an overflow under .OVTRAP (09 R251): the first in row-major order, the count, and the columns
of its block. -/
def ovReport (l : List (Nat × Nat × FRes)) : Option (Nat × W64) :=
  match l.filter fun p => p.2.2.trap with
  | [] => none
  | p :: t =>
    let j := p.2.1 / 64
    let mask := (upTo 64).foldl (fun n i => if (p :: t).any (fun q => q.2.1 == 64 * j + i) then n + 2 ^ i else n) 0
    some (p.1 % 256 + p.2.1 % 256 * 256 + min (t.length + 1) 65535 * 65536, w64 mask)

/-- Rows of converted elements written out at the destination rows of a walk. -/
def writeRows (s : State) (c : Nat) (k : Cmd) (rows : List (W64 × Nat)) (df nc : Nat) (vals : List Nat) : State × Stamp :=
  engWrite s c k ((rows.zip (upTo rows.length)).map fun p => (p.1.1, packElems df ((vals.drop (p.2 * nc)).take nc)))

/-- Complete a command with flags (04 R107). -/
def finishFlags (s : State) (core c : Nat) (k : Cmd) (fl : Flags) (info : Nat) (val : W64) : State :=
  mxFinish s core c k (if fl = 0 then 0 else 1) (if fl = 0 then 0 else 1) (fl.toNat + info) val

def runMdrain (core : Nat) (bad : Bool) (s : State) (c : Nat) (k : Cmd) : State :=
  match k.instr with
  | .mdrain f =>
    if bad then mxFail (retire s core c) core c k 8 0
    else
      let tile := (tileOf s c (idxOf f.o4)).getD 0
      let l := drainElems s core c f k tile
      match ovReport l with
      | some (info, v) => mxFlagRest (mxFinish (retire s core c) core c k 3 6 info v) core c
      | none =>
        let d := k.desc
        let nc := dTrip d 0 * perStep (dDfmt d)
        let s1 := if modBit f 86 then tilePut s (l.map fun p => (tileKey core tile p.1 p.2.1, 0)) else s
        let (s2, st) := writeRows s1 c k (walkRows (k.x1 + k.x2) d 8) (dDfmt d) nc (l.map fun p => p.2.2.bits)
        finishFlags (retire s2 core c) core c { k with stamp := st } (l.foldl (fun (t : Flags) p => t ||| p.2.2.flags) 0) 0 (w64 l.length)
  | _ => s

def execMdrainExec (core : Nat) (bad : Bool) (s : State) : Outcome State Fault Refusal :=
  .next (mxRun s core false (fun i => match i with | .mdrain _ => true | _ => false) (runMdrain core bad))

def runMzero (core : Nat) (s : State) (c : Nat) (k : Cmd) : State :=
  match k.instr with
  | .mzero f =>
    let tile := (tileOf s c (idxOf f.o1)).getD 0
    let p := k.x2.toNat
    let row0 := if f.o2 = .none then 0 else p % 256
    let n := if f.o2 = .none then 256 else min (bitsOf p 15 8 + 1) (256 - row0)
    let s1 := tilePut s ((upTo n).flatMap fun i => (upTo 256).map fun j => (tileKey core tile (row0 + i) j, 0))
    mxFinish (retire s1 core c) core c k 0 0 0 (w64 n)
  | _ => s

def execMzeroExec (core : Nat) (s : State) : Outcome State Fault Refusal :=
  .next (mxRun s core false (fun i => match i with | .mzero _ => true | _ => false) (runMzero core))

/-! Images (09 R258 to R261). -/

/-- Bands the deeper plane needs. -/
def nreqOf (p : Plane) : Nat := if mxE p.tag = 0 then 0 else (32 * p.depth + 64 * mxE p.tag - 1) / (64 * mxE p.tag)
def nreq (a b : Plane) : Nat := max (nreqOf a) (nreqOf b)

def imageHead (kind bands nq at_ st ad sd : Nat) (rdy : Bool) : List Byte :=
  leBytes 4 0x4D580001 ++ ([kind, bands, nq, 0, at_, st, ad, sd, if rdy then 1 else 0].map fun x => BitVec.ofNat 8 x) ++ List.replicate 51 0

def tileBytes (s : State) (core tile : Nat) : List Byte :=
  imageHead 1 (getCluster s (core / 2)).bands.toNat 0 0 0 0 0 false ++
    ((upTo 256).flatMap fun r => (upTo 256).flatMap fun n => leBytes 4 (tileGet s core tile r n).toNat)

/-- A plane's cells packed as its tag's format, K-major: 131,072 bytes at any tag. -/
def planeBytes (p : Plane) : List Byte :=
  if mxE p.tag = 0 then List.replicate 131072 0
  else (upTo (256 * mxE p.tag)).flatMap fun k => packElems p.tag ((upTo 256).map fun n => planeCell p k n)
def scaleBytes (p : Plane) : List Byte := (upTo 32).flatMap fun j => (upTo 256).map fun n => BitVec.ofNat 8 (planeScale p j n)
def bookBytes (p : Plane) : List Byte := (upTo 16).flatMap fun i => leBytes 2 (mapGet 0 p.book i)

def planesBytes (s : State) (core : Nat) : List Byte :=
  let m := mxOf s core
  imageHead 2 (getCluster s (core / 2)).bands.toNat (nreq m.active m.shadow) m.active.tag m.shadow.tag m.active.depth m.shadow.depth m.ready
    ++ planeBytes m.active ++ scaleBytes m.active ++ planeBytes m.shadow ++ scaleBytes m.shadow ++ bookBytes m.active ++ bookBytes m.shadow

/-- The plane an image part gives. -/
def planeFrom (tag depth : Nat) (cells scales book : List Byte) : Plane :=
  let e := elemsOf tag cells
  { tag := tag, depth := depth
    cells := if mxE tag = 0 then [] else (upTo (256 * mxE tag * 256)).foldl (fun m i => if e.getD i 0 = 0 then m else mapSet m i (e.getD i 0)) []
    scales := (upTo 8192).foldl (fun m i => if scales.getD i 0 = 127 then m else mapSet m i (scales.getD i 0).toNat) []
    book := (upTo 16).foldl (fun m i => mapSet m i (leNat ((book.drop (2 * i)).take 2))) [] }

/-- The header's MAGIC, KIND and reserved bytes are right. -/
def imageOk (kind : Nat) (bs : List Byte) : Bool :=
  leNat (bs.take 4) == 0x4D580001 && leNat ((bs.drop 4).take 1) == kind && bs.getD 7 0 == 0
    && (bs.getD 5 0).toNat < 16 && ((bs.drop 13).take 51).all (· == 0)
    && (kind == 2 || ((bs.drop 6).take 1).all (· == 0) && ((bs.drop 8).take 5).all (· == 0))

def installTile (s : State) (core tile : Nat) (bs : List Byte) : State :=
  tilePut s ((upTo 65536).map fun i => (tileKey core tile (i / 256) (i % 256), BitVec.ofNat 32 (leNat ((bs.drop (64 + 4 * i)).take 4))))

def installPlanes (s : State) (core : Nat) (bs : List Byte) (ready : Bool) : State :=
  let b (i : Nat) : Nat := (bs.getD i 0).toNat
  updMx s core fun m => { m with
    active := planeFrom (b 8) (b 10) ((bs.drop 0x40).take 131072) ((bs.drop 0x20040).take 8192) ((bs.drop 0x44040).take 32)
    shadow := planeFrom (b 9) (b 11) ((bs.drop 0x22040).take 131072) ((bs.drop 0x42040).take 8192) ((bs.drop 0x44060).take 32)
    ready := ready }

def runMsave (core : Nat) (bad : Bool) (s : State) (c : Nat) (k : Cmd) : State :=
  let bs := match k.instr with
    | .msave f => tileBytes s core ((tileOf s c (idxOf f.o3)).getD 0)
    | _ => planesBytes s core
  if bad then mxFail (retire s core c) core c k 8 0
  else
    let (s1, st) := engWrite s c k [(k.x1 + k.x2, bs)]
    mxFinish (retire s1 core c) core c { k with stamp := st } 0 0 0 (w64 bs.length)

def execMsaveExec (core : Nat) (bad : Bool) (s : State) : Outcome State Fault Refusal :=
  .next (mxRun s core false (fun i => match i with | .msave _ | .msavePl _ => true | _ => false) (runMsave core bad))

def runMrest (core : Nat) (bad : Bool) (s : State) (c : Nat) (k : Cmd) : State :=
  let s := retire s core c
  let bands := (getCluster s (core / 2)).bands.toNat
  match k.instr with
  | .mrest f =>
    let (bs, st) := engRead s c (k.x2 + k.x3) tileImage
    if bad || engBad s c [(k.x2 + k.x3, tileImage)] then mxFail (if bad then engMark s c [(k.x2 + k.x3, tileImage)] else s) core c k 8 0
    else if !imageOk 1 bs then mxFail s core c k 7 ((bs.getD 5 0).toNat % 16 + (bs.getD 6 0).toNat % 16 * 16 + bands * 256)
    else mxFinish (installTile (engLines s c k [(k.x2 + k.x3, tileImage)]) core ((tileOf s c (idxOf f.o1)).getD 0) bs) core c { k with stamp := st } 0 0 0 (w64 tileImage)
  | _ =>
    let (bs, st) := engRead s c (k.x1 + k.x2) planeImage
    if bad || engBad s c [(k.x1 + k.x2, planeImage)] then mxFail (if bad then engMark s c [(k.x1 + k.x2, planeImage)] else s) core c k 8 0
    else if !imageOk 2 bs || decide (nbOf s core < (bs.getD 6 0).toNat) then
      mxFail s core c k 7 ((bs.getD 5 0).toNat % 16 + (bs.getD 6 0).toNat % 16 * 16 + bands * 256)
    else mxFinish (installPlanes (markUsed (engLines s c k [(k.x1 + k.x2, planeImage)]) core c) core bs ((bs.getD 12 0).getLsbD 0)) core c { k with stamp := st } 0 0 0 (w64 planeImage)

def execMrestExec (core : Nat) (bad : Bool) (s : State) : Outcome State Fault Refusal :=
  .next (mxRun s core false (fun i => match i with | .mrest _ | .mrestPl _ => true | _ => false) (runMrest core bad))

/-! The array's registers (09 R239 to R241). A write waits for the boundary at which it takes effect. -/

def mxshareWrite (s : State) (cl : Nat) (x : W64) : State := updCluster s cl fun c => { c with modeNext := some (x.truncate 2) }
def cadenceWrite (s : State) (cl : Nat) (x : W64) : State := updCluster s cl fun c => { c with gapNext := some (x.truncate 4) }
/-- BANDS keeps only the bits of BANDOK; a write that leaves none changes nothing. -/
def arrshapeWrite (s : State) (cl : Nat) (x : W64) : State :=
  updCluster s cl fun c =>
    let b : BitVec 4 := x.truncate 4 &&& c.bandok
    if b = 0 then c else { c with bandsNext := some b }

def execMxshareWrite (cluster : Nat) (x : W64) (s : State) : Outcome State Fault Refusal := .next (mxshareWrite s cluster x)
def execCadenceWrite (cluster : Nat) (x : W64) (s : State) : Outcome State Fault Refusal := .next (cadenceWrite s cluster x)
def execArrshapeWrite (cluster : Nat) (x : W64) (s : State) : Outcome State Fault Refusal := .next (arrshapeWrite s cluster x)

def atBoundary (c : Cluster) : Bool := c.ccy.toNat % windowLen c.mode == 0

def execMxshareApply (cluster : Nat) (s : State) : Outcome State Fault Refusal :=
  .next (
    let c := getCluster s cluster
    match c.modeNext with
    | some m => if atBoundary c then replan c.mode (replan c.mode (updCluster s cluster fun c => { c with mode := m, modeNext := none }) (2 * cluster)) (2 * cluster + 1) else s
    | none => s)

def execCadenceApply (cluster : Nat) (s : State) : Outcome State Fault Refusal :=
  .next (
    let c := getCluster s cluster
    match c.gapNext with
    | some g => if atBoundary c then replan c.mode (replan c.mode (updCluster s cluster fun c => { c with gap := g, gapNext := none }) (2 * cluster)) (2 * cluster + 1) else s
    | none => s)

/-- Neither half's array unit is executing a command (09 R241): rows of completed MMULs may still be on their way. -/
def arrayIdle (s : State) (cl : Nat) : Bool :=
  [2 * cl, 2 * cl + 1].all fun k => let m := mxOf s k; m.swap.isNone && (m.runs.all (·.comp)) && decide (m.free ≤ (getCluster s cl).ccy.toNat)

def emptyPlanes (m : MxCore) : MxCore := { m with active := .empty, shadow := .empty, ready := false }

def execArrshapeApply (cluster : Nat) (s : State) : Outcome State Fault Refusal :=
  .next (
    let c := getCluster s cluster
    match c.bandsNext with
    | some b =>
      if atBoundary c && arrayIdle s cluster then
        updCluster s cluster fun c => { c with bands := b, bandsNext := none, mx0 := emptyPlanes c.mx0, mx1 := emptyPlanes c.mx1 }
      else s
    | none => s)

end Sys2Proof.Machine
end

