-- ==== Sys2Proof/Machine/Attention.lean ====
section
/-!
DEFINITION. Machine/Attention.lean: the attention engine's words and steps: sessions, the key/value update and the output
(spec file 13, R334 to R350).
-/
namespace Sys2Proof.Machine
open Sys2Proof Host

/-! Push checks (13 R340, R341). -/

def qkv (code : Nat) : Bool := [0x12, 0x13, 0x14, 0x15].contains code

/-- Limits every attention descriptor shares: reserved bits, FLG and E15 zero, two dimensions. -/
def attForm (d : Quarter) (okFmt : Bool) (esz : Nat) : Except Stop Unit := do
  descForm d (okFmt && dEsize d == esz) (fun e => e == 0) false
  faultIf (dField d 15 != 0) 15
  faultIf (dTrip d 2 != 1) 2
  faultIf (dTrip d 3 != 1) 3
  faultIf (dField d 6 != 0) 6
  faultIf (dField d 7 != 0) 7
  faultIf (dField d 10 != 0) 10
  faultIf (dField d 11 != 0) 11

def attTrips (d : Quarter) : Except Stop Unit := do
  faultIf (!([64, 128, 256].contains (dTrip d 0))) 0
  faultIf (dTrip d 1 == 0 || decide (256 < dTrip d 1)) 1

def execAcfg (f : Fields) (s : State) : Outcome State Fault Refusal :=
  .next (mxWord 0x1A0 f s fun s c => do
    let _ ← checkTile s c f.o1
    let _ ← checkTile s c f.o2
    let _ ← checkTile s c f.o3
    .ok (mkCmd s c f 1 (.acfg f) 0))

def execAldq (f : Fields) (s : State) : Outcome State Fault Refusal :=
  .next (mxWord 0x1A1 f s fun s c => do
    let a := getArch s c
    let d := descOf a f.o3
    attForm d (qkv (dSfmt d) && (dDfmt d == 0 || dDfmt d == dSfmt d)) (esizeOf (dSfmt d))
    attTrips d
    faultIf (dField d 4 != 2 ^ dEsize d) 4
    faultIf (dField d 8 != 0) 8
    faultIf (dField d 9 != 0) 9
    faultIf (dField d 14 != 0) 14
    let (_, pg) ← checkWalk s c d (2 ^ dEsize d) [mxSide d (addrOf a f.o1 f.o2) 4 .pushRead localOnly]
    .ok { mkCmd s c f 1 (.aldq f) d with pins := pg })

/-- AKV's descriptor rules, both forms. -/
def akvForm (d : Quarter) : Except Stop Unit := do
  attForm d (qkv (dSfmt d) && qkv (dDfmt d) && esizeOf (dDfmt d) == esizeOf (dSfmt d)) (esizeOf (dSfmt d))
  attTrips d
  faultIf (dField d 4 != 2 ^ dEsize d) 4
  faultIf (dField d 8 != 2 ^ dEsize d) 8
  faultIf (dField d 14 % 64 != 0) 14

def execAkv (f : Fields) (s : State) : Outcome State Fault Refusal :=
  .next (mxWord 0x1A2 f s fun s c => do
    let a := getArch s c
    let d := descOf a f.o3
    akvForm d
    let b := addrOf a f.o1 f.o2
    let (_, pg) ← checkWalk s c d (2 ^ dEsize d) [mxSide d b 4 .pushRead localOnly,
      ⟨b, 8, .pushRead, localOnly, false, walkAddr (b + w64 (dField d 14)) d 8⟩]
    .ok { mkCmd s c f 1 (.akv f) d with pins := pg })

def execAkvPl (f : Fields) (s : State) : Outcome State Fault Refusal :=
  .next (mxWord 0x1A2 f s fun s c => do
    let d := descOf (getArch s c) f.o3
    akvForm d
    .ok (mkCmd s c f 1 (.akvPl f) d))

def execAfin (f : Fields) (s : State) : Outcome State Fault Refusal :=
  .next (runWord 0x1A3 false false 1 f s fun s c => do
    let a := getArch s c
    let d := descOf a f.o3
    attForm d ((dSfmt d == 0 || dSfmt d == 0x10) && [0x10, 0x12, 0x13].contains (dDfmt d)) (esizeOf (dDfmt d))
    attTrips d
    faultIf (dField d 4 != 0) 4
    faultIf (dField d 5 != 0) 5
    faultIf (dField d 8 != 2 ^ dEsize d) 8
    faultIf (dField d 14 != 0) 14
    let (_, pg) ← checkWalk s c d (2 ^ dEsize d) [mxSide d (addrOf a f.o1 f.o2) 8 .pushWrite localOnly]
    let pg2 ← if f.o4 = .none then .ok [] else mxBlock s c (valOf a f.o4) (4 * dTrip d 1) 4 .pushWrite localOnly
    let (s1, rk) := rsFor s c (modBits f 84 82)
    let s2 ← pushCmd s1 c { mkCmd s c f 1 (.afin f) d with pins := pg ++ pg2, rs := rk }
    ok s2)

def execArst (f : Fields) (s : State) : Outcome State Fault Refusal :=
  .next (mxWord 0x1A4 f s fun s c => .ok (mkCmd s c f 1 (.arst f) 0))

/-! Sessions (13 R334, R335). -/

def sessOf (s : State) (c : Nat) : Session := (getCtx s c).sess
def setSess (s : State) (c : Nat) (x : Session) : State := updCtx s c fun y => { y with sess := x }
/-- Physical tile of a session's operand index. -/
def sessTile (s : State) (c i : Nat) : Nat := (tileOf s c i).getD 0

/-- Output and state rows at their start (13 R344). -/
def freshRows (core tOut ts m d : Nat) : List (Nat × BitVec 32) :=
  (upTo m).flatMap fun r => ((upTo d).map fun j => (tileKey core tOut r j, 0#32)) ++
    [(tileKey core ts r 0, 0xFF800000#32), (tileKey core ts r 1, 0#32)]

/-- ACFG begins a session (13 R334, R343): D, M, QFMT and QP0, which only ALDQ sets, stay (DEDUCED, log entry 38). -/
def runAcfg (_ : Nat) (s : State) (c : Nat) (k : Cmd) : State :=
  match k.instr with
  | .acfg f =>
    let x : Session := { sessOf s c with
      phase := 1, tq := idxOf f.o1, tOut := idxOf f.o2, ts := idxOf f.o3, scale := k.x4 &&& 0xFFFFFFFF, w := k.x5.toNat % 2 ^ 32, last := [] }
    finishCmd (setSess s c x) c k 0 0 0 0
  | _ => s

def execAcfgExec (core : Nat) (s : State) : Outcome State Fault Refusal :=
  .next (mxRun s core false (fun i => match i with | .acfg _ => true | _ => false) (runAcfg core))

def runArst (core : Nat) (s : State) (c : Nat) (k : Cmd) : State :=
  match k.instr with
  | .arst f =>
    let x := sessOf s c
    if modBit f 80 then
      if x.phase != 2 then failFree s c k 1 0
      else finishCmd (tilePut s (freshRows core (sessTile s c x.tOut) (sessTile s c x.ts) x.m x.d)) c k 0 0 0 0
    else finishCmd (setSess s c .reset) c k 0 0 0 0
  | _ => s

def execArstExec (core : Nat) (s : State) : Outcome State Fault Refusal :=
  .next (mxRun s core false (fun i => match i with | .arst _ => true | _ => false) (runArst core))

/-- ALDQ (13 R344). -/
def runAldq (core : Nat) (bad : Bool) (s : State) (c : Nat) (k : Cmd) : State :=
  let x := sessOf s c
  let d := k.desc
  let rows := walkRows (k.x1 + k.x2) d 4
  if x.phase = 0 then failFree s c k 1 0
  else if bad || engBad s c rows then failFree (if bad then engMark s c rows else s) c k 7 0
  else
    let m := dTrip d 1
    let n := dTrip d 0
    let rd := rows.map fun r => engRead s c r.1 r.2
    let q := (rd.zip (upTo m)).flatMap fun p => (upTo n).map fun j =>
      (tileKey core (sessTile s c x.tq) p.2 j, BitVec.ofNat 32 (f32Bits (actVal (dSfmt d) ((elemsOf (dSfmt d) p.1.1).getD j 0))))
    let s1 := tilePut (tilePut s q) (freshRows core (sessTile s c x.tOut) (sessTile s c x.ts) m n)
    let s2 := setSess s1 c { x with phase := 2, d := n, m := m, qfmt := dSfmt d, qp0 := k.x4.toNat % 2 ^ 32 }
    finishCmd (engLines s2 c k rows) c { k with stamp := rd.foldl (fun v p => stampMax v p.2) zeroStamp } 0 0 0 (w64 m)

def execAldqExec (core : Nat) (bad : Bool) (s : State) : Outcome State Fault Refusal :=
  .next (mxRun s core false (fun i => match i with | .aldq _ => true | _ => false) (runAldq core bad))

/-! The update by a block (13 R337, R338). -/

/-- A key is masked for a query position. -/
def maskedKey (mode w qp kp : Nat) : Bool :=
  match mode with
  | 0 => false
  | 1 => decide (qp < kp)
  | _ => decide (qp < kp) || decide (w ≤ qp - kp)

/-- Sums in groups of 32 added to a running F32 value (13 R338). -/
def accGroups (n : Nat) (x : FV) (g : Nat → FV × FV) : FV × Flags :=
  (blocks32 n).foldl (fun (a : FV × Flags) b =>
    let (v, f1) := groupSum (b.map g)
    let (y, f2) := accF32 a.1 v
    (y, a.2 ||| f1 ||| f2)) (x, 0)

def mulF32 (a b : FV) : FV × Flags :=
  let (v, f1) := fvMul a b
  let (y, f2) := rneF32 v
  (y, f1 ||| f2)

/-- exp2 of a rounded difference. -/
def expDiff (a b : FV) : FV × Flags :=
  let (v, f1) := accF32 a (fvNeg b)
  let r := exp2F32 v
  (f32v r.bits, f1 ||| r.flags)

/-- round_p: into F16 when V is .F16, BF16 otherwise. -/
def roundP (vfmt : Nat) (v : FV) : FV × Flags :=
  let fm : Fmt := if vfmt = 0x13 then .f16 else .bf16
  let r := fvToFmt fm .rne .inf v
  (fvOfBits fm r.bits, r.flags)

/-- A key/value block with what masks it. -/
structure Block where
  d : Nat
  n : Nat
  kfmt : Nat
  vfmt : Nat
  keys : List (List Nat)
  vals : List (List Nat)
  mode : Nat
  w : Nat
  c : FV
  kp0 : Nat

/-- One row's result: the new maximum, sum and output, the flags, and whether a key was visible; none where the row stays
unchanged. -/
structure RowRes where
  mn : FV
  l : FV
  o : List FV
  flags : Flags

/-- One row of R338: q its query, mo, lo its state, os its output. -/
def attRow (b : Block) (qp : Nat) (q : Nat → FV) (mo lo : FV) (os : Nat → FV) : Option RowRes × Flags × Bool :=
  let vis := (upTo b.n).map fun k => !maskedKey b.mode b.w qp (b.kp0 + k)
  let sc := (upTo b.n).map fun k =>
    let key := b.keys.getD k []
    let (x, f1) := accGroups b.d (.fin true 0 0) fun j => (q j, actVal b.kfmt (key.getD j 0))
    let (y, f2) := mulF32 x b.c
    (y, f1 ||| f2)
  let fs := sc.foldl (fun (t : Flags) p => t ||| p.2) 0
  let mn := (sc.zip vis).foldl (fun m p => if p.2 then fvMax m p.1.1 else m) mo
  if mn = .inf true then (none, fs, vis.any id)
  else
    let (alpha, fa) := if mo = .inf true then (FV.fin false 0 0, (0 : Flags)) else expDiff mo mn
    let ps := (sc.zip vis).map fun p =>
      if p.2 then
        let (e, f1) := expDiff p.1.1 mn
        let (r, f2) := roundP b.vfmt e
        (r, f1 ||| f2)
      else (FV.fin false 0 0, (0 : Flags))
    let fp := ps.foldl (fun (t : Flags) p => t ||| p.2) 0
    let pv := ps.map (·.1)
    let one := fvOfInt 1 0
    let (l0, fl0) := mulF32 alpha lo
    let (l1, fl1) := accGroups b.n l0 fun k => (pv.getD k .nan, one)
    let o := (upTo b.d).map fun j =>
      let (o0, g0) := mulF32 alpha (os j)
      let (o1, g1) := accGroups b.n o0 fun k => (pv.getD k .nan, actVal b.vfmt ((b.vals.getD k []).getD j 0))
      (o1, g0 ||| g1)
    let fo := o.foldl (fun (t : Flags) p => t ||| p.2) 0
    (some ⟨mn, l1, o.map (·.1), 0⟩, fs ||| fa ||| fp ||| fl0 ||| fl1 ||| fo, vis.any id)

/-- Every row of a session updated by a block: the state, the flags, the rows with a visible key. -/
def attUpdate (s : State) (core c : Nat) (b : Block) : State × Flags × Nat :=
  let x := sessOf s c
  let tq := sessTile s c x.tq
  let tO := sessTile s c x.tOut
  let tS := sessTile s c x.ts
  (upTo x.m).foldl (fun (a : State × Flags × Nat) r =>
    let g (t j : Nat) : FV := f32v (tileGet s core t r j).toNat
    let (res, fl, vis) := attRow b (x.qp0 + r) (g tq) (g tS 0) (g tS 1) (g tO)
    let bits (v : FV) : BitVec 32 := BitVec.ofNat 32 (f32Bits v)
    let s1 := match res with
      | none => a.1
      | some y => tilePut a.1 (((upTo x.d).map fun j => (tileKey core tO r j, bits (y.o.getD j .nan))) ++
          [(tileKey core tS r 0, bits y.mn), (tileKey core tS r 1, bits y.l)])
    (s1, a.2.1 ||| fl, a.2.2 + if vis then 1 else 0)) (s, 0, 0)

/-- The block a command names, from the bytes of its key and value rows. -/
def attBlock (x : Session) (d : Quarter) (mode kp : Nat) (keys vals : List (List Byte)) : Block :=
  { d := x.d, n := dTrip d 1, kfmt := dSfmt d, vfmt := dDfmt d, keys := keys.map (elemsOf (dSfmt d)), vals := vals.map (elemsOf (dDfmt d)),
    mode := mode, w := x.w, c := f32v x.scale.toNat, kp0 := kp }

/-- Finish an AKV: flags, replays, and the value word (13 R347). -/
def finishAkv (s : State) (c : Nat) (k : Cmd) (fl : Flags) (rows st : Nat) : State :=
  finishFlags s (coreOf c) c k fl (k.aux.length % 256 * 256) (w64 (dTrip k.desc 1 + rows * 2 ^ 16 + st * 2 ^ 32))

def runAkv (core : Nat) (bad : Bool) (s : State) (c : Nat) (k : Cmd) : State :=
  match k.instr with
  | .akv f =>
    let x := sessOf s c
    let d := k.desc
    let b := k.x1 + k.x2
    let kr := walkRows b d 4
    let vr := walkRows (b + w64 (dField d 14)) d 8
    if x.phase != 2 then failFree s c k 1 0
    else if dTrip d 0 != x.d then failFree s c k 2 0
    else if bad || engBad s c (kr ++ vr) then failFree (if bad then engMark s c (kr ++ vr) else s) c k 7 0
    else
      let ks := kr.map fun r => engRead s c r.1 r.2
      let vs := vr.map fun r => engRead s c r.1 r.2
      let st := (ks ++ vs).foldl (fun v p => stampMax v p.2) zeroStamp
      let (s1, fl, n) := attUpdate s core c (attBlock x d (modBits f 81 80) (k.x4.toNat % 2 ^ 32) (ks.map (·.1)) (vs.map (·.1)))
      finishAkv (engLines s1 c k (kr ++ vr)) c { k with stamp := st } fl n 0
  | _ => s

def execAkvExec (core : Nat) (bad : Bool) (s : State) : Outcome State Fault Refusal :=
  .next (mxRun s core false (fun i => match i with | .akv _ => true | _ => false) (runAkv core bad))

/-! The ring form (13 R345, R348, R349). -/

/-- The offsets in a slot that a walk's rows reach: K rows, then V rows. -/
def slotRows (d : Quarter) : List (Int × Nat) :=
  let n := dTrip d 0 * 2 ^ dEsize d
  ((upTo (dTrip d 1)).map fun i : Nat => ((i : Int) * dSigned d 5, n)) ++
  ((upTo (dTrip d 1)).map fun i : Nat => ((dField d 14 : Int) + (i : Int) * dSigned d 9, n))

def runAkvPl (core : Nat) (bad : Bool) (s : State) (c : Nat) (k : Cmd) : State :=
  match k.instr with
  | .akvPl f =>
    let x := sessOf s c
    let d := k.desc
    let (g, st) := ringCmd k
    if x.phase != 2 then failFree s c k 1 0
    else if dTrip d 0 != x.d then failFree s c k 2 0
    else
      match ownRing s c g with
      | none => failFree s c k 4 0
      | some r =>
        let last := mapFind x.last g
        let old := match last with | some l => decide (st ≤ l) | none => false
        let rows := slotRows d
        if old || decide (st < r.wm) then failFree s c k 4 0
        else if rows.any (fun p => decide (p.1 < 0) || decide ((r.blk : Int) < p.1 + p.2)) then failFree s c k 5 0
        else
          let s0 := setSess s c { x with last := mapSet x.last g st }
          if bad then failFree s0 c k 7 0
          else
            let rd := rows.map fun p => winBytes s c (slotAt r st + p.1.toNat) p.2
            let n := dTrip d 1
            let (s1, fl, vis) := attUpdate s0 core c (attBlock x d (modBits f 81 80) (k.x4.toNat % 2 ^ 32) (rd.take n) (rd.drop n))
            let s2 := if modBit f 83 then ringRelease s1 g st else s1
            finishAkv s2 c k fl vis st
  | _ => s

def execAkvPlChosen (core : Nat) (bad : Bool) (s : State) : Outcome State Fault Refusal :=
  .next (mxRun s core false (fun i => match i with | .akvPl _ => true | _ => false) (runAkvPl core bad))

/-! The output (13 R339). -/

/-- One output element: the quotient rounded once, with the cases of R339. -/
def quotElem (td : Fmt) (rm : Rm) (ov : Ov) (o l : FV) : FRes :=
  let nan (fl : Flags) : FRes := { fvToFmt td rm ov .nan with flags := fl }
  match o, l with
  | .nan, _ => nan 0
  | _, .nan => nan 0
  | .inf _, .inf _ => nan flNV
  | .inf a, .fin b _ _ => fvToFmt td rm ov (.inf (a != b))
  | .fin a _ _, .inf b => fvToFmt td rm ov (.fin (a != b) 0 0)
  | .fin a m e, .fin b n e2 =>
    if n = 0 then
      if m = 0 then nan flNV
      else
        let r := fvToFmt td rm ov (.inf (a != b))
        { r with flags := r.flags ||| flDZ }
    else roundFrac td rm ov (a != b) m n (e - e2)

/-- One LSE word: log-sum-exp of a row. -/
def lseWord (m l : FV) : Nat × Flags :=
  if m = .inf true then (0xFF800000, 0)
  else
    let r := log2F32 l
    let (y, fl) := accF32 m (f32v r.bits)
    (f32Bits y, r.flags ||| fl)

def outFmt (code : Nat) : Fmt := if code = 0x12 then .bf16 else if code = 0x13 then .f16 else .f32

def runAfin (core : Nat) (bad : Bool) (s : State) (c : Nat) (k : Cmd) : State :=
  match k.instr with
  | .afin f =>
    let x := sessOf s c
    let d := k.desc
    if x.phase != 2 then failFree s c k 1 0
    else if dTrip d 0 != x.d || dTrip d 1 != x.m then failFree s c k 2 0
    else if bad then failFree s c k 7 0
    else
      let v (t r j : Nat) : FV := f32v (tileGet s core (sessTile s c t) r j).toNat
      let l : List (Nat × Nat × FRes) := (upTo x.m).flatMap fun r => (upTo x.d).map fun j =>
        (r, j, if v x.ts r 0 = .inf true then ⟨0, 0, false⟩
          else quotElem (outFmt (dDfmt d)) (rmOf (modBits f 84 82) k.rs j r) (ovOf (modBits f 81 80)) (v x.tOut r j) (v x.ts r 1))
      match ovReport l with
      | some (info, w) => failCmd s c k 6 info w
      | none =>
        let lse := if f.o4 = .none then [] else (upTo x.m).map fun r => lseWord (v x.ts r 0) (v x.ts r 1)
        let (s1, st) := writeRows s c k (walkRows (k.x1 + k.x2) d 8) (dDfmt d) x.d (l.map fun p => p.2.2.bits)
        let (s2, st2) := if f.o4 = .none then (s1, zeroStamp) else engWrite s1 c k [(k.x4, lse.flatMap fun p => leBytes 4 p.1)]
        let fl := lse.foldl (fun (t : Flags) p => t ||| p.2) (l.foldl (fun (t : Flags) p => t ||| p.2.2.flags) 0)
        finishFlags s2 core c { k with stamp := stampMax st st2 } fl 0 (w64 l.length)
  | _ => s

def execAfinExec (core : Nat) (bad : Bool) (s : State) : Outcome State Fault Refusal :=
  .next (mxRun s core false (fun i => match i with | .afin _ => true | _ => false) (runAfin core bad))

/-! The session registers (13 R336). -/

def asessWord (x : Session) : W64 :=
  if x.phase = 0 then 0
  else w64 (x.phase * 2 ^ 62 + x.m * 2 ^ 53 + x.d * 2 ^ 44 + x.qfmt * 2 ^ 38 + x.ts * 2 ^ 10 + x.tOut * 2 ^ 5 + x.tq)
def ascaleWord (x : Session) : W64 := if x.phase = 0 then 0 else w64 (x.w * 2 ^ 32 + x.scale.toNat % 2 ^ 32)
def aqpWord (x : Session) : W64 := if x.phase = 0 then 0 else w64 x.qp0

end Sys2Proof.Machine
end

