-- ==== Sys2Proof/Machine/Crypto.lean ====
section
/-!
DEFINITION. Machine/Crypto.lean: the two standard functions of secure boot and attestation: SHAKE256, and pure Ed448 with an
empty context as RFC 8032 gives it (spec file 16, R404 to R406).
-/
namespace Sys2Proof.Machine
open Sys2Proof

/-! SHAKE256. -/

def keccakRC : List W64 :=
  [0x0000000000000001, 0x0000000000008082, 0x800000000000808A, 0x8000000080008000, 0x000000000000808B, 0x0000000080000001] ++
  [0x8000000080008081, 0x8000000000008009, 0x000000000000008A, 0x0000000000000088, 0x0000000080008009, 0x000000008000000A] ++
  [0x000000008000808B, 0x800000000000008B, 0x8000000000008089, 0x8000000000008003, 0x8000000000008002, 0x8000000000000080] ++
  [0x000000000000800A, 0x800000008000000A, 0x8000000080008081, 0x8000000000008080, 0x0000000080000001, 0x8000000080008008]
def keccakRot : List Nat := [0, 1, 62, 28, 27, 36, 44, 6, 55, 20, 3, 10, 43, 25, 39] ++ [41, 45, 15, 21, 8, 18, 2, 61, 56, 14]

/-- One round on the twenty-five lanes, lane x + 5 y. -/
def keccakRound (a : List W64) (rc : W64) : List W64 :=
  let at_ (l : List W64) (x y : Nat) : W64 := l.getD (x % 5 + 5 * (y % 5)) 0
  let c := (upTo 5).map fun x => (upTo 5).foldl (fun v y => v ^^^ at_ a x y) 0
  let d := (upTo 5).map fun x => c.getD ((x + 4) % 5) 0 ^^^ (c.getD ((x + 1) % 5) 0).rotateLeft 1
  let th := (upTo 25).map fun i => a.getD i 0 ^^^ d.getD (i % 5) 0
  let b := (upTo 25).map fun i =>
    let x := (i % 5 + 3 * (i / 5)) % 5
    let y := i % 5
    (at_ th x y).rotateLeft (keccakRot.getD (x + 5 * y) 0)
  let chi := (upTo 25).map fun i => b.getD i 0 ^^^ (~~~(at_ b (i % 5 + 1) (i / 5)) &&& at_ b (i % 5 + 2) (i / 5))
  chi.set 0 (chi.getD 0 0 ^^^ rc)
def keccakF (a : List W64) : List W64 := keccakRC.foldl keccakRound a

/-- Absorb blocks of 136 bytes. -/
def shakeAbsorb : Nat → List W64 → List Byte → List W64
  | 0, a, _ => a
  | n + 1, a, m =>
    let blk := (upTo 25).map fun i => if i < 17 then BitVec.ofNat 64 (leNat ((m.drop (8 * i)).take 8)) else 0
    shakeAbsorb n (keccakF (List.zipWith (· ^^^ ·) a blk)) (m.drop 136)
/-- Squeeze blocks. -/
def shakeSqueeze : Nat → List W64 → List Byte
  | 0, _ => []
  | n + 1, a => ((a.take 17).flatMap fun w => leBytes 8 w.toNat) ++ shakeSqueeze n (keccakF a)
/-- The first n bytes of SHAKE256 of a message. -/
def shake256 (m : List Byte) (n : Nat) : List Byte :=
  let k := m.length / 136 + 1
  let pad := 136 * k - m.length
  let tail : List Byte := if pad = 1 then [0x9F] else 0x1F :: (List.replicate (pad - 2) 0 ++ [0x80])
  (shakeSqueeze (n / 136 + 1) (shakeAbsorb k (List.replicate 25 0) (m ++ tail))).take n

/-! Ed448: the curve, projective points, encodings. -/

def edP : Nat := 2 ^ 448 - 2 ^ 224 - 1
def edL : Nat := 2 ^ 446 - 13818066809895115352007386748515426880336692474882178609894547503885
/-- The curve constant −39081. -/
def edD : Nat := edP - 39081
def edBx : Nat :=
  224580040295924300187604334099896036246789641632564134246125461686950415467406032909029192869357953282578032075146446173674602635247710
def edBy : Nat :=
  298819210078481492676017930443930673437544040154080242095928241372331506189835876003536878655418784733982303233503462500531545062832660

def fMul (a b : Nat) : Nat := a * b % edP
def fSub (a b : Nat) : Nat := (a + edP - b % edP) % edP
/-- a to the power k, by its n low bits. -/
def fPow : Nat → Nat → Nat → Nat → Nat
  | 0, _, _, r => r
  | n + 1, a, k, r => fPow n (fMul a a) (k / 2) (if k % 2 = 1 then fMul r a else r)
def fInv (a : Nat) : Nat := fPow 448 a (edP - 2) 1

structure EdPt where
  x : Nat
  y : Nat
  z : Nat
  deriving DecidableEq, Repr

def edZero : EdPt := ⟨0, 1, 1⟩
def edBase : EdPt := ⟨edBx, edBy, 1⟩
def edAdd (p q : EdPt) : EdPt :=
  let a := fMul p.z q.z
  let b := fMul a a
  let c := fMul p.x q.x
  let d := fMul p.y q.y
  let e := fMul edD (fMul c d)
  let f := fSub b e
  let g := (b + e) % edP
  let h := fMul (p.x + p.y) (q.x + q.y)
  ⟨fMul a (fMul f (fSub (fSub h c) d)), fMul a (fMul g (fSub d c)), fMul f g⟩
/-- k times a point, by the n low bits of k. -/
def edMul : Nat → Nat → EdPt → EdPt → EdPt
  | 0, _, _, r => r
  | n + 1, k, p, r => edMul n (k / 2) (edAdd p p) (if k % 2 = 1 then edAdd r p else r)
def edTimes (k : Nat) (p : EdPt) : EdPt := edMul 456 k p edZero
def edSame (p q : EdPt) : Bool := fMul p.x q.z == fMul q.x p.z && fMul p.y q.z == fMul q.y p.z

/-- The 57 bytes of a point: y, and the sign of x in the top bit. -/
def edEnc (p : EdPt) : List Byte :=
  let i := fInv p.z
  leBytes 57 (fMul p.y i + fMul p.x i % 2 * 2 ^ 455)
def edDec (l : List Byte) : Option EdPt :=
  let n := leNat l
  let y := n % 2 ^ 455
  let u := fSub (fMul y y) 1
  let v := fSub (fMul edD (fMul y y)) 1
  let u3v := fMul (fMul u (fMul u u)) v
  let x := fMul u3v (fPow 448 (fMul u3v (fMul u (fMul u (fMul v v)))) ((edP - 3) / 4) 1)
  if l.length ≠ 57 ∨ edP ≤ y ∨ fMul v (fMul x x) ≠ u ∨ (x = 0 ∧ n / 2 ^ 455 = 1) then none
  else some ⟨if x % 2 = n / 2 ^ 455 then x else edP - x, y, 1⟩

/-- The domain string of pure Ed448 with an empty context: "SigEd448", 0, 0. -/
def edDom : List Byte := [0x53, 0x69, 0x67, 0x45, 0x64, 0x34, 0x34, 0x38, 0, 0]
def edHash (m : List Byte) : Nat := leNat (shake256 (edDom ++ m) 114) % edL

/-- The secret scalar and prefix of a 57-byte seed. -/
def edSecret (seed : List Byte) : Nat × List Byte :=
  let h := shake256 seed 114
  let s := leNat (h.take 55) - leNat (h.take 55) % 4
  (s % 2 ^ 440 + ((h.getD 55 0).toNat ||| 0x80) * 2 ^ 440, h.drop 57)
/-- The public key of a seed. -/
def edPublic (seed : List Byte) : List Byte := edEnc (edTimes (edSecret seed).1 edBase)
/-- The 114-byte signature of a message. -/
def edSign (seed m : List Byte) : List Byte :=
  let (s, pre) := edSecret seed
  let a := edPublic seed
  let r := edHash (pre ++ m)
  let rb := edEnc (edTimes r edBase)
  rb ++ leBytes 57 ((r + edHash (rb ++ a ++ m) * s) % edL)
/-- A signature verifies: four times each side of the equation agree. -/
def edVerify (key sig m : List Byte) : Bool :=
  let s := leNat (sig.drop 57)
  match edDec key, edDec (sig.take 57) with
  | some a, some r =>
    let k := edHash (sig.take 57 ++ key ++ m)
    sig.length == 114 && decide (s < edL) && edSame (edTimes 4 (edTimes s edBase)) (edTimes 4 (edAdd r (edTimes k a)))
  | _, _ => false

end Sys2Proof.Machine
end

