-- ==== Sys2Proof/Machine/System.lean ====
section
/-!
DEFINITION. Machine/System.lean: the register-reading, waiting, context-moving, invalidating, tracing and quiescing words
(spec file 06, R150, R168 to R172).
-/
namespace Sys2Proof.Machine
open Sys2Proof Host

/-! Waiting words. A parked word keeps the pc; it is issued, as far as its results go, when its wait ends. -/

/-- A waiting word parks its context (06 R147). -/
def parkAt (s : State) (c : Nat) (k : ParkKind) (dest : Nat) (dl : Option W64) (addr : Nat) (target : W64) (aux : Nat) : State :=
  updArch s c fun a => { a with phase := .waiting, block := none, park := some ⟨k, dest, dl, addr, target, aux⟩ }

/-- A waiting word ends: its result is on its way, the context runs again at the next word, which is not ready before the
result has landed (05 R143, 10 R277, 11 R296). -/
def finishWait (s : State) (c r : Nat) (x : W64) (acq : Option Stamp) : State :=
  let a := getArch s c
  let s1 := updArch s c fun a => { a with
    phase := .running
    park := none
    pc := a.pc + 16
    seq := a.seq + 1
    block := some a.seq }
  addLanding s1 ⟨c, a.seq, [.sreg r x 0], none, none, acq⟩

/-- A waiting word the checker re-executes takes its recorded result (06 R176). -/
def replayWait (s : State) (c : Nat) : Option State :=
  let n := (getArch s c).seq
  match (getCore s (coreOf c)).replay.find? (fun o => o.ctx == c && o.seq == n && o.land.isSome) with
  | some o => match o.land with
    | some l =>
      let s1 := updCore s (coreOf c) fun x => { x with replay := x.replay.erase o }
      let s2 := updArch s1 c fun a => { a with phase := .running, park := none, pc := a.pc + 16, seq := a.seq + 1, block := some a.seq }
      some (addLanding s2 l)
    | none => none
  | none => none

/-! Reading the clocks and PRIO (06 R168, R150; 01 R27 to R31). -/

/-- A context's read of GTS: after a restore it waits until GTS exceeds the last value the task read (01 R31). -/
def readGts (s : State) (c : Nat) : Except Stop (State × W64) :=
  let held := match (getCtx s c).gtsFloor with
    | some v => decide (s.gts.toNat ≤ v.toNat)
    | none => false
  if held && !replaying s c then .error .stall
  else
    let (s1, l) := outsideVal s c [s.gts]
    let x := l.getD 0 0
    .ok (updCtx s1 c fun y => { y with gtsFloor := none, arch := { y.arch with lastGts := x } }, x)

def execGtsrd (f : Fields) (s : State) : Outcome State Fault Refusal :=
  .next (runWord 0x045 false false 1 f s fun s c => do
    let (s1, x) ← readGts s c
    ok (putS s1 c 2 f.o1 x 0))

def execCcyrd (f : Fields) (s : State) : Outcome State Fault Refusal :=
  .next (runWord 0x046 false false 1 f s fun s c =>
    let (s1, l) := outsideVal s c [(getCluster s (clusterOf c)).ccy]
    ok (putS s1 c 1 f.o1 (l.getD 0 0) 0))

/-- WAITG (06 R168). -/
def execWaitg (f : Fields) (s : State) : Outcome State Fault Refusal :=
  .next (runWord 0x047 false false 1 f s fun s c =>
    let t := valOf (getArch s c) f.o2
    match replayWait s c with
    | some s1 => .error (.wait s1)
    | none =>
      if replaying s c || decide (t.toNat ≤ s.gts.toNat) then do
        let (s1, x) ← readGts s c
        ok (putS s1 c 2 f.o1 x 0)
      else .error (.wait (parkAt s c .waitg (idxOf f.o1) (some t) 0 t 0)))

/-- The PRIO register: CUR and REQ (06 R150). -/
def prioWord (s : State) (c : Nat) : W64 :=
  w64 (issueClass s (classes s) c % 4 * 4 + (getArch s c).prio.toNat)

def execPrio (f : Fields) (s : State) : Outcome State Fault Refusal :=
  .next (runWord 0x048 false false 1 f s fun s c =>
    let (s1, l) := outsideVal s c [prioWord s c]
    ok (addFx s1 c 1 [.sreg (idxOf f.o1) (l.getD 0 0) 0, .prio ((valOf (getArch s c) f.o2).truncate 2)]))

/-! CTXSV and CTXRS (06 R170): requests to the Derailleur. -/

/-- The image address: 64-aligned Global, translated at issue. -/
def imageAddr (s : State) (c : Nat) (f : Fields) (acc : Acc) : Except Stop Nat := do
  let l ← locate s c acc (addrOf (getArch s c) f.o2 f.o3) (upTo 64) 64 (· == .global)
  .ok (l.addrs.headD 0)

def execCtxsv (f : Fields) (s : State) : Outcome State Fault Refusal :=
  .next (runWord 0x049 true false 1 f s fun s c => do
    let pa ← imageAddr s c f .write
    let s1 ← pushQd s c { mkCmd s c f 6 (.ctxsv f) 0 with aux := [pa, serialOf s c] }
    ok s1)

def execCtxrs (f : Fields) (s : State) : Outcome State Fault Refusal :=
  .next (runWord 0x04A true false 1 f s fun s c => do
    let pa ← imageAddr s c f .read
    let s1 ← pushQd s c { mkCmd s c f 6 (.ctxrs f) 0 with aux := [pa, serialOf s c] }
    ok s1)

/-! TLBINV (06 R171). -/

/-- The pages pinned by commands of a core's contexts. -/
def pinnedPages (s : State) (k : Nat) : List (Nat × Nat) :=
  (upTo 4).flatMap fun j =>
    let c := 4 * k + j
    ((getCtx s c).cmds ++ heldCmds s c).flatMap fun q => q.pins.map fun p => (ctxRoot s c, p)

def entryPinned (pins : List (Nat × Nat)) (e : TlbEnt) : Bool :=
  pins.any fun p => p.1 == e.root && p.2 * 0x10000 / 2 ^ (16 + 10 * e.level) == e.vpage

/-- The translation a recorded walk fault stands for. -/
def faultEntry (w : WalkFault) : TlbEnt := ⟨w.root, w.vpage, 0, 0, false, false, false, 0⟩

/-- Invalidate the entries a predicate names, on one core or on all of them with every walker cache; while an entry is
pinned the word waits for its command to retire (07 R184). -/
def invalidate (s : State) (c : Nat) (dev : Bool) (p : TlbEnt → Bool) : Except Stop State :=
  let ks := if dev then s.cores.map (·.1) else [coreOf c]
  let busy := ks.any fun k => (getCore s k).tlb.any fun e => p e && entryPinned (pinnedPages s k) e
  if busy then .error .stall
  else
    let s1 := ks.foldl (fun t k => updCore t k fun x => { x with tlb := x.tlb.filter fun e => !p e, wfaults := x.wfaults.filter fun w => !p (faultEntry w) }) s
    .ok (if dev then { s1 with walker := [], poisonTab := s1.poisonTab.filter fun a => s1.poison.any fun b => a / 0x2000 == b / 0x2000 } else s1)

def tlbinv (f : Fields) (s : State) (p : State → Nat → TlbEnt → Bool) : State :=
  runWord 0x04B true false 1 f s fun s c => do
    let dev := modBit f 82
    let s1 ← invalidate s c dev (p s c)
    okHold s1 (if dev then 320 else 16)

def execTlbinvAll (f : Fields) (s : State) : Outcome State Fault Refusal :=
  .next (tlbinv f s fun _ _ _ => true)

/-- TLBINV.PAGE invalidates every translation of the address, at every page size (06 R171). -/
def execTlbinvPage (f : Fields) (s : State) : Outcome State Fault Refusal :=
  .next (tlbinv f s fun s c e => e.vpage == (valOf (getArch s c) f.o1).toNat / 2 ^ (16 + 10 * e.level))

/-! TRACE (06 R169): its entry is recorded with the word and written when the checker matches it. -/

def execTrace (f : Fields) (s : State) : Outcome State Fault Refusal :=
  .next (runWord 0x04C false false 1 f s fun s c => do
    let s1 ← holdEff s c .trace
    ok s1)

/-! QUIESCE (06 R172). -/

/-- Contexts of a scope. -/
def scopeOf (c kind : Nat) : List Nat :=
  match kind with
  | 0 => (upTo 4).map fun j => 4 * coreOf c + j
  | 1 => (upTo 8).map fun j => 8 * clusterOf c + j
  | _ => (upTo 128).map fun j => 128 * dieOf c + j

/-- Another context of the scope is quiet. -/
def quietCtx (s : State) (c : Nat) : Bool :=
  match (getArch s c).phase with
  | .free => true
  | .waiting => (getCtx s c).cmds.isEmpty && (heldCmds s c).isEmpty
  | _ => false

def withholdSet (s : State) (c kind : Nat) : State :=
  let w : Withhold := ⟨c, kind, serialOf s c⟩
  if s.withheld.contains w then s else { s with withheld := s.withheld ++ [w] }

def execQuiesce (f : Fields) (s : State) : Outcome State Fault Refusal :=
  .next (runWord 0x04D true false 1 f s fun s c =>
    let kind := modBits f 81 80
    let s1 := withholdSet s c kind
    let dl := valOf (getArch s c) f.o2
    let quiet := ((scopeOf c kind).filter (· != c)).all (quietCtx s)
    let late := decide (dl.toNat ≤ s.gts.toNat)
    if replaying s c || quiet || late then
      let (s2, l) := outsideVal s1 c [if quiet then 0 else 1]
      ok (putS s2 c 1 f.o1 (l.getD 0 0) (srcTaint (getArch s c) f [f.o2]))
    else .error (.wait s1))

/-- QUIESCE.END ends the withholding this context made of the same scope. What its sD receives is not stated: a free
value (log entry 1). -/
def execQuiesceEnd (f : Fields) (s : State) : Outcome State Fault Refusal :=
  .next (runWord 0x04D true false 1 f s fun s c =>
    let kind := modBits f 81 80
    let s1 := { s with withheld := s.withheld.filter fun w => !(w.serial == serialOf s c && w.kind == kind) }
    let (s2, fv) := takeFree s1
    let (s3, l) := outsideVal s2 c [fv]
    ok (putS s3 c 1 f.o1 (l.getD 0 0) (guardTaint (getArch s c) f)))

end Sys2Proof.Machine
end

