-- ==== Sys2Proof/Machine/Remote.lean ====
section
/-!
DEFINITION. Machine/Remote.lean: sending remote requests: reachability, the vector a request carries, and the transfers
of queued commands (spec files 01, R24, R25; 02, R66 to R68; 12, R305, R312 to R314).
-/
namespace Sys2Proof.Machine
open Sys2Proof

/-- The device and the offset of a remote address (01 R21). -/
def peerOf (a : W64) : Nat := bitsOf a.toNat 62 41
def offOf (a : W64) : Nat := a.toNat % 2 ^ 41

/-- A peer is configured and routed (12 R314); the device itself is reached through its own switch (01 R25). -/
def reachable (s : State) (p : Nat) : Bool :=
  decide (p ≤ s.fab.maxdev) && (p == s.devno || s.fab.routed.contains p)

/-- The stamps, in a peer's clocks, of the slots of a taint set that were filled from it (02 R68). -/
def remoteVec (s : State) (c peer : Nat) (t : Taint) : Stamp :=
  (upTo 16).foldl (fun v j =>
    let sl := slotOf (getArch s c) j
    if t.getLsbD j && sl.dev == some peer then stampMax v sl.stamp else v) zeroStamp

def stampWords (v : Stamp) : List W64 := [v.d0, v.d1, v.d2, v.d3]
def stampFrom (l : List W64) : Stamp := ⟨l.getD 0 0, l.getD 1 0, l.getD 2 0, l.getD 3 0⟩

/-- The word before the pieces: the landing counter's offset plus one, or 0 for none (of an atomic, 1 when it returns nothing),
and the hint of its accesses in bits 63 and 62. -/
def reqHead (lc : Nat) (hint : BitVec 2) : Nat := lc + hint.toNat * 2 ^ 62
/-- The words every memory request carries: the vector, that word, then the pieces as offset and length (log entry 13: the form
of a packet's words is the model's own). -/
def reqArgs (v : Stamp) (lc : Nat) (pieces : List (Nat × Nat)) (hint : BitVec 2) : List W64 :=
  stampWords v ++ [w64 (reqHead lc hint)] ++ pieces.flatMap fun p => [w64 p.1, w64 p.2]
def reqLc (l : List W64) : Nat := (l.getD 4 0).toNat % 2 ^ 62
def reqHint (l : List W64) : BitVec 2 := BitVec.ofNat 2 ((l.getD 4 0).toNat / 2 ^ 62)

/-- The pieces of a request's words. -/
def piecesOf : List W64 → List (Nat × Nat)
  | a :: n :: t => (a.toNat, n.toNat) :: piecesOf t
  | _ => []
def reqPieces (l : List W64) : List (Nat × Nat) := piecesOf (l.drop 5)

/-- No direct access of the context made before a command still waits in the port on its lane (12 R317; 02 R60). -/
def portClear (s : State) (c lane : Nat) (k : Cmd) : Bool :=
  !(s.fab.dirs.any fun d => d.ctx == c && d.lane == lane && decide (d.id < k.before) && d.st == .port)

/-- Send a request of a queued command and await its acknowledgement (12 R313). -/
def sendAwait (s : State) (c : Nat) (k : Cmd) (peer lane : Nat) (kind : PKind) (lc : Nat) (pieces : List (Nat × Nat))
    (data : List Byte) : State × Nat :=
  let tag := s.fab.nextTag
  let s1 := sendFor s (regionOfCtx s c) peer lane lane kind tag (reqArgs (remoteVec s c peer k.taint) lc pieces (hintOf k.instr)) data
  ({ s1 with fab := { s1.fab with nextTag := tag + 1, awaits := s1.fab.awaits ++ [⟨tag, c, k.q, k.seq, k.before, peer, lane, ccyOf s c⟩] } }, tag)

end Sys2Proof.Machine
end

