-- ==== Sys2Proof/Machine/Lanes.lean ====
section
/-!
DEFINITION. Machine/Lanes.lean: lane groups and their wavelengths, the routes and output ports of packets, and packets leaving
their outputs (spec files 01, R10; 12, R302 to R306, R309). A channel number below 4096 names an optical channel, 4096 + 16 × port
+ lane an electrical lane (log entry 11).
-/
namespace Sys2Proof.Machine
open Sys2Proof

/-! Lane groups (12 R302, R305, R306). -/

def modeOf (s : State) (fibre : Nat) : Nat := mapGet 0 s.fab.modes fibre
/-- The configured width of the lane group a channel lies in. -/
def groupWidth (s : State) (c : Nat) : Nat := if c < 4096 then 8 / 2 ^ (modeOf s (c / 8) % 4) else 16
/-- The first channel of the lane group. -/
def groupBase (s : State) (c : Nat) : Nat := c - c % groupWidth s c
def groupChans (s : State) (c : Nat) : List Nat := (upTo (groupWidth s c)).map (groupBase s c + ·)

def getWave (s : State) (tx : Bool) (c : Nat) : Wave := mapGet .reset (if tx then s.fab.tx else s.fab.rx) c
def setWave (s : State) (tx : Bool) (c : Nat) (w : Wave) : State :=
  if tx then { s with fab := { s.fab with tx := mapSet s.fab.tx c w } } else { s with fab := { s.fab with rx := mapSet s.fab.rx c w } }
def lgKey (tx : Bool) (g : Nat) : Nat := 2 * g + (if tx then 1 else 0)
def getLg (s : State) (tx : Bool) (g : Nat) : LaneGroup := mapGet .reset s.fab.lgs (lgKey tx g)
def setLg (s : State) (tx : Bool) (g : Nat) (l : LaneGroup) : State := { s with fab := { s.fab with lgs := mapSet s.fab.lgs (lgKey tx g) l } }

/-- A wavelength is in the stripe: ACTIVE, or DEGRADED until it is handed back (12 R308). -/
def inStripe (w : Wave) : Bool := w.st == 0 || w.st == 1

/-- The active wavelengths of a direction of a lane group, ascending; a fibre whose mode is being changed has none: its lane groups
are handed back (12 R306, R331). -/
def activeOn (s : State) (tx : Bool) (c : Nat) : List Nat :=
  if decide (c < 4096) && s.fab.modeReq.any (fun m => m.1 == c / 8) then []
  else (groupChans s c).filter fun x => inStripe (getWave s tx x)
def activeWidth (s : State) (tx : Bool) (c : Nat) : Nat := (activeOn s tx c).length

/-- A wavelength takes a state; entering or leaving the stripe is a width change of it and of its lane group, at a flit boundary:
the transmitter marks the last flit sent at the old width and starts the stream again at beat 0 (12 R306, R308). -/
def moveWave (s : State) (tx : Bool) (c : Nat) (w : Wave) : State :=
  if inStripe (getWave s tx c) == inStripe w then setWave s tx c w
  else
    let g := groupBase s c
    let l := getLg s tx g
    let l1 := { l with chg := l.chg + 1 }
    setLg (setWave s tx c { w with wchg := w.wchg + 1 }) tx g
      (if tx then { l1 with beat := 0, mark := if l.seq = 0 then none else some (l.seq - 1) } else l1)

/-- The wavelength that carries a beat of the stream: beat b goes on the (b mod a)-th of the a active ones (12 R306). -/
def beatChan (act : List Nat) (b : Nat) : Option Nat := act[b % act.length]?

/-! Routes (12 R302, R303; 01 R10). -/

def groupOf (d : Nat) : Nat := d / 32

/-- The global channel towards a group: the route table's row, or the construction of R302. -/
def gateRow (s : State) (h : Nat) : Gate :=
  match s.fab.gates.find? fun g => g.group == h with
  | some g => g
  | none =>
    let j := (h + 131072 - groupOf s.devno) % 131072
    let j' := 131072 - j
    ⟨h, j / 4096, j % 4096, j' / 4096, j' % 4096⟩

/-- The member of this group that holds the channel towards a group, and the index at which the link enters it. -/
def gateOf (s : State) (h : Nat) : Nat × Nat := ((gateRow s h).member, (gateRow s h).farMember)

/-- The die that holds an optical channel's fibre (01 R8). -/
def chanDie (c : Nat) : Nat := c / 8 / 128

/-- The device at which a packet for a group enters it, and its die there: the one with the far channel's fibre (12 R302). -/
def entryDev (s : State) (h : Nat) : Nat := if h = groupOf s.devno then s.devno else 32 * h + (gateOf s h).2
def entryDie (s : State) (h : Nat) : Nat := chanDie (gateRow s h).farChan

/-- The electrical port towards a member of this group; 31 is the device's own switch (01 R10, R25). -/
def elecPort (s : State) (x : Nat) : Nat := if x < s.devno % 32 then x else if x = s.devno % 32 then 31 else x - 1

/-- The output towards another group: an electrical port, or 32 and the first channel of the lane group that holds the global
channel (log entry 11). -/
def gatePort (s : State) (h : Nat) : Nat :=
  let g := gateRow s h
  if g.member = s.devno % 32 then 32 + groupBase s g.chan else elecPort s g.member

/-- The output towards a device on the minimal route. -/
def portOf (s : State) (d : Nat) : Nat := if groupOf d = groupOf s.devno then elecPort s (d % 32) else gatePort s (groupOf d)

/-- The output a packet waits for: while it is on an alternate route and not yet in the intermediate group, towards that group
(12 R303). -/
def outPort (s : State) (p : Packet) : Nat :=
  match p.via with
  | some g => if groupOf s.devno = g ∨ groupOf s.devno = groupOf p.dst then portOf s p.dst else gatePort s g
  | none => portOf s p.dst

/-- The lane group of an output. -/
def portLanes (port : Nat) : Nat := if port < 32 then 4096 + 16 * port else port - 32

/-- The minimal route to a device is down: its global channel lies at this device, in a lane group with no active wavelength. Of a
channel at another member the device itself holds nothing: that member's link control reports it (log entry 11). -/
def routeDown (s : State) (d : Nat) : Bool :=
  groupOf d != groupOf s.devno &&
    ((gateRow s (groupOf d)).member != s.devno % 32 || activeWidth s true (gateRow s (groupOf d)).chan == 0)
def routeUp (s : State) (d : Nat) : Bool :=
  groupOf d == groupOf s.devno || (gateRow s (groupOf d)).member != s.devno % 32 || activeWidth s true (gateRow s (groupOf d)).chan != 0

/-- The groups whose global channel from this device lies in a lane group. -/
def groupsVia (s : State) (c : Nat) : List Nat :=
  let row (x : Nat) : List Nat :=
    ((s.fab.gates.filter fun g => g.member == s.devno % 32 && g.chan == x).map (·.group)) ++
      (let j := s.devno % 32 * 4096 + x
       let h := (groupOf s.devno + j) % 131072
       if j = 0 ∨ s.fab.ngrp < h ∨ s.fab.gates.any (fun g => g.group == h) then [] else [h])
  (groupChans s c).flatMap row

/-- A lane group has an alternate route: each group it leads to has one (12 R303, R331). One that leads to no group has none. -/
def hasAlt (s : State) (c : Nat) : Bool :=
  let l := groupsVia s c
  !l.isEmpty && l.all fun h => s.fab.alts.any fun a => a.1 == h

/-! Packets leaving their outputs (12 R304, R305, R309). -/

/-- Flits of a packet: its header and up to 64 bytes each. -/
def flits (p : Packet) : Nat := 1 + (p.data.length + 63) / 64

/-- The packets that wait at an output; one the device sent to itself passes its own switch. -/
def queueAt (s : State) (port : Nat) : List Packet := s.fab.outbox.filter fun p => p.dst != s.devno && outPort s p == port
def queueFlits (s : State) (port : Nat) : Nat := ((queueAt s port).map flits).foldl (· + ·) 0

/-- A region's share of an output: its effective FABSH (log entry 24 says why it may be 0). -/
def shareOf (s : State) (r : Nat) : Nat := max 1 (getRegion s r).fabsh

/-- Flits an output has served a region since packets of several regions wait for it. -/
def servedOf (s : State) (port r : Nat) : Nat := ((s.fab.served.find? fun x => x.1 == port && x.2.1 == r).map (·.2.2)).getD 0

/-- The region an output serves next: the one furthest behind its share (12 R304). DESIGN CHOICE (log entry 34): a packet of no region
goes first. -/
def nextRegion (s : State) (port : Nat) (l : List Nat) : Option Nat :=
  if l.contains 0 then some 0
  else l.foldl (fun best r => match best with
    | none => some r
    | some b => if servedOf s port r * shareOf s b < servedOf s port b * shareOf s r then some r else best) none

/-- One packet leaves an output whose lane group is up: the first of the region served whose virtual lane is at GO. A packet's GTS
is that of the moment the device sends it (01 R29). -/
def sendFrom (s : State) (port : Nat) : State :=
  let act := activeOn s true (portLanes port)
  let l := (queueAt s port).filter fun p => !s.fab.stopped.contains (65536 + port, p.vl)
  let regs := (l.map (·.reg)).eraseDups
  match act, (nextRegion s port regs).bind fun r => l.find? fun p => p.reg == r with
  | _ :: _, some p =>
    let g := groupBase s (portLanes port)
    let lg := getLg s true g
    let gone : Packet := { p with far := p.far || decide (32 ≤ port), gts := if p.src = s.devno then s.gts.truncate 24 else p.gts }
    let others := s.fab.served.filter fun x => x.1 != port
    let mine := s.fab.served.filter fun x => x.1 == port && x.2.1 != p.reg
    setLg { s with fab := { s.fab with
      outbox := s.fab.outbox.erase p
      wire := s.fab.wire ++ [⟨gone, port, lg.seq, lg.beat, act⟩]
      served := if (regs.filter (· != 0)).length < 2 then others else others ++ mine ++ [(port, p.reg, servedOf s port p.reg + flits p)] } }
      true g { lg with seq := lg.seq + flits p, beat := lg.beat + 8 * flits p }
  | _, _ => s

/-- The outputs of a cycle: those whose queue holds PKLO flits or more are not idle, and each sends a packet. How many flits a
nanosecond carries is left out: timing (00 R4). -/
def linkTick (s : State) : State :=
  let ports := ((s.fab.outbox.filter fun p => p.dst != s.devno).map (outPort s)).eraseDups
  let s1 := ports.foldl (fun t port =>
    if queueFlits s port < s.fab.pklo.toNat then t
    else
      let g := groupBase s (portLanes port)
      setLg t true g { getLg t true g with busy := s.gts }) s
  ports.foldl sendFrom s1

/-! Receive buffers (12 R304). -/

/-- Flits of a virtual lane and class held in the receive buffer of a lane group: those not yet taken, and those waiting to go on. -/
def heldFlits (s : State) (g vl : Nat) (far : Bool) : Nat :=
  (((s.fab.inbox ++ s.fab.outbox).filter fun p => p.src != s.devno && p.inp == g && p.vl == vl && p.far == far).map flits).foldl (· + ·) 0

/-- Free space of the buffer of a virtual lane: that of its fuller class. -/
def freeFlits (s : State) (g vl : Nat) : Nat := Config.rxBuffer g - max (heldFlits s g vl false) (heldFlits s g vl true)

end Sys2Proof.Machine
end

