-- ==== Sys2Proof/Machine/LandCount.lean ====
section
/-!
DEFINITION. Machine/LandCount.lean: landing counters and the gates that count their flips (spec file 10, R274 to R279).
-/
namespace Sys2Proof.Machine
open Sys2Proof

/-! The counter word (10 R274). -/

def lcPhase (w : Nat) : Bool := w.testBit 63
def lcErr (w : Nat) : Bool := w.testBit 62
def lcExp (w : Nat) : Nat := bitsOf w 55 32
def lcRem (w : Nat) : Nat := bitsOf w 23 0
/-- A counter word of its four fields; its other bits are zero. -/
def lcMake (phase err : Bool) (exp rem : Nat) : Nat :=
  (if phase then 2 ^ 63 else 0) + (if err then 2 ^ 62 else 0) + exp % 2 ^ 24 * 2 ^ 32 + rem % 2 ^ 24

/-- An arrival of b bytes (10 R275). -/
def lcArrival (w b : Nat) : Nat :=
  if lcExp w = 0 then lcMake (lcPhase w) true (lcExp w) (lcRem w)
  else if lcRem w ≤ b then lcMake (!lcPhase w) (lcErr w || decide (lcRem w < b)) (lcExp w) (lcExp w)
  else lcMake (lcPhase w) (lcErr w) (lcExp w) (lcRem w - b)

/-- LCINIT's word: ph is 0 to keep PHASE, 1 for 0, 2 for 1 (10 R276). -/
def lcInit (w ph x : Nat) : Nat := lcMake (if ph = 0 then lcPhase w else ph == 2) false (x % 2 ^ 24) (x % 2 ^ 24)

/-- LCADD's word (10 R276). -/
def lcAdd (w : Nat) (n : Int) : Nat :=
  if 0 < n then lcArrival w n.toNat
  else if n = 0 then w
  else
    let r := lcRem w + (-n).toNat
    if 2 ^ 24 ≤ r then lcMake (lcPhase w) true (lcExp w) (2 ^ 24 - 1) else lcMake (lcPhase w) (lcErr w) (lcExp w) r

/-! Gates (10 R278, R279). -/

/-- Firings of a gate: n of N[12:1] plus one. -/
def gateCount (k : Cmd) : Nat := bitsOf k.x4.toNat 12 1 + 1
def gateAddr (k : Cmd) : Nat := k.aux.getD 0 0

/-- The entry behind a gate in its queue. -/
def gatedSeq (l : List Cmd) (g : Cmd) : Option Nat :=
  match ((l.filter fun k => k.q == g.q).dropWhile fun k => k.seq != g.seq) with
  | _ :: e :: _ => some e.seq
  | _ => none

/-- A flip of the counter at addr: each gate at its head counts it, and the entry it holds sees every write applied by
now. -/
def bumpGates (addr : Nat) (v : Stamp) (l : List Cmd) : List Cmd :=
  let opens := l.filter fun g => isGate g && g.gateOpen && gateAddr g == addr
  l.map fun k =>
    if opens.contains k then { k with gateF := k.gateF + 1 }
    else if opens.any (fun g => g.q == k.q && gatedSeq l g == some k.seq) then { k with base := stampMax k.base v }
    else k

/-- Put a counter word at its place; a changed PHASE is a flip. -/
def lcPut (s : State) (addr w : Nat) : State :=
  let old := spNat s addr 8
  let s1 := spPutNat s addr 8 w
  if lcPhase old == lcPhase w then s1
  else
    let core := addr / 0x200000
    let v := appliedAll s
    (upTo 4).foldl (fun t j => updCtx t (4 * core + j) fun x => { x with cmds := bumpGates addr v x.cmds }) s1

/-- An arrival of b bytes at the counter at addr, and whether it set ERR (10 R270, R275). -/
def lcArrive (s : State) (addr b : Nat) : State × Bool :=
  let w := spNat s addr 8
  (lcPut s addr (lcArrival w b), lcExp w == 0 || decide (lcRem w < b))

/-- The head an engine executes: the first command, or the entry a gate fires (10 R278). -/
def execHead (s : State) (c q : Nat) : Option Cmd :=
  match cmdsOf s c q with
  | g :: l =>
    if isGate g then
      match l with
      | e :: _ => if g.gateOpen && e.gateOpen then some e else none
      | [] => none
    else some g
  | [] => none

/-- The gate at the head of a queue. -/
def headGate (s : State) (c q : Nat) : Option Cmd := (cmdsOf s c q).head?.filter isGate

/-- A command of a queue ends an execution with an element: a fired entry waits for its next firing, or leaves with its
gate after the last (10 R278). -/
def finishFire (s : State) (c : Nat) (k : Cmd) (status cause info : Nat) (val : W64) : State :=
  match headGate s c k.q with
  | some g =>
    if !k.gateOpen then finishCmd s c k status cause info val
    else if g.fired + 1 = gateCount g then
      let k1 := { k with gateOpen := false }
      finishCmd (setCmd (dropCmd s c g) c k1) c k1 status cause info val
    else
      let s1 := setCmd s c { g with gateF := g.gateF - 1, fired := g.fired + 1 }
      let e : Elem := ⟨k.q, statWord status cause k.seq info, val, k.stamp, ccyOf s c⟩
      if (getArch s c).phase != .exiting && decide (16 ≤ (resOf s c k.q).length) then setCmd s1 c { k with held := some e }
      else putElem (setCmd s1 c (rearm k)) c e
  | none => finishCmd s c k status cause info val

/-- A gate reaches the head: F is 1 when the counter's PHASE differs from P. -/
def openGate (s : State) (c : Nat) (g : Cmd) : State :=
  let f := lcPhase (spNat s (gateAddr g) 8) != g.x4.getLsbD 0
  let s1 := setCmd s c { g with gateOpen := true, gateF := if f then 1 else 0 }
  match (cmdsOf s1 c g.q) with
  | _ :: e :: _ => if f then setCmd s1 c { e with base := stampMax e.base (appliedAll s) } else s1
  | _ => s1

end Sys2Proof.Machine
end

