-- ==== Sys2Proof/Machine/Copy.lean ====
section
/-!
DEFINITION. Machine/Copy.lean: the words of the copy engine (spec file 10, R263 to R269, R276 to R278).
-/
namespace Sys2Proof.Machine
open Sys2Proof Host

/-! Addresses of a data command's elements (10 R266 to R269). -/

/-- Index j of a pushed index list, signed. -/
def listIdx (l : List W64) (j : Nat) : Int := (BitVec.ofNat 32 (l.getD j 0).toNat).toInt

/-- Address of element n through an index list on one side (10 R267). -/
def runAddr (base : W64) (d : Quarter) (l : List W64) (side n : Nat) : W64 :=
  BitVec.ofInt 64 (base.toNat + listIdx l (n / dTrip d 0) * dSigned d (side + 1) + (n % dTrip d 0 : Nat) * dSigned d side)

def copySrc (i : Instr) (base : W64) (d : Quarter) (l : List W64) (n : Nat) : W64 :=
  match i with
  | .cpyg _ => runAddr base d l 4 n
  | _ => walkAddr base d 4 n

def copyDst (i : Instr) (base : W64) (d : Quarter) (l : List W64) (n : Nat) : W64 :=
  match i with
  | .cpys _ => runAddr base d l 8 n
  | .ctrn _ =>
    let x := walkIdx d n
    let o := (x.getD 1 0 : Int) * dSigned d 8 + (x.getD 0 0 : Int) * dSigned d 9 + (x.getD 2 0 : Int) * dSigned d 10
      + (x.getD 3 0 : Int) * dSigned d 11
    BitVec.ofInt 64 (base.toNat + o)
  | _ => walkAddr base d 8 n

/-! Push checks (10 R263). -/

/-- What every data command's descriptor obeys: ENG and EVT zero, no reserved format code; E14 names a counter with LCEN, and is
not looked at without: DESIGN CHOICE (log entry 32). -/
def copyForm (s : State) (c : Nat) (d : Quarter) (localLc : Bool) : Except Stop Unit := do
  descForm d true (· == 0) true
  if dLcen d && localLc then checkTable s c (dField d 14) 8 14 8

/-- The index list: at most 1,024 entries, aligned, inside the window, read after the context's earlier stores, behind its FENCE and
its strong reads as a scratchpad load is (02 R56, R58). -/
def readList (s : State) (c : Nat) (d : Quarter) : Except Stop (List W64) := do
  let r := dTrip d 1 * dTrip d 2 * dTrip d 3
  faultIf (decide (1024 < r)) 1
  checkTable s c (dField d 15) (4 * r) 15 4
  let l := (upTo (4 * r)).map fun i => spAddr s c (dField d 15 + i)
  if spLocked s (coreOf c) l false || earlierStrongRead s c s.nextId then stallW
  else .ok ((upTo r).map fun j => w64 (spNat s (spAddr s c (dField d 15 + 4 * j)) 4))

/-- The two sides of a data command. -/
def copySides (i : Instr) (src dst : W64) (d : Quarter) (l : List W64) : List Side :=
  [⟨src, 4, .pushRead, anyCls, true, copySrc i src d l⟩, ⟨dst, 8, .pushWrite, anyCls, true, copyDst i dst d l⟩]

/-- The pages a command pins, and its checks, for a data command with both sides. -/
def copyPush (f : Fields) (s : State) (c : Nat) (i : Instr) (l : List W64) : Except Stop State := do
  let a := getArch s c
  let d := descOf a f.o5
  let (_, pg) ← checkWalk s c d (2 ^ dEsize d) (copySides i (addrOf a f.o3 f.o4) (addrOf a f.o1 f.o2) d l)
  pushCmd s c { mkCmd s c f 2 i d with list := l, pins := pg }

def execCpy (f : Fields) (s : State) : Outcome State Fault Refusal :=
  .next (runWord 0x1C0 false false 1 f s fun s c => do
    let d := descOf (getArch s c) f.o5
    copyForm s c d true
    faultIf (dField d 15 != 0) 15
    let s1 ← copyPush f s c (.cpy f) []
    ok s1)

/-- The hold of a word that reads an index list (10 R267). -/
def listHold (d : Quarter) : Nat := 4 + (dTrip d 1 * dTrip d 2 * dTrip d 3 + 15) / 16

def execCpyg (f : Fields) (s : State) : Outcome State Fault Refusal :=
  .next (runWord 0x1C1 false false 1 f s fun s c => do
    let d := descOf (getArch s c) f.o5
    copyForm s c d true
    faultIf (dField d 6 != 0) 6
    faultIf (dField d 7 != 0) 7
    let s ← fenceGate s c none
    let l ← readList s c d
    let s1 ← copyPush f s c (.cpyg f) l
    okHold s1 (listHold d))

def execCpys (f : Fields) (s : State) : Outcome State Fault Refusal :=
  .next (runWord 0x1C2 false false 1 f s fun s c => do
    let d := descOf (getArch s c) f.o5
    copyForm s c d true
    faultIf (dField d 10 != 0) 10
    faultIf (dField d 11 != 0) 11
    let s ← fenceGate s c none
    let l ← readList s c d
    let s1 ← copyPush f s c (.cpys f) l
    okHold s1 (listHold d))

def execCfil (f : Fields) (s : State) : Outcome State Fault Refusal :=
  .next (runWord 0x1C3 false false 1 f s fun s c => do
    let a := getArch s c
    let d := descOf a f.o4
    copyForm s c d true
    faultIf (dField d 4 != 0) 4
    faultIf (dField d 5 != 0) 5
    faultIf (dField d 6 != 0) 6
    faultIf (dField d 7 != 0) 7
    faultIf (dField d 15 != 0) 15
    let dst := addrOf a f.o1 f.o2
    let (_, pg) ← checkWalk s c d (2 ^ dEsize d) [⟨dst, 8, .pushWrite, anyCls, true, walkAddr dst d 8⟩]
    let s1 ← pushCmd s c { mkCmd s c f 2 (.cfil f) d with pins := pg }
    ok s1)

def execCtrn (f : Fields) (s : State) : Outcome State Fault Refusal :=
  .next (runWord 0x1C4 false false 1 f s fun s c => do
    let d := descOf (getArch s c) f.o5
    copyForm s c d true
    faultIf (decide (64 < dTrip d 0)) 0
    faultIf (decide (64 < dTrip d 1)) 1
    faultIf (decide (3 < dEsize d)) 12
    faultIf (dField d 15 != 0) 15
    let s1 ← copyPush f s c (.ctrn f) []
    ok s1)

/-! Landing counter words (10 R276 to R278). -/

/-- The counter a word names: an aligned word of the context's window. -/
def counterArg (s : State) (c : Nat) (acc : Acc) (va : W64) : Except Stop Nat := do
  let l ← locate s c acc va (upTo 8) 8 (· == .scratch)
  .ok (l.addrs.headD 0)

/-- LCINIT and LCADD: after every earlier access of the context, held for the checker and applied at the arbiter. -/
def counterWord (opc : Nat) (f : Fields) (s : State) (i : Instr) : State :=
  memWord opc 1 f s fun s c => do
    let a ← counterArg s c .write (addrOf (getArch s c) f.o1 f.o2)
    if !quietAcc s c then stallW
    else
      let s1 ← holdEff s c (.push { mkCmd s c f 7 i 0 with aux := [a] })
      ok s1

def execLcinit (f : Fields) (s : State) : Outcome State Fault Refusal := .next (counterWord 0x1C5 f s (.lcinit f))
def execLcadd (f : Fields) (s : State) : Outcome State Fault Refusal := .next (counterWord 0x1C7 f s (.lcadd f))

/-- Apply a released LCINIT or LCADD. -/
def counterApply (s : State) (k : Cmd) : State :=
  let a := gateAddr k
  let w := spNat s a 8
  match k.instr with
  | .lcinit f => lcPut s a (lcInit w (modBits f 81 80) k.x3.toNat)
  | _ => lcPut s a (lcAdd w (BitVec.ofNat 32 k.x3.toNat).toInt)

/-- LCWAIT's test (10 R277). -/
def lcMet (s : State) (addr : Nat) (p : Bool) (dl : Option W64) : Bool :=
  lcPhase (spNat s addr 8) != p || (match dl with | some x => decide (x.toNat ≤ s.gts.toNat) | none => false)

/-- An LCWAIT ends: its acquire takes the four frontiers. -/
def lcDone (s : State) (c r addr : Nat) : State := finishWait s c r (w64 (spNat s addr 8)) (some (appliedAll s))

def execLcwait (f : Fields) (s : State) : Outcome State Fault Refusal :=
  .next (memWord 0x1C6 1 f s fun s c => do
    let a := getArch s c
    let addr ← counterArg s c .read (addrOf a f.o2 f.o3)
    let p := valOf a f.o4
    let dl := if f.o5 = .none then none else some (valOf a f.o5)
    match replayWait s c with
    | some s1 => .error (.wait s1)
    | none =>
      if spLocked s (coreOf c) ((upTo 8).map fun i => addr + i) false then stallW
      else if lcMet s addr (p.getLsbD 0) dl then .error (.wait (lcDone s c (idxOf f.o1) addr))
      else .error (.wait (parkAt s c .lcwait (idxOf f.o1) dl addr p 0)))

/-- CARM (10 R278): the gate goes into qc or qf behind the checks of LCINIT. -/
def execCarm (f : Fields) (s : State) : Outcome State Fault Refusal :=
  .next (runWord 0x1C8 false false 1 f s fun s c => do
    let a ← counterArg s c .write (addrOf (getArch s c) f.o2 f.o3)
    let s1 ← pushCmd s c { mkCmd s c f (idxOf f.o1) (.carm f) 0 with aux := [a] }
    ok s1)

end Sys2Proof.Machine
end

