-- ==== Sys2Proof/Machine/DerWords.lean ====
section
/-!
DEFINITION. Machine/DerWords.lean: the six Derailleur words, and what the Derailleur does with RGNMK, RGNSET and RGNTD
(spec file 05, R119 to R123, R139 to R145).
-/
namespace Sys2Proof.Machine
open Sys2Proof Host

/-! LAUNCH (05 R142). -/

/-- LAUNCH's status code for a record, with the slot a spill would take (05 R142). -/
def launchCode (s : State) (c : Nat) (r : Option Nat) (rcd : Quarter) (ntfy nospill : Bool) : Nat :=
  match r with
  | none => 3
  | some g =>
    if !live s g then 3
    else if !permitted s c g then 6
    else if malformed rcd then 4
    else if ntfy && !qdRoom s c then 5
    else if hwHeld s g < (getRegion s g).lqmax then 0
    else if !nospill then
      match overflowSlot s g with
      | some k => if (overflowAt s g k).isSome then 1 else 2
      | none => 2
    else 2

/-- A refusal is counted, and so is an overflow write that would not translate (05 R130, R144). -/
def countRefusal (s : State) (g : Nat) (nospill : Bool) : State :=
  let s1 := bumpCnt s g 3
  match overflowSlot s g with
  | some k => if !nospill && (overflowAt s g k).isNone then bumpCnt s1 g 4 else s1
  | none => s1

/-- The overflow slot and its place in Global that a SPILLED record takes at its LAUNCH. -/
def launchSlot (s : State) (g : Nat) : Option (Nat × Nat) :=
  (overflowSlot s g).bind fun k => (overflowAt s g k).map fun pa => (k, pa)

/-- Record n is made, held for the checker, with what its release must cover (05 R131, R128). A re-executed LAUNCH makes the
record it made before, with the ticket and the place that one took (06 R176). -/
def makeLaunch (s : State) (c g n ticket : Nat) (rcd : Quarter) (ntfy spill : Bool) : Except Stop State := do
  let a := getArch s c
  let t := (upTo 16).foldl (fun (v : Taint) j => if slotLive s c j then v ||| (1#16 <<< j) else v) 0
  let old := mapFind s.nests n
  let slot := match old with
    | some y => y.place
    | none => .flying (if spill then launchSlot s g else none)
  let x : Nest := { newNest g ticket rcd (some (c, serialOf s c)) ntfy 0 with
    rel := stampMax (stampMax a.base (stampsOf a t)) (getCtx s c).lastWrite
    relDeps := depsOf a c t
    relId := s.nextId
    wseq := a.seq
    left := false
    place := slot
    seq := mapGet 0 a.qseq 6 % 2 ^ 16 }
  let s1 ← holdEff s c (.launch n)
  let s2 := { s1 with nests := mapSet s1.nests n x, nextNest := max s1.nextNest (n + 1) }
  .ok (match old, slot with
    | none, .flying (some (k, _)) => takeOvSlot s2 g k
    | _, _ => s2)

def reserveQd (s : State) (c : Nat) : State :=
  let s2 := updArch s c fun a => { a with qseq := mapSet a.qseq 6 (mapGet 0 a.qseq 6 + 1) }
  updCtx s2 c fun x => { x with qdRsv := x.qdRsv + 1 }

/-- What LAUNCH's status word leads to: the record and its qd reservation, or the count of a refusal. The word and the record's
number are values from outside the core, which a re-execution takes again (06 R174). -/
def launchDo (s : State) (c : Nat) (g : Option Nat) (rcd : Quarter) (ntfy nospill : Bool) : Except Stop (State × W64) := do
  let again := replaying s c
  let fresh := launchCode s c g rcd ntfy nospill
  let gi := g.getD 0
  let tick := (getRegion s gi).nextTicket
  let (s1, l) := outsideVal s c [w64 (if fresh ≤ 1 then tick * 2 ^ 32 + fresh else fresh), w64 s.nextNest]
  let x := l.getD 0 0
  let n := (l.getD 1 0).toNat
  let code := x.toNat % 16
  if code ≤ 1 then
    if again && (mapFind s.nests n).isNone then .ok (s1, 3)
    else do
      let s2 ← makeLaunch s1 c gi n (x.toNat / 2 ^ 32) rcd ntfy (code == 1)
      let s3 := if again then s2 else updRegion s2 gi fun g => { g with nextTicket := nextTicket tick }
      .ok (if ntfy then reserveQd s3 c else s3, x)
  else .ok (if code = 2 && !again then countRefusal s1 gi nospill else s1, x)

def execLaunch (f : Fields) (s : State) : Outcome State Fault Refusal :=
  .next (runWord 0x060 false false 1 f s fun s c => do
    let s ← fenceGate s c none
    let a := getArch s c
    let loc ← locate s c .read (addrOf a f.o3 f.o4) (upTo 64) 64 (· == .scratch)
    if spLocked s (coreOf c) loc.addrs false || earlierStrongRead s c s.nextId then stallW
    else
      let rcd : Quarter := BitVec.ofNat 512 (leNat (spRead s loc.addrs))
      let (s1, x) ← launchDo s c (resolve s c (valOf a f.o2)) rcd (modBit f 80) (modBit f 81)
      .ok { st := putS s1 c 48 f.o1 x 0, hold := 48 })

/-! NWAIT (05 R143). -/

def execNwait (f : Fields) (s : State) : Outcome State Fault Refusal :=
  .next (runWord 0x061 false false 1 f s fun s c => do
    let s ← fenceGate s c none
    let a := getArch s c
    let loc ← locate s c .read (addrOf a f.o2 f.o3) (upTo 8) 8 (fun k => k == .global || k == .commons)
    match replayWait s c with
    | some s1 => .error (.wait s1)
    | none =>
      let dl := if f.o5 = .none then none else some (valOf a f.o5)
      let x := mkAcc s c .rd [] loc 0 (some 0x3F) (.nwait (idxOf f.o1) ((valOf a f.o4).truncate 32) dl) none none
      let s1 := updArch (baseLive s c) c fun b => { b with block := some a.seq }
      .error (.wait (addAcc s1 { x with vec := a.base, deps := [] })))

/-! NSTAT (05 R144). -/

/-- PHASE of a nest. -/
def nestPhase (s : State) (x : Nest) : Nat :=
  if x.complete then 6
  else
    match x.place with
    | .spilled _ | .flying (some _) => 2
    | .gone => 5
    | _ => if 0 < x.next then 4 else if !x.ready || !released s x then 3 else 1

def nestWord (s : State) (r ticket : Nat) : W64 :=
  match s.nests.find? (fun p => p.2.region == r && p.2.ticket == ticket) with
  | none => 0
  | some (_, x) =>
    let st := if x.complete then x.stat else nestStat s x
    let first := match x.first with
      | some (u, cause) => u + cause * 2 ^ 16
      | none => 0
    w64 (st * 2 ^ 60 + nestPhase s x * 2 ^ 56 + first * 2 ^ 32 + x.ended % 2 ^ 32)

def stateCode : RState → Nat
  | .free => 0 | .live => 1 | .tearing => 2 | .torn => 3

def rgnWord (s : State) (r : Nat) : W64 :=
  let g := getRegion s r
  w64 (stateCode g.state * 2 ^ 62 + g.cls * 2 ^ 60 + hwIn s r * 2 ^ 32 + boundCount s r)

def cntWord (s : State) (r i : Nat) : W64 :=
  if i = 7 then w64 (spilledOf s r).length else if i < 7 then mapGet 0 (getRegion s r).cnt i else 0

def execNstat (f : Fields) (s : State) : Outcome State Fault Refusal :=
  .next (runWord 0x062 false false 1 f s fun s c =>
    let a := getArch s c
    let sel := modBits f 81 80
    let x := valOf a f.o3
    let r := (resolve s c (valOf a f.o2)).filter fun g => permitted s c g
    let v := match r with
      | none => if sel = 2 then BitVec.allOnes 64 else 0
      | some g => if sel = 0 then nestWord s g (x.toNat % 2 ^ 32) else if sel = 1 then rgnWord s g else cntWord s g x.toNat
    let (s1, l) := outsideVal s c [v]
    .ok { st := putS s1 c 32 f.o1 (l.getD 0 0) 0, hold := 32 })

/-! RGNMK, RGNSET, RGNTD (05 R145). -/

def execRgnmk (f : Fields) (s : State) : Outcome State Fault Refusal :=
  .next (runWord 0x063 false false 1 f s fun s c => do
    let a := getArch s c
    let loc ← locate s c .read (addrOf a f.o1 f.o2) (upTo 64) 64 (· == .global)
    let s1 ← pushQd s c { mkCmd s c f 6 (.rgnmk f) 0 with aux := [loc.addrs.headD 0, serialOf s c, if a.mode then 1 else 0] }
    ok s1)

def execRgntd (f : Fields) (s : State) : Outcome State Fault Refusal :=
  .next (runWord 0x064 true false 1 f s fun s c => do
    let s1 ← pushQd s c { mkCmd s c f 6 (.rgntd f) 0 with aux := [0, serialOf s c, 1] }
    ok s1)

def execRgnset (f : Fields) (s : State) : Outcome State Fault Refusal :=
  .next (runWord 0x065 false false 1 f s fun s c => do
    let a := getArch s c
    let s1 ← pushQd s c { mkCmd s c f 6 (.rgnset f) 0 with aux := [0, serialOf s c, if a.mode then 1 else 0] }
    ok s1)

/-- The RCB's words with inherited fields taken from a parent's effective values (05 R119, R120). -/
structure Rcb where
  cmask : Nat
  domain : Nat
  cls : Nat
  fabsh : Nat
  lqmax : Nat
  ctx : Nat
  spb : Nat
  cquota : Nat
  ovbase : Nat
  ovsize : Nat
  supv : Bool
  inh : Nat

/-- Reserved bits of an RCB are zero where INH does not make the field ignored (05 R119). -/
def rcbZeros (w : List Nat) : Bool :=
  let w2 := w.getD 2 0
  bitsOf w2 55 50 == 0 && bitsOf w2 47 41 == 0 && bitsOf w2 31 23 == 0 && bitsOf w2 15 10 == 0
    && bitsOf (w.getD 3 0) 63 22 == 0 && bitsOf (w.getD 6 0) 63 41 == 0 && w.getD 7 0 == 0 && w.getD 5 0 % 64 == 0

def rcbOf (w : List Nat) (p : Option Region) : Rcb :=
  let w2 := w.getD 2 0
  let inh := bitsOf (w.getD 6 0) 39 32
  let pick (k own : Nat) (par : Region → Nat) : Nat := match p with
    | some g => if inh.testBit k then par g else own
    | none => own
  { cmask := pick 0 (w.getD 1 0) (·.cmask.toNat), ctx := pick 1 (bitsOf w2 9 0) (·.ctx)
    lqmax := pick 2 (bitsOf w2 22 16) (·.lqmax), fabsh := pick 3 (bitsOf w2 40 32) (·.fabsh)
    cls := pick 4 (bitsOf w2 49 48) (·.cls), domain := pick 5 (bitsOf w2 63 56) (·.domain)
    spb := pick 6 (bitsOf (w.getD 3 0) 21 0) (·.spb), cquota := pick 7 (w.getD 4 0) (·.cquota)
    ovbase := w.getD 5 0, ovsize := w.getD 6 0 % 2 ^ 32, supv := (w.getD 6 0).testBit 40, inh := inh }

/-- Effective values within their ranges (05 R119; 01 R35). FABSH 0 in a control block is taken, as the complete programs of 03, 07,
09, 10 and 11 write it (DEDUCED, log entry 24). -/
def rcbRange (r : Rcb) : Bool :=
  r.cmask != 0 && decide (1 ≤ r.ctx ∧ r.ctx ≤ 512) && decide (1 ≤ r.lqmax ∧ r.lqmax ≤ 64)
    && decide (r.fabsh ≤ 256) && r.spb % 0x1000 == 0 && decide (0x1000 ≤ r.spb ∧ r.spb ≤ 0x200000)
    && r.cquota % 0x10000 == 0

/-- Admission under a parent (05 R121). -/
def admits (p : Region) (r : Rcb) : Bool :=
  (BitVec.ofNat 64 r.cmask &&& ~~~p.cmask) == 0 && decide (r.ctx ≤ p.ctx) && decide (r.lqmax ≤ p.lqmax)
    && decide (r.fabsh ≤ p.fabsh) && decide (r.cls ≤ p.cls) && decide (r.spb ≤ p.spb) && decide (r.cquota ≤ p.quotaLeft)
    && (!r.supv || p.supv)

/-- The free region index a new region takes (05 R122). DESIGN CHOICE (log entry 27): the lowest. -/
def freeIndex (s : State) : Option Nat := (upTo 4096).find? fun i => i != 0 && (getRegion s i).state == .free

/-- The home die: the lowest die with a cluster of the mask (01 R35). -/
def homeOf (mask : Nat) : Nat := ((upTo 4).find? fun d => bitsOf mask (16 * d + 15) (16 * d) != 0).getD 0

/-- A region's fresh counters and identity at its creation (05 R123, R142, R144). -/
def createRegion (s : State) (i parent : Nat) (r : Rcb) (rcb root : Nat) : State :=
  updRegion s i fun g => { Region.none with
    gen := g.gen
    state := .live
    parent := parent
    cmask := w64 r.cmask
    ctx := r.ctx
    lqmax := r.lqmax
    fabsh := r.fabsh
    cls := r.cls
    domain := r.domain
    spb := r.spb
    cquota := r.cquota
    quotaLeft := r.cquota
    ovbase := w64 r.ovbase
    ovsize := r.ovsize
    supv := r.supv
    rcb := rcb
    root := root
    home := homeOf r.cmask }

/-- RGNMK's admission: the cause of its failure, or the new region (05 R145). DESIGN CHOICE (log entry 28): of several causes the
first of this order is reported: a handle that is stale or not LIVE, permission, the fields' ranges, SUPV, the budget, the index;
RGNSET's order is the same. -/
def doRgnmk (s : State) (c : Nat) (k : Cmd) : State :=
  let serial := k.aux.getD 1 0
  let sup := k.aux.getD 2 0 == 1
  let rep (s : State) (cause : Nat) (v : W64) (vec : Stamp) : State := qdElem s serial k.seq (if cause = 0 then 0 else 3) cause 0 v vec
  let pa := k.aux.getD 0 0
  match resolve s c k.x3 with
  | none => rep s 4 0 zeroStamp
  | some p =>
    if !live s p then rep s 4 0 zeroStamp
    else if !sup && !inSubtree s (regionOfCtx s c) p then rep s 5 0 zeroStamp
    else
      let (bs, st) := readFor s c s.nextId ((upTo 64).map fun i => pa + i)
      let w := (upTo 8).map fun i => leNat ((bs.drop (8 * i)).take 8)
      let g := getRegion s p
      let r := rcbOf w (some g)
      if !rcbZeros w || !rcbRange r then rep s 1 0 st
      else if r.supv && !sup then rep s 5 0 st
      else if !admits g r then rep s 2 0 st
      else
        match freeIndex s with
        | none => rep s 3 0 st
        | some i =>
          let s1 := createRegion s i p r pa g.root
          let s2 := updRegion s1 p fun g => { g with quotaLeft := g.quotaLeft - r.cquota }
          rep s2 0 (w64 (handleOf s2 i)) st

/-- Children of a region, LIVE or being torn down. -/
def childrenOf (s : State) (r : Nat) : List Region :=
  (s.regions.filter fun p => p.2.parent == r && (p.2.state == .live || p.2.state == .tearing)).map (·.2)

/-- RGNSET's field: its previous value, its range, and whether parent and children allow the new one (05 R121, R145). -/
def rgnField (s : State) (r fld v : Nat) : Nat × Bool × Bool :=
  let g := getRegion s r
  let par (f : Region → Bool) : Bool := g.parent == 0 || f (getRegion s g.parent)
  let kids (f : Region → Bool) : Bool := (childrenOf s r).all f
  match fld with
  | 0 => (g.cmask.toNat, v != 0,
      par (fun p => (w64 v &&& ~~~p.cmask) == 0) && kids (fun k => (k.cmask &&& ~~~(w64 v)) == 0))
  | 1 => (g.ctx, decide (1 ≤ v ∧ v ≤ 512), par (fun p => decide (v ≤ p.ctx)) && kids (fun k => decide (k.ctx ≤ v)))
  | 2 => (g.cls, decide (v ≤ 3), par (fun p => decide (v ≤ p.cls)) && kids (fun k => decide (k.cls ≤ v)))
  | 3 => (g.fabsh, decide (1 ≤ v ∧ v ≤ 256), par (fun p => decide (v ≤ p.fabsh)) && kids (fun k => decide (k.fabsh ≤ v)))
  | _ => (g.cquota, v % 0x10000 == 0,
      par (fun p => decide (v ≤ p.quotaLeft + g.cquota)) && decide (g.cquota - g.quotaLeft ≤ v))

def setRgnField (s : State) (r fld v : Nat) : State :=
  let g := getRegion s r
  match fld with
  | 0 => updRegion s r fun g => { g with cmask := w64 v }
  | 1 => updRegion s r fun g => { g with ctx := v }
  | 2 => updRegion s r fun g => { g with cls := v }
  | 3 => updRegion s r fun g => { g with fabsh := v }
  | _ =>
    let s1 := updRegion s r fun g => { g with cquota := v, quotaLeft := v - (g.cquota - g.quotaLeft) }
    if g.parent = 0 then s1 else updRegion s1 g.parent fun p => { p with quotaLeft := p.quotaLeft + g.cquota - v }

/-- The field written into the RCB in memory: word, low bit, width. -/
def rcbPlace (fld : Nat) : Nat × Nat × Nat :=
  match fld with
  | 0 => (1, 0, 64) | 1 => (2, 0, 10) | 2 => (2, 48, 2) | 3 => (2, 32, 9) | _ => (4, 0, 64)

def doRgnset (s : State) (c : Nat) (k : Cmd) (fld : Nat) : State :=
  let serial := k.aux.getD 1 0
  let sup := k.aux.getD 2 0 == 1
  let rep (s : State) (cause : Nat) : State := qdFree s serial k.seq cause 0
  match resolve s c k.x1 with
  | none => rep s 4
  | some r =>
    if !live s r then rep s 4
    else if !sup && (!inSubtree s (regionOfCtx s c) r || r == regionOfCtx s c) then rep s 5
    else
      let v := k.x2.toNat
      let (old, range, fits) := rgnField s r fld v
      if !range then rep s 1
      else if !fits then rep s 2
      else
        let (i, lo, wd) := rcbPlace fld
        let g := getRegion s r
        let a := g.rcb + 8 * i
        let s1 := setRgnField s r fld v
        let (s2, st) := unitWrite s1 g.home (cellsAt a (leBytes 8 (putField (memNat s.mem a 8) lo wd v))) (appliedAll s)
        qdElem s2 serial k.seq 0 0 0 (w64 old) st

/-! Teardown (05 R139, R140). -/

/-- A task ends: its nest counts it, and what is still on its way of its accesses and of its commands' requests is kept for the
completion update (05 R132, R133). -/
def countTask (s : State) (n : Nat) (c : Nat) (err fail note : Bool) (first : Option (Nat × Nat)) : State :=
  let ids := (s.accs.filter fun x => x.ctx == c && x.kind != .rd).map (·.id) ++ (s.fab.dirs.filter fun d => d.ctx == c && dirOpen d).map (·.id)
  let tags := (s.fab.awaits.filter fun a => a.ctx == c).map (·.tag)
  updNest s n fun x => { x with
    ended := x.ended + 1
    errs := x.errs + (if err then 1 else 0)
    fail := x.fail || fail
    note := x.note || note
    first := if x.first.isNone then first else x.first
    tasksAcc := x.tasksAcc ++ ids
    tasksTag := x.tasksTag ++ tags }

/-- The rings a task owns close when its context leaves EXITING (12 R326). -/
def closeRings (s : State) (serial : Nat) : State :=
  { s with fab := { s.fab with rings := s.fab.rings.filter fun p => p.2.owner != serial } }

/-- Writes and requests of a context that go on without it stand under the ended task's own number; reads go nowhere. -/
def leaveBehind (s : State) (c : Nat) : State :=
  let o := orphan (serialOf s c) c
  let keep := s.accs.filter fun x => !(x.ctx == c && x.kind == .rd)
  let lw := (getCtx s c).lastWrite
  { s with
    accs := keep.map fun x => if x.ctx = c then { x with ctx := o, vec := if x.wseq.isNone then stampMax x.vec lw else x.vec, dest := .none, token := none } else x
    fab := { s.fab with
      dirs := s.fab.dirs.filterMap fun d =>
        if d.ctx = c ∧ d.late.isNone then (if dirSent d then some { d with ctx := o, dest := .none, token := none, slot := none } else none) else some d
      awaits := s.fab.awaits.map fun a => if a.ctx = c then { a with ctx := o } else a } }

/-- Injection of a context's rows stops; rows already injected land, and no element is written (09 R255; 15 R380). The array unit is
free of its commands. -/
def stopRows (s : State) (c : Nat) : State :=
  let now := ccyOf s c
  let cut (m : MxCore) : MxCore := { m with
    rows := m.rows.filter fun r => r.ctx != c || decide (r.inj ≤ now)
    runs := m.runs.filter fun r => r.ctx != c
    free := if m.runs.any fun r => r.ctx == c && !r.comp then min m.free now else m.free
    swap := m.swap.filter fun x => x.1 != c
    plain := mapDel m.plain c }
  updCluster s (clusterOf c) fun x => if coreOf c % 2 = 0 then { x with mx0 := cut x.mx0 } else { x with mx1 := cut x.mx1 }

/-- A context becomes FREE: everything of the task is gone from it; clocks of the context itself stay (06 R147, R161). -/
def freeCtx (s : State) (c : Nat) : State :=
  let serial := serialOf s c
  let a := getArch s c
  let s0 := stopRows (leaveBehind s c) c
  let s1 := updCtx s0 c fun _ => { Ctx.reset with arch := { Arch.reset with seq := a.seq + 1, qseq := [] } }
  let s2 := closeRings { s1 with
    watches := s1.watches.filter fun w => w.ctx != c
    locks := s1.locks.filter fun l => l.ctx != c
    asks := s1.asks.filter fun l => l.ctx != c } serial
  outsideArch (updCore s2 (coreOf c) fun k => { k with
    landings := k.landings.filter fun l => l.ctx != c
    held := k.held.filter fun h => h.ctx != c }) c

/-- The task's withholdings end with it (06 R172). -/
def dropWithheld (s : State) (serial : Nat) : State := { s with withheld := s.withheld.filter fun w => w.serial != serial }
/-- The task of a context ends: its nest counts it, and its context becomes FREE. -/
def endTask (s : State) (c n : Nat) (err fail note : Bool) (first : Option (Nat × Nat)) : State :=
  dropWithheld (freeCtx (countTask s n c err fail note first) c) (serialOf s c)

/-- Records whose LAUNCH has been undone and will not be run again are gone. -/
def dropUnleft (s : State) (c : Nat) : State :=
  let held (n : Nat) : Bool := (getCore s (coreOf c)).held.any fun h => h.eff == .launch n
  { s with nests := s.nests.filter fun p => !(!p.2.left && p.2.launcher == some (c, serialOf s c) && !held p.1) }

/-- The commands of a context that stand where a teardown stops them complete TORN: they are gone, with their locks (05 R139 step
4; 09 R255; 10 R281; 11 R295; 12 R319; 13 R350; 14 R375). -/
def purgeCut (s : State) (c : Nat) : State :=
  if (getCtx s c).cut then
    ((getCtx s c).cmds.filter fun k => cmdStopped s c k || k.held.isSome).foldl (fun t k => dropCmd (dropLocks t c k.q k.seq) c k) s
  else s

/-- A task is cut off: its commands go on to their stopping points and no further. -/
def cutCtx (s : State) (c : Nat) : State := purgeCut (stopRows (updCtx s c fun x => { x with cut := true }) c) c

/-- A running task of a torn region is cancelled: it enters EXITING, what its tokens wait for is discarded, nothing is delivered,
and its commands are cut off (05 R139 steps 3 and 4). -/
def cancelCtx (s : State) (c : Nat) : State :=
  let s1 : State := updCtx s c fun x => { x with
    cancelled := true
    apend := none
    late := []
    res := []
    qdRsv := 0
    flushes := []
    arch := { x.arch with phase := .exiting, park := none, pend := none, tok := 0, block := none, fence := none } }
  let s2 : State := { s1 with
    accs := s1.accs.filter fun x => !(x.ctx == c && x.kind == .rd)
    watches := s1.watches.filter fun w => w.ctx != c
    fab := { s1.fab with dirs := s1.fab.dirs.map fun d => if d.ctx = c ∧ d.late.isNone then { d with dest := .none, token := none, slot := none } else d } }
  let s3 : State := { s2 with accs := s2.accs.map fun x => if x.ctx = c then { x with dest := .none, token := none, slot := none } else x }
  outsideArch (updCore (cutCtx (dropUnleft s3 c) c) (coreOf c) fun k => { k with landings := k.landings.filter fun l => l.ctx != c }) c

/-- A task whose EXIT left it draining is cut off: the elements present count towards its nest as discarded ones (05 R140; 06
R161). -/
def cutExiting (s : State) (c : Nat) : State := cutCtx (updCtx s c fun x => discardAll x c) c

def domainOf (s : State) (c : Nat) : Nat := (getRegion s (regionOfCtx s c)).domain

/-- The stop record of an engine that holds commands of a context (15 R383 kind 2). -/
def engineStop (s : State) (c q cause dom : Nat) (gts : W64) : State :=
  match headCmd s c q with
  | some k => flogAt s gts (unitOfQueue c q) 2 cause dom [w64 (q + k.seq * 2 ^ 16), w64 k.prog, w64 c]
  | none => s

/-- End a halted task, with FAIL (15 R381); FIRST is the fault it raised, where it raised one. -/
def endHalted (s : State) (c : Nat) : State :=
  match (getCtx s c).bind with
  | none => s
  | some b => endTask s c b.nest true true false ((getCtx s c).discFirst.or (some (c, (getCtx s c).fatal.getD 0)))

/-- End a halted task, or have it end when its copy engine has stopped (15 R380, R381). -/
def endStopped (s : State) (c : Nat) : State :=
  match (getCtx s c).skid with
  | some p => updCtx s c fun x => { x with skid := some (p.1, true) }
  | none => endHalted s c

/-- A SAVED task is cancelled without being restored, and its slot frees (05 R139; 15 R381, R388). What its discarded elements
said before the save counts; the unit that reports a cancellation is the Derailleur of the region's home die (DESIGN CHOICE, log
entry 29). -/
def endSaved (s : State) (v : Saved) (fail : Bool) : State :=
  let unit := (0x340 + 8 * (getRegion s v.bind.region).home, 0)
  let s1 := countTask s v.bind.nest 1000 true (fail || v.disc.2.1) v.disc.2.2 (v.discFirst.or (some unit))
  let s2 := dropWithheld (closeRings { s1 with saved := s1.saved.filter fun w => w.bind.serial != v.bind.serial } v.bind.serial) v.bind.serial
  { s2 with mgt := { s2.mgt with svUsed := match v.slot with | some k => s2.mgt.svUsed.filter (· != k) | none => s2.mgt.svUsed } }

def halted (s : State) (r : Nat) : Bool := s.mgt.halted.contains (getRegion s r).domain

/-- A record has been accepted. -/
def accepted (x : Nest) : Bool := match x.place with | .flying _ | .arriving => false | _ => true

/-- The cut: G and its descendants enter TEARING, their records stop, their tasks are cancelled (05 R139 steps 1 to 4); a record
still on its way will find its region not LIVE (05 R140). -/
def teardown (s : State) (r : Nat) : State :=
  let sub := (subtree s r).filter fun i => (getRegion s i).state != .torn
  let s1 := sub.foldl (fun t i => updRegion t i fun g => { g with state := .tearing }) s
  let s2 := s1.nests.foldl (fun t p =>
    if sub.contains p.2.region && !p.2.complete && accepted p.2 then
      updNest t p.1 fun x => { x with torn := true, place := .gone, ready := true }
    else t) s1
  let cs := (s2.ctxs.filter fun p => match p.2.bind with | some b => sub.contains b.region | none => false)
  let live := cs.filter fun p => p.2.arch.phase == .running || p.2.arch.phase == .waiting
  let exiting := cs.filter fun p => p.2.arch.phase == .exiting && !p.2.cut
  let dead := cs.filter fun p => p.2.arch.phase == .halted
  let sv := s2.saved.filter fun v => sub.contains v.bind.region
  let s3 := live.foldl (fun t p => cancelCtx t p.1) s2
  let s4 := exiting.foldl (fun t p => cutExiting t p.1) s3
  let s5 := dead.foldl (fun t p => endStopped t p.1) s4
  let s6 := sv.foldl (fun t v => endSaved t v (halted t v.bind.region)) s5
  updRegion s6 r fun g => { g with tdCount := g.tdCount + live.length + sv.length }

/-- The region is the root of a teardown: an RGNTD or the host named it. -/
def tdNamed (g : Region) : Bool := !g.tdWait.isEmpty || g.hostTd

/-- RGNTD (05 R139, R140, R145): a region that is being torn down only because an ancestor is joins that teardown; any other that
is not LIVE is refused. -/
def doRgntd (s : State) (c : Nat) (k : Cmd) : State :=
  let serial := k.aux.getD 1 0
  match resolve s c k.x1 with
  | none => qdFree s serial k.seq 4 0
  | some r =>
    let g := getRegion s r
    if g.state == .live || g.state == .tearing && !tdNamed g then
      updRegion (if g.state == .live then teardown s r else s) r fun g => { g with tdWait := g.tdWait ++ [(c, serial * 2 ^ 16 + k.seq)] }
    else qdFree s serial k.seq 4 0

end Sys2Proof.Machine
end

