-- ==== Sys2Proof/Machine/DerEvents.lean ====
section
/-!
DEFINITION. Machine/DerEvents.lean: the Derailleur's own steps: accepting records, dispatch and binding, completion updates,
pre-emption for progress, the end of a teardown and of a task, and the waits it answers (spec file 05, R127 to R143; 06,
R161, R168).
-/
namespace Sys2Proof.Machine
open Sys2Proof Host

/-! Accepting records (01 R33, R34; 05 R130). -/

/-- Of two records the one that is accepted first: the earlier arrival, and of arrivals in one cycle the lower source number, the
host's (0x360) above every context's (01 R11, R34). -/
def before (a b : Nest) : Bool :=
  let src (x : Nest) : Nat := match x.launcher with | some (c, _) => c | none => 0x360
  decide (a.arr.toNat < b.arr.toNat) || a.arr == b.arr && decide (src a < src b)

/-- The record on its way to a region's queue that is accepted next, once it has arrived; a host's comes after every earlier host
write has been applied (05 R131). -/
def flyingOf (s : State) (r : Nat) : Option Nat :=
  let l := s.nests.filter fun p => p.2.region == r && !accepted p.2 && p.2.left
  (l.foldl (fun b p => match b with
    | none => some p
    | some q => if before p.2 q.2 then some p else b) none).bind fun p =>
    if decide (p.2.arr.toNat ≤ s.gts.toNat) &&
        (p.2.launcher.isSome || !(s.accs.any fun x => x.ctx == hostCtx && decide (x.id < p.2.relId))) then some p.1 else none

def execLaunchRecordAccept (region : Nat) (s : State) : Outcome State Fault Refusal :=
  .next (match flyingOf s region with
    | some n => landRecord s n
    | none => s)

/-! Restorable saved tasks (05 R138; 06 R178). -/

/-- The records that took a saved task's context have dispatched their last iteration. -/
def aheadOut (s : State) (v : Saved) : Bool :=
  v.ahead.all fun n => match mapFind s.nests n with
    | some x => x.place == .gone
    | none => true

def restorable (s : State) (v : Saved) : Bool :=
  !s.mgt.halted.contains (getRegion s v.bind.region).domain &&
  match v.why with
  | .ctxsv => false
  | .retire => true
  | .progress =>
    match v.park with
    | none => true
    | some k =>
      let late := match k.deadline with
        | some d => decide (d.toNat ≤ s.gts.toNat)
        | none => false
      late || v.reached ||
      match k.kind with
      | .lcwait | .waita => aheadOut s v
      | .gsync => (mapGet .none s.fab.bars k.addr).owed.any fun o => o.1 == v.bind.serial
      | _ => false

/-- A bound context has used the core's planes since its binding (09 R254). -/
def planesTaken (s : State) (core : Nat) : Bool := (mxHalf s core).used.any fun n => (ctxOfSerial s n).any fun c => coreOf c == core

/-- The image at an address holds planes (15 R386). -/
def imageHasPlanes (s : State) (at_ : Nat) : Bool := (memGet s.mem (at_ + 0x27)).getLsbD 0

/-- The context a saved task would be restored to: the home die first, then the lowest number, on a core whose planes are free when
its image holds planes (05 R135; 09 R254); after a retirement the other core of its cluster (06 R178). -/
def restoreCtx (s : State) (v : Saved) : Option (Nat × Nat) :=
  let r := v.bind.region
  let may (c : Nat) : Option (Nat × Nat) :=
    if imageHasPlanes s v.image && planesTaken s (coreOf c) then none else (eligible s r c).map fun w => (c, w)
  let any : Option (Nat × Nat) :=
    let l := (upTo 512).filterMap may
    match l.find? (fun p => dieOf p.1 == (getRegion s r).home) with
    | some p => some p
    | none => l.head?
  match v.why with
  | .retire =>
    let other := v.core / 2 * 2 + (1 - v.core % 2)
    if (getCore s other).retired then any else (upTo 4).findSome? fun j => may (4 * other + j)
  | _ => any

/-- A restorable saved task of at least this class could be restored now: it goes first. -/
def savedFirst (s : State) (cl : Map Nat) (class_ : Nat) : Bool :=
  s.saved.any fun v => restorable s v && decide (class_ ≤ mapGet 0 cl v.bind.nest) && (restoreCtx s v).isSome

/-! Dispatch (05 R127, R128, R135, R137). -/

/-- The records that may be dispatched: in hardware entries, ready, released, with an eligible context. -/
def readyAll (s : State) : List (Nat × Nest) :=
  s.nests.filter fun p => p.2.place == .hw && p.2.ready && released s p.2 && (pickCtx s p.2.region).isSome
/-- Those a die's instance holds. -/
def ready (s : State) (die : Nat) : List (Nat × Nest) := (readyAll s).filter fun p => (getRegion s p.2.region).home == die

/-- A record passed over 1,024 times is to take this context (05 R137). -/
def starvedAt (s : State) (c : Nat) : Bool :=
  (readyAll s).any fun p => decide (1024 ≤ p.2.passed) && (eligible s p.2.region c).isSome

/-- The record to dispatch: one passed over 1,024 times, else the highest class, and among equals the earliest. -/
def choose (cl : Map Nat) (l : List (Nat × Nest)) : Option (Nat × Nest) :=
  let better (a b : Nat × Nest) : Bool :=
    let ca := mapGet 0 cl a.1
    let cb := mapGet 0 cl b.1
    decide (cb < ca) || (ca == cb && decide (a.2.order < b.2.order))
  let pick (l : List (Nat × Nest)) : Option (Nat × Nest) :=
    l.foldl (fun b p => match b with
      | none => some p
      | some q => if better p q then some p else some q) none
  match pick (l.filter fun p => decide (1024 ≤ p.2.passed)) with
  | some p => some p
  | none => pick l

/-- The registers a bound task starts with (05 R128). -/
def startRegs (x : Nest) (idx : List Nat) : Map W64 :=
  mapSet ((upTo 4).foldl (fun m d => match preOf x.recd d with
    | some r => mapSet m r (w64 (idx.getD d 0))
    | none => m) []) 63 (w64 (word x.recd 1))

/-- Bind the next iteration of a nest to a context (05 R128). -/
def bindTask (s : State) (n : Nat) (x : Nest) (c w : Nat) : State :=
  let g := getRegion s x.region
  let idx := iterIdx x.recd x.next
  let a : Arch := { Arch.reset with
    phase := .running
    pc := w64 (word x.recd 0 % 2 ^ 41)
    mode := g.supv
    sreg := startRegs x idx
    base := stampMax x.rel x.depVec
    seq := (getArch s c).seq }
  let b : Bind := ⟨x.region, n, idx, s.serial + 1, w, g.spb, g.supv, g.root⟩
  outsideArch { (updCtx s c fun _ => { Ctx.reset with arch := a, bind := some b }) with serial := s.serial + 1 } c

/-- The nest's next iteration has been bound, in the state s0 before: its entry frees after the last one, and the ready records of
lower class that could have taken the context, on any die, count that they were passed over (05 R137). -/
def afterBind (s0 s : State) (cl : Map Nat) (n : Nat) (x : Nest) (c : Nat) : State :=
  let last := x.next + 1 == tripTotal x.recd
  let s1 := updNest s n fun y => { y with next := y.next + 1, passed := 0, place := if last then .gone else y.place }
  let s2 := (readyAll s0).foldl (fun t p =>
    if p.1 != n && decide (mapGet 0 cl p.1 < mapGet 0 cl n) && (eligible s0 p.2.region c).isSome then
      updNest t p.1 fun y => { y with passed := y.passed + 1 }
    else t) s1
  settleQueue s2 x.region

/-- One dispatch of a die's instance: the chosen record takes its context, unless a saved task goes first, or the context is due to
a record passed over (05 R135 to R138). -/
def execDispatch (die : Nat) (s : State) : Outcome State Fault Refusal :=
  .next (
    let cl := classes s
    match choose cl (ready s die) with
    | none => s
    | some (n, x) =>
      let due := decide (1024 ≤ x.passed)
      if s.mgt.stage != 4 || !due && savedFirst s cl (mapGet 0 cl n) then s
      else
        match pickCtx s x.region with
        | none => s
        | some (c, w) => if !due && starvedAt s c then s else afterBind s (bindTask s n x c w) cl n x c)

/-! Completion (05 R132, R133, R142). -/

/-- The counter after one completion (05 R132). -/
def counterAfter (w st e : Nat) : Nat :=
  max (w / 2 ^ 60) st * 2 ^ 60 + min (bitsOf w 59 32 + e) (2 ^ 28 - 1) * 2 ^ 32 + (w + 1) % 2 ^ 32

/-- The nest is marked complete, and is remembered until 16 later ones of its region have completed (05 R144). -/
def retireNest (s : State) (n st : Nat) : State :=
  match mapFind s.nests n with
  | none => s
  | some x =>
    let s1 := updNest s n fun y => { y with complete := true, updated := true, stat := st }
    let l := (getRegion s x.region).done16 ++ [n]
    let drop := l.take (l.length - 16)
    let s2 := updRegion s1 x.region fun g => { g with done16 := l.drop (l.length - 16) }
    let s3 := if st = 2 then bumpCnt s2 x.region 6 else s2
    { s3 with nests := s3.nests.filter fun p => !drop.contains p.1 }

/-- Where the update goes: no counter, a counter that does not translate, or a word. -/
inductive DoneWord where
  | none
  | bad
  | at (pa : Nat)
  deriving DecidableEq, Repr

def doneWord (s : State) (x : Nest) : DoneWord :=
  if !cntValid x.recd 0 then .none
  else match counterAt s x.region (cntAddr x.recd 0) with
    | some pa => .at pa
    | Option.none => .bad

/-- Deliver LAUNCH.NTFY's element. -/
def notify (s : State) (x : Nest) (st : Nat) : State :=
  match x.launcher with
  | some (_, serial) => if x.ntfy then qdElem s serial x.seq st 0 x.ticket (w64 x.ended) else s
  | none => s

/-- Report a DONE counter that does not translate (05 R133; 15 R383 kind 6). -/
def reportUntranslatable (s : State) (x : Nest) : State :=
  let g := getRegion s x.region
  flogRecord (bumpCnt s x.region 4) (0x340 + 8 * g.home) 6 0 g.domain [w64 (handleOf s x.region), w64 x.ticket]

/-- Every write of the ended tasks and of their commands has been applied and acknowledged (05 R132). -/
def tasksQuiet (s : State) (x : Nest) : Bool :=
  (x.tasksAcc.all fun i => !(s.accs.any fun a => a.id == i) && !(s.fab.dirs.any fun d => dirSent d && d.id == i)) &&
  x.tasksTag.all fun t => !(s.fab.awaits.any fun a => a.tag == t)

def execNestCompletionUpdate (nest : Nat) (s : State) : Outcome State Fault Refusal :=
  .next (match mapFind s.nests nest with
    | none => s
    | some x =>
      if !nestDone x || !tasksQuiet s x then s
      else
        match doneWord s x with
        | .none =>
          let st := nestStat s x
          notify (retireNest s nest st) x st
        | .bad => notify (retireNest (reportUntranslatable s x) nest 3) x 3
        | .at pa =>
          if holdsWrite s ((upTo 8).map fun i => pa + i) then s
          else
            let st := nestStat s x
            let s1 := retireNest s nest st
            let (s2, _) := unitWrite s1 (getRegion s x.region).home
              (cellsAt pa (leBytes 8 (counterAfter (memNat s.mem pa 8) st x.errs))) (appliedAll s)
            notify (cntIrq s2 pa) x st)

/-! Pre-emption for progress (05 R138). -/

/-- The contexts a region could use: in its mask, and within every full ancestor's own tasks. -/
def usable (s : State) (r : Nat) : List Nat :=
  let full := (chain s r).filter fun a => decide ((getRegion s a).ctx ≤ boundCount s a)
  (upTo 512).filter fun c =>
    (getRegion s r).cmask.getLsbD (clusterOf c) && !(getCore s (coreOf c)).retired &&
    (full.isEmpty || (match (getCtx s c).bind with
      | some b => full.all fun a => inSubtree s a b.region
      | none => false))

/-- The task of a context waits, and launched nest n or waits on it. -/
def holdsUp (s : State) (n : Nat) (x : Nest) (c : Nat) : Bool :=
  match (getCtx s c).bind with
  | none => false
  | some b => (getArch s c).phase == .waiting &&
      ((match x.launcher with | some (_, sr) => sr == b.serial | none => false) ||
       ((waits s).any fun w => w.ctx == c && (closeUp s s.nests.length (directedAt s w)).contains n))

/-- A ready record that only waiting tasks keep from running, with those tasks. -/
def stuck (s : State) : Option (Nat × List Nat) :=
  s.nests.findSome? fun p =>
    if p.2.place == .hw && p.2.ready && released s p.2 && (pickCtx s p.2.region).isNone then
      let u := usable s p.2.region
      if !u.isEmpty && u.all (holdsUp s p.1 p.2) then some (p.1, u) else none
    else none

/-- The lowest free slot of the save pool (15 R388). -/
def freeSlot (s : State) : Option Nat := (upTo s.mgt.svSlots).find? fun k => !s.mgt.svUsed.contains k

/-- The victim: the lowest current class, then the highest number. -/
def victim (s : State) (cl : Map Nat) (l : List Nat) : Option Nat :=
  l.foldl (fun b c => match b with
    | none => some c
    | some d => if classOfCtx s cl c ≤ classOfCtx s cl d then some c else some d) none

/-- Who asked for a save: the Derailleur, or a task by CTXSV. -/
def byProgress : Nat := 0
def byRetire : Nat := 1
def byTask (serial : Nat) : Nat := 2 + serial

def execProgressPreempt (s : State) : Outcome State Fault Refusal :=
  .next (match stuck s, freeSlot s with
    | some (n, u), some k =>
      match victim s (classes s) u with
      | some c =>
        if s.saveReqs.any (fun q => q.ctx == c) || s.mgt.halted.contains (getRegion s (regionOfCtx s c)).domain then s
        else
          let s1 := bumpCnt s (regionOfCtx s c) 5
          { s1 with
            saveReqs := s1.saveReqs ++ [⟨c, byProgress, n, w64 (s1.mgt.svBase + k * 2 ^ 24), s1.gts, ccyOf s1 c, some k, (getArch s1 c).seq⟩]
            mgt := { s1.mgt with svUsed := s1.mgt.svUsed ++ [k] } }
      | none => s
    | _, _ => s)

/-! The end of a teardown (05 R139 step 6, R140). -/

/-- Everything of the subtree has ended. -/
def tornDown (s : State) (sub : List Nat) : Bool :=
  (s.nests.all fun p => !sub.contains p.2.region || p.2.updated) &&
  (s.ctxs.all fun p => match p.2.bind with | some b => !sub.contains b.region | none => true) &&
  (s.saved.all fun v => !sub.contains v.bind.region)

/-- Deliver the elements of the RGNTDs that wait for these regions. -/
def reportTorn (s : State) (sub : List Nat) (count : Nat) : State :=
  sub.foldl (fun t r => (getRegion s r).tdWait.foldl (fun t p => qdElem t (p.2 / 2 ^ 16) (p.2 % 2 ^ 16) 0 0 0 (w64 count)) t) s

/-- A region index becomes free, its GEN one higher (05 R122, R139). -/
def freeRegion (s : State) (r : Nat) : State :=
  { (updRegion s r fun g => { Region.none with gen := g.gen + 1 }) with nests := s.nests.filter fun p => p.2.region != r }

/-- Everything of a subtree has ended: its quota returns, its regions become TORN and the teardown is reported. -/
def becomeTorn (s : State) (region : Nat) : State :=
  let g := getRegion s region
  let sub := (subtree s region).filter fun r => (getRegion s r).state == .tearing
  let count := (sub.map fun r => (getRegion s r).tdCount).foldl (· + ·) 0
  let s1 := reportTorn s sub count
  let s2 := if g.parent = 0 then s1 else updRegion s1 g.parent fun p => { p with quotaLeft := p.quotaLeft + g.cquota }
  let s3 := if sub.any (fun r => (getRegion s r).hostTd) then
      match s2.mgt.mbWait with
      | some (5, tag, _) => mbFinish s2 0 0 tag 5 [w64 count]
      | _ => s2
    else s2
  sub.foldl (fun t r => updRegion t r fun g => { g with state := .torn, tdWait := [], tdCount := count, hostTd := false }) s3

/-- Teardown completes: the subtree becomes TORN (05 R139 step 6); after that each index becomes free, a child's before its
parent's (05 R123). -/
def execRegionTeardownComplete (region : Nat) (s : State) : Outcome State Fault Refusal :=
  .next (
    let g := getRegion s region
    match g.state with
    | .tearing =>
      if g.parent != 0 && (getRegion s g.parent).state == .tearing || !tornDown s (subtree s region) then s else becomeTorn s region
    | .torn => if s.regions.any fun p => p.2.parent == region && p.2.state != .free then s else freeRegion s region
    | _ => s)

/-! The end of a task (06 R161). -/

/-- The conditions for an EXITING context to become FREE. -/
def drained (s : State) (c : Nat) : Bool :=
  let x := getCtx s c
  x.arch.phase == .exiting && x.arch.fx.isEmpty && x.arch.tok == 0 && x.arch.block.isNone && x.cmds.isEmpty
    && !((getCore s (coreOf c)).held.any fun h => h.ctx == c) && !((getCore s (coreOf c)).landings.any fun l => l.ctx == c)
    && !(s.fab.awaits.any fun a => a.ctx == c) && !(s.fab.dirs.any fun d => d.ctx == c && d.late.isNone) && !(s.restoreReqs.any fun q => q.1 == c)
    && (upTo 2).all (fun h =>
      let m := if h = 0 then (getCluster s (clusterOf c)).mx0 else (getCluster s (clusterOf c)).mx1
      !(m.rows.any fun r => r.ctx == c) && !(m.runs.any fun r => r.ctx == c))

/-- An EXITING context discards its elements and, once it has drained, becomes FREE: its task has ended. -/
def execExitDrainComplete (ctx : Nat) (s : State) : Outcome State Fault Refusal :=
  .next (
    let s0 := purgeCut (updCtx s ctx fun x => if x.arch.phase == .exiting then discardAll x ctx else x) ctx
    if !drained s0 ctx then s0
    else
      let x := getCtx s0 ctx
      match x.bind with
      | none => freeCtx s0 ctx
      | some b =>
        let err := x.cancelled || x.discFail
        endTask s0 ctx b.nest err x.discFail x.discNote (if x.cancelled then x.discFirst.or (some (ctx, 0)) else x.discFirst))

/-! Waits (05 R143; 06 R168). -/

/-- GTS has reached a parked word's deadline. -/
def pastDeadline (s : State) (k : Park) : Bool :=
  match k.deadline with
  | some d => decide (d.toNat ≤ s.gts.toNat)
  | none => false

def execWaitgWake (ctx : Nat) (s : State) : Outcome State Fault Refusal :=
  .next (heldStop s ctx .waitgWake fun s => match (getArch s ctx).park with
    | some k =>
      let early := match (getCtx s ctx).gtsFloor with
        | some v => decide (s.gts.toNat ≤ v.toNat)
        | none => false
      if k.kind == .waitg && pastDeadline s k && !early then
        finishWait (updCtx s ctx fun y => { y with gtsFloor := none, arch := { y.arch with lastGts := s.gts } }) ctx k.dest s.gts none
      else s
    | none => s)

/-- An NWAIT reads its counter again: a strong read (05 R143). -/
def nwaitRead (s : State) (c : Nat) (late : Bool) : State :=
  match (getArch s c).park with
  | some k =>
    let addrs := (upTo 8).map fun i => k.addr + i
    if k.kind != .nwait || holdsRead s addrs || (late && !pastDeadline s k) then s
    else if poisoned s addrs then contextFatal s c 2 (w64 k.addr)
    else
      let w := memNat s.mem k.addr 8
      if late || decide (k.target.toNat % 2 ^ 32 ≤ w % 2 ^ 32) then
        finishWait (baseLive s c) c k.dest (w64 w) (some (stampAt s k.addr 8))
      else s
  | none => s

def execNwaitRecheck (ctx : Nat) (s : State) : Outcome State Fault Refusal := .next (heldStop s ctx .nwaitRecheck fun s => nwaitRead s ctx false)
def execNwaitDeadline (ctx : Nat) (s : State) : Outcome State Fault Refusal := .next (heldStop s ctx .nwaitDeadline fun s => nwaitRead s ctx true)

end Sys2Proof.Machine
end

