-- ==== Sys2Proof/Machine/CopyEvents.lean ====
section
/-!
DEFINITION. Machine/CopyEvents.lean: the copy engine's own steps: starting commands and firings, their blocks, promises,
failures and holds, gates and the ends of LCWAIT (spec file 10, R264, R270 to R281).
-/
namespace Sys2Proof.Machine
open Sys2Proof Host

/-! Blocks (10 R264). The same steps carry the fabric's bulk transfers (12 R319). -/

def srcBase (k : Cmd) : W64 := k.x3 + k.x4
def dstBase (k : Cmd) : W64 := k.x1 + k.x2
def srcOf (k : Cmd) (n : Nat) : W64 := copySrc k.instr (srcBase k) k.desc k.list n
def dstOf (k : Cmd) (n : Nat) : W64 := copyDst k.instr (dstBase k) k.desc k.list n
def isFill (k : Cmd) : Bool := match k.instr with | .cfil _ => true | _ => false

/-- The elements of the block that starts at element p: those of one aligned 4,096-byte range of destination bytes, taken
in walk order; for CTRN one (i2, i3) plane. -/
def blockOf (k : Cmd) (p : Nat) : List Nat :=
  let rest := (upTo (dTotal k.desc - p)).map (p + ·)
  match k.instr with
  | .ctrn _ =>
    let n := dTrip k.desc 0 * dTrip k.desc 1
    rest.takeWhile fun i => i / n == p / n
  | _ => rest.takeWhile fun i => (dstOf k i).toNat / 4096 == (dstOf k p).toNat / 4096

def elemSize (k : Cmd) : Nat := 2 ^ dEsize k.desc

/-- Where a base address lies (10 R263). -/
inductive Place where
  | remote | scratch | commons | global | host
  deriving DecidableEq, Repr

def placeOf (s : State) (c : Nat) (a : W64) : Place :=
  if 2 ^ 63 ≤ a.toNat then .remote
  else if a.toNat < 0x200000 then .scratch
  else match classOf (cmdPa s c a.toNat) with
    | some .commons => .commons
    | some .host => .host
    | _ => .global

/-- The pattern CFIL writes to one element (10 R268). -/
def fillBytes (k : Cmd) : List Byte := (upTo (elemSize k)).map fun i => BitVec.ofNat 8 (k.x3.toNat / 2 ^ (8 * (i % 8)))

/-- What reading a block's sources gives: its bytes with the stamps observed, an agent to wait for, or a failure. -/
inductive BlockRead where
  | data (bs : List Byte) (st : Stamp)
  | wait (s : State) (k : Cmd)
  | fail (cause : Nat)

/-- Read the sources of a block: local bytes at their homes, host bytes as the completion brings them, remote bytes by a
request. An uncorrectable source in a protected region waits for its repair (07 R189). -/
def readBlock (s : State) (c : Nat) (k : Cmd) (lane : Nat) (l : List Nat) (bad late : Bool) (host : List Byte) : BlockRead :=
  let n := elemSize k
  let rd := l.map fun i => (srcOf k i, n)
  if isFill k then .data (l.flatMap fun _ => fillBytes k) zeroStamp
  else
    match placeOf s c (srcBase k) with
    | .remote =>
      let peer := peerOf (srcBase k)
      if !reachable s peer then .fail 2
      else if !portClear s c lane k then .wait s k
      else
        let (s1, tag) := sendAwait s c k peer lane .get 0 (rd.map fun p => (offOf p.1, p.2)) []
        .wait s1 { k with aux := [1, tag] }
    | .host =>
      if late then .fail 4 else if host.length = n * l.length then .data host zeroStamp else .wait s k
    | _ =>
      if engHeld s c rd [] then .wait s k
      else if bad || engBad s c rd then
        if rd.any fun p => let (sp, q) := localBytes s c p.1 p.2; !sp && q.any fun a => repairable s a then
          .wait (if bad then engMark s c rd else s) k
        else .fail 1
      else
        let r := rd.foldl (fun r p => let (b, st) := engRead s c p.1 p.2; (r.1 ++ b, stampMax r.2 st)) ([], zeroStamp)
        .data r.1 r.2

/-- What reading a block at its homes leaves behind: cache lines, and a source found uncorrectable. -/
def blockSeen (s : State) (c : Nat) (k : Cmd) (l : List Nat) (failed : Bool) : State :=
  match isFill k, placeOf s c (srcBase k) with
  | true, _ | _, .remote | _, .host => s
  | _, _ =>
    let rd := l.map fun i => (srcOf k i, elemSize k)
    if failed then engMark s c rd else engLines s c k rd

/-- The writes of a block. -/
def blockCells (k : Cmd) (l : List Nat) (bs : List Byte) : List (W64 × List Byte) :=
  (l.zip (upTo l.length)).map fun p => (dstOf k p.1, (bs.drop (elemSize k * p.2)).take (elemSize k))

/-- A block has been applied: PROG moves on and the landing counter counts its bytes. -/
def blockLanded (s : State) (c : Nat) (k : Cmd) (l : List Nat) (localLc : Bool) : State :=
  let k1 := { k with prog := k.prog + l.length, aux := [] }
  if dLcen k.desc && localLc then
    let (s1, err) := lcArrive s (spAddr s c (dField k.desc 14)) (elemSize k * l.length)
    match (cmdsOf s1 c k.q).find? (fun y => y.seq == k.seq) with
    | some y => setCmd s1 c { k1 with flags := if err then k1.flags ||| 2 else k1.flags, base := y.base }
    | none => s1
  else setCmd s c k1

/-! Elements (10 R270 to R272). -/

def copyInfo (k : Cmd) (prm late : Bool) : Nat := (if prm then 2 ^ 31 else 0) + (if late then 2 ^ 30 else 0) + k.fired % 2 ^ 16

/-- A promise is missed: the trap, or the count and the note (10 R272). -/
def missNow (s : State) (c : Nat) (k : Cmd) : State :=
  let x := getCtx s c
  let trap := x.cpctl.getLsbD 0 && (x.arch.phase == .running || x.arch.phase == .waiting)
  let s1 := setCmd s c { k with missed := true, flags := if trap then k.flags else k.flags ||| 1 }
  if trap then asyncTrap s1 c 0x0C 0 (w64 (k.promise.toNat % 2 ^ 32 * 2 ^ 32 + k.seq % 2 ^ 16 * 2 ^ 16 + k.fired % 2 ^ 16))
  else updCtx s1 c fun x => { x with cpmiss := x.cpmiss + 1 }

/-- The promise has passed and its miss is not yet taken. -/
def missDue (s : State) (k : Cmd) : Bool :=
  k.promise != 0 && !k.missed && (k.held.isNone || k.err != 0) && decide (k.promise.toNat < s.gts.toNat)

/-- A data command is complete. -/
def copyComplete (s : State) (c : Nat) (k : Cmd) : State :=
  let s1 := if missDue s k then missNow s c k else s
  match (cmdsOf s1 c k.q).find? (fun y => y.seq == k.seq) with
  | none => s1
  | some k1 =>
    let note := if k1.flags.getLsbD 0 then 1 else if k1.flags.getLsbD 1 then 2 else 0
    finishFire (dropLocks s1 c k.q k.seq) c k1 (if note = 0 then 0 else 1) note (copyInfo k1 false k1.missed) s.gts

/-- A command as the queue holds it now. -/
def cmdNow (s : State) (c : Nat) (k : Cmd) : Cmd := ((cmdsOf s c k.q).find? fun y => y.seq == k.seq).getD k

/-- A command fails (10 R280): a promise it has passed is missed (R272); it holds its queue and traps, or the queue is flushed. -/
def copyFail (s : State) (c : Nat) (k : Cmd) (cause : Nat) : State :=
  if (getArch s c).phase = .halted then setCmd s c { k with aux := [] }
  else
  let sm := if missDue s k then missNow s c k else s
  let k := if missDue s k then { k with missed := true, flags := (cmdNow sm c k).flags } else k
  let s0 := dropLocks sm c k.q k.seq
  let x := getCtx s c
  let info := copyInfo k false k.missed
  let val := w64 (k.prog % 2 ^ 32)
  if x.cpctl.getLsbD 1 && (x.arch.phase == .running || x.arch.phase == .waiting) then
    let e : Elem := ⟨2, statWord 3 cause k.seq info, val, k.stamp, ccyOf s c⟩
    let k1 := { k with started := false, aux := [] }
    let s1 := if (resOf s c 2).length < 16 then putElem (setCmd s0 c k1) c e else setCmd s0 c { k1 with held := some e, err := 1 }
    let s2 := updCtx s1 c fun x => { x with cphold := w64 (k.seq % 2 ^ 16 * 2 ^ 32) ||| (x.cphold &&& 2) ||| 1 }
    asyncTrap s2 c 0x11 cause (w64 (2 + k.seq % 2 ^ 16 * 2 ^ 16))
  else
    let s1 := match headGate s0 c 2 with
      | some g => if k.gateOpen then dropCmd s0 c g else s0
      | none => s0
    failCmd s1 c { k with gateOpen := false } cause info val

/-! Starting (10 R271; 01 R16). -/

/-- Granules read or written per run of dimension 0, summed; the larger total is G. -/
def granuleCount (k : Cmd) : Nat :=
  let t0 := dTrip k.desc 0
  let runs := if t0 = 0 then 0 else dTotal k.desc / t0
  let count (at_ : Nat → W64) : Nat :=
    (upTo runs).foldl (fun n j => n + (((upTo t0).map fun i => (at_ (j * t0 + i)).toNat / 64).eraseDups).length) 0
  max (if isFill k then 0 else count (srcOf k)) (count (dstOf k))

def placeNs : Place → Nat
  | .scratch => 16 | .commons => 160 | .global => 480 | .remote => 20000 | .host => 50000

/-- The promised GTS (10 R271). -/
def promiseAt (s : State) (c : Nat) (k : Cmd) : Nat :=
  let cy := 2 * (24 + (granuleCount k + 3) / 4)
  let pct := (getCluster s (clusterOf c)).curPct.toNat
  s.gts.toNat + (cy * 100 + pct - 1) / pct + (if isFill k then 0 else placeNs (placeOf s c (srcBase k))) + placeNs (placeOf s c (dstBase k))

/-- The scratchpad bytes a command reads and writes. -/
def copyRd (s : State) (c : Nat) (k : Cmd) : List Nat :=
  if isFill k ∨ 0x200000 ≤ (srcBase k).toNat then []
  else (upTo (dTotal k.desc)).flatMap fun i => (localBytes s c (srcOf k i) (elemSize k)).2
def copyWr (s : State) (c : Nat) (k : Cmd) : List Nat :=
  if 0x200000 ≤ (dstBase k).toNat then []
  else (upTo (dTotal k.desc)).flatMap fun i => (localBytes s c (dstOf k i) (elemSize k)).2

def ctxsOf (cluster : Nat) : List Nat := (upTo 8).map fun j => 8 * cluster + j
def cpHeld (s : State) (c : Nat) : Bool := (getCtx s c).cphold.getLsbD 0

/-- The data command the engine is executing. -/
def executing (s : State) (cluster : Nat) : Option (Nat × Cmd) :=
  (ctxsOf cluster).findSome? fun c => ((cmdsOf s c 2).find? fun k => k.started && k.held.isNone && engineMay s c k).map fun k => (c, k)

/-- The engine may start this context's next command, its locks apart. -/
def copyAsks (s : State) (c : Nat) : Option Cmd :=
  (execHead s c 2).filter fun k =>
    cmdReady s c k && !k.started && engineMay s c k && !(getCluster s (clusterOf c)).stopped && !cpHeld s c && !(cmdsOf s c 2).any (fun y => y.held.isSome)
def copyStartable (s : State) (c : Nat) : Option Cmd :=
  (copyAsks s c).filter fun k => lockFree s (coreOf c) c 2 k.seq (copyRd s c k) (copyWr s c k)

/-- Start a command or a firing: its locks, its promise and its promise element. An entry that is itself a gate fails. -/
def copyStart (s : State) (c : Nat) (k : Cmd) : State :=
  if isGate k then copyFail s c k 5
  else
    let first := k.promise == 0
    let k1 := { k with started := true, promise := if first then w64 (promiseAt s c k) else k.promise }
    let s1 := takeLocks (setCmd s c k1) (coreOf c) c 2 k.seq (copyRd s c k) (copyWr s c k)
    if first && !(match k.instr with
        | .cpy f | .cpyg f | .cpys f | .cfil f | .ctrn f => modBit f 80
        | _ => true) then
      putElem s1 c ⟨2, statWord 0 0 k.seq (copyInfo k1 true false), k1.promise, zeroStamp, ccyOf s c⟩
    else s1

/-- The contexts whose next command finds its granules locked ask for them (02 R63). -/
def copyAsk (s : State) (cluster : Nat) : State :=
  (ctxsOf cluster).foldl (fun t c => match copyAsks s c, copyStartable s c with
    | some k, none => askLocks t (coreOf c) c 2 k.seq (copyRd s c k) (copyWr s c k)
    | _, _ => t) s

def execCopyCommandStart (cluster : Nat) (s0 : State) : Outcome State Fault Refusal :=
  .next (
    let s := copyAsk s0 cluster
    if (executing s cluster).isSome then s0
    else
      let l := (ctxsOf cluster).filter fun c => (copyStartable s c).isSome
      match rrPick s (classes s) (getCluster s cluster).rrCopy l with
      | some c =>
        match copyStartable s c with
        | some k => copyStart (updCluster s cluster fun x => { x with rrCopy := c }) c k
        | none => s
      | none => s)

/-- The ordering lane of a data command (10 R265). -/
def laneOf (k : Cmd) : Nat :=
  match k.instr with
  | .cpy f | .cpyg f | .cpys f | .cfil f | .ctrn f | .rput f | .rget f | .mcast f => modBits f 82 81
  | _ => 0

/-- The destination of a block: its writes at their homes, or by a request to a peer. Data held back waits in aux. -/
def writeBlock (s : State) (c lc : Nat) (k : Cmd) (l : List Nat) (bs : List Byte) (fail : State → Nat → Cmd → Nat → State) : State :=
  let cells := blockCells k l bs
  match placeOf s c (dstBase k) with
  | .remote =>
    let peer := peerOf (dstBase k)
    if !reachable s peer then fail s c k 2
    else if !portClear s c (laneOf k) k then setCmd s c { k with aux := 2 :: bs.map (·.toNat) }
    else
      let (s1, tag) := sendAwait s c k peer (laneOf k) .put lc (cells.map fun p => (offOf p.1, p.2.length)) bs
      setCmd s1 c { k with aux := [3, tag] }
  | _ =>
    if engHeld s c [] (cells.map fun p => (p.1, p.2.length)) then setCmd s c { k with aux := 2 :: bs.map (·.toNat) }
    else
      let (s1, st) := engWrite s c k cells
      blockLanded s1 c { k with stamp := stampMax k.stamp st } l true

/-- One step of an executing command: it completes, reads a block and writes it, or goes on when a peer has answered. -/
def copyStep (s : State) (c : Nat) (k : Cmd) (bad late : Bool) (host : List Byte) : State :=
  if dTotal k.desc ≤ k.prog then copyComplete s c k
  else
    let l := blockOf k k.prog
    match k.aux with
    | [] =>
      match readBlock s c k (laneOf k) l bad late host with
      | .fail cause => copyFail (if bad && cause == 1 then blockSeen s c k l true else s) c k cause
      | .wait s1 k1 => setCmd s1 c k1
      | .data bs st => writeBlock (blockSeen s c k l false) c 0 { k with stamp := stampMax k.stamp st } l bs copyFail
    | 2 :: bs => writeBlock s c 0 k l (bs.map (BitVec.ofNat 8)) copyFail
    | [4] => blockLanded s c k l true
    | [5, cause] => copyFail s c k cause
    | _ => s

/-- A halted context's copy engine has finished its block: its locks end, its stop record is written, and the task ends where its
domain has been released (15 R380, R381). -/
def skidEnd (s : State) (c : Nat) : State :=
  match (getCtx s c).skid with
  | some (cause, ends) =>
    if (cmdsOf s c 2).any fun k => !cmdStopped s c k then s
    else
      let s1 := updCtx { s with locks := s.locks.filter fun l => l.ctx != c } c fun x => { x with skid := none }
      let s2 := engineStop s1 c 2 cause (domainOf s c) s.gts
      if ends then endHalted s2 c else s2
  | none => s

/-- While the cluster's clock is stopped the engine holds its state (16 R402). -/
def execCopyBlock (cluster : Nat) (bad late : Bool) (host : List Byte) (s : State) : Outcome State Fault Refusal :=
  .next (if (getCluster s cluster).stopped then s
    else match executing s cluster with
      | some (c, k) => skidEnd (copyStep s c k bad late host) c
      | none => s)

/-! Missed promises (10 R272). -/

def execMissedPromise (ctx seq : Nat) (s : State) : Outcome State Fault Refusal :=
  .next (heldStop s ctx (.missed seq) fun s =>
    match (cmdsOf s ctx 2).find? (fun k => k.seq == seq) with
    | some k => if missDue s k && engineMay s ctx k && (getArch s ctx).phase != .halted then missNow s ctx k else s
    | none => s)

/-! Gates (10 R278, R279). -/

def execGateHead (ctx q : Nat) (s : State) : Outcome State Fault Refusal :=
  .next (match headGate s ctx q with
    | some g => if !g.gateOpen && engineMay s ctx g then openGate s ctx g else s
    | none => s)

def execGateFiring (ctx q : Nat) (s : State) : Outcome State Fault Refusal :=
  .next (match cmdsOf s ctx q with
    | g :: e :: _ =>
      if isGate g && g.gateOpen && decide (0 < g.gateF) && !e.gateOpen && e.held.isNone && engineMay s ctx e then
        setCmd s ctx { e with gateOpen := true }
      else s
    | _ => s)

/-! The hold of qc (10 R273, R280). -/

/-- The held entry is abandoned: it leaves with its gate, once its element has found room, and every later entry completes
FLAGGED. -/
def abandon (s : State) (c seq : Nat) : State :=
  let rest := (cmdsOf s c 2).dropWhile fun k => k.seq != seq
  let later := rest.drop 1
  let waits : List Cmd := (rest.take 1).filterMap fun k => if k.held.isSome then some { k with err := 0, gateOpen := false } else none
  let s1 := updCtx s c fun x => { x with cmds := waits ++ x.cmds.filter fun k => k.q != 2 || later.contains k }
  later.foldl (fun t k => finishFree t c k 4 0 0) s1

/-- A write of CPHOLD: writing 1 to HELD releases the hold with the ABANDON value written. -/
def cpholdWrite (s : State) (c : Nat) (x : W64) : State :=
  let old := (getCtx s c).cphold
  if x.getLsbD 0 && old.getLsbD 0 then
    let s1 := updCtx s c fun y => { y with cphold := 0 }
    if x.getLsbD 1 then abandon s1 c (bitsOf old.toNat 47 32) else s1
  else updCtx s c fun y => { y with cphold := (old &&& ~~~2#64) ||| (x &&& 2) }

def execCpholdResume (ctx : Nat) (s : State) : Outcome State Fault Refusal := .next (if cpHeld s ctx then cpholdWrite s ctx 1 else s)
def execCpholdAbandon (ctx : Nat) (s : State) : Outcome State Fault Refusal := .next (if cpHeld s ctx then cpholdWrite s ctx 3 else s)

/-! The ends of LCWAIT (10 R277). -/

def lcWake (s : State) (c : Nat) (late : Bool) : State :=
  match (getArch s c).park with
  | some k =>
    if k.kind == .lcwait && (if late then pastDeadline s k else lcPhase (spNat s k.addr 8) != k.target.getLsbD 0)
        && !spLocked s (coreOf c) ((upTo 8).map fun i => k.addr + i) false
    then lcDone s c k.dest k.addr else s
  | none => s

def execLcwaitRecheck (ctx : Nat) (s : State) : Outcome State Fault Refusal := .next (heldStop s ctx .lcwaitRecheck fun s => lcWake s ctx false)
def execLcwaitDeadline (ctx : Nat) (s : State) : Outcome State Fault Refusal := .next (heldStop s ctx .lcwaitDeadline fun s => lcWake s ctx true)

end Sys2Proof.Machine
end

