-- ==== Sys2Proof/Machine/Commons.lean ====
section
/-!
DEFINITION. Machine/Commons.lean: the Commons' words, the bank units' commands, watches and repartition (spec file 11,
R283 to R300).
-/
namespace Sys2Proof.Machine
open Sys2Proof Host

/-! Combining and identities (11 R294). -/

/-- An element type of a Commons or fabric reduction: its width in bits, and how bits read as numbers. -/
inductive RedTy where
  | int (signed : Bool) (n : Nat)
  | flt (f : Fmt)
  | fx
  deriving DecidableEq, Repr

/-- The Commons types by code; the default is .I32. -/
def comTy (code : Nat) : RedTy :=
  match code with
  | 0x0C => .int false 32 | 0x05 => .int true 64 | 0x0D => .int false 64 | 0x10 => .flt .f32 | 0x06 => .fx
  | _ => .int true 32
/-- The op field: 00 .ADD, 01 .MAX, 10 .MIN. -/
def redOpOf (n : Nat) : RedOp := match n with | 0 => .add | 1 => .max | _ => .min

def redBytes : RedTy → Nat
  | .int _ n => n / 8
  | .flt f => fmtW f / 8
  | .fx => 8

/-- One combination of two elements, as bits, with its flags. -/
def combine (t : RedTy) (op : RedOp) (sat : Bool) (x y : Nat) : Nat × Flags :=
  match t with
  | .flt f =>
    let a := fvOfBits f x
    let b := fvOfBits f y
    let (v, f1) := match op with
      | .add => fvAdd .rne a b
      | .max => (fvMax a b, 0)
      | .min => (fvMin a b, 0)
    let r := fvToFmt f .rne .inf v
    (r.bits, r.flags ||| f1)
  | .fx =>
    let a := intOfBits true 64 x
    let b := intOfBits true 64 y
    (intBits 64 (match op with | .add => a + b | .max => max a b | .min => min a b), 0)
  | .int sg n =>
    let a := intOfBits sg n x
    let b := intOfBits sg n y
    let z := match op with | .add => a + b | .max => max a b | .min => min a b
    if sat && (decide (z < intMin sg n) || decide (intMax sg n < z)) then (intBits n (intClamp sg n z), flIO)
    else (intBits n z, 0)

/-- The identity of an operation, as bits. -/
def identBits (t : RedTy) (op : RedOp) : Nat :=
  match t with
  | .flt f => (fvToFmt f .rne .inf (fIdent op)).bits
  | .fx => (match op with | .add => 0 | .max => intBits 64 (intMin true 64) | .min => intBits 64 (intMax true 64))
  | .int sg n => (match op with | .add => 0 | .max => intBits n (intMin sg n) | .min => intBits n (intMax sg n))

/-- Leaves padded with a value to the next power of two. -/
def padPow2 (d : Nat) (l : List Nat) : List Nat :=
  let p := if l.length ≤ 1 then 1 else 2 ^ (Nat.log2 (l.length - 1) + 1)
  l ++ List.replicate (p - l.length) d

/-- The pairwise tree over a list of leaves, lower index on the left (04 R117). -/
def pairTree (t : RedTy) (op : RedOp) (sat : Bool) (l : List Nat) : Nat × Flags :=
  let (r, f) := treeUp (fun _ _ x y => combine t op sat x y) (Nat.log2 (padPow2 0 l).length) 1 (padPow2 (identBits t op) l)
  (r.headD (identBits t op), f)

/-! Words (11 R291 to R293). -/

def commonsOnly (k : Cls) : Bool := k == .commons

/-- A Commons range as the push checks it: form, alignment, class, one die, the size (11 R291); its pages. -/
def commonsRange (s : State) (c : Nat) (acc : Acc) (va : W64) (offs : List Nat) (align : Nat) : Except Stop (List Nat) := do
  let x := va.toNat
  if x < 2 ^ 63 ∧ 2 ^ 41 ≤ x then .error (.trap 0x04 0 va false [])
  else if x % align ≠ 0 then .error (.trap 0x07 0 va false [])
  else if 2 ^ 63 ≤ x ∨ x < 0x200000 then .error (.trap 0x05 0 va false [])
  else
    let base ← pagesOf s c acc none [x]
    if base.any fun p => classOf p != some .commons then .error (.trap 0x05 0 va false [])
    else
      let vas := (offs.map fun o => x + o)
      let heads := (vas.map (· / 0x10000)).eraseDups.map fun p => max (p * 0x10000) x
      pageLimit s c (heads.map fun a => (a, acc))
      let l ← locate s c acc va offs align commonsOnly
      if l.addrs.any fun p => homeDie p != homeDie (l.addrs.headD 0) then .error (.trap 0x08 0 va false [])
      else .ok (heads.map (· / 0x10000))

/-- A length a command accepts: a multiple of the element size within the limit. -/
def lengthOk (n size limit : Nat) : Bool := n % size == 0 && decide (n ≤ limit)

def bankTy (f : Fields) : RedTy := comTy (modTy f)
def bankOp (f : Fields) : RedOp := redOpOf (modBits f 81 80)

/-- The elements of a BRED's vector operand: 64 of 32 bits, or 32 of 64 bits active by the mask's even bits. -/
def bredActive (size : Nat) (m : W64) : List Nat :=
  if size = 4 then (upTo 64).filter fun i => m.getLsbD i else (upTo 32).filter fun j => m.getLsbD (2 * j)

def execBred (f : Fields) (s : State) : Outcome State Fault Refusal :=
  .next (runWord 0x1E0 false false 1 f s fun s c => do
    let a := getArch s c
    let size := redBytes (bankTy f)
    let m := maskOf a f.o4
    let act := bredActive size m
    let pg ← commonsRange s c .pushWrite (addrOf a f.o1 f.o2) (act.flatMap fun k => (upTo size).map fun i => k * size + i) size
    let s1 ← pushCmd s c { mkCmd s c f 3 (.bred f) 0 with vec := rdV a (idxOf f.o3), mask := m, pins := pg }
    ok s1)

def execBredBlock (f : Fields) (s : State) : Outcome State Fault Refusal :=
  .next (runWord 0x1E0 false false 1 f s fun s c => do
    let a := getArch s c
    let size := redBytes (bankTy f)
    let n := (valOf a f.o5).toNat
    let good := lengthOk n size (2 ^ 21)
    let offs := if good then upTo n else []
    let src := addrOf a f.o3 f.o4
    -- the source, then the destination
    if src.toNat < 2 ^ 63 ∧ 2 ^ 41 ≤ src.toNat then trapW 0x04 src
    else if src.toNat % size ≠ 0 then trapW 0x07 src
    else if 0x200000 ≤ src.toNat then trapW 0x05 src
    else if !offs.isEmpty && decide (spLen s c < src.toNat + n) then trapW 0x06 src
    else
      let pg ← commonsRange s c .pushWrite (addrOf a f.o1 f.o2) offs size
      let s1 ← pushCmd s c { mkCmd s c f 3 (.bredBlock f) 0 with pins := pg, aux := if good then [] else [1] }
      ok s1)

def execBsum (f : Fields) (s : State) : Outcome State Fault Refusal :=
  .next (runWord 0x1E1 false false 1 f s fun s c => do
    let a := getArch s c
    let size := redBytes (bankTy f)
    let n := (valOf a f.o3).toNat
    let good := lengthOk n size (2 ^ 24)
    let pg ← commonsRange s c .pushRead (addrOf a f.o1 f.o2) (if good then upTo n else []) size
    let s1 ← pushCmd s c { mkCmd s c f 3 (.bsum f) 0 with pins := pg, aux := if good then [] else [1] }
    ok s1)

def execBfill (f : Fields) (s : State) : Outcome State Fault Refusal :=
  .next (runWord 0x1E3 false false 1 f s fun s c => do
    let a := getArch s c
    let n := (valOf a f.o4).toNat
    let good := lengthOk n 8 (2 ^ 24)
    let pg ← commonsRange s c .pushWrite (addrOf a f.o1 f.o2) (if good then upTo n else []) 8
    let s1 ← pushCmd s c { mkCmd s c f 3 (.bfill f) 0 with pins := pg, aux := if good then [] else [1] }
    ok s1)

def execBclr (f : Fields) (s : State) : Outcome State Fault Refusal :=
  .next (runWord 0x1E4 false false 1 f s fun s c => do
    let a := getArch s c
    let size := redBytes (bankTy f)
    let n := (valOf a f.o3).toNat
    let good := lengthOk n size (2 ^ 24)
    let pg ← commonsRange s c .pushWrite (addrOf a f.o1 f.o2) (if good then upTo n else []) size
    let s1 ← pushCmd s c { mkCmd s c f 3 (.bclr f) 0 with pins := pg, aux := if good then [] else [1] }
    ok s1)

/-- WAITA (11 R296): its read is strong; the context waits for it. -/
def execWaita (f : Fields) (s : State) : Outcome State Fault Refusal :=
  .next (memWord 0x1E2 1 f s fun s c => do
    let a := getArch s c
    let w := if modBit f 86 then 4 else 8
    let loc ← locate s c .read (addrOf a f.o2 f.o3) (upTo w) w commonsOnly
    match replayWait s c with
    | some s1 => .error (.wait s1)
    | none =>
      let dl := if f.o5 = .none then none else some (valOf a f.o5)
      let s1 := updArch (baseLive s c) c fun b => { b with block := some a.seq }
      let x := mkAcc s1 c .rd [] loc (srcTaint a f [f.o2, f.o3]) (some 0x3F) (.waita (idxOf f.o1) (valOf a f.o4) w dl) none none
      .error (.wait (addAcc s1 x)))

/-! The bank units' commands (11 R291, R294, R295). -/

/-- Heads of the die's queues, with their contexts. -/
def bankHeads (s : State) (die : Nat) : List (Nat × Cmd) :=
  ((upTo 128).map (128 * die + ·)).filterMap fun c => (headCmd s c 3).map fun k => (c, k)

/-- The scratchpad bytes a command reads: the block form's source. -/
def bankSrc (s : State) (c : Nat) (k : Cmd) : List Nat :=
  match k.instr with
  | .bredBlock _ => if k.aux = [1] then [] else (upTo k.x5.toNat).map fun i => spAddr s c ((k.x3 + k.x4).toNat + i)
  | _ => []

/-- A head that may start: one of sixteen at once, its locks apart (11 R291). -/
def bankAsks (s : State) (c : Nat) (k : Cmd) : Bool := !k.started && k.held.isNone && engineMay s c k && cmdReady s c k
def bankMay (s : State) (c : Nat) (k : Cmd) : Bool := bankAsks s c k && lockFree s (coreOf c) c 3 k.seq (bankSrc s c k) []

/-- The next command to start, of any kind: the highest class, then round robin (01 R16). -/
def bankNext (s : State) (die : Nat) : Option (Nat × Cmd) :=
  let l := bankHeads s die
  if 16 ≤ (l.filter fun p => p.2.started && p.2.held.isNone && engineMay s p.1 p.2).length then none
  else
    let m := l.filter fun p => bankMay s p.1 p.2
    (rrPick s (classes s) (getCommons s die).rr (m.map (·.1))).bind fun c => m.find? fun p => p.1 == c

/-- The command of a kind in execution that goes on next: the one that has done least, an order the spec leaves open (log entry 33). -/
def bankGoing (s : State) (die : Nat) (kind : Instr → Bool) : Option (Nat × Cmd) :=
  let l := (bankHeads s die).filter fun p => p.2.started && p.2.held.isNone && kind p.2.instr && engineMay s p.1 p.2
  l.foldl (fun b p => match b with | none => some p | some x => if p.2.prog < x.2.prog then some p else b) none

def bredKind (i : Instr) : Bool := match i with | .bred _ | .bredBlock _ => true | _ => false
def bsumKind (i : Instr) : Bool := match i with | .bsum _ => true | _ => false
def bfillKind (i : Instr) : Bool := match i with | .bfill _ => true | _ => false
def bclrKind (i : Instr) : Bool := match i with | .bclr _ => true | _ => false

/-- A head whose granules are locked asks for them (02 R63). -/
def bankAsk (s : State) (die : Nat) : State :=
  (bankHeads s die).foldl (fun t p =>
    if bankAsks s p.1 p.2 && !bankMay s p.1 p.2 then askLocks t (coreOf p.1) p.1 3 p.2.seq (bankSrc s p.1 p.2) [] else t) s

/-- The command of a kind that makes the next step: the next to start when it is of the kind, with its locks; else one in execution. -/
def bankTake (s : State) (die : Nat) (kind : Instr → Bool) : Option (State × Nat × Cmd) :=
  match (bankNext s die).filter fun p => kind p.2.instr with
  | some (c, k) =>
    let t := takeLocks { s with commons := mapSet s.commons die { getCommons s die with rr := c } } (coreOf c) c 3 k.seq (bankSrc s c k) []
    let k1 := { k with started := true }
    some (setCmd t c k1, c, k1)
  | none => (bankGoing s die kind).map fun p => (s, p.1, p.2)

/-- One step of a kind. -/
def bankRun (s0 : State) (die : Nat) (kind : Instr → Bool) (run : State → Nat → Cmd → State) : State :=
  let s := bankAsk s0 die
  match bankTake s die kind with
  | some (t, c, k) => run t c k
  | none => s

/-- The command ends: DONE, or NOTE with the flags it set. -/
def bankDone (s : State) (c : Nat) (k : Cmd) (val : W64) : State :=
  finishCmd (dropLocks s c 3 k.seq) c k (if k.flags = 0 then 0 else 1) (if k.flags = 0 then 0 else 1) k.flags.toNat val
def bankFail (s : State) (c : Nat) (k : Cmd) (cause : Nat) : State :=
  failCmd (dropLocks s c 3 k.seq) c k cause k.flags.toNat (w64 (k.prog % 2 ^ 32))

/-- Physical bytes of one piece of a range. -/
def bankBytes (s : State) (c : Nat) (va : W64) (off n : Nat) : List Nat := (upTo n).map fun i => cmdPa s c (va.toNat + off + i)

/-- The pieces of a range still to do that lie in one aligned 4,096-byte block. -/
def bankBlock (va : W64) (size : Nat) (l : List Nat) : List Nat :=
  match l with
  | [] => []
  | k :: _ => l.takeWhile fun j => (va.toNat + j * size) / 4096 == (va.toNat + k * size) / 4096

/-- One block of a writing command, each element a write of its own (11 R287, R298): g gives each element's new bits from its old ones, with flags. -/
def bankStep (s : State) (c : Nat) (k : Cmd) (size : Nat) (elems : List Nat) (reads bad : Bool)
    (g : Nat → Nat → Nat × Flags) (val : Cmd → W64) : State :=
  if k.aux = [1] then bankFail s c k 3
  else
    let va := k.x1 + k.x2
    let rest := elems.drop k.prog
    if rest.isEmpty then bankDone s c k (val k)
    else
      let blk := bankBlock va size rest
      let pas := blk.map fun j => bankBytes s c va (j * size) size
      if pas.any fun l => l.any fun p => !commonsOk s p then bankFail s c k 2
      else if pas.any (busyHome s) then s
      else if reads && (bad || pas.any (poisoned s)) then bankFail (if bad then markPoison s (pas.headD []) else s) c k 1
      else
        let res := (blk.zip pas).map fun p => (p.2, g p.1 (leNat (p.2.map (memGet s.mem))))
        let (s1, st) := res.foldl (fun (a : State × Stamp) r =>
          let (t, st) := unitWrite a.1 (dieOf c) (r.1.zip (leBytes size r.2.1)) k.base
          (t, stampMax a.2 st)) (s, zeroStamp)
        let old := if reads then (readHome s pas.flatten).2 else zeroStamp
        setCmd s1 c { k with
          started := true
          prog := k.prog + blk.length
          stamp := stampMax k.stamp (stampMax st old)
          flags := res.foldl (fun t r => t ||| r.2.2) k.flags }

/-- The element values of a BRED: the vector's, or the scratchpad block's. -/
def bredVal (s : State) (c : Nat) (k : Cmd) (size j : Nat) : Nat :=
  match k.instr with
  | .bred _ => k.vec.toNat / 2 ^ (8 * size * j) % 2 ^ (8 * size)
  | _ => leNat (spRead s ((upTo size).map fun i => spAddr s c ((k.x3 + k.x4).toNat + j * size + i)))

def runBred (bad : Bool) (s : State) (c : Nat) (k : Cmd) : State :=
  match k.instr with
  | .bred f =>
    let size := redBytes (bankTy f)
    let l := bredActive size k.mask
    bankStep s c k size l true bad (fun j old => combine (bankTy f) (bankOp f) (modBit f 82) old (bredVal s c k size j)) (fun k => w64 k.prog)
  | .bredBlock f =>
    let size := redBytes (bankTy f)
    bankStep s c k size (upTo (k.x5.toNat / size)) true bad
      (fun j old => combine (bankTy f) (bankOp f) (modBit f 82) old (bredVal s c k size j)) (fun k => w64 k.prog)
  | _ => s

def execBredExec (die : Nat) (bad : Bool) (s : State) : Outcome State Fault Refusal :=
  .next (bankRun s die bredKind (runBred bad))

/-- BSUM reads every element once, and runs to completion (11 R294, R295). -/
def runBsum (bad : Bool) (s : State) (c : Nat) (k : Cmd) : State :=
  match k.instr with
  | .bsum f =>
    let t := bankTy f
    let size := redBytes t
    let va := k.x1 + k.x2
    let pas := (upTo (k.x3.toNat / size)).map fun j => bankBytes s c va (j * size) size
    if k.aux = [1] then bankFail s c k 3
    else if pas.any fun l => l.any fun p => !commonsOk s p then bankFail s c k 2
    else if pas.any (busyHome s) then s
    else if bad || pas.any (poisoned s) then bankFail (if bad then markPoison s (pas.headD []) else s) c k 1
    else
      let (r, fl) := pairTree t (bankOp f) (modBit f 82) (pas.map fun l => leNat (l.map (memGet s.mem)))
      let v := match t with
        | .int sg n => extInt sg n (intOfBits sg n r)
        | _ => w64 r
      bankDone s c { k with flags := fl, stamp := (readHome s pas.flatten).2 } v
  | _ => s

def execBsumExec (die : Nat) (bad : Bool) (s : State) : Outcome State Fault Refusal :=
  .next (bankRun s die bsumKind (runBsum bad))

def runBfill (s : State) (c : Nat) (k : Cmd) : State :=
  bankStep s c k 8 (upTo (k.x4.toNat / 8)) false false (fun _ _ => (k.x3.toNat, 0)) fun k => w64 (8 * k.prog)

def execBfillExec (die : Nat) (s : State) : Outcome State Fault Refusal :=
  .next (bankRun s die bfillKind runBfill)

def runBclr (s : State) (c : Nat) (k : Cmd) : State :=
  match k.instr with
  | .bclr f =>
    let size := redBytes (bankTy f)
    bankStep s c k size (upTo (k.x3.toNat / size)) false false (fun _ _ => (identBits (bankTy f) (bankOp f), 0)) fun k => w64 (size * k.prog)
  | _ => s

def execBclrExec (die : Nat) (s : State) : Outcome State Fault Refusal :=
  .next (bankRun s die bclrKind runBclr)

/-! Watches (11 R296 to R299). -/

/-- Place a watch: an exact entry while one of the bank's two is free, else coarse, with the bank's next number. -/
def placeWatch (s : State) (c pa w : Nat) (expected : W64) (dl : Option W64) : State :=
  let die := homeDie pa
  let bank := bankOf s pa
  let com := getCommons s die
  let n := mapGet 0 com.arrivals bank
  let exact := (s.watches.filter fun x => x.die == die && x.bank == bank && !x.coarse && x.woke.isNone).length
  { s with
    watches := s.watches ++ [⟨die, bank, c, pa, w, expected, n, decide (2 ≤ exact), dl, none⟩]
    commons := mapSet s.commons die { com with arrivals := mapSet com.arrivals bank (n + 1) } }

/-- WAITA's read has performed: the word goes on, or places its watch and parks. -/
def waitaPerform (s : State) (x : Access) (r : Nat) (expected : W64) (w : Nat) (dl : Option W64) (bs : List Byte) (st : Stamp) : State :=
  let v := w64 (leNat bs)
  let s1 := baseLive (loadDone (dropAcc s x.id) x.ctx x.seq st) x.ctx
  let late := match dl with | some d => decide (d.toNat ≤ s.gts.toNat) | none => false
  let e := expected.toNat % 2 ^ (8 * w)
  if v.toNat != e || late then finishWait s1 x.ctx r v (some st)
  else
    let pa := x.addrs.headD 0
    parkAt (placeWatch (updArch s1 x.ctx fun a => { a with base := stampMax a.base st }) x.ctx pa w (w64 e) dl) x.ctx .waita r dl pa (w64 e) w

/-- A watch that left the bank for the same write makes its context ready first, where that one's cluster runs (11 R299). -/
def watchBefore (s : State) (x : Watch) (k : Woke) : Bool :=
  s.watches.any fun y => y.die == x.die && y.bank == x.bank && !frozenAt s y.ctx && olderArrival y.arrival x.arrival &&
    (match y.woke with
      | some j => j.write == k.write && !(dieOf x.ctx == x.die && dieOf y.ctx != x.die)
      | none => false)

def dropWatch (s : State) (c : Nat) : State := { s with watches := s.watches.filter fun w => w.ctx != c }

def execWaitaResume (ctx : Nat) (s : State) : Outcome State Fault Refusal :=
  .next (heldStop s ctx .waitaResume fun s =>
    match s.watches.find? (fun w => w.ctx == ctx), (getArch s ctx).park with
    | some w, some k =>
      match w.woke with
      | some x =>
        if k.kind == .waita && decide (x.due ≤ ccyOf s ctx) && !watchBefore s w x then finishWait (dropWatch s ctx) ctx k.dest x.val (some x.vec) else s
      | none => s
    | _, _ => s)

/-- At its deadline a watch wakes with its word's value; the wake is not counted (11 R299). -/
def execWaitaDeadline (ctx : Nat) (s : State) : Outcome State Fault Refusal :=
  .next (heldStop s ctx .waitaDeadline fun s =>
    match s.watches.find? (fun w => w.ctx == ctx), (getArch s ctx).park with
    | some w, some k =>
      let l := (upTo w.w).map (w.addr + ·)
      if k.kind == .waita && w.woke.isNone && pastDeadline s k && !busyHome s l then
        finishWait (dropWatch s ctx) ctx k.dest (w64 (memNat s.mem w.addr w.w)) (some (stampAt s w.addr w.w))
      else s
    | _, _ => s)

/-! Repartition (11 R285, R286). -/

/-- A write of CMNCFGd: LOSTDIRTY is cleared by 1; SIZE is kept when in range, and starts a repartition when it differs. -/
def cmncfgWrite (s : State) (die : Nat) (x : W64) : State :=
  let c := getCommons s die
  let n := x.toNat % 256
  let c1 := { c with lost := c.lost && !x.getLsbD 17, size := if 2 ≤ n ∧ n ≤ 11 then BitVec.ofNat 8 n else c.size }
  let start := !c1.busy && c1.size != c1.cur
  { s with commons := mapSet s.commons die { c1 with busy := c1.busy || start, target := if start then c1.size else c1.target } }

def execCmncfgSizeWrite (die : Nat) (x : W64) (s : State) : Outcome State Fault Refusal :=
  .next (if die < 4 then cmncfgWrite s die x else s)

/-- Drop cache lines of the die without write-back: a dirty one's bytes in HBM come back, and the loss is recorded. -/
def dropLines (s : State) (die : Nat) (drop : List Nat) : State :=
  let gone := (drop.filter fun l => (mapFind s.llc l).isSome && homeDie (1024 * l) == die && decide (1024 * l < 0x8000000000)).eraseDups
  let dirty := gone.any fun l => ((mapFind s.llc l).map (·.dirty)).getD false
  let back := s.hbm.filter fun p => gone.contains (p.1 / 1024)
  let s1 := { s with
    llc := s.llc.filter fun p => !gone.contains p.1
    mem := memPut s.mem back
    hbm := s.hbm.filter fun p => !gone.contains (p.1 / 1024) }
  if dirty then { s1 with commons := mapSet s1.commons die { getCommons s1 die with lost := true } } else s1

/-- Every watch of the die wakes with zero; one that expected zero counts as spurious (11 R286, R299). -/
def wakeAll (s : State) (die : Nat) : State := wakeThese s (fun w => w.die == die) fun _ => (0, zeroStamp)

def execRepartitionComplete (die : Nat) (drop : List Nat) (s : State) : Outcome State Fault Refusal :=
  .next (
    let c := getCommons s die
    if !c.busy then s
    else
      let s1 := if c.cur.toNat < c.target.toNat then dropLines s die drop else s
      let inDie (a : Nat) : Bool := decide (0x8000000000 + die * 0x10000000 ≤ a) && decide (a < 0x8000000000 + (die + 1) * 0x10000000)
      let s2 := { s1 with
        mem := s1.mem.filter fun p => !inDie p.1
        memStamp := s1.memStamp.filter fun p => !inDie p.1
        poison := s1.poison.filter fun a => !inDie a }
      let s3 := wakeAll s2 die
      let c3 := getCommons s3 die
      { s3 with commons := mapSet s3.commons die { c3 with cur := c.target, busy := c3.size != c.target, target := c3.size } })

end Sys2Proof.Machine
end

