-- ==== Sys2Proof/Machine/Fabric.lean ====
section
/-!
DEFINITION. Machine/Fabric.lean: direct remote accesses: their words, the port that sends them, and what the target does
with a request (spec file 12, R311 to R318).
-/
namespace Sys2Proof.Machine
open Sys2Proof Host

/-! The words (12 R315, R316). -/

/-- A remote address of a direct access: its form, its alignment, its class. -/
def remoteForm (va : W64) (align : Nat) : Except Stop Unit :=
  let x := va.toNat
  if x < 2 ^ 63 ∧ 2 ^ 41 ≤ x then trapW 0x04 va
  else if x % align ≠ 0 then trapW 0x07 va
  else if x < 2 ^ 63 then trapW 0x05 va
  else .ok ()

/-- The next SEQ of the context's xf numbering (12 R313). -/
def xfSeq (s : State) (c : Nat) : Nat := mapGet 0 (getArch s c).qseq 4

/-- Issue a direct access: into the port, behind the checker, with its SEQ, its slot and its token. -/
def pushDirect (s : State) (c : Nat) (f : Fields) (op : Nat) (va : W64) (kind : PKind) (args : List W64) (data : List Byte)
    (t : Taint) (strong : Bool) (mk : Option (Taint → Dest)) : Body := do
  if 64 ≤ (s.fab.dirs.filter fun d => d.ctx == c && d.late.isNone).length then stallW
  else
    let peer := peerOf va
    let (s1, slot) ← match mk with
      | none => Except.ok (s, Option.none)
      | some _ => (takeSlot s c (some peer)).map fun p => (p.1, some p.2)
    let a := getArch s1 c
    let t1 := t ||| a.cT
    let d : Direct :=
      { id := s1.nextId, ctx := c, seq := a.seq, xf := xfSeq s1 c, op := op, peer := peer, lane := modBits f 82 81, tag := s1.fab.nextTag,
        strong := strong, vec := remoteVec s1 c peer t1, kind := kind, args := args, data := data, st := .port, sent := 0, cyc := 0,
        dest := match mk with | none => .none | some g => g (t ||| slotBit slot)
        token := if mk.isSome then setwTok f else none, slot := slot
        deps := (depsOf a c t1).filter fun x => x.2 != a.seq, late := none }
    let s2 ← holdEff s1 c (.remote d.id)
    let s3 := if strong then baseLive s2 c else s2
    let s4 := { s3 with nextId := s3.nextId + 1, fab := { s3.fab with nextTag := s3.fab.nextTag + 1, dirs := s3.fab.dirs ++ [d] } }
    let s5 := updArch s4 c fun a => { a with qseq := mapSet a.qseq 4 (mapGet 0 a.qseq 4 + 1) }
    ok (if mk.isSome then markToken s5 c f else s5)

/-- Bytes of a width code. -/
def remoteWidth (f : Fields) : Nat := 8 * 2 ^ modBits f 90 88

/-- The lanes a wide access covers. -/
def lowLanes (n : Nat) : W64 := BitVec.ofNat 64 (2 ^ (n / 4) - 1)

def execRld (f : Fields) (s : State) : Outcome State Fault Refusal :=
  .next (memWord 0x200 1 f s fun s c => do
    let a := getArch s c
    let n := remoteWidth f
    let va := addrOf a f.o2 f.o3
    remoteForm va n
    let r := idxOf f.o1
    let mk (t : Taint) : Dest :=
      if n = 8 then .scalar r 8 false t
      else if n = 16 then .pair r (r + 1) 8 false t
      else .lanes r (lowLanes n) 4 false (quarterTaints (lowLanes n) fun _ => t)
    pushDirect s c f 1 va .rld [w64 (reqHead 0 f.hint), w64 (offOf va), w64 n] [] (srcTaint a f [f.o2, f.o3]) (modBit f 85) (some mk))

def execRst (f : Fields) (s : State) : Outcome State Fault Refusal :=
  .next (memWord 0x201 1 f s fun s c => do
    let a := getArch s c
    let n := remoteWidth f
    let va := addrOf a f.o1 f.o2
    remoteForm va n
    let r := idxOf f.o3
    let data := if n = 8 then leBytes 8 (rdS a r).toNat
      else if n = 16 then leBytes 8 (rdS a r).toNat ++ leBytes 8 (rdS a (r + 1)).toNat
      else leBytes n (rdV a r).toNat
    let dt : Taint := if n = 16 then pairTaint a f.o3
      else if n = 8 then taintOf a f.o3
      else (upTo ((n + 63) / 64)).foldl (fun t q => t ||| vTaint a r q) 0
    pushDirect s c f 2 va .rst [w64 (reqHead 0 f.hint), w64 (offOf va), w64 n] data (srcTaint a f [f.o1, f.o2] ||| dt) (modBit f 85) none)

def execRamo (f : Fields) (s : State) : Outcome State Fault Refusal :=
  .next (memWord 0x202 1 f s fun s c => do
    let a := getArch s c
    let w := if modBit f 86 then 4 else 8
    let va := addrOf a f.o2 f.o3
    remoteForm va w
    pushDirect s c f 3 va .ramo [w64 (reqHead (if f.o1 = .none then 1 else 0) f.hint), w64 (offOf va), w64 w, w64 (modBits f 90 87), valOf a f.o4] []
      (srcTaint a f [f.o2, f.o3, f.o4]) true (if f.o1 = .none then none else some (.scalar (idxOf f.o1) w false)))

/-- A remote operation: the operand quarter and the parameter go to the target's unit (12 R318). -/
def ropWord (f : Fields) (s : State) (op : Nat) : State :=
  memWord 0x203 1 f s fun s c => do
    let a := getArch s c
    let va := addrOf a f.o2 f.o3
    remoteForm va 8
    let data := leBytes 64 (quarterOf (rdV a (idxOf f.o4)) (qOf f.o4)).toNat
    let mask : W64 := BitVec.ofNat 64 (0xFFFF * 2 ^ (16 * qOf f.o1))
    let mk (t : Taint) : Dest := .lanes (idxOf f.o1) mask 4 false ((upTo 4).map fun q => if q = qOf f.o1 then some (t, false) else none)
    pushDirect s c f 4 va .rop [0, w64 (offOf va), 0, w64 op, valOf a f.o5] data
      (srcTaint a f [f.o2, f.o3, f.o4, f.o5]) true (if f.o1 = .none then none else some mk)

def execRopCasw (f : Fields) (s : State) : Outcome State Fault Refusal := .next (ropWord f s 0)
def execRopFxadd (f : Fields) (s : State) : Outcome State Fault Refusal := .next (ropWord f s 1)
def execRopEnq (f : Fields) (s : State) : Outcome State Fault Refusal := .next (ropWord f s 2)
def execRopDeq (f : Fields) (s : State) : Outcome State Fault Refusal := .next (ropWord f s 3)
def execRopChase (f : Fields) (s : State) : Outcome State Fault Refusal := .next (ropWord f s 4)
def execRopBadd (f : Fields) (s : State) : Outcome State Fault Refusal := .next (ropWord f s 5)
def execRopMinloc (f : Fields) (s : State) : Outcome State Fault Refusal := .next (ropWord f s 6)
def execRopGath4 (f : Fields) (s : State) : Outcome State Fault Refusal := .next (ropWord f s 7)
def execRopScat4 (f : Fields) (s : State) : Outcome State Fault Refusal := .next (ropWord f s 8)
def execRopLcarr (f : Fields) (s : State) : Outcome State Fault Refusal := .next (ropWord f s 9)
def execRopHist (f : Fields) (s : State) : Outcome State Fault Refusal := .next (ropWord f s 10)
def execRopPutsig (f : Fields) (s : State) : Outcome State Fault Refusal := .next (ropWord f s 11)

/-! The port (12 R313, R317; 02 R56, R57, R66 to R68). -/

/-- The length a send on a ring states: 0 means BLK (12 R328). -/
def sendLen (x : W64) (blk : Nat) : Nat := if x.toNat % 2 ^ 18 = 0 then blk else x.toNat % 2 ^ 18

/-- A queued command of the context that has sent all its accesses on its lane. -/
def allLeft (s : State) (c : Nat) (k : Cmd) : Bool :=
  match k.instr with
  | .plsend _ => match ownRing s c k.x1.toNat with
    | some r => decide (sendLen k.x5 r.blk ≤ k.aux.getD 3 0)
    | none => true
  | _ => match k.aux with
    | 1 :: _ | 3 :: _ => decide (dTotal k.desc ≤ k.prog + (blockOf k k.prog).length)
    | _ => decide (dTotal k.desc ≤ k.prog)

/-- The ordering lane a qf command uses, where it has accesses on one: that of its descriptor's word, or of its ring. -/
def xfLane (s : State) (c : Nat) (k : Cmd) : Option Nat :=
  match k.instr with
  | .rput _ | .rget _ | .mcast _ => some (laneOf k)
  | .plsend _ => (ownRing s c k.x1.toNat).map (·.lane)
  | _ => none

/-- A direct access may leave the port. -/
def mayLeave (s : State) (d : Direct) : Bool :=
  let c := d.ctx
  d.st == .port && d.deps.isEmpty &&
  !((getCore s (coreOf c)).held.any fun h => h.eff == .remote d.id) &&
  !(s.fab.dirs.any fun e => e.ctx == c && e.lane == d.lane && e.st == .port && decide (e.id < d.id)) &&
  !((cmdsOf s c 4 ++ (heldCmds s c).filter (fun k => k.q == 4)).any fun k =>
      decide (k.before ≤ d.id) && xfLane s c k == some d.lane && k.held.isNone && !allLeft s c k) &&
  !earlierStrongRead s c d.id &&
  (!d.strong || (!earlierAcc s c d.id && !awaitsBefore s c d.id))

/-- A held failure of a direct access (12 R314). -/
def failDirect (s : State) (id cause : Nat) : State :=
  { s with fab := { s.fab with dirs := s.fab.dirs.map fun d => if d.id = id then { d with st := .failed cause } else d } }

/-- Send one direct access if it may leave; an unreachable peer fails it at once. -/
def sendDirect (s : State) (id : Nat) : State :=
  match s.fab.dirs.find? fun d => d.id == id with
  | none => s
  | some d =>
    if d.st != .port || ((getCore s (coreOf d.ctx)).held.any fun h => h.eff == .remote d.id) then s
    else if !reachable s d.peer then (if 512 ≤ d.ctx then { s with fab := { s.fab with dirs := s.fab.dirs.filter fun e => e.id != id } } else failDirect s id 2)
    else if !mayLeave s d then s
    else
      let s1 := sendFor s (regionOfCtx s d.ctx) d.peer d.lane d.lane d.kind d.tag (stampWords d.vec ++ d.args) d.data
      { s1 with fab := { s1.fab with dirs := s1.fab.dirs.map fun e => if e.id = id then { e with st := .sent, sent := s.gts, cyc := ccyOf s (d.ctx % 512) } else e } }

/-- What a context's accesses do once they may: its writes pass the stamping point and its direct accesses leave the port, both
in program order. -/
def portPump (s : State) (c : Nat) : State :=
  stampWrites (((s.fab.dirs.filter fun d => d.ctx == c && d.late.isNone).map (·.id)).foldl sendDirect (stampWrites s c)) c

/-- A remote read has performed with this stamp in its target's clocks: its slot takes the stamp, and dependent accesses
to the same target carry it (02 R68). -/
def remoteDone (s : State) (c seq peer : Nat) (st : Stamp) : State :=
  let drop (l : List (Nat × Nat)) : List (Nat × Nat) := l.filter fun d => d != (c, seq)
  let s1 := { s with
    accs := s.accs.map fun x => { x with deps := drop x.deps }
    nests := s.nests.map fun p => (p.1, { p.2 with relDeps := drop p.2.relDeps })
    fab := { s.fab with dirs := s.fab.dirs.map fun d =>
      if d.deps.contains (c, seq) then { d with deps := drop d.deps, vec := if d.peer = peer then stampMax d.vec st else d.vec } else d } }
  let s1 := updCore s1 (coreOf c) fun k => { k with held := k.held.map fun h => match h.eff with
    | .push q => { h with eff := .push { q with deps := drop q.deps } }
    | _ => h }
  updCtx s1 c fun x => { x with
    cmds := x.cmds.map fun k => { k with deps := drop k.deps }
    arch := { x.arch with
      slots := x.arch.slots.map fun p => if p.2.pend == some seq then (p.1, { p.2 with pend := none, stamp := st }) else p } }

/-! The export table at the target (12 R310 to R312). -/

def readTable (s : State) (reg : W64) : List (List W64) :=
  let base := bitsOf reg.toNat 38 8 * 256
  (upTo (bitsOf reg.toNat 63 56)).map fun i => (upTo 4).map fun j => w64 (memNat s.mem (base + 32 * i + 8 * j) 8)

/-- The export table as the port holds it, read at its first use after a write of FXEXP. -/
def expTable (s : State) : List (List W64) := s.fab.expCache.getD (readTable s s.fab.fxexp)
def cacheExp (s : State) : State := { s with fab := { s.fab with expCache := some (expTable s) } }

/-- The lowest-numbered entry that holds an offset. -/
def expEntry (s : State) (o : Nat) : Option (List W64) :=
  (expTable s).find? fun e =>
    let off := (e.getD 0 0).toNat % 2 ^ 41
    let len := (e.getD 1 0).toNat
    len != 0 && decide (off ≤ o) && decide (o < off + len)

def permBit (e : List W64) (b : Nat) : Bool := (e.getD 2 0).getLsbD b
def expSp (e : List W64) : Bool := (e.getD 3 0).getLsbD 0

/-- A region by its handle, for a table's root. -/
def rootOfHandle (s : State) (h : Nat) : Option Nat :=
  let r := h % 4096
  if r = 0 ∨ (getRegion s r).state = .free ∨ bitsOf h 31 20 ≠ (getRegion s r).gen.toNat then none else some (getRegion s r).root

/-- The bytes an access of n bytes at an offset reaches through an entry, scratchpad or memory; none when it is refused. -/
def entryBytes (s : State) (e : List W64) (o n : Nat) (acc : Acc) : Option (Bool × List Nat) :=
  let off := (e.getD 0 0).toNat % 2 ^ 41
  let len := (e.getD 1 0).toNat
  if o < off ∨ off + len < o + n then none
  else
    let va := (e.getD 2 0).toNat % 2 ^ 41 + (o - off)
    if expSp e then
      let core := bitsOf (e.getD 3 0).toNat 15 8
      let b := (e.getD 2 0).toNat % 0x200000 + (o - off)
      if core < 128 ∧ b + n ≤ 0x200000 then some (true, (upTo n).map fun i => core * 0x200000 + b + i) else none
    else
      match rootOfHandle s (bitsOf (e.getD 3 0).toNat 63 32) with
      | none => none
      | some root =>
        if va < 0x200000 then none
        else
          let l := (upTo n).filterMap fun i => walkPhys s root (va + i) acc
          let okByte (p : Nat) : Bool := match classOf p with
            | some .global => !(accWrites acc && parityPage s p)
            | some .commons => commonsOk s p
            | _ => false
          if l.length = n && l.all okByte then some (false, l) else none

/-- An access by its first offset, with the permission it needs (63 R, 62 W, 61 A, 60 LC). -/
def targetBytes (s : State) (o n perm : Nat) (acc : Acc) : Option (Bool × List Nat) :=
  match expEntry s o with
  | none => none
  | some e => if permBit e perm then entryBytes s e o n acc else none

/-- The Global lines a request reaches at its target, under its hint (03 R77; 12 R315). -/
def tLines (s : State) (hint : BitVec 2) (l : List (Bool × List Nat)) : State :=
  llcRead s (l.flatMap fun b => if b.1 then [] else b.2) hint

def tRead (s : State) (b : Bool × List Nat) : List Byte := if b.1 then spRead s b.2 else b.2.map (memGet s.mem)
def tStamp (s : State) (b : Bool × List Nat) : Stamp := if b.1 then zeroStamp else (readHome s b.2).2
/-- Write at the target: each byte is stamped on the die of its home, with the lane's vector (12 R312). -/
def tWrite (s : State) (v : Stamp) (b : Bool × List Nat) (bs : List Byte) (hint : BitVec 2 := 0) : State :=
  if b.1 then spWrite s (b.2.zip bs)
  else
    let cells := b.2.zip bs
    let w := stampMax v (appliedAll s)
    (upTo 4).foldl (fun t d =>
      let l := cells.filter fun p => homeDie p.1 == d
      if l.isEmpty then t else (unitWrite t d l w hint).1) s

/-- What the target makes of a request: it waits, refuses, or has done it with a reply's words and bytes. -/
inductive TRes where
  | wait
  | refuse (cause : Nat)
  | done (s : State) (args : List W64) (data : List Byte)

/-- Reads before they are made: held at their homes, uncorrectable (14 R358; 07 R189; 12 R314), or fit to be made. -/
def readGate (s : State) (bad : Bool) (l : List (Bool × List Nat)) (k : Unit → TRes) : TRes :=
  let mem := l.flatMap fun b => if b.1 then [] else b.2
  if holdsRead s mem || spStopped s (l.flatMap fun b => if b.1 then b.2 else []) then .wait
  else if bad || poisoned s mem then
    if mem.any (repairable s) then .wait else .refuse 1
  else k ()

def writeGate (s : State) (l : List (Bool × List Nat)) (k : Unit → TRes) : TRes :=
  if holdsWrite s (l.flatMap fun b => if b.1 then [] else b.2) || spStopped s (l.flatMap fun b => if b.1 then b.2 else []) then .wait else k ()

/-- All of a list of options, or none. -/
def allSome {α : Type} : List (Option α) → Option (List α)
  | [] => some []
  | none :: _ => none
  | some x :: t => (allSome t).map (x :: ·)

/-! Loads, stores and transfers at the target. -/

def tGet (s : State) (bad : Bool) (pieces : List (Nat × Nat)) (hint : BitVec 2) : TRes :=
  match allSome (pieces.map fun p => targetBytes s p.1 p.2 63 .read) with
  | none => .refuse 3
  | some l => readGate s bad l fun _ =>
    .done (tLines s hint l) ([0] ++ stampWords (l.foldl (fun v b => stampMax v (tStamp s b)) zeroStamp)) (l.flatMap (tRead s))

/-- Split bytes into the pieces' lengths. -/
def splitBytes : List (Nat × Nat) → List Byte → List (List Byte)
  | [], _ => []
  | p :: t, bs => bs.take p.2 :: splitBytes t (bs.drop p.2)

/-- The landing counter a request names, in an entry with LC and SP; none named gives an empty list. -/
def lcTarget (s : State) (lc : Nat) : Option (List Nat) :=
  if lc = 0 then some []
  else match expEntry s (lc - 1) with
    | none => none
    | some e =>
      if permBit e 60 && expSp e && (lc - 1) % 8 == 0 then (entryBytes s e (lc - 1) 8 .write).map fun b => [b.2.headD 0] else none

def tPut (s : State) (v : Stamp) (lc : Nat) (pieces : List (Nat × Nat)) (data : List Byte) (hint : BitVec 2) : TRes :=
  match allSome (pieces.map fun p => targetBytes s p.1 p.2 62 .write), lcTarget s lc with
  | some l, some cs => writeGate s (l ++ [(true, cs)]) fun _ =>
    let s1 := (l.zip (splitBytes pieces data)).foldl (fun t p => tWrite t v p.1 p.2 hint) s
    match cs with
    | a :: _ =>
      let (s2, err) := lcArrive s1 a data.length
      .done s2 [if err then 1 else 0] []
    | [] => .done s1 [0] []
  | _, _ => .refuse 3

/-- An atomic: a swap whose old value nobody asks for reads nothing (07 R189). -/
def tAmo (s : State) (v : Stamp) (bad : Bool) (o w op : Nat) (a : W64) (blind : Bool) (hint : BitVec 2) : TRes :=
  match targetBytes s o w 61 .atomic with
  | none => .refuse 3
  | some b =>
    if b.1 then .refuse 3
    else
      let act (_ : Unit) : TRes := writeGate s [b] fun _ =>
        let old := tRead s b
        let s1 := tWrite (tLines s hint [b]) v b ((atomicNew (.amo op w a) old).getD old) hint
        .done s1 ([0] ++ stampWords (tStamp s1 b)) old
      if blind && op = 8 then act () else readGate s bad [b] act

/-! Remote operations (12 R318). -/

/-- A word of an operation at an offset within the entry: aligned, and all of its bytes in the entry. -/
def ropAt (s : State) (e : List W64) (o : Int) (n : Nat) : Option (Bool × List Nat) :=
  if o < 0 ∨ o % 8 ≠ 0 then none else entryBytes s e o.toNat n .atomic

/-- An operation's result: eight words, and the stamp of what it read. -/
def ropDone (s : State) (rd : List (Bool × List Nat)) (ys : List Nat) : TRes :=
  .done s ([0] ++ stampWords (rd.foldl (fun v b => stampMax v (tStamp s b)) zeroStamp))
    ((upTo 8).flatMap fun i => leBytes 8 (ys.getD i 0))

/-- Read a run of words and go on with them. -/
def ropRead (s : State) (bad : Bool) (b : Bool × List Nat) (k : List Nat → TRes) : TRes :=
  readGate s bad [b] fun _ =>
    let bs := tRead s b
    k ((upTo (b.2.length / 8)).map fun i => leNat ((bs.drop (8 * i)).take 8))

def wordsBytes (l : List Nat) : List Byte := l.flatMap (leBytes 8)

/-- One hop after another (CHASE): hops left, hops made, the present offset. -/
def chase (s : State) (bad : Bool) (f : Nat) : Nat → Nat → Nat → TRes
  | 0, made, p => chaseEnd s bad made p
  | n + 1, made, p =>
    let q := (p + f) % 2 ^ 64
    if q % 8 ≠ 0 ∨ 2 ^ 41 ≤ q then .refuse 3
    else match targetBytes s q 8 61 .atomic with
      | none => .refuse 3
      | some b => ropRead s bad b fun l =>
        if l.headD 0 = 0 then chaseEnd s bad made p else chase s bad f n (made + 1) (l.headD 0)
where
  chaseEnd (s : State) (bad : Bool) (made p : Nat) : TRes :=
    if p % 8 ≠ 0 ∨ 2 ^ 41 ≤ p then .refuse 3
    else match targetBytes s p 48 61 .atomic with
      | none => .refuse 3
      | some b => ropRead s bad b fun l => ropDone s [b] ([made, p] ++ l)

def isPow2 (n : Nat) : Bool := n != 0 && 2 ^ Nat.log2 n == n

/-- One remote operation: op code, offset, parameter X and the operand quarter's bytes. -/
def tRop (s : State) (v : Stamp) (bad : Bool) (op o : Nat) (x : W64) (data : List Byte) : TRes :=
  match expEntry s o with
  | none => .refuse 3
  | some e =>
    let xw (k : Nat) : Nat := leNat ((data.drop (8 * k)).take 8)
    let n := x.toNat
    if !permBit e 61 then .refuse 3
    else
      match op with
      | 0 =>
        if n < 1 ∨ 4 < n then .refuse 3
        else match ropAt s e o (8 * n) with
          | none => .refuse 3
          | some b => ropRead s bad b fun old => writeGate s [b] fun _ =>
            if old = (upTo n).map xw then ropDone (tWrite s v b (wordsBytes ((upTo n).map fun i => xw (4 + i)))) [b] (1 :: old)
            else ropDone s [b] (0 :: old)
      | 1 =>
        if n < 1 ∨ 8 < n then .refuse 3
        else match ropAt s e o (8 * n) with
          | none => .refuse 3
          | some b => ropRead s bad b fun old => writeGate s [b] fun _ =>
            ropDone (tWrite s v b (wordsBytes ((upTo n).map fun i => (old.getD i 0 + xw i) % 2 ^ 64))) [b] old
      | 2 =>
        match ropAt s e o 32 with
        | none => .refuse 3
        | some b => ropRead s bad b fun h =>
          let hd := h.getD 0 0
          let tl := h.getD 1 0
          let cap := h.getD 2 0
          if !isPow2 cap then .refuse 3
          else if hd + cap ≤ tl then ropDone s [b] [1, tl]
          else match ropAt s e (h.getD 3 0 + 32 * (tl % cap) : Nat) 32 with
            | none => .refuse 3
            | some r => writeGate s [b, r] fun _ =>
              let s1 := tWrite s v r (wordsBytes ((upTo 4).map xw))
              let t : Bool × List Nat := (b.1, (b.2.drop 8).take 8)
              ropDone (tWrite s1 v t (leBytes 8 (tl + 1))) [b] [0, tl]
      | 3 =>
        match ropAt s e o 32 with
        | none => .refuse 3
        | some b => ropRead s bad b fun h =>
          let hd := h.getD 0 0
          let tl := h.getD 1 0
          let cap := h.getD 2 0
          if !isPow2 cap then .refuse 3
          else if tl ≤ hd then ropDone s [b] [1]
          else match ropAt s e (h.getD 3 0 + 32 * (hd % cap) : Nat) 32 with
            | none => .refuse 3
            | some r => ropRead s bad r fun rec_ => writeGate s [b] fun _ =>
              let t : Bool × List Nat := (b.1, b.2.take 8)
              ropDone (tWrite s v t (leBytes 8 (hd + 1))) [b, r] (0 :: rec_)
      | 4 => if n < 1 ∨ 16 < n ∨ xw 0 % 8 ≠ 0 then .refuse 3 else chase s bad (xw 0) n 0 o
      | 5 =>
        match ropAt s e o 8 with
        | none => .refuse 3
        | some b => ropRead s bad b fun l => writeGate s [b] fun _ =>
          let old := l.headD 0
          let sum := intOfBits true 64 old + intOfBits true 64 (xw 0)
          if sum ≤ intOfBits true 64 (xw 1) then ropDone (tWrite s v b (leBytes 8 (intBits 64 sum))) [b] [0, old]
          else ropDone s [b] [1, old]
      | 6 =>
        if o % 16 ≠ 0 then .refuse 3
        else match ropAt s e o 16 with
          | none => .refuse 3
          | some b => ropRead s bad b fun l => writeGate s [b] fun _ =>
            if intOfBits true 64 (xw 0) < intOfBits true 64 (l.headD 0) then
              ropDone (tWrite s v b (wordsBytes [xw 0, xw 1])) [b] (1 :: l)
            else ropDone s [b] (0 :: l)
      | 7 =>
        match allSome ((upTo 4).map fun k => ropAt s e (o + intOfBits true 64 (xw k)) 8) with
        | none => .refuse 3
        | some l => readGate s bad l fun _ => ropDone s l (l.map fun b => leNat (tRead s b))
      | 8 =>
        match allSome ((upTo 4).map fun k => ropAt s e (o + intOfBits true 64 (xw k)) 8) with
        | none => .refuse 3
        | some l => writeGate s l fun _ =>
          ropDone ((l.zip (upTo 4)).foldl (fun t p => tWrite t v p.1 (leBytes 8 (xw (4 + p.2)))) s) [] []
      | 9 =>
        if n < 1 ∨ 16777215 < n ∨ !permBit e 60 ∨ !expSp e then .refuse 3
        else match ropAt s e o 8 with
          | none => .refuse 3
          | some b => writeGate s [b] fun _ =>
            let (s1, _) := lcArrive s (b.2.headD 0) n
            ropDone s1 [] [spNat s1 (b.2.headD 0) 8]
      | 10 =>
        if !isPow2 n ∨ 2 ^ 20 < n then .refuse 3
        else
          let ls := ((upTo 16).map fun i => leNat ((data.drop (4 * i)).take 4)).filter fun l => l != 0xFFFFFFFF
          match allSome (ls.map fun l => ropAt s e (o + 8 * (l % n) : Nat) 8) with
          | none => .refuse 3
          | some bs => readGate s bad bs fun _ => writeGate s bs fun _ =>
            ropDone (bs.foldl (fun t b => tWrite t v b (leBytes 8 (leNat (tRead t b) + 1))) s) [] [ls.length]
      | 11 =>
        let m := bitsOf n 18 16 + 1
        if 7 < m then .refuse 3
        else match ropAt s e o (8 * m), ropAt s e (o + n % 2 ^ 16 : Nat) 8 with
          | some b, some g => readGate s bad [g] fun _ => writeGate s [b, g] fun _ =>
            let s1 := tWrite s v b (wordsBytes ((upTo m).map xw))
            let y := (leNat (tRead s1 g) + 1) % 2 ^ 64
            ropDone (tWrite s1 v g (leBytes 8 y)) [] [y]
          | _, _ => .refuse 3
      | _ => .refuse 3

end Sys2Proof.Machine
end

