-- ==== Sys2Proof/Machine/FabEvents.lean ====
section
/-!
DEFINITION. Machine/FabEvents.lean: packets arriving, requests served at the target, replies, timeouts and faults of
direct accesses, and the bulk transfers with multicast (spec file 12, R302 to R304, R312 to R322; 01, R29).
-/
namespace Sys2Proof.Machine
open Sys2Proof Host

/-! Arriving packets (01 R29; 12 R303, R304, R320). -/

/-- The sender's 64-bit GTS: the value nearest the receiver's own that has the packet's low bits (01 R29). -/
def senderGts (s : State) (p : Packet) : Nat :=
  let diff := (p.gts - s.gts.truncate 24).toInt
  ((s.gts.toNat : Int) + diff).toNat

/-- The step of a stamped arrival: the larger of the counter and the sender's value plus one. -/
def stampGts (s : State) (p : Packet) : State := { s with gts := maxW s.gts (w64 (senderGts s p + 1)) }

/-- Bytes held in the multicast buffer. -/
def mcBytes (s : State) : Nat := s.fab.mcbuf.foldl (fun n e => n + e.2.1.data.length) 0

/-- The members of this device's group that a multicast's words name. -/
def mcMembers (s : State) (p : Packet) : List Nat :=
  ((upTo 32).filter fun x => (p.args.getD 1 0).getLsbD x).map fun x => 32 * groupOf s.devno + x

/-- A multicast copy that has entered this group and waits for buffer space. -/
def mcEntering (p : Packet) : Bool := p.kind == .mcast && p.args.headD 0 == 0

/-- Put entering multicast copies into the shared buffer, oldest first, while there is space for them (1 MiB). -/
def admitMc : Nat → State → State
  | 0, s => s
  | n + 1, s =>
    match s.fab.inbox.find? mcEntering with
    | some p =>
      if mcBytes s + p.data.length ≤ 0x100000 then
        admitMc n { s with fab := { s.fab with
          nextTag := s.fab.nextTag + 1
          inbox := s.fab.inbox.erase p
          mcbuf := s.fab.mcbuf ++ [(s.fab.nextTag, p, mcMembers s p)] } }
      else s
    | none => s

/-- A packet arrives: one for this device is delivered to it, any other goes on towards its target. A packet the device
sent to itself comes from its own switch. -/
def execPacketArrival (p : Packet) (s : State) : Outcome State Fault Refusal :=
  .next (
    if p.src = s.devno ∧ !s.fab.outbox.contains p then s
    else
      let s0 := if p.src = s.devno then { s with fab := { s.fab with outbox := s.fab.outbox.erase p } } else s
      let s1 := stampGts s0 p
      if p.dst = s.devno then
        admitMc 1 { s1 with fab := { s1.fab with inbox := s1.fab.inbox ++ [p] } }
      else { s1 with fab := { s1.fab with outbox := s1.fab.outbox ++ [p] } })

def dropInbox (s : State) (n : Nat) : State := { s with fab := { s.fab with inbox := s.fab.inbox.eraseIdx n } }
def inboxAt (s : State) (n : Nat) (k : PKind) : Option Packet := (s.fab.inbox[n]?).filter fun p => p.kind == k

/-- A switch sends a buffered multicast on one owed port while its lane is at GO, and frees the copy when none is owed. -/
def execMcastFlitForward (n port : Nat) (s : State) : Outcome State Fault Refusal :=
  .next (match s.fab.mcbuf.find? fun e => e.1 == n with
    | none => s
    | some (_, p, owed) =>
      if s.fab.stopped.contains (65536 + port, p.vl) then s
      else
        let now := owed.filter fun d => portOf s d == port
        let rest := owed.filter fun d => portOf s d != port
        let copy (d : Nat) : Packet :=
          { p with dst := d, gts := s.gts.truncate 24, args := p.args.set 0 (if groupOf d = groupOf s.devno then 1 else 0) }
        admitMc 1 { s with fab := { s.fab with
          outbox := s.fab.outbox ++ now.map copy
          mcbuf := if rest.isEmpty then s.fab.mcbuf.filter fun e => e.1 != n
            else s.fab.mcbuf.map fun e => if e.1 = n then (n, p, rest) else e } })

/-! Requests at the target (12 R311, R312, R318; 02 R66, R68). -/

/-- Requests on an ordering lane; multicasts keep their own order. -/
def isRequest (p : Packet) : Bool :=
  match p.kind with
  | .rld | .rst | .ramo | .rop | .put | .get => true
  | .mcast => p.args.headD 0 == 1
  | _ => false

/-- No earlier request or landing of the same source and lane is still waiting (12 R317). -/
def reqFirst (s : State) (n : Nat) (p : Packet) : Bool :=
  !((s.fab.inbox.take n).any fun q =>
    (isRequest q || q.kind == .landing) && q.src == p.src && q.lane == p.lane && (q.kind == .mcast) == (p.kind == .mcast))

/-- A request's own words. A multicast's come after its flag, its member mask and the vectors it carries for its targets, each
a device number and a vector; the target's own vector is put in front of the rest (02 R68). -/
def reqWords (s : State) (p : Packet) : List W64 :=
  if p.kind = .mcast then
    let n := (p.args.getD 2 0).toNat
    let own := (upTo n).find? fun i => (p.args.getD (3 + 5 * i) 0).toNat == s.devno
    (match own with
      | some i => (p.args.drop (4 + 5 * i)).take 4
      | none => stampWords zeroStamp) ++ p.args.drop (3 + 5 * n)
  else p.args

/-- What the target makes of a request. -/
def runRequest (s : State) (bad : Bool) (p : Packet) : TRes :=
  let w := reqWords s p
  let v := stampFrom w
  let a (i : Nat) : Nat := (w.getD i 0).toNat
  match p.kind with
  | .rld | .get => tGet s bad (reqPieces w) (reqHint w)
  | .ramo => tAmo s v bad (a 5) (a 6) (a 7) (w.getD 8 0) (reqLc w == 1) (reqHint w)
  | .rop => tRop s v bad (a 7) (a 5) (w.getD 8 0) p.data
  | _ => tPut s v (reqLc w) (reqPieces w) p.data (reqHint w)

/-- The request waits for the vector it carries and for bytes held at their homes; then it is done or refused. -/
def execRemoteRequestAtTarget (n : Nat) (bad : Bool) (s : State) : Outcome State Fault Refusal :=
  .next (match s.fab.inbox[n]? with
    | none => s
    | some p =>
      if isRequest p && reqFirst s n p && stampCovers (appliedAll s) (stampFrom (reqWords s p)) then
        let s1 := dropInbox (cacheExp s) n
        match runRequest s1 bad p with
        | .wait => s
        | .refuse cause => sendPkt s1 p.src 4 p.lane .refuse p.tag [w64 cause] []
        | .done s2 args data => sendPkt s2 p.src 4 p.lane .reply p.tag args data
      else s)

/-! Replies (12 R313, R314; 02 R68). -/

def getRed (s : State) (e : Nat) : Reduce := mapGet .none s.fab.reds e
def setRed (s : State) (e : Nat) (r : Reduce) : State := { s with fab := { s.fab with reds := mapSet s.fab.reds e r } }

/-- The reduction whose value awaits an acknowledgement under a tag. -/
def redAwaiting (s : State) (tag : Nat) : Option (Nat × Reduce) := s.fab.reds.find? fun p => (p.2.await.map (·.1)) == some tag

/-- Every rank's GRED at this device fails with a cause: 64 more than it stands for it in the result. -/
def redFail (s : State) (e cause : Nat) : State :=
  let r := getRed s e
  setRed { s with fab := { s.fab with redRes := s.fab.redRes ++ r.ranks.map fun p => (p.2.1, e, 64 + cause, []) } } e
    { r with ranks := [], sent := false, await := none, gen := if r.sent then r.gen + 1 else r.gen }

/-- One member or peer has answered a queued command's request: data for a read, or an acknowledgement; the command goes
on when the last has answered, and a failure is kept until then (12 R320). -/
def answerAwait (s : State) (a : Await) (res : Except Nat Packet) : State :=
  let s1 := { s with fab := { s.fab with awaits := s.fab.awaits.erase a } }
  match (cmdsOf s1 a.ctx a.q).find? fun k => k.seq == a.seq with
  | none => s1
  | some k =>
    let more := s1.fab.awaits.any fun b => b.tag == a.tag
    let failed := match res with
      | .error c => c
      | .ok _ => k.aux.getD 2 0
    let k1 := match res with
      | .ok p => if p.args.headD 0 == 1 && p.kind == PKind.reply then { k with flags := k.flags ||| 2 } else k
      | .error _ => k
    let aux : List Nat := match k.aux.headD 0, res with
      | 1, .ok p => 2 :: p.data.map (·.toNat)
      | 1, .error c => [5, c]
      | n, _ => if more then [n, a.tag, failed] else if failed = 0 then [4] else [5, failed]
    setCmd s1 a.ctx { k1 with aux := aux }

def dropDirect (s : State) (id : Nat) : State := { s with fab := { s.fab with dirs := s.fab.dirs.filter fun e => e.id != id } }

/-- A direct access is acknowledged: its value lands, or its store is done. -/
def answerDirect (s : State) (d : Direct) (p : Packet) : State :=
  let st := stampFrom (p.args.drop 1)
  let s0 := if d.strong && d.op != 2 then raiseFrom s d.ctx d.id (liveStamps s d.ctx) else s
  let s1 := remoteDone s0 d.ctx d.seq d.peer (if d.op = 2 then zeroStamp else st)
  let s2 := { s1 with fab := { s1.fab with dirs := s1.fab.dirs.filter fun e => e.id != d.id } }
  match d.dest with
  | .none => s2
  | _ => addLanding s2 ⟨d.ctx, d.seq, destUpds d.dest p.data, d.token, d.slot.map fun j => (j, st, some d.peer), none⟩

def execRemoteReplyArrival (n : Nat) (s : State) : Outcome State Fault Refusal :=
  .next (match s.fab.inbox[n]? with
    | none => s
    | some p =>
      if p.kind != .reply && p.kind != .refuse && p.kind != .landAck then s
      else
        let cause := (p.args.headD 0).toNat
        match s.fab.dirs.find? fun d => d.tag == p.tag && d.peer == p.src && d.st == .sent with
        | some d =>
          if d.late.isSome then s
          else if 512 ≤ d.ctx then portPump (dropDirect (dropInbox s n) d.id) d.ctx
          else
            let s1 := dropInbox s n
            portPump (if p.kind = .refuse then failDirect s1 d.id cause else answerDirect s1 d p) d.ctx
        | none =>
          let s1 := dropInbox s n
          match s.fab.awaits.find? fun a => a.tag == p.tag && a.peer == p.src with
          | some a => portPump (answerAwait s1 a (if p.kind = .refuse then .error cause else .ok p)) a.ctx
          | none => match redAwaiting s p.tag with
            | some (e, r) => setRed s1 e { r with await := none }
            | none => s1)

/-- 100,000 cycles of a context's cluster after sending without an acknowledgement (00 R4). -/
def overdue (s : State) (c sent : Nat) : Bool := decide (sent + 100000 ≤ ccyOf s (c % 512))

def execRemoteTimeout (tag : Nat) (s : State) : Outcome State Fault Refusal :=
  .next (match s.fab.dirs.find? fun d => d.tag == tag && d.st == .sent && d.late.isNone && overdue s d.ctx d.cyc with
    | some d => portPump (if 512 ≤ d.ctx then dropDirect s d.id else failDirect s d.id 2) d.ctx
    | none =>
      match s.fab.awaits.find? fun a => a.tag == tag && overdue s a.ctx a.sent with
      | some a => portPump (answerAwait s a (.error 2)) a.ctx
      | none => match redAwaiting s tag with
        | some (e, r) => if r.await.any fun a => overdue s a.2.1 a.2.2 then redFail s e 2 else s
        | none => s)

/-! Faults of direct accesses (12 R314). -/

def failedCause (d : Direct) : Option Nat := match d.st with | .failed c => some c | _ => none

/-- The held failure of lowest SEQ, with no access of lower SEQ outstanding. -/
def nextFailure (s : State) (c : Nat) : Option (Direct × Nat) :=
  let l := s.fab.dirs.filter fun d => d.ctx == c && d.late.isNone
  l.findSome? fun d => match failedCause d with
    | some cause => if l.any fun e => decide (e.xf < d.xf) then none else some (d, cause)
    | none => none

/-- The access leaves the port; its token clears and its slot has no load pending. -/
def endFailed (s : State) (d : Direct) : State :=
  let s1 := remoteDone s d.ctx d.seq d.peer zeroStamp
  let s2 := updArch s1 d.ctx fun a => { a with
    tok := match d.token with | some t => a.tok &&& ~~~(1#8 <<< t) | none => a.tok
    block := if a.block = some d.seq then none else a.block }
  { s2 with fab := { s2.fab with dirs := s2.fab.dirs.filter fun e => e.id != d.id } }

def execFabricFaultDelivery (ctx : Nat) (s : State) : Outcome State Fault Refusal :=
  .next (match nextFailure s ctx with
    | none => s
    | some (d, cause) =>
      match (getArch s ctx).phase with
      | .running | .waiting =>
        if (getArch s ctx).tcause.getLsbD 63 || trapWaits s ctx || !(getCtx s ctx).late.isEmpty || frozenAt s ctx || saving s ctx then s
        else asyncTrap (endFailed s d) ctx 0x11 cause (w64 (4 + d.xf % 2 ^ 16 * 2 ^ 16))
      | .exiting => putElem (endFailed s d) ctx ⟨4, statWord 3 cause (d.xf % 2 ^ 16) 0, 0, zeroStamp, ccyOf s ctx⟩
      | _ => s)

/-! The set table (12 R321, R322). -/

def setTable (s : State) : List (List W64) := s.fab.setCache.getD (readTable s s.fab.fxset)
def cacheSet (s : State) : State := { s with fab := { s.fab with setCache := some (setTable s) } }

def setId (e : List W64) : Nat := (e.getD 0 0).toNat % 2 ^ 32
def setCnt (e : List W64) : Nat := bitsOf (e.getD 0 0).toNat 52 48 + 1
def setMem (e : List W64) : Nat := (e.getD 1 0).toNat % 2 ^ 32
def setGlo (e : List W64) : Nat := (e.getD 2 0).toNat % 2 ^ 17
def setGroups (e : List W64) : Nat := bitsOf (e.getD 2 0).toNat 40 24 + 1
def setStr (e : List W64) : Nat := bitsOf (e.getD 2 0).toNat 63 48

/-- Group i of a set, and the index of a group in it. -/
def setGroup (e : List W64) (i : Nat) : Nat := setGlo e + i * setStr e
def setIndex (e : List W64) (g : Nat) : Option Nat :=
  if g < setGlo e then none
  else
    let o := g - setGlo e
    if setStr e = 0 then (if o = 0 then some 0 else none)
    else if o % setStr e = 0 ∧ o / setStr e < setGroups e then some (o / setStr e) else none

/-- The member indices of each group. -/
def setXs (e : List W64) : List Nat := (upTo 32).filter fun x => (setMem e).testBit x

/-- A usable entry: it is in the table, names a member, a stride in its range, and groups that are configured. -/
def setEntry (s : State) (n : Nat) : Option (List W64) :=
  match (setTable s)[n]? with
  | some e =>
    if setMem e != 0 && setStr e != 0 && decide (setGroup e (setGroups e - 1) ≤ s.fab.ngrp) then some e else none
  | none => none

def setHas (e : List W64) (d : Nat) : Bool := (setIndex e (groupOf d)).isSome && (setMem e).testBit (d % 32)

/-- The root combiner, and the combiner of a group: the device holding its channel towards the root group. -/
def setRoot (e : List W64) : Nat := 32 * setGlo e + (setXs e).headD 0

/-! Bulk transfers (12 R319, R320). -/

def notHost (k : Cls) : Bool := k != .host
def noCls (_ : Cls) : Bool := false

/-- The shared push of RPUT, RGET and MCAST: the descriptor as the copy engine checks it, with E15 as given, and the two
sides. -/
def bulkWord (opc : Nat) (f : Fields) (s : State) (i : Instr) (localLc : Bool) (e15 : Nat → Bool)
    (sides : State → Nat → Quarter → Except Stop (List Side)) : State :=
  runWord opc false false 1 f s fun s c => do
    let d := descOf (getArch s c) f.o5
    copyForm s c d localLc
    faultIf (!e15 (dField d 15)) 15
    let l ← sides s c d
    let (_, pg) ← checkWalk s c d (2 ^ dEsize d) l
    let s1 ← pushCmd s c { mkCmd s c f 4 i d with pins := pg }
    ok s1

def srcSide (i : Instr) (a : W64) (d : Quarter) (remote : Bool) : Side :=
  ⟨a, 4, .pushRead, if remote then noCls else notHost, remote, copySrc i a d []⟩
def dstSide (i : Instr) (a : W64) (d : Quarter) (remote : Bool) : Side :=
  ⟨a, 8, .pushWrite, if remote then noCls else notHost, remote, copyDst i a d []⟩

def execRput (f : Fields) (s : State) : Outcome State Fault Refusal :=
  .next (bulkWord 0x204 f s (.rput f) false (· == 0) fun s c d =>
    let a := getArch s c
    .ok [srcSide (.rput f) (addrOf a f.o3 f.o4) d false, dstSide (.rput f) (addrOf a f.o1 f.o2) d true])

def execRget (f : Fields) (s : State) : Outcome State Fault Refusal :=
  .next (bulkWord 0x205 f s (.rget f) true (· == 0) fun s c d =>
    let a := getArch s c
    .ok [srcSide (.rget f) (addrOf a f.o3 f.o4) d true, dstSide (.rget f) (addrOf a f.o1 f.o2) d false])

/-- A multicast's destination is a window offset; it is checked as the same offset of a remote address. -/
def execMcast (f : Fields) (s : State) : Outcome State Fault Refusal :=
  .next (bulkWord 0x206 f s (.mcast f) false (fun x => decide (x < 256)) fun s c d =>
    let a := getArch s c
    let o := addrOf a f.o1 f.o2
    if 2 ^ 41 ≤ o.toNat then trapW 0x04 o
    else .ok [srcSide (.mcast f) (addrOf a f.o3 f.o4) d false, dstSide (.mcast f) (o ||| (1#64 <<< 63)) d true])

def isGet (k : Cmd) : Bool := match k.instr with | .rget _ => true | _ => false
def isMcast (k : Cmd) : Bool := match k.instr with | .mcast _ => true | _ => false

/-! Reductions and sends on rings, as far as their start needs them (12 R325 to R328). -/

def gredEntry (k : Cmd) : Nat := k.x5.toNat % 256
def gredRank (k : Cmd) : Nat := bitsOf k.x5.toNat 12 8
def gredN (k : Cmd) : Nat := bitsOf k.x5.toNat 18 16 + 1

/-- The set entry of a GRED, where the device is a member of it. -/
def gredSet (s : State) (k : Cmd) : Option (List W64) := (setEntry s (gredEntry k)).filter fun w => setHas w s.devno

def sendCt (k : Cmd) : Bool := match k.instr with | .plsend f => modBit f 80 | _ => false

/-- A send's place in its step: ring, step and length. -/
def sendStep (k : Cmd) : Nat := k.x4.toNat % 2 ^ 32

/-- What is wrong with a send: the ring is not open or not the task's, the step does not ascend, the block is too large,
or a cut-through of step 0. -/
def sendWrong (s : State) (c : Nat) (k : Cmd) : Bool :=
  match ownRing s c k.x1.toNat with
  | none => true
  | some r => (match r.last with | some l => decide (sendStep k ≤ l) | none => false) || decide (r.blk < sendLen k.x5 r.blk)
      || (sendCt k && sendStep k == 0)

/-- The watermark allows the step. -/
def sendAllowed (r : Ring) (st : Nat) : Bool := match r.swm with | some w => decide (st < w + r.ns) | none => false

/-- The scratchpad bytes a qf command reads: a descriptor's or a reduction's source, a plain send's source, a cut-through's slot. -/
def xfRd (s : State) (c : Nat) (k : Cmd) : List Nat :=
  match k.instr with
  | .rget _ => []
  | .gred _ => (upTo (8 * gredN k)).map fun i => spAddr s c ((k.x3 + k.x4).toNat + i)
  | .plsend _ => match ownRing s c k.x1.toNat with
    | some r =>
      let n := sendLen k.x5 r.blk
      if sendCt k then (upTo n).map fun i => spAddr s c (slotAt r (sendStep k - 1) + i)
      else if 0x200000 ≤ (k.x2 + k.x3).toNat then []
      else (upTo n).map fun i => spAddr s c ((k.x2 + k.x3).toNat + i)
    | none => []
  | _ => copyRd s c k
/-- The scratchpad bytes it writes. -/
def xfWr (s : State) (c : Nat) (k : Cmd) : List Nat :=
  match k.instr with
  | .rget _ => copyWr s c k
  | .gred _ => (upTo (8 * gredN k)).map fun i => spAddr s c ((k.x1 + k.x2).toNat + i)
  | _ => []

/-- What a command waits for beyond cmdReady: a reduction for every earlier access of the context and for room among its device's
ranks; a send for the ring's watermark and for the direct accesses of its lane (12 R317, R325, R327). -/
def xfWaits (s : State) (c : Nat) (k : Cmd) : Bool :=
  match k.instr with
  | .gred _ => match gredSet s k with
    | some w => decide (gredRank k < setCnt w) &&
        (earlierAcc s c k.before || awaitsBefore s c k.before || decide (setCnt w ≤ (getRed s (gredEntry k)).ranks.length))
    | none => false
  | .plsend _ => match ownRing s c k.x1.toNat with
    | some r => !sendWrong s c k && reachable s r.succ && (!sendAllowed r (sendStep k) || !portClear s c r.lane k)
    | none => false
  | _ => false

/-! Which command starts (01 R16). The port runs the commands of several contexts at once, one of each queue: a reduction must wait
for the others. -/

/-- The command of a context that could start but for its locks. -/
def fabAsks (s : State) (c : Nat) : Option Cmd :=
  (execHead s c 4).filter fun k => !k.started && !spStopped s (xfRd s c k ++ xfWr s c k) && engineMay s c k && cmdReady s c k && !xfWaits s c k
def fabStartable (s : State) (c : Nat) : Option Cmd :=
  (fabAsks s c).filter fun k => lockFree s (coreOf c) c 4 k.seq (xfRd s c k) (xfWr s c k)

/-- A context whose next command finds its granules locked asks for them (02 R63). -/
def fabAsk (s : State) (c : Nat) : State :=
  match fabAsks s c, fabStartable s c with
  | some k, none => askLocks s (coreOf c) c 4 k.seq (xfRd s c k) (xfWr s c k)
  | _, _ => s

/-- The context whose command starts next. -/
def fabNext (s : State) : Option Nat :=
  rrPick s (classes s) s.fab.rr ((s.ctxs.map (·.1)).filter fun c => (fabStartable s c).isSome)

/-- The qf command an event may run: it is executing, or starts next. -/
def fabHead (s : State) (c : Nat) (kind : Instr → Bool) : Option Cmd :=
  match execHead s c 4 with
  | some k =>
    if kind k.instr && engineMay s c k && k.held.isNone && (k.started && !spStopped s (xfRd s c k ++ xfWr s c k) || fabNext s == some c) then
      some k
    else none
  | none => none

/-- Start the command where it has not started: its locks, and its place in the round robin. -/
def fabStart (s : State) (c : Nat) (k : Cmd) : State × Cmd :=
  if k.started then (s, k)
  else
    let k1 := { k with started := true }
    let s1 := takeLocks (setCmd s c k1) (coreOf c) c 4 k.seq (xfRd s c k) (xfWr s c k)
    ({ s1 with fab := { s1.fab with rr := c } }, k1)

/-- A qf command fails: its element alone; later entries execute (12 R314). -/
def fabFail (s : State) (c : Nat) (k : Cmd) (cause : Nat) : State :=
  finishFire (dropLocks s c 4 k.seq) c k 3 cause (k.fired % 2 ^ 16) (w64 (k.prog % 2 ^ 32))

/-- It completes with a value; an arrival that newly set ERR makes a note. -/
def fabDone (s : State) (c : Nat) (k : Cmd) (val : W64) : State :=
  let note := k.flags.getLsbD 1
  finishFire (dropLocks s c 4 k.seq) c k (if note then 1 else 0) (if note then 2 else 0) (k.fired % 2 ^ 16) val

/-- The counter a block's request names at its target. -/
def remoteLc (k : Cmd) : Nat := if dLcen k.desc then dField k.desc 14 + 1 else 0

/-- Send a block to every member of the set: one copy for each member of this group and one for each other group's entry
device, through the shared buffer. An unreachable member fails the command once the others have acknowledged. -/
def mcastBlock (s : State) (c : Nat) (k : Cmd) (e : List W64) (l : List Nat) (bs : List Byte) : State :=
  let groups := (upTo (setGroups e)).map (setGroup e)
  let members := groups.flatMap fun g => (setXs e).map fun x => 32 * g + x
  let far := members.filter (reachable s)
  let fail := if far.length = members.length then 0 else 2
  if far.isEmpty then fabFail s c k 2
  else
    let tag := s.fab.nextTag
    let pieces := (blockCells k l bs).map fun p => (offOf p.1, p.2.length)
    let vs := (far.map fun d => (d, remoteVec s c d k.taint)).filter fun p => p.2 != zeroStamp
    let own := far.filter fun d => groupOf d == groupOf s.devno
    let gates := ((far.filter fun d => groupOf d != groupOf s.devno).map groupOf).eraseDups.map (entryDev s)
    let p : Packet := ⟨s.devno, s.devno, laneOf k, laneOf k, .mcast, tag, [0, w64 (setMem e), w64 vs.length] ++ (vs.flatMap fun p => w64 p.1 :: stampWords p.2)
        ++ (reqArgs zeroStamp (remoteLc k) pieces (hintOf k.instr)).drop 4, bs,
      s.gts.truncate 24, none, false, regionOfCtx s c, 0⟩
    setCmd { s with fab := { s.fab with
      nextTag := tag + 1
      mcbuf := s.fab.mcbuf ++ [(tag, p, own ++ gates)]
      awaits := s.fab.awaits ++ far.map fun d => ⟨tag, c, 4, k.seq, k.before, d, laneOf k, ccyOf s c⟩ } } c { k with aux := [3, tag, fail] }

/-- A block's destination: at home for RGET, at the peer for RPUT, at every member for MCAST. -/
def bulkWrite (s : State) (c : Nat) (k : Cmd) (l : List Nat) (bs : List Byte) : State :=
  if isMcast k then
    if !portClear s c (laneOf k) k || decide (0x100000 < mcBytes s + bs.length) then setCmd s c { k with aux := 2 :: bs.map (·.toNat) }
    else match setEntry s (dField k.desc 15 % 256) with
      | none => fabFail s c k 4
      | some e => mcastBlock s c k e l bs
  else writeBlock s c (remoteLc k) k l bs fabFail

/-- One step of a bulk transfer. -/
def bulkStep (s : State) (c : Nat) (k : Cmd) (bad : Bool) : State :=
  if dTotal k.desc ≤ k.prog then fabDone s c k s.gts
  else
    let l := blockOf k k.prog
    match k.aux with
    | [] =>
      match readBlock s c k (laneOf k) l bad false [] with
      | .fail cause => fabFail (if bad && cause == 1 then blockSeen s c k l true else s) c k cause
      | .wait s1 k1 => setCmd s1 c k1
      | .data bs st => bulkWrite (blockSeen s c k l false) c { k with stamp := stampMax k.stamp st } l bs
    | 2 :: bs => bulkWrite s c k l (bs.map (BitVec.ofNat 8))
    | [4] => blockLanded s c k l (isGet k)
    | [5, cause] => fabFail s c k cause
    | _ => s

/-- Run a bulk transfer of one kind at the head of a context's xf; a gate held by a gate fails. -/
def bulkRun (s : State) (c : Nat) (kind : Instr → Bool) (bad : Bool) : State :=
  match fabHead s c kind with
  | none => fabAsk s c
  | some k =>
    let s0 := if isMcast k then cacheSet s else s
    let (s1, k1) := fabStart s0 c k
    if isGate k then fabFail s1 c k1 5
    else if !k.started && isMcast k && dTotal k.desc != 0 && (setEntry s0 (dField k.desc 15 % 256)).isNone then fabFail s1 c k1 4
    else portPump (bulkStep s1 c k1 bad) c

/-- The commands each event runs. -/
def rputKind (i : Instr) : Bool := match i with | .rput _ | .carm _ => true | _ => false
def rgetKind (i : Instr) : Bool := match i with | .rget _ => true | _ => false
def mcastKind (i : Instr) : Bool := match i with | .mcast _ => true | _ => false

def execRputExec (ctx : Nat) (bad : Bool) (s : State) : Outcome State Fault Refusal :=
  .next (bulkRun s ctx rputKind bad)
def execRgetExec (ctx : Nat) (bad : Bool) (s : State) : Outcome State Fault Refusal :=
  .next (bulkRun s ctx rgetKind bad)
def execMcastExec (ctx : Nat) (bad : Bool) (s : State) : Outcome State Fault Refusal :=
  .next (bulkRun s ctx mcastKind bad)

/-! Table registers (12 R310). -/

/-- A write of FXEXP or FXSET: the reserved bits read zero, and every cached entry is discarded. -/
def tableReg (x : W64) : W64 := x &&& 0xFF00007FFFFFFF00
def fxexpWrite (s : State) (x : W64) : State := { s with fab := { s.fab with fxexp := tableReg x, expCache := none, setCache := none } }
def fxsetWrite (s : State) (x : W64) : State := { s with fab := { s.fab with fxset := tableReg x, expCache := none, setCache := none } }
def execFxexpWrite (x : W64) (s : State) : Outcome State Fault Refusal := .next (fxexpWrite s x)
def execFxsetWrite (x : W64) (s : State) : Outcome State Fault Refusal := .next (fxsetWrite s x)

end Sys2Proof.Machine
end

