-- ==== Sys2Proof/Machine/Collect.lean ====
section
/-!
DEFINITION. Machine/Collect.lean: barriers and reductions over sets: GSYNC and GRED, arrivals, releases, deadlines
(spec file 12, R321 to R325).
-/
namespace Sys2Proof.Machine
open Sys2Proof Host

/-! Barriers (12 R323, R324). -/

def getBar (s : State) (e : Nat) : Barrier := mapGet .none s.fab.bars e
def setBar (s : State) (e : Nat) (b : Barrier) : State := { s with fab := { s.fab with bars := mapSet s.fab.bars e b } }

/-- Arrivals recorded for a generation. -/
def arrCount (b : Barrier) (g : Nat) : Nat := (b.arr.filter fun a => a.2.1 == g).length

/-- The first generation, from the current one on, with room for another task. -/
def roomGen (b : Barrier) (cnt : Nat) : Nat :=
  ((upTo (b.arr.length + 1)).find? fun i => decide (arrCount b (b.gen + i) < cnt)).elim b.gen fun i => b.gen + i

/-- The word GSYNC returns. -/
def gsyncWord (status gen : Nat) : W64 := w64 (status * 2 ^ 60 + gen % 2 ^ 32)

/-- A task's arrival that has not been released. -/
def arrivalOf (b : Barrier) (serial : Nat) : Option Nat := (b.arr.find? fun a => a.1 == serial).map fun a => a.2.1

/-- The combiner of this device's group for a set (12 R322). -/
def combinerOf (s : State) (e : List W64) : Nat :=
  if groupOf s.devno = setGlo e then setRoot e else 32 * groupOf s.devno + (gateOf s (setGlo e)).1

/-- Send the device's arrival for its next generation once every task has arrived for it. -/
def sendArrival (s : State) (e : Nat) (w : List W64) : State :=
  let b := getBar s e
  if arrCount b b.sent = setCnt w ∧ b.gen ≤ b.sent then
    sendPkt (setBar s e { b with sent := b.sent + 1 }) (combinerOf s w) 5 0 .arrive 0 ([w64 e, w64 b.sent] ++ w) []
  else s

/-- A released GSYNC's arrival is recorded for the oldest generation with room. -/
def gsyncArrive (s : State) (e serial : Nat) : State :=
  let s1 := cacheSet s
  let b := getBar s1 e
  match setEntry s1 e with
  | none => s1
  | some w =>
    if (arrivalOf b serial).isSome then s1
    else sendArrival (setBar s1 e { b with arr := b.arr ++ [(serial, roomGen b (setCnt w), false)] }) e w

/-- GSYNC arrives and waits; one whose arrival is already recorded waits on, and one whose release came while it was away
returns at once. -/
def execGsync (f : Fields) (s : State) : Outcome State Fault Refusal :=
  .next (runWord 0x207 false false 1 f s fun s c =>
    let a := getArch s c
    let r := idxOf f.o1
    let e := (valOf a f.o2).toNat % 256
    let dl := if f.o3 = .none then none else some (valOf a f.o3)
    match replayWait s c with
    | some s1 => .error (.wait s1)
    | none =>
      let s0 := cacheSet s
      let b := getBar s0 e
      let serial := serialOf s0 c
      let ready := (setEntry s0 e).any fun w => setHas w s0.devno
      if !ready then .error (.wait (finishWait s0 c r (gsyncWord 4 0) none))
      else match b.owed.find? fun o => o.1 == serial with
        | some o =>
          let s1 := setBar s0 e { b with owed := b.owed.erase o }
          .error (.wait (finishWait s1 c r (gsyncWord o.2.2 o.2.1) (if o.2.2 = 0 then some (appliedAll s) else none)))
        | none =>
          if (arrivalOf b serial).isSome then
            let s1 := setBar s0 e { b with arr := b.arr.map fun x => if x.1 = serial then (x.1, x.2.1, false) else x }
            .error (.wait (parkAt s1 c .gsync r dl e 0 0))
          else if !(quietAcc s c && !awaitsBefore s c s.nextId) then stallW
          else do
            let s1 ← holdEff (baseLive s0 c) c (.push { mkCmd s0 c f 7 (.gsync f) 0 with aux := [e, serial] })
            .error (.wait (sealHeld s0 (parkAt s1 c .gsync r dl e 0 0) c)))

/-- A parked GSYNC of an entry. -/
def gsyncParked (s : State) (c e : Nat) : Option Park :=
  (getArch s c).park.filter fun k => k.kind == .gsync && k.addr == e

/-- A generation's release reaches a task: a waiting context goes on; a task that is away finds it when its GSYNC runs
again. -/
def gsyncRelease (s : State) (c e gen status : Nat) : State :=
  match gsyncParked s c e with
  | some k => finishWait s c k.dest (gsyncWord status gen) (if status = 0 then some (appliedAll s) else none)
  | none =>
    let b := getBar s e
    setBar s e { b with owed := b.owed ++ [(serialOf s c, gen, status)] }

/-- The same for a task by its serial number; a context of a stopped cluster takes it when the clock restarts. -/
def releaseTask (s : State) (e gen : Nat) (bad : Bool) (serial : Nat) : State :=
  let status := if bad then 3 else 0
  match ctxOfSerial s serial with
  | some c => heldStop s c (.gsyncRelease e gen bad) fun s => gsyncRelease s c e gen status
  | none =>
    if s.saved.any fun v => v.bind.serial == serial then
      let b := getBar s e
      setBar s e { b with owed := b.owed ++ [(serial, gen, status)] }
    else s

/-- A member takes a release: the generation is over for every task that arrived for it; one whose GSYNC returned at its
deadline has nothing more to take. -/
def barRelease (s : State) (e gen : Nat) (bad : Bool) : State :=
  let b := getBar s e
  if gen < b.gen then s
  else
    let mine := b.arr.filter fun a => a.2.1 == gen
    let s1 := setBar s e { b with gen := gen + 1, sent := max b.sent (gen + 1), arr := b.arr.filter fun a => a.2.1 != gen }
    (mine.filter fun a => !a.2.2).foldl (fun t a => releaseTask t e gen bad a.1) s1

def gsyncDeadline (s : State) (c : Nat) : State :=
  match (getArch s c).park with
  | some k =>
    let b := getBar s k.addr
    match k.kind == .gsync && pastDeadline s k, arrivalOf b (serialOf s c) with
    | true, some g =>
      finishWait (setBar s k.addr { b with arr := b.arr.map fun x => if x.1 = serialOf s c then (x.1, x.2.1, true) else x }) c k.dest
        (gsyncWord 1 g) none
    | _, _ => s
  | none => s

def execGsyncDeadline (ctx : Nat) (s : State) : Outcome State Fault Refusal :=
  .next (heldStop s ctx .gsyncDeadline fun s => gsyncDeadline s ctx)

/-- An abort token ends the waits of GSYNC with status 2; the arrivals stay recorded. -/
def gsyncAbort (s : State) (c : Nat) : State :=
  match (getArch s c).park with
  | some k =>
    if k.kind == .gsync then
      let b := getBar s k.addr
      let serial := serialOf s c
      let g := (arrivalOf b serial).getD b.gen
      finishWait (setBar s k.addr { b with arr := b.arr.map fun x => if x.1 = serial then (x.1, x.2.1, true) else x }) c k.dest (gsyncWord 2 g) none
    else s
  | none => s

/-! Combining arrivals. -/

/-- Send to every device of a list on VL 5. -/
def sendAll (s : State) (l : List Nat) (kind : PKind) (args : List W64) : State :=
  l.foldl (fun t d => sendPkt t d 5 0 kind 0 args []) s

/-- The members of a group of a set. -/
def groupMembers (e : List W64) (g : Nat) : List Nat := (setXs e).map fun x => 32 * g + x

/-- A group's combiner takes a device's arrival, and passes the group's on when every member's is in. -/
def barDevArrive (s : State) (src : Nat) (l : List W64) : State :=
  let e := (l.headD 0).toNat
  let gen := (l.getD 1 0).toNat
  let w := l.drop 2
  let b := getBar s e
  let devs := b.devs ++ [(src, gen, setId w)]
  let mine := devs.filter fun d => d.2.1 == gen
  if mine.length < (setXs w).length then setBar s e { b with devs := devs }
  else
    let bad := mine.any fun d => d.2.2 != (mine.headD (0, 0, 0)).2.2
    sendAll (setBar s e { b with devs := devs.filter fun d => d.2.1 != gen }) [setRoot w] .groupArrive
      ([w64 e, w64 gen, if bad then 1 else 0] ++ w)

/-- The root combiner takes a group's arrival, and releases the generation when every group's is in. A SETID other than
the root's own is a mismatch. -/
def barGroupArrive (s : State) (src : Nat) (l : List W64) : State :=
  let e := (l.headD 0).toNat
  let gen := (l.getD 1 0).toNat
  let w := l.drop 3
  let own := (setEntry s e).getD w
  let b := getBar s e
  let groups := b.groups ++ [(src, gen, l.getD 2 0 != 0 || setId w != setId own)]
  let mine := groups.filter fun d => d.2.1 == gen
  if mine.length < setGroups own then setBar s e { b with groups := groups }
  else
    let bad := mine.any fun d => d.2.2
    sendAll (setBar s e { b with groups := groups.filter fun d => d.2.1 != gen }) (mine.map (·.1)) .release
      ([w64 e, w64 gen, if bad then 1 else 0, 1] ++ own)

/-! Reductions (12 R325). -/

def gredTy (code : Nat) : RedTy :=
  match code with
  | 0x0D => .int false 64 | 0x06 => .fx | 0x11 => .flt .f64
  | _ => .int true 64


/-- Op, type, saturation and element count as one number: what participants must agree on. -/
def gredShape (f : Fields) (n : Nat) : Nat := modBits f 81 80 + 4 * modTy f + 2 ^ 8 * n + (if modBit f 82 then 2 ^ 12 else 0)
def shapeN (x : Nat) : Nat := bitsOf x 11 8
def shapeTy (x : Nat) : RedTy := gredTy (bitsOf x 7 2)
def shapeOp (x : Nat) : RedOp := redOpOf (x % 4)
def shapeSat (x : Nat) : Bool := x.testBit 12

/-- A scratchpad range of the window, 8-aligned. -/
def gredRange (s : State) (c : Nat) (va : W64) (n : Nat) : Except Stop Unit :=
  let x := va.toNat
  if x < 2 ^ 63 ∧ 2 ^ 41 ≤ x then trapW 0x04 va
  else if x % 8 ≠ 0 then trapW 0x07 va
  else if 0x200000 ≤ x then trapW 0x05 va
  else if spLen s c < x + n then trapW 0x06 va
  else .ok ()

def execGred (f : Fields) (s : State) : Outcome State Fault Refusal :=
  .next (runWord 0x208 false false 1 f s fun s c => do
    let a := getArch s c
    let k := mkCmd s c f 4 (.gred f) 0
    gredRange s c (addrOf a f.o3 f.o4) (8 * gredN k)
    gredRange s c (addrOf a f.o1 f.o2) (8 * gredN k)
    let s1 ← pushCmd s c k
    ok s1)

/-- The tree over lists of elements, one result per element, with every flag set (12 R325; 04 R117). -/
def vecTree (shape : Nat) (l : List (List W64)) : List W64 × Flags :=
  let r := (upTo (shapeN shape)).map fun i =>
    pairTree (shapeTy shape) (shapeOp shape) (shapeSat shape) (l.map fun v => (v.getD i 0).toNat)
  (r.map fun p => w64 p.1, r.foldl (fun f p => f ||| p.2) 0)

def identVec (shape : Nat) : List W64 := List.replicate (shapeN shape) (w64 (identBits (shapeTy shape) (shapeOp shape)))

/-- Send the device's value once every rank's is in, and await the combiner's acknowledgement, timed on the cluster of context c;
equal ranks and differing shapes are a mismatch; a combiner no packet can reach fails every rank at once (12 R314, R325). -/
def sendRed (s : State) (c e : Nat) (w : List W64) : State :=
  let r := getRed s e
  if r.ranks.length < setCnt w ∨ r.sent then s
  else if !reachable s (combinerOf s w) then redFail s e 2
  else
    let shape := (r.ranks.headD (0, 0, 0, [])).2.2.1
    let bad := r.ranks.any (fun p => p.2.2.1 != shape) || ((r.ranks.map (·.1)).eraseDups.length != r.ranks.length)
    let (v, fl) := vecTree shape ((upTo (setCnt w)).map fun i =>
      match r.ranks.find? fun p => p.1 == i with | some p => p.2.2.2 | none => identVec shape)
    let s1 := { s with fab := { s.fab with nextTag := s.fab.nextTag + 1 } }
    sendPkt (setRed s1 e { r with sent := true, await := some (s.fab.nextTag, c, ccyOf s c) }) (combinerOf s w) 5 0 .redArrive s.fab.nextTag
      ([w64 e, w64 r.gen, if bad then 1 else 0, w64 shape, w64 fl.toNat] ++ w ++ v) []

/-- The words of a reduction packet after the set entry's four. -/
def redVals (l : List W64) : List W64 := l.drop 9
def redSet (l : List W64) : List W64 := (l.drop 5).take 4

/-- A combiner holds the values of all its parts: whether they agree, and the tree over their places. -/
def redCombine (own : List W64) (parts : List (Nat × List W64)) (width : Nat) (place : Nat → Option Nat) : Bool × Nat × List W64 × Flags :=
  let first := (parts.headD (0, [])).2
  let shape := (first.getD 3 0).toNat
  let bad := parts.any fun p => p.2.getD 2 0 != 0 || (p.2.getD 3 0).toNat != shape || setId (redSet p.2) != setId own
  let leaf (i : Nat) : List W64 := match parts.find? fun p => place p.1 == some i with
    | some p => redVals p.2
    | none => identVec shape
  let (v, fl) := vecTree shape ((upTo width).map leaf)
  (bad, shape, v, parts.foldl (fun f p => f ||| BitVec.ofNat 6 (p.2.getD 4 0).toNat) fl)

def redDevArrive (s : State) (src : Nat) (l : List W64) : State :=
  let e := (l.headD 0).toNat
  let num := (l.getD 1 0).toNat
  let w := redSet l
  let r := getRed s e
  let devs := r.devs ++ [(src, num, l)]
  let mine := devs.filter fun d => d.2.1 == num
  if mine.length < (setXs w).length then setRed s e { r with devs := devs }
  else
    let (bad, shape, v, fl) := redCombine w (mine.map fun d => (d.1, d.2.2)) 32 fun d => some (d % 32)
    sendAll (setRed s e { r with devs := devs.filter fun d => d.2.1 != num }) [setRoot w] .redGroup
      ([w64 e, w64 num, if bad then 1 else 0, w64 shape, w64 fl.toNat] ++ w ++ v)

def redGroupArrive (s : State) (src : Nat) (l : List W64) : State :=
  let e := (l.headD 0).toNat
  let num := (l.getD 1 0).toNat
  let own := (setEntry s e).getD (redSet l)
  let r := getRed s e
  let groups := r.groups ++ [(src, num, l)]
  let mine := groups.filter fun d => d.2.1 == num
  if mine.length < setGroups own then setRed s e { r with groups := groups }
  else
    let (bad, shape, v, fl) := redCombine own (mine.map fun d => (d.1, d.2.2)) (setGroups own) fun d => setIndex own (groupOf d)
    sendAll (setRed s e { r with groups := groups.filter fun d => d.2.1 != num }) (mine.map (·.1)) .redResult
      ([w64 e, w64 num, if bad then 1 else 0, w64 shape, w64 fl.toNat] ++ own ++ v ++ [1])

/-- A combiner receives an arrival of a device or of a group. -/
def execCollectiveArrival (n : Nat) (s : State) : Outcome State Fault Refusal :=
  .next (match s.fab.inbox[n]? with
    | none => s
    | some p =>
      let s1 := dropInbox (cacheSet s) n
      match p.kind with
      | .arrive => barDevArrive s1 p.src p.args
      | .groupArrive => barGroupArrive s1 p.src p.args
      | .redArrive => redDevArrive (sendPkt s1 p.src 4 p.lane .reply p.tag [0] []) p.src p.args
      | .redGroup => redGroupArrive s1 p.src p.args
      | _ => s)

/-- A member takes a reduction's result for each of its ranks. -/
def redResult (s : State) (l : List W64) : State :=
  let e := (l.headD 0).toNat
  let r := getRed s e
  if (l.getD 1 0).toNat ≠ r.gen then s
  else
    let code := if l.getD 2 0 != 0 then 64 + 5 else (l.getD 4 0).toNat
    let s1 := { s with fab := { s.fab with redRes := s.fab.redRes ++ r.ranks.map fun p => (p.2.1, e, code, redVals l) } }
    setRed s1 e { r with gen := r.gen + 1, ranks := [], sent := false, await := none }

/-- A release or a result passes from a group's combiner to its members, or takes effect at a member. -/
def execCollectiveRelease (n : Nat) (s : State) : Outcome State Fault Refusal :=
  .next (match s.fab.inbox[n]? with
    | none => s
    | some p =>
      let s1 := dropInbox s n
      let e := (p.args.headD 0).toNat
      match p.kind with
      | .release =>
        if p.args.getD 3 0 = 1 then
          sendAll s1 (groupMembers (p.args.drop 4) (groupOf s.devno)) .release (p.args.set 3 0)
        else barRelease s1 e (p.args.getD 1 0).toNat (p.args.getD 2 0 != 0)
      | .redResult =>
        let len := p.args.length - 1
        if p.args.getD len 0 = 1 then
          sendAll s1 (groupMembers (redSet p.args) (groupOf s.devno)) .redResult (p.args.set len 0)
        else redResult s1 (p.args.take len)
      | _ => s)

/-- The result has come: it is written, and the element reports the flags (12 R325; the element's value word is not
stated: a free value, log entry 1). -/
def gredFinish (s : State) (c : Nat) (k : Cmd) (code : Nat) (v : List W64) : State :=
  if 64 ≤ code then fabFail s c k (code - 64)
  else
    let s1 := spWrite s ((xfWr s c k).zip (v.flatMap fun x => leBytes 8 x.toNat))
    let (s2, fv) := takeFree s1
    let k1 := { k with stamp := stampMax k.stamp (appliedAll s) }
    let note := code != 0
    finishFire (setCmd (dropLocks s2 c 4 k.seq) c k1) c k1 (if note then 1 else 0) (if note then 1 else 0) code fv

/-- GRED gives its rank's elements to its device, after every earlier access of the context, and later takes the result. -/
def gredStep (s : State) (c : Nat) (k : Cmd) (f : Fields) : State :=
  let serial := serialOf s c
  let e := gredEntry k
  if k.aux = [6] then
    match s.fab.redRes.find? fun r => r.1 == serial && r.2.1 == e with
    | some r => gredFinish { s with fab := { s.fab with redRes := s.fab.redRes.erase r } } c k r.2.2.1 r.2.2.2
    | none => s
  else
    let (s1, k1) := fabStart (cacheSet s) c k
    match gredSet s1 k with
    | none => fabFail s1 c k1 4
    | some w =>
      if setCnt w ≤ gredRank k then fabFail s1 c k1 3
      else
        let bs := spRead s (xfRd s c k)
        let v := (upTo (gredN k)).map fun i => w64 (leNat ((bs.drop (8 * i)).take 8))
        let s2 := setCmd s1 c { k1 with aux := [6] }
        let r := getRed s2 e
        sendRed (setRed s2 e { r with ranks := r.ranks ++ [(gredRank k, serial, gredShape f (gredN k), v)] }) c e w

def gredKind (i : Instr) : Bool := match i with | .gred _ => true | _ => false

def execGredExec (ctx : Nat) (s : State) : Outcome State Fault Refusal :=
  .next (match fabHead s ctx gredKind with
    | some k => match k.instr with
      | .gred f => gredStep s ctx k f
      | _ => s
    | none => fabAsk s ctx)

end Sys2Proof.Machine
end

