-- ==== Sys2Proof/Machine/Paceline.lean ====
section
/-!
DEFINITION. Machine/Paceline.lean: opening, closing and releasing rings, sending steps, landings and watermarks (spec file
12, R326 to R330).
-/
namespace Sys2Proof.Machine
open Sys2Proof Host

/-! Words (12 R326, R328, R329). -/

/-- A ring effect of the context still held for the checker. -/
def plHeld (s : State) (c : Nat) : Bool :=
  (heldCmds s c).any fun k => match k.instr with
    | .plcfgOpen _ | .plcfgClose _ | .plrel _ => true
    | _ => false

/-- Rings that held opens of any core are to take. -/
def heldRings (s : State) : List Nat :=
  s.cores.flatMap fun p => p.2.held.filterMap fun h => match h.eff with
    | .push k => match k.instr with
      | .plcfgOpen _ => some (k.aux.headD 16)
      | _ => none
    | _ => none

/-- The lowest free ring. -/
def freeRing (s : State) : Option Nat := (upTo 16).find? fun g => (getRing s g).isNone && !(heldRings s).contains g

/-- The lowest-numbered field of an OPEN quarter that is out of range. -/
def openField (d : Quarter) : Option Nat :=
  (upTo 16).find? fun i =>
    let x := dField d i
    match i with
    | 0 => false
    | 1 | 2 => decide (2 ^ 22 ≤ x)
    | 3 => decide (64 ≤ x) || decide (x % 16 < 2) || decide (8 < x % 16)
    | 4 => x % 4096 != 0
    | 5 => x % 64 != 0 || decide (x < 64) || decide (262144 < x)
    | 6 => x % 8 != 0
    | _ => x != 0

/-- The status of an OPEN: a ring number, or the lowest refusal that applies. -/
def openStatus (s : State) (c : Nat) (d : Quarter) : W64 :=
  let ns := dField d 3 % 16
  match freeRing s with
  | none => w64 (1 * 2 ^ 60)
  | some g =>
    match openField d with
    | some i => w64 (2 * 2 ^ 60 + i * 2 ^ 8)
    | none =>
      if spLen s c < dField d 4 + ns * dField d 5 ∨ spLen s c < dField d 6 + 8 * ns then w64 (3 * 2 ^ 60) else w64 g

def execPlcfgOpen (f : Fields) (s : State) : Outcome State Fault Refusal :=
  .next (runWord 0x209 false false 1 f s fun s c => do
    let d := descOf (getArch s c) f.o2
    if plHeld s c then stallW
    else
      let x := openStatus s c d
      let s1 ← if x.toNat < 16 then
          holdEff s c (.push { mkCmd s c f 7 (.plcfgOpen f) d with
            aux := x.toNat :: (upTo (dField d 3 % 16)).map fun k => spAddr s c (dField d 6 + 8 * k) })
        else .ok s
      okHold (putS s1 c 24 f.o1 x (srcTaint (getArch s c) f [f.o2])) 24)

/-- A ring opens: its counters are set, its first watermark is sent, and a watermark that came early is taken (12 R326,
R327). -/
def ringOpen (s : State) (c : Nat) (k : Cmd) : State :=
  let d := k.desc
  let key := w64 (dField d 0)
  let succ := dField d 1
  let g := k.aux.headD 0
  let early := s.fab.wmHeld.find? fun w => w.1 == key && w.2.1 == succ
  let r : Ring :=
    { owner := serialOf s c, ctx := c, key := key, succ := succ, pred := dField d 2, ns := dField d 3 % 16, lane := bitsOf (dField d 3) 5 4,
      slot := dField d 4, blk := dField d 5, lcb := dField d 6, land := 0, wm := 0, swm := early.map fun w => w.2.2, last := none, got := 0,
      wmSent := 0, reading := none }
  let s1 := (k.aux.drop 1).foldl (fun t a => lcPut t a (lcInit (spNat t a 8) 1 r.blk)) s
  flushWm { s1 with fab := { s1.fab with
    rings := mapSet s1.fab.rings g r
    wmHeld := s1.fab.wmHeld.filter fun w => !(w.1 == key && w.2.1 == succ) } } g

def execPlcfgClose (f : Fields) (s : State) : Outcome State Fault Refusal :=
  .next (runWord 0x209 false false 1 f s fun s c => do
    let g := (valOf (getArch s c) f.o2).toNat
    if plHeld s c then stallW
    else
      let s1 ← if (ownRing s c g).isSome then holdEff s c (.push { mkCmd s c f 7 (.plcfgClose f) 0 with aux := [g] }) else .ok s
      okHold (putS s1 c 24 f.o1 (if (ownRing s c g).isSome then 0 else w64 (6 * 2 ^ 60)) (srcTaint (getArch s c) f [f.o2])) 24)

def ringClose (s : State) (g : Nat) : State := { s with fab := { s.fab with rings := s.fab.rings.filter fun p => p.1 != g } }

/-- PLREL: the release follows every earlier access of the context. -/
def execPlrel (f : Fields) (s : State) : Outcome State Fault Refusal :=
  .next (runWord 0x20B false false 1 f s fun s c => do
    let a := getArch s c
    let g := (valOf a f.o2).toNat
    let st := (valOf a f.o3).toNat % 2 ^ 32
    if plHeld s c || !quietAcc s c then stallW
    else
      let status : W64 := match ownRing s c g with
        | none => 6
        | some r => if r.land ≤ st then 1 else 0
      let (s1, l) := outsideVal s c [status]
      let x := l.getD 0 0
      let s2 ← if x = 0 then holdEff s1 c (.push { mkCmd s1 c f 7 (.plrel f) 0 with aux := [g, st] }) else .ok s1
      okHold (putS s2 c 8 f.o1 x (srcTaint a f [f.o2, f.o3])) 1)

/-- A released ring effect takes place. -/
def ringEffect (s : State) (c : Nat) (k : Cmd) : State :=
  match k.instr with
  | .plcfgOpen _ => ringOpen s c k
  | .plcfgClose _ => ringClose s (k.aux.headD 16)
  | .plrel _ => ringRelease s (k.aux.headD 16) (k.aux.getD 1 0)
  | _ => s

/-! Sending (12 R328). -/

/-- PLSEND pushes a send; its source is checked as far as the ring's block length is known. -/
def execPlsend (f : Fields) (s : State) : Outcome State Fault Refusal :=
  .next (runWord 0x20A false false 1 f s fun s c => do
    let a := getArch s c
    if plHeld s c then stallW
    else
      let k := mkCmd s c f 4 (.plsend f) 0
      let n := match ownRing s c k.x1.toNat with
        | some r => sendLen k.x5 r.blk
        | none => k.x5.toNat % 2 ^ 18
      let va := addrOf a f.o2 f.o3
      let pins ← if modBit f 80 then Except.ok []
        else do
          let l ← locate s c .pushRead va (upTo n) 1 notHost
          .ok (if l.cls == .scratch then [] else ((upTo n).map fun i => (va.toNat + i) / 0x10000).eraseDups)
      let s1 ← pushCmd s c { k with pins := pins }
      ok s1)

/-- Cut a run of bytes at the block's 4,096-byte boundaries. -/
def cutBlocks : Nat → Nat → List Byte → List (Nat × List Byte)
  | 0, _, _ => []
  | _, _, [] => []
  | fuel + 1, off, bs =>
    let n := 4096 - off % 4096
    (off, bs.take n) :: cutBlocks fuel (off + n) (bs.drop n)

/-- Send bytes of a step from an offset on, under the command's tag. -/
def sendPieces (s : State) (reg : Nat) (r : Ring) (tag st off total : Nat) (bs : List Byte) : State :=
  (cutBlocks (bs.length / 4096 + 2) off bs).foldl (fun t p =>
    sendFor t reg r.succ 6 r.lane .landing tag [r.key, w64 st, w64 p.1, w64 p.2.length, w64 total] p.2) s

/-- The bytes of the previous step's landing that can be read now. -/
def ctReady (r : Ring) (st total : Nat) : Nat :=
  if st ≤ r.land then total else if st = r.land + 1 then min total (r.got / 64 * 64) else 0

/-- One step of a send under way: the bytes that can be sent now. -/
def sendMore (s : State) (c : Nat) (k : Cmd) (r : Ring) (bad : Bool) : State :=
  let g := k.x1.toNat
  let st := sendStep k
  let total := sendLen k.x5 r.blk
  let tag := k.aux.getD 1 0
  let sent := k.aux.getD 3 0
  if sendCt k then
    let upto := ctReady r st total
    if upto ≤ sent then s
    else
      let bs := spRead s ((upTo (upto - sent)).map fun i => spAddr s c (slotAt r (st - 1) + sent + i))
      let s1 := sendPieces s (regionOfCtx s c) r tag st sent total bs
      let s2 := { s1 with fab := { s1.fab with awaits := s1.fab.awaits.map fun a => if a.tag = tag then { a with sent := ccyOf s c } else a } }
      let s3 := setCmd s2 c { k with aux := [6, tag, 0, upto] }
      if upto = total then flushWm (updRing s3 g fun x => { x with reading := none }) g else s3
  else
    let rd := [(k.x2 + k.x3, total)]
    if sent = total ∨ engHeld s c rd [] then s
    else if bad || engBad s c rd then
      if (localBytes s c (k.x2 + k.x3) total).2.any fun a => !(localBytes s c (k.x2 + k.x3) total).1 && repairable s a then s
      else fabFail { s with fab := { s.fab with awaits := s.fab.awaits.filter fun a => a.tag != tag } } c k 1
    else
      let (bs, stm) := engRead s c (k.x2 + k.x3) total
      let s1 := sendPieces s (regionOfCtx s c) r tag st 0 total bs
      setCmd s1 c { k with aux := [6, tag, 0, total], stamp := stampMax k.stamp stm }

/-- A started send takes its step and its tag. -/
def sendStart (s : State) (c : Nat) (k : Cmd) (r : Ring) : State × Cmd :=
  let tag := s.fab.nextTag
  let k2 := { k with aux := [6, tag, 0, 0] }
  let s2 := updRing (setCmd s c k2) k.x1.toNat fun x =>
    { x with last := some (sendStep k), reading := if sendCt k then some (sendStep k - 1) else x.reading }
  ({ s2 with fab := { s2.fab with nextTag := tag + 1, awaits := s2.fab.awaits ++ [⟨tag, c, 4, k.seq, k.before, r.succ, r.lane, ccyOf s c⟩] } }, k2)

/-- A failed send reads no more of its landing. -/
def sendFail (s : State) (c : Nat) (k : Cmd) (cause : Nat) : State :=
  let g := k.x1.toNat
  fabFail (if sendCt k && k.started then flushWm (updRing s g fun x => { x with reading := none }) g else s) c k cause

/-- One step of PLSEND: it starts once the watermark allows its step, sends, and completes at the acknowledgement. -/
def plsendStep (s : State) (c : Nat) (k : Cmd) (bad : Bool) : State :=
  match k.aux with
  | [4] => fabDone s c k (w64 (sendStep k))
  | [5, cause] => sendFail s c k cause
  | [] =>
    let (s0, k0) := fabStart s c k
    if sendWrong s c k then sendFail s0 c k0 6
    else match ownRing s c k.x1.toNat with
      | none => s0
      | some r =>
        if !reachable s r.succ then sendFail s0 c k0 2
        else
          let (s1, k1) := sendStart s0 c k0 r
          sendMore s1 c k1 r bad
  | _ => match ownRing s c k.x1.toNat with
    | none => sendFail { s with fab := { s.fab with awaits := s.fab.awaits.filter fun a => a.tag != k.aux.getD 1 0 } } c k 6
    | some r => sendMore s c k r bad

def plsendKind (i : Instr) : Bool := match i with | .plsend _ => true | _ => false

def execPlsendExec (ctx : Nat) (bad : Bool) (s : State) : Outcome State Fault Refusal :=
  .next (match fabHead s ctx plsendKind with
    | some k => portPump (plsendStep s ctx k bad) ctx
    | none => fabAsk s ctx)

/-! Landings and watermarks (12 R327, R328, R330). -/

/-- The ring a landing or a watermark is for. -/
def ringFor (s : State) (key : W64) (p : Ring → Bool) : Option (Nat × Ring) := s.fab.rings.find? fun r => r.2.key == key && p r.2

/-- Bytes a landing counts when it grows from b0 to b1: those of each 4 KiB block completed; at the end the rest, with BLK −
n. -/
def landCount (b0 b1 total blk : Nat) : Nat :=
  if b1 = total then blk - b0 / 4096 * 4096 else b1 / 4096 * 4096 - b0 / 4096 * 4096

/-- Apply one piece of a landing. -/
def landPiece (s : State) (g : Nat) (r : Ring) (c : Nat) (p : Packet) : State :=
  let st := (p.args.getD 1 0).toNat
  let off := (p.args.getD 2 0).toNat
  let total := (p.args.getD 4 0).toNat
  let b1 := off + p.data.length
  let s1 := spWrite s (cellsAt (spAddr s c (slotAt r st + off)) p.data)
  let n := landCount off b1 total r.blk
  let s2 := if n = 0 then s1 else (lcArrive s1 (spAddr s c (slotCtr r st)) n).1
  let s3 := updRing s2 g fun x => if b1 = total then { x with land := st + 1, got := 0 } else { x with got := b1 }
  if b1 = total then sendPkt s3 p.src 4 p.lane .landAck p.tag [] [] else s3

/-- No earlier ring packet of the same sender is still waiting on VL 6. -/
def vl6First (s : State) (n : Nat) (p : Packet) : Bool := !((s.fab.inbox.take n).any fun q => q.src == p.src && q.kind == .landing && p.kind == .landing && q.args.headD 0 == p.args.headD 0)

/-- A landing at the successor; while the ring's owner is saved it stays in the fabric. -/
def execPacelineLanding (n : Nat) (s : State) : Outcome State Fault Refusal :=
  .next (match inboxAt s n .landing with
    | none => s
    | some p =>
      if !vl6First s n p || !reqFirst s n p then s
      else match ringFor s (p.args.headD 0) fun r => r.pred == p.src with
        | none => sendPkt (dropInbox s n) p.src 4 p.lane .refuse p.tag [6] []
        | some (g, r) =>
          match ctxOfSerial s r.owner with
          | none => s
          | some c =>
            if (getCluster s (clusterOf c)).stopped then s
            else if r.blk < (p.args.getD 4 0).toNat ∨ (p.args.getD 4 0).toNat < (p.args.getD 2 0).toNat + p.data.length then
              sendPkt (dropInbox s n) p.src 4 p.lane .refuse p.tag [6] []
            else landPiece (dropInbox s n) g r c p)

/-- A watermark updates SWM; one for no open ring is kept, the latest for each of sixteen pairs. -/
def execWatermarkArrival (n : Nat) (s : State) : Outcome State Fault Refusal :=
  .next (match inboxAt s n .watermark with
    | none => s
    | some p =>
      let key := p.args.headD 0
      let w := (p.args.getD 1 0).toNat
      match ringFor s key fun r => r.succ == p.src with
      | some (g, _) => updRing (dropInbox s n) g fun x => { x with swm := some w }
      | none =>
        let held := s.fab.wmHeld
        if held.any fun h => h.1 == key && h.2.1 == p.src then
          let s1 := dropInbox s n
          { s1 with fab := { s1.fab with wmHeld := held.map fun h => if h.1 == key && h.2.1 == p.src then (key, p.src, w) else h } }
        else if held.length < 16 then
          let s1 := dropInbox s n
          { s1 with fab := { s1.fab with wmHeld := held ++ [(key, p.src, w)] } }
        else s)

end Sys2Proof.Machine
end

