-- ==== Sys2Proof/Machine/Links.lean ====
section
/-!
DEFINITION. Machine/Links.lean: links: their words, counting windows, retraining, parking, modes and routes (spec file 12,
R303 to R310, R331, R332). A channel number is that of Lanes; 8192 more names the transmit side (log entry 11).
-/
namespace Sys2Proof.Machine
open Sys2Proof Host

/-- A retrain starts: counted, up to 255. -/
def startRetrain (w : Wave) : Wave := { w with st := 2, retr := min 255 (w.retr + 1) }

/-- The side and the channel an event's number names. -/
def chanSide (n : Nat) : Bool × Nat := (decide (8192 ≤ n), n % 8192)

/-! Windows and retraining (12 R307, R308). -/

/-- A window of 2^WIN bits has passed since it opened: a beat of 64 bits takes 0.571 ns on a wavelength (12 R306, R307). -/
def windowOver (s : State) (w : Wave) : Bool := decide (571 * 2 ^ s.fab.win ≤ 64000 * (s.gts - w.win).toNat)

/-- A window closes on a receive direction and the next one opens: above THR an active wavelength is degraded; a probation window
decides. -/
def windowClose (s : State) (c count : Nat) : State :=
  let w := { getWave s false c with pce := min count (2 ^ 32 - 1), win := s.gts }
  let above := decide (s.fab.thr.toNat < count)
  if w.st = 0 then setWave s false c (if above then { w with st := 1 } else w)
  else if w.st = 3 then
    if !above then moveWave s false c { w with st := 0, att := 0 }
    else if s.fab.rtmax ≤ w.att + 1 then setWave s false c { w with st := 6, att := w.att + 1 }
    else setWave s false c { startRetrain w with att := w.att + 1 }
  else setWave s false c w

/-- A window's end; on the transmit side the far receiver's verdict that the wavelength is DISABLED, for the copy (12 R305,
R308). -/
def execPceWindowClose (chan count : Nat) (s : State) : Outcome State Fault Refusal :=
  .next (
    let (tx, c) := chanSide chan
    let w := getWave s tx c
    if tx then (if w.st = 6 ∨ w.st = 7 then s else moveWave s true c { w with st := 6 })
    else if w.st = 7 ∨ !windowOver s w then s
    else windowClose s c count)

/-- The hand-back at a flit boundary: of a degraded wavelength received; the transmit side's copy follows the far receiver into
RETRAIN from any state: degraded, failed in probation, or enabled again (12 R305, R308). -/
def execWavelengthHandback (chan : Nat) (s : State) : Outcome State Fault Refusal :=
  .next (
    let (tx, c) := chanSide chan
    let w := getWave s tx c
    if w.st = 1 ∨ (tx ∧ w.st ≠ 2 ∧ w.st ≠ 7) then moveWave s tx c (startRetrain w) else s)

/-- Retraining ends in PROBATION, whose window opens now, or in DISABLED after RTMAX failures. -/
def execRetrainComplete (chan : Nat) (s : State) : Outcome State Fault Refusal :=
  .next (
    let (tx, c) := chanSide chan
    let w := getWave s tx c
    if w.st = 2 then setWave s tx c { w with st := if !tx && decide (s.fab.rtmax ≤ w.att) then 6 else 3, win := s.gts } else s)

/-- An uncorrectable codeword is replayed and counted. -/
def execCodewordReplay (chan : Nat) (s : State) : Outcome State Fault Refusal :=
  .next (
    let (tx, c) := chanSide chan
    let w := getWave s tx c
    setWave s tx c { w with werr := w.werr + 1 })

/-! Parking (12 R309). -/

/-- Park the highest-numbered active wavelengths of a direction down to MINW, one at a time. -/
def parkDown : Nat → State → Bool → Nat → State
  | 0, s, _, _ => s
  | n + 1, s, tx, g =>
    let act := (groupChans s g).filter fun x => (getWave s tx x).st == 0
    match act.getLast? with
    | some c =>
      if act.length ≤ s.fab.minw then s
      else parkDown n (moveWave s tx c { getWave s tx c with st := if s.fab.pkcold then 5 else 4, woken := false }) tx g
    | none => s

/-- The output of a lane group. -/
def lanesPort (g : Nat) : Nat := if g < 4096 then 32 + g else (g - 4096) / 16

/-- The output queue of a lane group has held fewer than PKLO flits for PKT µs without a break. -/
def idleLong (s : State) (g : Nat) : Bool :=
  decide (queueFlits s (lanesPort g) < s.fab.pklo.toNat) && decide (1000 * s.fab.pkt.toNat ≤ (s.gts - (getLg s true g).busy).toNat)

/-- A group number below 8192 names its transmit direction, whose queue decides; 8192 more the direction received, which
the far end parks. -/
def execParkIdleTimeout (group : Nat) (s : State) : Outcome State Fault Refusal :=
  .next (
    let tx := decide (group < 8192)
    let g := groupBase s (group % 8192)
    if s.fab.pkt != 0 && (getLg s tx g).park && (!tx || idleLong s g) then parkDown (groupWidth s g) s tx g else s)

/-- An output queue above PKHI wakes every parked wavelength of its lane group. -/
def execParkWake (group : Nat) (s : State) : Outcome State Fault Refusal :=
  .next (
    let tx := decide (group < 8192)
    if tx && decide (queueFlits s (lanesPort (groupBase s group)) ≤ s.fab.pkhi.toNat) then s
    else (groupChans s (group % 8192)).foldl (fun t c =>
      let w := getWave t tx c
      if w.st = 4 ∨ w.st = 5 then setWave t tx c { w with woken := true } else t) s)

/-- A woken wavelength rejoins; a transmitter's copy also leaves PROBATION when the far receiver says so. -/
def execWavelengthRejoin (chan : Nat) (s : State) : Outcome State Fault Refusal :=
  .next (
    let (tx, c) := chanSide chan
    let w := getWave s tx c
    if ((w.st = 4 ∨ w.st = 5) ∧ w.woken) ∨ (tx ∧ w.st = 3) then moveWave s tx c { w with st := 0, woken := false } else s)

/-! Stop and go (12 R304). A port number below 65536 is a lane group of this device, whose receiver signals as its buffer fills and
empties; 65536 and an output port name one whose far receiver signals (log entry 11). -/

def execVlStop (port vl : Nat) (s : State) : Outcome State Fault Refusal :=
  .next (if s.fab.stopped.contains (port, vl) then s
    else if port < 65536 ∧ Config.rxStop (groupBase s (port % 8192)) ≤ freeFlits s (groupBase s (port % 8192)) vl then s
    else
      let s1 := { s with fab := { s.fab with stopped := s.fab.stopped ++ [(port, vl)] } }
      if port < 65536 then
        let g := groupBase s1 (port % 8192)
        let l := getLg s1 false g
        setLg s1 false g { l with stops := l.stops + 1 }
      else s1)

def execVlGo (port vl : Nat) (s : State) : Outcome State Fault Refusal :=
  .next (if port < 65536 ∧ freeFlits s (groupBase s (port % 8192)) vl ≤ Config.rxGo (groupBase s (port % 8192)) then s
    else { s with fab := { s.fab with stopped := s.fab.stopped.filter fun p => p != (port, vl) } })

/-! Routes and modes (12 R303, R305, R331). -/

/-- A packet of a lane towards a peer that has left the device is not yet acknowledged. -/
def laneBusy (s : State) (peer lane : Nat) : Bool :=
  let gone (tag : Nat) : Bool := !(s.fab.outbox.any fun p => p.src == s.devno && p.dst == peer && p.lane == lane && p.tag == tag)
  (s.fab.dirs.any fun d => d.peer == peer && d.lane == lane && d.st == .sent && gone d.tag) ||
    s.fab.awaits.any fun a => a.peer == peer && a.lane == lane && gone a.tag

/-- A lane's path changes once every packet sent on the old one is acknowledged: to the alternate route the table gives while the
minimal one is down, and back when it is up. Packets that have not left take the new path. -/
def execRouteChange (peer lane : Nat) (alt : Bool) (s : State) : Outcome State Fault Refusal :=
  .next (
    let on := s.fab.onAlt.contains (peer, lane)
    let may := if alt then routeDown s peer && s.fab.alts.any (fun a => a.1 == groupOf peer) else routeUp s peer
    if laneBusy s peer lane || on == alt || !may then s
    else
      let s1 := { s with fab := { s.fab with onAlt := if alt then s.fab.onAlt ++ [(peer, lane)] else s.fab.onAlt.filter fun p => p != (peer, lane) } }
      { s1 with fab := { s1.fab with outbox := s1.fab.outbox.map fun p =>
        if p.src = s.devno ∧ p.dst = peer ∧ p.lane = lane then { p with via := viaOf s1 peer lane } else p } })

def execModeChangeComplete (fibre : Nat) (s : State) : Outcome State Fault Refusal :=
  .next (match s.fab.modeReq.find? fun m => m.1 == fibre with
    | some m => { s with fab := { s.fab with modes := mapSet s.fab.modes fibre m.2, modeReq := s.fab.modeReq.filter fun x => x.1 != fibre } }
    | none => s)

/-! LNCTL and LNSTAT (12 R331, R332). -/

/-- LNCTL: the status now, the effect when the checker has matched the word. -/
def lnctl (f : Fields) (s : State) (i : Instr) (status : State → Nat → W64 → Nat) : State :=
  runWord 0x20C true false 1 f s fun s c => do
    let a := getArch s c
    let sel := valOf a f.o2
    let v := valOf a f.o3
    let n := if sel.toNat < 2 ^ 32 then sel.toNat else 2 ^ 32
    let (s1, l) := outsideVal s c [w64 (status s n v)]
    let x := l.getD 0 0
    let s2 ← if x = 0 then holdEff s1 c (.push { mkCmd s1 c f 7 i 0 with aux := [n, v.toNat % 4] }) else .ok s1
    okHold (putS s2 c 8 f.o1 x (srcTaint a f [f.o2, f.o3])) 8

def execLnctlMode (f : Fields) (s : State) : Outcome State Fault Refusal :=
  .next (lnctl f s (.lnctlMode f) fun _ n _ => if n < 512 then 0 else 1)
def execLnctlRetrain (f : Fields) (s : State) : Outcome State Fault Refusal :=
  .next (lnctl f s (.lnctlRetrain f) fun _ n _ => if n < 4096 then 0 else 1)
/-- A wavelength that alone keeps its lane group up is not disabled where the groups it leads to have no alternate route. -/
def execLnctlDisable (f : Fields) (s : State) : Outcome State Fault Refusal :=
  .next (lnctl f s (.lnctlDisable f) fun s n v =>
    if 4096 ≤ n then 1
    else
      let tx := v.getLsbD 0
      if inStripe (getWave s tx n) && activeWidth s tx n == 1 && !hasAlt s n then 2 else 0)
def execLnctlEnable (f : Fields) (s : State) : Outcome State Fault Refusal :=
  .next (lnctl f s (.lnctlEnable f) fun _ n _ => if n < 4096 then 0 else 1)
def execLnctlPark (f : Fields) (s : State) : Outcome State Fault Refusal :=
  .next (lnctl f s (.lnctlPark f) fun s n _ => if n < 4096 ∧ groupBase s n = n then 0 else 1)

/-- The effect of a released LNCTL. -/
def lnctlEffect (s : State) (k : Cmd) : State :=
  let n := k.aux.headD 0
  let v := k.aux.getD 1 0
  let tx := v % 2 == 1
  let w := getWave s tx n
  match k.instr with
  | .lnctlMode _ => { s with fab := { s.fab with modeReq := (s.fab.modeReq.filter fun m => m.1 != n) ++ [(n, v)] } }
  | .lnctlRetrain _ => if w.st = 0 then setWave s tx n { w with st := 1 } else s
  | .lnctlDisable _ => if w.st = 7 then s else moveWave s tx n { w with st := 6 }
  | .lnctlEnable _ => if w.st = 6 then setWave s tx n { startRetrain w with att := 0 } else s
  | .lnctlPark _ =>
    let put (t : State) (tx : Bool) : State := setLg t tx n { getLg t tx n with park := v % 2 == 1 }
    put (put s true) false
  | _ => s

/-- A wavelength's state word. -/
def wstWord (w : Wave) (tx : Bool) : W64 := if tx then w64 (w.st * 2 ^ 61) else w64 (w.st * 2 ^ 61 + w.retr * 2 ^ 48 + w.pce)

/-- The counts of a lane group's direction, below its widths. -/
def lgLow (s : State) (tx : Bool) (g : Nat) : Nat := let l := getLg s tx g; l.stops.toNat * 2 ^ 32 + l.chg.toNat

/-- What LNSTAT reads; the active width of an electrical port that is down has no code: a free value (log entry 1). -/
def lnstatWord (s : State) (item : Nat) (tx : Bool) (n : Nat) : State × W64 :=
  let none := ~~~(0 : W64)
  match item with
  | 0 => (s, if n < 4096 then wstWord (getWave s tx n) tx else none)
  | 1 => (s, if n < 4096 then w64 ((getWave s tx n).werr.toNat * 2 ^ 32 + (getWave s tx n).wchg.toNat) else none)
  | 2 => (s, if n < 4096 ∧ groupBase s n = n then
      w64 (modeOf s (n / 8) * 2 ^ 62 + groupWidth s n * 2 ^ 56 + activeWidth s tx n * 2 ^ 52 + lgLow s tx n) else none)
  | 3 =>
    if n < 31 then
      let g := 4096 + 16 * n
      let a := activeWidth s tx g
      if a = 0 then
        let (s1, fv) := takeFree s
        (s1, w64 (15 * 2 ^ 56 + fv.toNat % 16 * 2 ^ 52 + lgLow s tx g))
      else (s, w64 (15 * 2 ^ 56 + (a - 1) * 2 ^ 52 + lgLow s tx g))
    else (s, none)
  | _ => (s, if n < 496 then wstWord (getWave s tx (4096 + n)) tx else none)

def execLnstat (f : Fields) (s : State) : Outcome State Fault Refusal :=
  .next (runWord 0x20D false false 1 f s fun s c =>
    let (s0, x) := lnstatWord s (modBits f 83 80) (modBit f 84) (valOf (getArch s c) f.o2).toNat
    let (s1, l) := outsideVal s0 c [x]
    okHold (putS s1 c 24 f.o1 (l.getD 0 0) 0) 24)

/-- A write of FXLINK (12 R310). -/
def fxlinkWrite (s : State) (x : W64) : State :=
  let n := x.toNat
  let win := bitsOf n 47 42
  let rt := bitsOf n 39 32
  let mw := bitsOf n 7 4
  { s with fab := { s.fab with
    thr := BitVec.ofNat 16 (bitsOf n 63 48)
    win := if 20 ≤ win ∧ win ≤ 40 then win else s.fab.win
    rtmax := if rt = 0 then 1 else rt
    pkhi := BitVec.ofNat 8 (bitsOf n 31 24)
    pklo := BitVec.ofNat 8 (bitsOf n 23 16)
    pkt := BitVec.ofNat 8 (bitsOf n 15 8)
    minw := if mw = 0 then 1 else mw
    pkcold := n.testBit 3 } }

/-- FXLINK as it reads. -/
def fxlinkWord (s : State) : W64 :=
  let b := s.fab
  w64 (b.thr.toNat * 2 ^ 48 + b.win * 2 ^ 42 + b.rtmax * 2 ^ 32 + b.pkhi.toNat * 2 ^ 24 + b.pklo.toNat * 2 ^ 16 + b.pkt.toNat * 2 ^ 8
    + b.minw * 2 ^ 4 + (if b.pkcold then 8 else 0))
def fxidWord (s : State) : W64 := w64 (s.fab.ngrp * 2 ^ 22 + s.fab.maxdev)

end Sys2Proof.Machine
end

