-- ==== Sys2Proof/Machine/CodOps.lean ====
section
/-!
DEFINITION. Machine/CodOps.lean: the coding engine's shared operations: the configuration record, coefficients and
weights, sending to members, staging, folding, rolling back and losing members (spec file 14, R352 to R369).
-/
namespace Sys2Proof.Machine
open Sys2Proof Host

def updCod (s : State) (f : Cod → Cod) : State := { s with cod := f s.cod }

/-! The configuration record (14 R352, R355). -/

/-- n bytes of a record as a number. -/
def recN (r : List Byte) (off n : Nat) : Nat := leNat ((r.drop off).take n)
def recK (r : List Byte) : Nat := bitsOf (recN r 0 8) 36 32
def recM (r : List Byte) : Nat := bitsOf (recN r 0 8) 39 37
def recEntry (r : List Byte) (i : Nat) : Nat := recN r (0x100 + 8 * i) 8
def entDev (e : Nat) : Nat := e % 2 ^ 22
def entPd (e : Nat) : Nat := bitsOf e 39 32
def entCl (e : Nat) : Nat := bitsOf e 47 40
def entOk (e : Nat) : Bool := e.testBit 63

/-- No number twice. -/
def noTwice (l : List Nat) : Bool := l.eraseDups.length == l.length

/-- An area's address: bits [39:6] only, in Global. -/
def recAddrOk (r : List Byte) (off : Nat) : Bool :=
  let w := recN r off 8
  w % 64 == 0 && decide (w < 0x8000000000)

/-- Two copies on different stacks, and a size of at least one unit. -/
def recCopies (r : List Byte) (a b size : Nat) : Bool :=
  recAddrOk r a && recAddrOk r b && recN r a 8 / 0x1000000000 != recN r b 8 / 0x1000000000
    && decide (1 ≤ recN r size 4) && recN r (size + 4) 4 == 0

/-- Every field of a record is in its range (14 R352, R353). -/
def recOk (r : List Byte) : Bool :=
  let k := recK r
  let m := recM r
  let es := (upTo 32).map (recEntry r)
  let xs := (upTo m).map fun j => recN r (0x40 + j) 1
  let ys := (upTo k).map fun i => recN r (0x48 + i) 1
  recN r 0 4 != 0 && decide (1 ≤ k) && decide (k ≤ 28) && decide (1 ≤ m) && decide (m ≤ 4) && decide (k + m ≤ 32)
    && bitsOf (recN r 0 8) 63 40 == 0
    && recCopies r 0x08 0x10 0x18 && recCopies r 0x20 0x28 0x30 && recAddrOk r 0x38
    && (m == 1 || (noTwice (xs ++ ys) && (upTo 4).all (fun j => decide (j < m) || recN r (0x40 + j) 1 == 0)
      && (upTo 28).all fun i => decide (i < k) || recN r (0x48 + i) 1 == 0))
    && ((upTo 0x98).all fun i => recN r (0x68 + i) 1 == 0)
    && es.all (fun e => bitsOf e 62 48 == 0 && bitsOf e 31 22 == 0)
    && (upTo (k + m)).all (fun i => entOk (recEntry r i))
    && noTwice ((es.filter entOk).map entDev)

/-- Two members share a power domain or a cooling loop. -/
def recClash (r : List Byte) : Bool :=
  let es := (upTo (recK r + recM r)).map (recEntry r)
  !(noTwice (es.map entPd) && noTwice (es.map entCl))

/-- The device's own entry. -/
def recSelf (s : State) (r : List Byte) : Option Nat := (upTo 32).find? fun i => entOk (recEntry r i) && entDev (recEntry r i) == s.devno

def roleOf (k m i : Nat) : Nat := if i < k then 1 else if i < k + m then 2 else 3

/-- Install a configuration: its entries and empty journal and staging areas; it is not yet confirmed. -/
def kInstall (s : State) (r : List Byte) (ovr : Bool) (self : Nat) : State :=
  updCod s fun x => { x with
    rec_ := r
    have_ := true
    cfg := false
    ovr := ovr
    role := roleOf (recK r) (recM r) self
    self := self
    k := recK r
    m := recM r
    entries := (upTo 32).map fun i => (i, w64 (recEntry r i))
    pelid := recN r 0 4
    live := []
    lost := []
    building := []
    coord := false
    st := .idle
    fenceAfter := false
    journal := []
    stages := []
    waiting := []
    sentN := []
    acks := []
    marks := []
    dgot := []
    prep := []
    stag := []
    confirms := []
    rbld := none
    rbSurv := []
    rbDone := []
    streams := []
    collect := none
    queryAns := []
    querying := false
    kept := false
    asked := false }

/-! Sending (14 R362). -/

def coordDev (s : State) : Option Nat := (coordOf s.cod).map (memberDev s.cod)
def sendCoord (s : State) (kind : PKind) (args : List W64) : State :=
  match coordDev s with
  | some d => sendK s d kind args []
  | none => s
def sendList (s : State) (l : List Nat) (kind : PKind) (args : List W64) : State :=
  l.foldl (fun t i => sendK t (memberDev s.cod i) kind args []) s
/-- To every live member, the device itself included. -/
def sendLive (s : State) (kind : PKind) (args : List W64) : State := sendList s s.cod.live kind args
/-- Valid entries beyond the members. -/
def spares (k : Cod) : List Nat := (upTo 32).filter fun i => decide (k.k + k.m ≤ i) && (mapGet 0 k.entries i).getLsbD 63

/-! Weights (14 R353, R367). -/

/-- The row of a member in the coding matrix. -/
def genRow (k : Cod) (i : Nat) : List Nat :=
  if i < k.k then (upTo k.k).map fun j => if j = i then 1 else 0 else (upTo k.k).map (coef k (i - k.k))

def rowScale (f : Nat) (r : List Nat) : List Nat := r.map (gfMul f)
def rowXor (a b : List Nat) : List Nat := List.zipWith (· ^^^ ·) a b

/-- One step of elimination on column c of augmented rows. -/
def elimCol (rows : List (List Nat)) (c : Nat) : List (List Nat) :=
  match (rows.drop c).findIdx? fun r => r.getD c 0 != 0 with
  | none => rows
  | some i =>
    let p := rows.getD (c + i) []
    let swapped := (rows.set (c + i) (rows.getD c [])).set c p
    let pv := rowScale (gfInv (p.getD c 0)) p
    (swapped.zip (upTo swapped.length)).map fun r =>
      if r.2 = c then pv else rowXor r.1 (rowScale (r.1.getD c 0) pv)

/-- The inverse of the survivors' matrix: row i, column s. -/
def invMatrix (k : Cod) (surv : List Nat) : List (List Nat) :=
  let rows := (surv.zip (upTo surv.length)).map fun p =>
    genRow k p.1 ++ (upTo surv.length).map fun j => if j = p.2 then 1 else 0
  ((upTo k.k).foldl elimCol rows).map (List.drop k.k)

/-- The weights of the survivors for member l: e(l, s), and c(l, s) for a lost parity member. -/
def weights (k : Cod) (surv : List Nat) (l : Nat) : List Nat :=
  let e := invMatrix k surv
  let g := genRow k l
  (upTo surv.length).map fun s => (upTo k.k).foldl (fun x i => x ^^^ gfMul (g.getD i 0) ((e.getD i []).getD s 0)) 0

/-- The first k live members, but for one. -/
def survivors (k : Cod) (but : Nat) : List Nat := (sortNat (k.live.filter fun i => i != but)).take k.k

/-- The bytes the survivors' bytes give for member l. -/
def rebuildBytes (k : Cod) (surv : List Nat) (l : Nat) (bs : List (List Byte)) (n : Nat) : List Byte :=
  let ws := weights k surv l
  (upTo n).map fun t => BitVec.ofNat 8 ((ws.zip bs).foldl (fun x p => x ^^^ gfMul p.1 (p.2.getD t 0).toNat) 0)

/-! Writes of the engine itself. -/

/-- A write by the coding engines, below the rules for protected granules: each die's engine writes the bytes at home on its die and
takes the die's number for them (02 R42, R59). -/
def codWrite (s : State) (cells : List (Nat × Byte)) : State :=
  recheckNests ((upTo 4).foldl (fun t d =>
    let l := cells.filter fun p => homeDie p.1 == d
    if l.isEmpty then t else codPut t d l) s)

/-- A write by a command of the engine of die d, with a vector, and its stamp (02 R59). -/
def codCmdWrite (s : State) (d : Nat) (v : Stamp) (cells : List (Nat × Byte)) : State × Stamp :=
  let (s1, _, st) := takeWseq s d v
  (recheckNests (putBytes s1 cells st), st)

/-! Rounds: what is decided (14 R363; KSTAT.ROUND). -/

/-- Record a decision, keeping the last sixteen rounds and each round's last abort reason. -/
def decide_ (s : State) (n kind reason : Nat) : State :=
  updCod s fun k =>
    let old := ((k.decided.find? fun d => d.1 == n).map fun d => d.2.2).getD 0
    let l := (k.decided.filter fun d => d.1 != n) ++ [(n, kind, if kind = 2 then reason else old)]
    { k with decided := l.drop (l.length - 16) }
def decidedAs (s : State) (n kind : Nat) : Bool := s.cod.decided.any fun d => d.1 == n && d.2.1 == kind

/-- The round that can be open. -/
def nextRound (s : State) : Nat := s.cod.c + 1

/-! Elements of waiting commands. -/

/-- The executing command of a context's qk. -/
def codHead (s : State) (c : Nat) : Option Cmd :=
  match headCmd s c 5 with
  | some k => if k.started && k.held.isNone && engineMay s c k then some k else none
  | none => none

def codDone (s : State) (c : Nat) (k : Cmd) (val : W64) : State := finishCmd s c k 0 0 0 val
def codFail (s : State) (c : Nat) (k : Cmd) (cause info : Nat) (val : W64) : State := finishCmd s c k 3 cause info val

/-- Every context's executing command, in context order, meets a test. -/
def eachWaiting (s : State) (f : State → Nat → Cmd → State) : State :=
  s.ctxs.foldl (fun t p => match codHead t p.1 with
    | some k => f t p.1 k
    | none => t) s

/-- The commands that wait on a round that has aborted: KCOMT and KPREP fail, KABRT is done. -/
def abortWaits (s : State) (n reason : Nat) : State :=
  eachWaiting s fun t c k =>
    if k.x1.toNat != n then t
    else match k.instr with
      | .kcomt _ | .kprep _ => codFail t c k 1 reason k.x1
      | .kabrt _ => codDone t c k k.x1
      | _ => t

/-- Those that wait for what the state now shows: KCOMT and KABRT when the round is committed, KPREP when the device is
PREPARED; and those of a device now FENCED. -/
def settleWaits (s : State) : State :=
  eachWaiting s fun t c k =>
    let k0 := t.cod
    let fenced := k0.st == .fenced && k0.collect.isNone
    match k.instr with
    | .kcomt _ => if k.x1.toNat ≤ k0.c then codDone t c k k.x1 else if fenced then codFail t c k 5 0 k.x1 else t
    | .kabrt _ => if k.x1.toNat ≤ k0.c then codFail t c k 6 0 k.x1 else if fenced then codFail t c k 5 0 k.x1 else t
    | .kprep _ =>
      if k0.st == .prepared && k.x1.toNat == nextRound t || decide (k.x1.toNat ≤ k0.c) then codDone t c k k.x1
      else if fenced then codFail t c k 5 0 k.x1 else t
    | _ => t

/-! Data members (14 R358, R359, R366). -/

/-- Deltas this device sent to live parity member j in its round. -/
def sentTo (k : Cod) (j : Nat) : Nat := (upTo 4).foldl (fun n d => n + (mapGet [] k.sentN (4 * j + d)).length) 0

/-- In PREPARING, once every live parity member has acknowledged every delta: PREPARED. -/
def prepCheck (s : State) : State :=
  if s.cod.st != .preparing then s
  else if (liveParity s.cod).all fun j => s.cod.acks.any fun a => a.1 == j && decide (sentTo s.cod j ≤ a.2) then
    settleWaits (sendCoord (updCod s fun k => { k with st := .prepared }) .prepared [w64 (nextRound s), w64 s.cod.self])
  else s

/-- The round's journal is empty and nothing of it is counted any more. -/
def clearRound (k : Cod) : Cod := { k with journal := [], sentN := [], acks := [] }

/-- The open round of a data member aborts. -/
def dataAbort (s : State) (reason : Nat) (fence : Bool) : State :=
  let n := nextRound s
  let s1 := decide_ (updCod s fun k => { k with st := .rollback, fenceAfter := k.fenceAfter || fence, aborts := k.aborts + 1 }) n 2 reason
  abortWaits s1 n reason

/-! Parity members (14 R360, R364). -/

/-- The physical addresses of a staging slot's two copies. -/
def slotAddr (k : Cod) (o i : Nat) : Nat := recBase k o + 128 * i

/-- The bytes of a staging entry: round; region and offset, the region above the offset's 40 bits; zeros; the sum. -/
def stageBytes (x : Stage) : List Byte := leBytes 8 x.round ++ leBytes 8 (x.region * 2 ^ 40 + x.off) ++ List.replicate 48 0 ++ x.val

/-- The engine of the granule's die writes both copies of its entry. -/
def putStage (s : State) (x : Stage) : State :=
  let s1 := putBoth s (homeDie (protPa s x.region x.off)) (recBase s.cod 0x20) (recBase s.cod 0x28) x.slot (stageBytes x)
  updCod s1 fun k => { k with stages := (k.stages.filter fun y => y.slot != x.slot) ++ [x] }

/-- Stage one delta by accumulation; without a free entry the coordinator is told. -/
def stageDelta (s : State) (n region off : Nat) (d : List Byte) : State :=
  match s.cod.stages.find? fun x => x.round == n && x.region == region && x.off == off with
  | some x => putStage s { x with val := List.zipWith (· ^^^ ·) x.val d }
  | none =>
    match (upTo (min (scap s.cod) (s.cod.stages.length + 1))).find? fun i => !s.cod.stages.any fun x => x.slot == i with
    | some i => putStage s ⟨i, n, region, off, d⟩
    | none => sendCoord s .overflow [w64 n]

/-- Deltas staged from member i's die d in a round, and all of them. -/
def gotFrom (k : Cod) (i d n : Nat) : Nat := ((k.dgot.find? fun g => g.1 == i && g.2.1 == d && g.2.2.1 == n).map fun g => g.2.2.2).getD 0
def countGot (k : Cod) (i d n : Nat) : Cod :=
  { k with dgot := (k.dgot.filter fun g => !(g.1 == i && g.2.1 == d && g.2.2.1 == n)) ++ [(i, d, n, gotFrom k i d n + 1)] }
def gotTotal (k : Cod) (i n : Nat) : Nat := (upTo 4).foldl (fun x d => x + gotFrom k i d n) 0

/-- Member i's four MARKs are in, and every delta they count is staged. -/
def memberStaged (k : Cod) (i n : Nat) : Bool :=
  (upTo 4).all fun d => k.marks.any fun m => m.1 == i && m.2.1 == d && m.2.2.1 == n && m.2.2.2 == gotFrom k i d n

/-- Acknowledge what has become complete, and become STAGED when every live data member's deltas are in. -/
def checkStaged (s : State) : State :=
  let ack (s : State) (i n : Nat) : State :=
    if memberStaged s.cod i n && !s.cod.acks.contains (i, n) then
      sendK (updCod s fun k => { k with acks := k.acks ++ [(i, n)] }) (memberDev s.cod i) .ack [w64 n, w64 (gotTotal s.cod i n), w64 s.cod.self] []
    else s
  let n := nextRound s
  let s1 := (liveData s.cod).foldl (fun t i => ack (ack t i n) i (n + 1)) s
  if s1.cod.st == .staging && (liveData s1.cod).all (fun i => memberStaged s1.cod i n) then
    sendCoord (updCod s1 fun k => { k with st := .staged }) .staged [w64 n, w64 s1.cod.self]
  else s1

/-- Forget what a parity member counted for a round. -/
def dropCounts (k : Cod) (n : Nat) : Cod :=
  { k with
    stages := k.stages.filter fun x => x.round != n
    marks := k.marks.filter fun m => m.2.2.1 != n
    dgot := k.dgot.filter fun g => g.2.2.1 != n
    acks := k.acks.filter fun a => a.2 != n }

/-- IDLE, or STAGING when something of the next round is here already. -/
def parityRest (k : Cod) : KState :=
  if k.stages.any (fun x => x.round == k.c + 1) || k.marks.any (fun m => m.2.2.1 == k.c + 1) then .staging else .idle

/-- Fold a round's staged entries into parity. -/
def foldRound (s : State) (n : Nat) : State :=
  (s.cod.stages.filter fun x => x.round == n).foldl (fun t x =>
    let pa := protPa t x.region x.off
    codWrite t (cellsAt pa (List.zipWith (· ^^^ ·) (memRead t.mem pa 64) x.val))) s

/-- Both copies of a staging entry are uncorrectable (14 R369). -/
def stageGone (s : State) (x : Stage) : Bool := [0x20, 0x28].all fun o => (upTo 128).any fun b => s.poison.contains (slotAddr s.cod o x.slot + b)
/-- Both copies of some staging entry of a round are. -/
def stageLost (s : State) (n : Nat) : Bool := s.cod.stages.any fun x => x.round == n && stageGone s x
def journalLost (s : State) : Bool :=
  (upTo s.cod.journal.length).any fun i =>
    [0x08, 0x10].all fun o => (upTo 128).any fun b => s.poison.contains (slotAddr s.cod o i + b)

/-- A member that cannot read its own entries declares itself lost and fences (14 R369). -/
def selfLost (s : State) : State :=
  let s1 := sendList s ((s.cod.live.filter fun i => i != s.cod.self) ++ spares s.cod) .lost [w64 s.cod.self]
  settleWaits (updCod s1 fun k => { k with st := .fenced })

/-! The coordinator (14 R363 to R365). -/

/-- Broadcast ABORT of the next round. -/
def abortRound (s : State) (reason : Nat) : State :=
  let n := nextRound s
  let s1 := sendLive s .abort [w64 n, w64 reason]
  decide_ (updCod s1 fun k => { k with prep := k.prep.filter fun p => p.2 != n, stag := k.stag.filter fun p => p.2 != n }) n 2 reason

/-- The 64 bytes of the commit record. -/
def commitBytes (s : State) (n : Nat) : List Byte :=
  leBytes 8 n ++ leBytes 8 s.cod.pelid ++ leBytes 8 s.gts.toNat ++ leBytes 8 (s.cod.live.foldl (fun x i => x ||| 2 ^ i) 0) ++ List.replicate 32 0

/-- COMMIT: the record is applied, then the message goes to every live member. -/
def commitRound (s : State) (n : Nat) : State :=
  let s1 := codWrite s (cellsAt (recBase s.cod 0x38) (commitBytes s n))
  decide_ (sendLive s1 .commit [w64 n]) n 1 0

/-- Every data member is prepared for the next round, a lost one included, and every live parity member staged it. -/
def allIn (s : State) : Bool :=
  let n := nextRound s
  (upTo s.cod.k).all (fun i => s.cod.prep.contains (i, n)) && (liveParity s.cod).all fun j => s.cod.stag.contains (j, n)

/-- A data member was lost before its PREPARED for the next round. -/
def lostEarly (s : State) : Bool := s.cod.lost.any fun i => decide (i < s.cod.k) && !s.cod.prep.contains (i, nextRound s)

/-- The abort token of a member (14 R365; 15 R390): PELID, the round, the source number, GTS, the reason, and whether it
is the coordinator's. DESIGN CHOICE (log entry 35): the four engines share one state, and the spec does not say which of them a
token names as its source; it names that of die 0. -/
def sendToken (s : State) (reason : Nat) (fromCoord : Bool) : State :=
  let src := s.devno * 2 ^ 10 + (0x340 + 2)
  let args := [w64 s.cod.pelid, w64 s.cod.c, w64 src, s.gts, w64 reason, if fromCoord then 1 else 0]
  ((upTo (s.cod.k + s.cod.m)) ++ spares s.cod).foldl (fun t i => sendPkt t (memberDev s.cod i) 7 0 .token 0 args []) s

/-- A member takes over as coordinator: it asks every live member for its state. -/
def takeOver (s : State) : State :=
  if s.cod.cfg && s.cod.role == 2 && !s.cod.coord && coordOf s.cod == some s.cod.self then
    let s1 := updCod s fun k => { k with
      coord := true
      querying := true
      queryAns := []
      lastBeat := k.live.map fun i => (i, s.gts) }
    sendLive s1 .query [w64 (nextRound s), w64 s.cod.self]
  else s

/-- Strike a member off the live ones. -/
def strike (k : Cod) (i : Nat) : Cod := { k with live := k.live.filter fun j => j != i, lost := if k.lost.contains i then k.lost else k.lost ++ [i] }

/-- The coordinator declares a member lost (14 R365): LOST to every live member and spare, an abort where R363 says so, and
the collective fault beyond m losses. -/
def declareLost (s : State) (i : Nat) : State :=
  let s1 := updCod s (strike · i)
  let s2 := sendList s1 (s1.cod.live ++ spares s1.cod) .lost [w64 i]
  let s3 := if i < s.cod.k && !s.cod.prep.contains (i, nextRound s) && !decidedAs s (nextRound s) 1 then abortRound s2 1 else s2
  if s3.cod.m < s3.cod.lost.length then sendToken s3 1 true else s3

end Sys2Proof.Machine
end

