-- ==== Sys2Proof/Machine/Coding.lean ====
section
/-!
DEFINITION. Machine/Coding.lean: the words of the coding engine and the commands it executes (spec file 14, R371 to R375).
-/
namespace Sys2Proof.Machine
open Sys2Proof Host

/-! Words (14 R371 to R373). -/

/-- A word that only pushes. -/
def codWord (opc : Nat) (priv : Bool) (f : Fields) (s : State) (i : Instr) : State :=
  runWord opc priv false 1 f s fun s c => do
    let s1 ← pushCmd s c (mkCmd s c f 5 i 0)
    ok s1

/-- KCFG: its record is 64-aligned Global. -/
def execKcfg (f : Fields) (s : State) : Outcome State Fault Refusal :=
  .next (runWord 0x220 true false 1 f s fun s c => do
    let va := addrOf (getArch s c) f.o1 f.o2
    let l ← locate s c .pushRead va (upTo 512) 64 (· == .global)
    let s1 ← pushCmd s c { mkCmd s c f 5 (.kcfg f) 0 with
      aux := l.addrs, pins := ((upTo 512).map fun i => (va.toNat + i) / 0x10000).eraseDups }
    ok s1)

/-- A size KPROT takes. -/
def kprotSize (z : W64) : Bool := z != 0 && z.toNat % 0x10000 == 0

/-- KPROT: the region's pages are Global and writable. -/
def execKprot (f : Fields) (s : State) : Outcome State Fault Refusal :=
  .next (runWord 0x221 false false 1 f s fun s c => do
    let a := getArch s c
    let va := addrOf a f.o2 f.o3
    let z := valOf a f.o4
    let n := if kprotSize z then min (z.toNat / 0x10000) (2 ^ 25 + 1) else 1
    let x := va.toNat
    if x < 2 ^ 63 ∧ 2 ^ 41 ≤ x then trapW 0x04 va
    else if x % 0x10000 ≠ 0 then trapW 0x07 va
    else if 2 ^ 63 ≤ x ∨ x < 0x200000 then trapW 0x05 va
    else
      let vas := (upTo n).map fun i => (x + 0x10000 * i) % 2 ^ 64
      if vas.any fun v => decide (2 ^ 41 ≤ v) then trapW 0x04 va
      else
        pageLimit s c (vas.map fun v => (v, .pushWrite))
        let l ← pushPages s c (vas.map fun v => (v, .pushWrite))
        if l.any fun p => classOf p != some .global || parityPage s p then trapW 0x05 va
        else
          let s1 ← pushCmd s c { mkCmd s c f 5 (.kprot f) 0 with aux := l, pins := vas.map (· / 0x10000) }
          ok s1)

def execKunpr (f : Fields) (s : State) : Outcome State Fault Refusal := .next (codWord 0x222 false f s (.kunpr f))
def execKopen (f : Fields) (s : State) : Outcome State Fault Refusal := .next (codWord 0x223 false f s (.kopen f))
def execKprep (f : Fields) (s : State) : Outcome State Fault Refusal := .next (codWord 0x224 false f s (.kprep f))
def execKcomt (f : Fields) (s : State) : Outcome State Fault Refusal := .next (codWord 0x225 false f s (.kcomt f))
def execKabrt (f : Fields) (s : State) : Outcome State Fault Refusal := .next (codWord 0x226 false f s (.kabrt f))
def execKrbld (f : Fields) (s : State) : Outcome State Fault Refusal := .next (codWord 0x228 false f s (.krbld f))
def execKscrb (f : Fields) (s : State) : Outcome State Fault Refusal := .next (codWord 0x229 false f s (.kscrb f))

/-! KSTAT (14 R373). -/

/-- The state of an entry: live, lost, being rebuilt, spare. -/
def memberState (k : Cod) (i : Nat) : Nat :=
  if k.k + k.m ≤ i then 3
  else if k.building.any fun b => b.1 == i then 2
  else if k.lost.contains i then 1 else 0

/-- Round n's word: 1 committed, 2 aborted, 3 open, with its last abort reason. -/
def roundWord (s : State) (n : Nat) : W64 :=
  let k := s.cod
  let d := k.decided.find? fun d => d.1 == n
  let reason := (d.map fun x => x.2.2).getD 0
  let open_ := n == nextRound s && [KState.opened, .preparing, .prepared, .staging, .staged].contains k.st
  w64 ((if open_ then 3 else (d.map fun x => x.2.1).getD 0) * 2 ^ 62 + reason)

/-- Granules the spare has in full: the least received from any survivor. -/
def rebuiltGrans (k : Cod) : Nat :=
  match k.streams with
  | [] => 0
  | x :: t => t.foldl (fun m y => min m y.2) x.2

def kstatWord (s : State) (item : Nat) (x : W64) : W64 :=
  let k := s.cod
  let none := ~~~(0 : W64)
  let n := x.toNat
  if !k.cfg then none
  else match item with
    | 0 => if n < 32 then (let e := mapGet 0 k.entries n; if e.getLsbD 63 then e ||| w64 (memberState k n * 2 ^ 60) else e) else none
    | 1 => if n < 64 then (match mapFind k.regions n with
        | some r => w64 (2 ^ 63 + r.pages.length * 2 ^ 32)
        | Option.none => 0) else none
    | 2 => roundWord s n
    | _ => match k.rbld with
        | some (l, _) => w64 (2 ^ 63 + l * 2 ^ 40 + rebuiltGrans k)
        | Option.none => 0

def execKstat (f : Fields) (s : State) : Outcome State Fault Refusal :=
  .next (runWord 0x227 false false 1 f s fun s c =>
    let (s1, l) := outsideVal s c [kstatWord s (modBits f 83 80) (valOf (getArch s c) f.o2)]
    okHold (putS s1 c 24 f.o1 (l.getD 0 0) 0) 24)

/-! Executing commands (14 R364, R373, R374). -/

/-- A FAIL element whose value word is not stated: a free value (log entry 1). -/
def codFailFree (s : State) (c : Nat) (k : Cmd) (cause : Nat) : State := finishFree s c k 3 cause 0

/-- KCFG installs the record and asks for its confirmation; a write of its record held at its home is waited for (14 R355, R358; 02
R60). -/
def runKcfg (s : State) (c : Nat) (k : Cmd) (f : Fields) : State :=
  let r := k.aux.map (memGet s.mem)
  let ovr := modBit f 80
  if holdsRead s k.aux then s
  else if s.cod.cfg && s.cod.st != .fenced then codFailFree s c k 3
  else if !recOk r then codFailFree s c k 7
  else if recClash r && !ovr then codFailFree s c k 9
  else match recSelf s r with
    | none => codFailFree s c k 10
    | some i =>
      let s1 := setCmd (kInstall s r ovr i) c { k with started := true, prog := 1, stamp := stampMax k.stamp (readHome s k.aux).2 }
      sendK s1 (entDev (recEntry r (recK r))) .config [0, w64 i] r

/-- KPROT zeroes the region, as writes of the pushing context by the engine of its die, and gives it its number. -/
def runKprot (s : State) (c : Nat) (k : Cmd) : State :=
  let x := k.x1.toNat
  if 63 < x || !kprotSize k.x4 then codFailFree s c k 7
  else if !s.cod.cfg then codFailFree s c k 5
  else if (mapFind s.cod.regions x).isSome || s.cod.st != .idle then codFailFree s c k 8
  else if busyHome s k.aux then s
  else
    let (s1, st) := k.aux.foldl (fun r p =>
      let (t, st) := codCmdWrite r.1 (dieOf c) k.base ((upTo 0x10000).map fun i => (p + i, 0))
      (t, stampMax r.2 st)) (s, k.stamp)
    let s2 := updCod s1 fun y => { y with regions := mapSet y.regions x ⟨k.aux⟩ }
    -- deltas held for the region are staged now
    let mine := s2.cod.waiting.filter fun p => (p.args.getD 1 0).toNat == x
    let s3 := updCod s2 fun y => { y with waiting := y.waiting.filter fun p => (p.args.getD 1 0).toNat != x }
    let a (p : Packet) (i : Nat) : Nat := (p.args.getD i 0).toNat
    let s4 := mine.foldl (fun t p =>
      updCod (stageDelta t (a p 0) x (a p 2) p.data) fun y => countGot y (a p 3) (a p 4) (a p 0)) s3
    codDone (checkStaged s4) c { k with stamp := st } k.x4

def runKunpr (s : State) (c : Nat) (k : Cmd) : State :=
  let x := k.x1.toNat
  let v := w64 (x % 64)
  if 63 < x then codFail s c k 7 0 v
  else if s.cod.st != .idle || (s.cod.stages.any fun y => y.region == x) || (mapFind s.cod.regions x).isNone then codFail s c k 8 0 v
  else codDone (updCod s fun y => { y with regions := mapDel y.regions x }) c k v

/-- KOPEN by the table of R364; in ROLLBACK it waits for IDLE. -/
def runKopen (s : State) (c : Nat) (k : Cmd) : State :=
  let n := k.x1
  let lostData := (s.cod.lost ++ s.cod.building.map (·.1)).any fun i => decide (i < s.cod.k)
  if !s.cod.cfg || s.cod.st == .fenced then codFail s c k 5 0 n
  else if s.cod.role != 1 then codFail s c k 4 0 n
  else match s.cod.st with
    | .idle =>
      if n.toNat != nextRound s then codFail s c k 2 0 n
      else if lostData then codFail s c k 3 0 n
      else codDone (updCod s fun y => { clearRound y with st := .opened, deferCnt := 0 }) c k n
    | .rollback => s
    | _ => codFail s c k 3 0 n

/-- KPREP: the prepare point, with a MARK of each die to each live parity member. -/
def runKprep (s : State) (c : Nat) (k : Cmd) : State :=
  let n := k.x1
  if !s.cod.cfg || s.cod.st == .fenced then codFail s c k 5 0 n
  else if s.cod.role != 1 then codFail s c k 4 0 n
  else match s.cod.st with
    | .opened =>
      if n.toNat != nextRound s then codFail s c k 2 0 n
      else
        let s1 := (liveParity s.cod).foldl (fun t j => (upTo 4).foldl (fun t d =>
          sendK t (memberDev s.cod j) .mark [n, w64 d, w64 (mapGet [] s.cod.sentN (4 * j + d)).length, w64 s.cod.self] []) t) s
        updCod s1 fun y => { y with st := .preparing }
    | .preparing => if n.toNat != nextRound s then codFail s c k 2 0 n else s
    | .prepared => if n.toNat != nextRound s then codFail s c k 2 0 n else codDone s c k n
    | _ => codFail s c k 3 0 n

def runKcomt (s : State) (c : Nat) (k : Cmd) : State :=
  let n := k.x1
  if !s.cod.cfg then codFail s c k 5 0 n
  else if n.toNat ≤ s.cod.c then codDone s c k n
  else if s.cod.st == .fenced then codFail s c k 5 0 n
  else match s.cod.role with
    | 1 => if n.toNat == nextRound s && [KState.opened, .preparing, .prepared].contains s.cod.st then s else codFail s c k 3 0 n
    | 2 => s
    | _ => codFail s c k 4 0 n

def runKabrt (s : State) (c : Nat) (k : Cmd) : State :=
  let n := k.x1
  if !s.cod.cfg || s.cod.st == .fenced then codFail s c k 5 0 n
  else if s.cod.role != 1 && s.cod.role != 2 then codFail s c k 4 0 n
  else if n.toNat ≤ s.cod.c then codFail s c k 6 0 n
  else if nextRound s < n.toNat then codFail s c k 2 0 n
  else sendCoord s .kabrt [n]

/-- The lost member a KRBLD may ask for now. -/
def krbldIndex (s : State) (k : Cmd) : Option Nat :=
  let free := sortNat (s.cod.lost.filter fun i => !s.cod.building.any fun b => b.1 == i)
  if k.x1.getLsbD 5 then free.head? else free.find? fun i => i == k.x1.toNat % 32

/-- KRBLD waits for its index to be lost, then asks the coordinator for it (14 R367). -/
def runKrbld (s : State) (c : Nat) (k : Cmd) : State :=
  if !s.cod.cfg || s.cod.st == .fenced then codFailFree s c k 5
  else if s.cod.role != 3 then codFailFree s c k 4
  else if !k.x1.getLsbD 5 && decide (s.cod.k + s.cod.m ≤ k.x1.toNat % 32) then codFailFree s c k 7
  else match krbldIndex s k, k.aux with
    | some l, [] =>
      setCmd (sendCoord s .rebuild [0, w64 l, mapGet 0 s.cod.entries s.cod.self, w64 s.devno]) c { k with started := true, aux := [l] }
    | _, _ => s

/-- Physical granules of a range of a region. -/
def scrubGrans (s : State) (r off n : Nat) : List Nat := (upTo (n / 64)).map fun i => protPa s r (off + 64 * i)
def granBad (s : State) (pa : Nat) : Bool := (upTo 64).any fun b => s.poison.contains (pa + b)

/-- Granules whose parity differs from that of the data members' bytes. -/
def parityDiffers (s : State) (grans : List Nat) (peers : List (List Byte)) : Nat :=
  ((grans.zip (upTo grans.length)).filter fun p =>
    let bs := peers.map fun d => (d.drop (64 * p.2)).take 64
    let cs := (upTo s.cod.k).map (coef s.cod (s.cod.self - s.cod.k))
    let v := (upTo 64).map fun t => BitVec.ofNat 8 ((cs.zip bs).foldl (fun x q => x ^^^ gfMul q.1 (q.2.getD t 0).toNat) 0)
    v != memRead s.mem p.1 64).length

/-- KSCRB: corr granules of the range had a corrected error; uncorrectable ones are repaired first (GRANULE_REPAIR); with
.VFY on an idle parity member the data members' bytes come from the peers. -/
def runKscrb (s : State) (c : Nat) (k : Cmd) (f : Fields) (corr : Nat) (peers : List (List Byte)) : State :=
  let x := k.x1.toNat
  let off := k.x2.toNat
  let n := k.x3.toNat
  if !s.cod.cfg || s.cod.st == .fenced then codFailFree s c k 5
  else if 63 < x || off % 64 != 0 || n % 64 != 0 then codFailFree s c k 7
  else match mapFind s.cod.regions x with
    | none => codFailFree s c k 8
    | some r =>
      if r.pages.length * 0x10000 < off + n then codFailFree s c k 7
      else if holdsRead s (scrubGrans s x off n) then s
      else
        let gs := scrubGrans s x off n
        let bad := gs.filter (granBad s)
        if bad.isEmpty then
          let fixed := k.aux.headD 0
          let rew := min corr gs.length
          let mism := if modBit f 80 && s.cod.role == 2 && s.cod.st == .idle then parityDiffers s gs peers else 0
          let s1 := updCod s fun y => { y with scrub := y.scrub + BitVec.ofNat 16 rew }
          codDone s1 c { k with stamp := stampMax k.stamp (readHome s (gs.flatMap fun g => (upTo 64).map (g + ·))).2 } (w64 (gs.length + (fixed + rew + mism) % 2 ^ 32 * 2 ^ 32))
        else if bad.any fun g => !repairable s g then codFailFree s c k 11
        else setCmd s c { k with aux := [max (k.aux.headD 0) bad.length] }

/-- Execute a command, or look again at one that waits. -/
def runCoding (s : State) (c : Nat) (k : Cmd) (corr : Nat) (peers : List (List Byte)) : State :=
  match k.instr with
  | .kcfg f => if k.prog = 1 then s else runKcfg s c k f
  | .kprot _ => runKprot s c k
  | .kunpr _ => runKunpr s c k
  | .kopen _ => runKopen s c k
  | .kprep _ => runKprep s c k
  | .kcomt _ => runKcomt s c k
  | .kabrt _ => if k.prog = 1 then s else runKabrt s c k
  | .krbld _ => runKrbld s c k
  | .kscrb f => runKscrb s c k f corr peers
  | _ => s

/-- Mark a command that now waits as started, and its one request as sent. -/
def markStarted (s : State) (c : Nat) (k : Cmd) : State :=
  match (cmdsOf s c 5).find? fun y => y.seq == k.seq && y.held.isNone with
  | some y => setCmd s c { y with started := true, prog := 1 }
  | none => s

/-- A context's qk command that is executing, or that could start. -/
def codAt (s : State) (c : Nat) (going : Bool) : Option Cmd :=
  (headCmd s c 5).filter fun k => k.held.isNone && engineMay s c k && (if going then k.started else !k.started && cmdReady s c k)

/-- Look at the command of a context's queue. -/
def codLook (going : Bool) (corr : Nat) (peers : List (List Byte)) (s : State) (c : Nat) : State :=
  match codAt s c going with
  | some k => markStarted (runCoding s c k corr peers) c k
  | none => s

/-- The engine of a die looks again at the commands that wait, each of which blocks its own queue only, and takes the next command of
the others' by the rule of 01 R16 (14 R371). -/
def execCodingCommandStart (die corr : Nat) (peers : List (List Byte)) (s : State) : Outcome State Fault Refusal :=
  .next (
    let cs := (upTo 128).map (128 * die + ·)
    let s1 := cs.foldl (codLook true corr peers) s
    match rrPick s1 (classes s1) (mapGet 511 s1.cod.rr die) (cs.filter fun c => (codAt s1 c false).isSome) with
    | none => s1
    | some c => codLook false corr peers (updCod s1 fun y => { y with rr := mapSet y.rr die c }) c)

end Sys2Proof.Machine
end

