-- ==== Sys2Proof/Machine/CodEvents.lean ====
section
/-!
DEFINITION. Machine/CodEvents.lean: the coding engines' messages and clocks: confirmation, staging, decisions, rollback,
beats, losses, takeover, the broom and repair (spec file 14, R355 to R369).
-/
namespace Sys2Proof.Machine
open Sys2Proof Host

/-- Word i of a packet as a number. -/
def parg (p : Packet) (i : Nat) : Nat := (p.args.getD i 0).toNat

/-- Take packet n of a kind out of the inbox and act on it. -/
def onPacket (s : State) (n : Nat) (kind : PKind) (f : State → Packet → State) : State :=
  match inboxAt s n kind with
  | some p => f (dropInbox s n) p
  | none => s

/-! Confirmation (14 R355). -/

/-- The device's configuration is confirmed: its members are live, and its KCFG completes. -/
def kConfirm (s : State) : State :=
  let s1 := updCod s fun k => { k with
    cfg := true
    live := upTo (k.k + k.m)
    lost := []
    coord := k.role == 2 && k.self == k.k
    lastBeat := (upTo (k.k + k.m)).map fun i => (i, s.gts)
    ownBeat := s.gts
    beatAns := s.gts }
  eachWaiting s1 fun t c k => match k.instr with
    | .kcfg _ => codDone t c k (w64 (t.cod.self + t.cod.role * 2 ^ 8))
    | _ => t

/-- The record is unlike the coordinator's: KCFG fails with CAUSE 0x0A. -/
def kRefuse (s : State) : State :=
  eachWaiting (updCod s fun k => { k with have_ := false, role := 0 }) fun t c k => match k.instr with
    | .kcfg _ => codFailFree t c k 10
    | _ => t

/-- Every member's record is here and equal to the coordinator's own. -/
def allConfirmed (s : State) : Bool :=
  (upTo (s.cod.k + s.cod.m)).all fun i => s.cod.confirms.any fun c => c.1 == memberDev s.cod i

/-- One configuration message: a record at the coordinator, or its answer at a member. -/
def configMsg (s : State) (p : Packet) : State :=
  match parg p 0 with
  | 0 =>
    if p.data != s.cod.rec_ then sendK s p.src .config [2] []
    else updCod s fun k => { k with confirms := k.confirms ++ [(p.src, p.data)] }
  | 1 => if s.cod.have_ && !s.cod.cfg then kConfirm s else s
  | _ => if s.cod.have_ && !s.cod.cfg then kRefuse s else s

/-- The coordinator answers every device whose record it holds once every member's is in. -/
def answerConfigs (s : State) : State :=
  if allConfirmed s && !s.cod.confirms.isEmpty then
    s.cod.confirms.foldl (fun t c => sendK t c.1 .config [1] []) s
  else s

def execConfigConfirmed (s : State) : Outcome State Fault Refusal :=
  .next (
    let mine (p : Packet) : Bool := p.kind == .config && (p.args.headD 0 != 0 || s.cod.have_)
    match s.fab.inbox.find? mine with
    | some p =>
      let s1 := { s with fab := { s.fab with inbox := s.fab.inbox.erase p } }
      let s2 := configMsg s1 p
      if parg p 0 = 0 ∧ !s1.cod.cfg then answerConfigs s2
      else if parg p 0 = 0 ∧ p.data = s1.cod.rec_ then sendK s1 p.src .config [1] []
      else s2
    | none => s)

/-! Deltas, marks and their acknowledgements (14 R359, R360, R364). -/

/-- A parity member of a confirmed, unfenced Peloton. -/
def parityHere (s : State) : Bool := s.cod.cfg && s.cod.role == 2 && s.cod.st != .fenced
def dataHere (s : State) : Bool := s.cod.cfg && s.cod.role == 1 && s.cod.st != .fenced

/-- The first message of a round moves an idle member to STAGING. -/
def startStaging (s : State) (n : Nat) : State :=
  if s.cod.st == .idle && n == nextRound s then updCod s fun k => { k with st := .staging } else s

def execDeltaArrival (n : Nat) (s : State) : Outcome State Fault Refusal :=
  .next (onPacket s n .delta fun s p =>
    let r := parg p 0
    if !parityHere s || (r != nextRound s && r != nextRound s + 1) then s
    else
      let s1 := startStaging s r
      if (mapFind s1.cod.regions (parg p 1)).isNone then updCod s1 fun k => { k with waiting := k.waiting ++ [p] }
      else checkStaged (updCod (stageDelta s1 r (parg p 1) (parg p 2) p.data) fun k => countGot k (parg p 3) (parg p 4) r))

def execMarkArrival (n : Nat) (s : State) : Outcome State Fault Refusal :=
  .next (onPacket s n .mark fun s p =>
    let r := parg p 0
    if !parityHere s || (r != nextRound s && r != nextRound s + 1) then s
    else checkStaged (updCod (startStaging s r) fun k => { k with marks := k.marks ++ [(parg p 3, parg p 1, r, parg p 2)] }))

def execAckArrival (n : Nat) (s : State) : Outcome State Fault Refusal :=
  .next (onPacket s n .ack fun s p =>
    if dataHere s && s.cod.st == .preparing && parg p 0 == nextRound s then
      prepCheck (updCod s fun k => { k with acks := k.acks ++ [(parg p 2, parg p 1)] })
    else s)

/-! The coordinator's decisions (14 R363). -/

def execPreparedArrival (n : Nat) (s : State) : Outcome State Fault Refusal :=
  .next (onPacket s n .prepared fun s p =>
    if parityHere s && s.cod.coord then updCod s fun k => { k with prep := k.prep ++ [(parg p 1, parg p 0)] } else s)

def execStagedArrival (n : Nat) (s : State) : Outcome State Fault Refusal :=
  .next (onPacket s n .staged fun s p =>
    if parityHere s && s.cod.coord then updCod s fun k => { k with stag := k.stag ++ [(parg p 1, parg p 0)] } else s)

/-- Commit when everything is in; abort when a data member was lost before its PREPARED and the round is under way. -/
def execCommitDecision (s : State) : Outcome State Fault Refusal :=
  .next (
    if !(parityHere s && s.cod.coord) || s.cod.querying || decidedAs s (nextRound s) 1 then s
    else if allIn s then commitRound s (nextRound s)
    else if lostEarly s && (s.cod.st != .idle || s.cod.prep.any fun p => p.2 == nextRound s) then abortRound s 1
    else s)

def execKabrtRequestArrival (n : Nat) (s : State) : Outcome State Fault Refusal :=
  .next (onPacket s n .kabrt fun s p =>
    if parityHere s && s.cod.coord && parg p 0 == nextRound s && !decidedAs s (nextRound s) 1 then abortRound s 2 else s)

def execOverflowArrival (n : Nat) (s : State) : Outcome State Fault Refusal :=
  .next (onPacket s n .overflow fun s p =>
    if parityHere s && s.cod.coord && parg p 0 == nextRound s && !decidedAs s (nextRound s) 1 then abortRound s 3 else s)

/-! Decisions at the members (14 R364, R366). -/

/-- A data member takes a commit: the journal is discarded. -/
def dataCommit (s : State) (n : Nat) : State :=
  settleWaits (decide_ (updCod s fun k => { clearRound k with c := n, st := .idle }) n 1 0)

/-- A parity member folds the round. -/
def parityCommit (s : State) (n : Nat) : State :=
  if stageLost s n then selfLost s
  else
    let s1 := updCod (foldRound s n) fun k => { dropCounts k n with c := n }
    let s2 := updCod s1 fun k => { k with st := parityRest k, prep := k.prep.filter (fun p => n < p.2), stag := k.stag.filter (fun p => n < p.2) }
    settleWaits (checkStaged (decide_ s2 n 1 0))

def execCommitArrival (n : Nat) (s : State) : Outcome State Fault Refusal :=
  .next (onPacket s n .commit fun s p =>
    let r := parg p 0
    if r != nextRound s then s
    else if dataHere s && s.cod.st == .prepared then dataCommit s r
    else if parityHere s && (s.cod.st == .staging || s.cod.st == .staged) then parityCommit s r
    else s)

/-- A parity member discards the round. -/
def parityAbort (s : State) (n reason : Nat) : State :=
  let s1 := updCod s fun k => { dropCounts k n with aborts := k.aborts + 1 }
  abortWaits (decide_ (updCod s1 fun k => { k with st := parityRest k }) n 2 reason) n reason

def inRound (s : State) : Bool := [KState.opened, .preparing, .prepared].contains s.cod.st

def execAbortArrival (n : Nat) (s : State) : Outcome State Fault Refusal :=
  .next (onPacket s n .abort fun s p =>
    let r := parg p 0
    let reason := parg p 1
    if r = nextRound s ∧ dataHere s ∧ inRound s then dataAbort s reason false
    else if r = nextRound s ∧ parityHere s ∧ (s.cod.st = .staging ∨ s.cod.st = .staged) then parityAbort s r reason
    else
      -- ignored by the round's state; a KABRT that waits for it is done
      eachWaiting s fun t c k => match k.instr with
        | .kabrt _ => if k.x1.toNat = r then codDone t c k k.x1 else t
        | _ => t)

/-- Every journalled granule has been written back; unreadable in both copies, the member is lost (14 R366, R369). -/
def execRollbackComplete (bad : Bool) (s : State) : Outcome State Fault Refusal :=
  .next (
    if s.cod.st != .rollback then s
    else if bad || journalLost s then selfLost (decide_ s (nextRound s) 2 5)
    else
      let s1 := s.cod.journal.foldl (fun t e => codWrite t (cellsAt e.1 e.2.2)) s
      settleWaits (updCod s1 fun k => { clearRound k with st := if k.fenceAfter then .fenced else .idle, fenceAfter := false }))

/-! Beats and silence (14 R365). -/

/-- Live parity members below an index. -/
def parityBelow (k : Cod) (i : Nat) : List Nat := (liveParity k).filter fun j => decide (j < i)

def execBeatSend (s : State) : Outcome State Fault Refusal :=
  .next (
    let k := s.cod
    if !k.cfg || k.role == 3 || k.st == .fenced || k.coord || decide (s.gts.toNat < k.ownBeat.toNat + 10000) then s
    else
      let tOut := if k.role = 1 then
          (if k.beatAns.toNat + 20000 ≤ s.gts.toNat then liveParity k else (coordOf k).toList)
        else parityBelow k k.self
      sendList (updCod s fun x => { x with ownBeat := s.gts }) tOut .beat [w64 k.pelid, w64 k.self])

/-- A beat is answered; an answer is noted. -/
def execBeatArrival (n : Nat) (s : State) : Outcome State Fault Refusal :=
  .next (match s.fab.inbox[n]? with
    | some p =>
      match p.kind with
      | .beat =>
        let s1 := dropInbox s n
        if parityHere s && parg p 0 == s.cod.pelid then
          sendK (updCod s1 fun k => { k with lastBeat := mapSet k.lastBeat (parg p 1) s.gts }) p.src .beatReply [w64 s.cod.pelid] []
        else s1
      | .beatReply => updCod (dropInbox s n) fun k => if parg p 0 = k.pelid then { k with beatAns := s.gts } else k
      | _ => s
    | none => s)

/-- The coordinator declares member i lost: silent for 100 µs, or out of reach. -/
def execLostDeclaration (i : Nat) (s : State) : Outcome State Fault Refusal :=
  .next (
    if parityHere s && s.cod.coord && s.cod.live.contains i && i != s.cod.self &&
        (decide ((mapGet 0 s.cod.lastBeat i).toNat + 100000 ≤ s.gts.toNat) || !reachable s (memberDev s.cod i)) then declareLost s i
    else s)

/-- A member records a loss and what follows from it in its state. -/
def recordLost (s : State) (i : Nat) : State :=
  if s.cod.st == .fenced || i == s.cod.self then s
  else
    let s1 := updCod s (strike · i)
    match s1.cod.role, s1.cod.st with
    | 1, .opened => if (liveParity s1.cod).isEmpty then dataAbort s1 4 false else s1
    | 1, .preparing => if (liveParity s1.cod).isEmpty then dataAbort s1 4 false else prepCheck s1
    | 2, _ => checkStaged (takeOver s1)
    | _, _ => s1

/-- A member that declares itself lost could not read an entry of its own: a round not yet decided aborts with reason 5 (14 R363,
R369). -/
def execLostArrival (n : Nat) (s : State) : Outcome State Fault Refusal :=
  .next (onPacket s n .lost fun s p =>
    if !s.cod.cfg then s
    else
      let own := p.src == memberDev s.cod (parg p 0)
      let s1 := recordLost s (parg p 0)
      if own && parityHere s1 && s1.cod.coord && !s1.cod.decided.any (fun d => d.1 == nextRound s1) then abortRound s1 5 else s1)

/-- A request of FCOLL.RAISE that no coordinator has answered: the member sends the token itself (15 R390). -/
def askedToken (s : State) : State :=
  if s.cod.asked then sendToken (updCod s fun k => { k with asked := false }) 2 s.cod.coord else s

/-- No coordinator for 100 µs: the last column of R364. A parity member takes itself for the lowest live one. -/
def execCoordinatorSilence (s : State) : Outcome State Fault Refusal :=
  .next (
    if !s.cod.cfg || s.cod.coord || decide (s.gts.toNat < s.cod.beatAns.toNat + 100000) then s
    else match s.cod.role, s.cod.st with
      | 1, .idle => askedToken (settleWaits (updCod s fun k => { k with st := .fenced }))
      | 1, .opened | 1, .preparing => askedToken (dataAbort s 4 true)
      | 1, .prepared => sendToken (updCod s fun k => { k with st := .fenced, kept := true, asked := false }) 2 false
      | 1, .rollback => askedToken (updCod s fun k => { k with fenceAfter := true })
      | 2, .fenced => s
      | 2, _ =>
        let below := parityBelow s.cod s.cod.self
        let s1 := below.foldl (fun t i => updCod t (strike · i)) s
        let s2 := takeOver s1
        askedToken (below.foldl (fun t i => sendList t (t.cod.live ++ spares t.cod) .lost [w64 i]) s2)
      | _, _ => s)

/-! Takeover (14 R363). -/

def execQueryArrival (n : Nat) (s : State) : Outcome State Fault Refusal :=
  .next (onPacket s n .query fun s p =>
    if !s.cod.cfg then s
    else
      let r := parg p 0
      -- the asker is the lowest live parity member
      let s1 := updCod s fun k => { k with beatAns := s.gts }
      let s2 := if s.cod.st == .fenced then s1 else ((liveParity s1.cod).filter fun j => decide (j < parg p 1)).foldl (fun t j => updCod t (strike · j)) s1
      sendK s2 p.src .queryReply [w64 r, w64 s.cod.self, w64 (kCode s.cod.st), if r ≤ s.cod.c then 1 else 0] [])

/-- A reply of COMMITTED gives COMMIT; when all have answered, the table decides. -/
def execQueryReplyArrival (n : Nat) (s : State) : Outcome State Fault Refusal :=
  .next (onPacket s n .queryReply fun s p =>
    let r := parg p 0
    let i := parg p 1
    if !(parityHere s && s.cod.coord && s.cod.querying) || r != nextRound s then s
    else if parg p 3 = 1 then commitRound (updCod s fun k => { k with querying := false }) r
    else
      let s1 := updCod s fun k => { k with
        queryAns := k.queryAns ++ [(i, parg p 2, 0)]
        prep := if parg p 2 = 3 then k.prep ++ [(i, r)] else k.prep
        stag := if parg p 2 = 6 then k.stag ++ [(i, r)] else k.stag }
      if s1.cod.live.all fun j => s1.cod.queryAns.any fun q => q.1 == j then
        let s2 := updCod s1 fun k => { k with querying := false }
        if lostEarly s2 then abortRound s2 1 else s2
      else s1)

/-! The broom (14 R367). -/

/-- The spare's placement clashes with a live member's. -/
def clashes (s : State) (e : W64) : Bool :=
  !s.cod.ovr && s.cod.live.any fun i =>
    let x := (mapGet 0 s.cod.entries i).toNat
    entPd x == entPd e.toNat || entCl x == entCl e.toNat

/-- A round is between KOPEN and decision as far as the coordinator sees. -/
def roundOpen (s : State) : Bool := s.cod.st != .idle || s.cod.prep.any fun p => p.2 == nextRound s

/-- The coordinator takes a request for index l, or a spare takes its refusal. -/
def execRebuildRequestArrival (n : Nat) (s : State) : Outcome State Fault Refusal :=
  .next (match inboxAt s n .rebuild with
    | none => s
    | some p =>
      if parg p 0 = 1 then
        eachWaiting (dropInbox s n) fun t c k => match k.instr with
          | .krbld _ => codFailFree t c k (parg p 1)
          | _ => t
      else if !(parityHere s && s.cod.coord) then dropInbox s n
      else
        let l := parg p 1
        let e := p.args.getD 2 0
        let refuse (cause : Nat) : State := sendK (dropInbox s n) p.src .rebuild [1, w64 cause] []
        if !s.cod.lost.contains l || s.cod.building.any (fun b => b.1 == l) then refuse 10
        else if clashes s e then refuse 9
        else if s.cod.live.length < s.cod.k then refuse 11
        else if roundOpen s then s
        else
          let surv := survivors s.cod l
          let args := [w64 l, e, w64 p.src, w64 s.cod.c, w64 (surv.foldl (fun x i => x ||| 2 ^ i) 0)]
          let s1 := updCod (dropInbox s n) fun k => { k with building := k.building ++ [(l, p.src)] }
          sendK (sendLive s1 .streamReq args) p.src .streamReq args [])

/-- The survivors a request names, in index order. -/
def maskList (x : Nat) : List Nat := (upTo 32).filter fun i => x.testBit i

/-- One survivor's weighted streams of every region, in ascending region and offset order, in 4 KiB blocks; the last says
so. -/
def streamAll (s : State) (dst l weight : Nat) : State :=
  let blocks := s.cod.regions.flatMap fun r => (upTo (16 * r.2.pages.length)).map fun b => (r.1, 4096 * b)
  let s1 := blocks.foldl (fun t b =>
    let bs := (upTo 4096).map fun i => memGet t.mem (protPa t b.1 (b.2 + i))
    sendK t dst .stream [w64 l, w64 b.1, w64 b.2, w64 s.cod.self, 0] (bs.map fun x => BitVec.ofNat 8 (gfMul weight x.toNat))) s
  sendK s1 dst .stream [w64 l, 0, 0, w64 s.cod.self, 1] []

/-- A member takes the coordinator's request: it replaces the entry, and a survivor starts streaming; the spare starts
its rebuild. -/
def execSurvivorStreamRequest (n : Nat) (s : State) : Outcome State Fault Refusal :=
  .next (onPacket s n .streamReq fun s p =>
    if !s.cod.cfg || s.cod.st == .fenced then s
    else
      let l := parg p 0
      let surv := maskList (parg p 4)
      let s1 := updCod s fun k => { k with
        entries := mapSet k.entries l (p.args.getD 1 0)
        building := (k.building.filter fun b => b.1 != l) ++ [(l, parg p 2)] }
      if parg p 2 = s.devno then
        updCod s1 fun k => { k with
          rbld := some (l, parg p 3)
          rbSurv := surv
          rbDone := []
          live := upTo (k.k + k.m) |>.filter fun i => i != l && !k.lost.contains i
          streams := surv.map fun i => (i, 0) }
      else match surv.idxOf? s.cod.self with
        | some i => streamAll s1 (parg p 2) l ((weights s1.cod surv l).getD i 0)
        | none => s1)

/-- A block from a survivor is XORed into the spare's region. -/
def execBroomStreamBlock (n : Nat) (s : State) : Outcome State Fault Refusal :=
  .next (match inboxAt s n .stream with
    | none => s
    | some p =>
      match s.cod.rbld with
      | none => s
      | some (l, _) =>
        if parg p 0 ≠ l then s
        else if parg p 4 = 1 then updCod (dropInbox s n) fun k => { k with rbDone := k.rbDone ++ [parg p 3] }
        else match mapFind s.cod.regions (parg p 1) with
          | none => s
          | some _ =>
            let cells := (upTo p.data.length).map fun i =>
              let a := protPa s (parg p 1) (parg p 2 + i)
              (a, memGet s.mem a ^^^ p.data.getD i 0)
            updCod (codWrite (dropInbox s n) cells) fun k => { k with
              streams := k.streams.map fun x => if x.1 = parg p 3 then (x.1, x.2 + p.data.length / 64) else x })

/-- A rebuilt member is live again. -/
def rejoin (k : Cod) (l : Nat) : Cod :=
  { k with
    live := if k.live.contains l then k.live else sortNat (k.live ++ [l])
    lost := k.lost.filter fun i => i != l
    building := k.building.filter fun b => b.1 != l }

/-- Every stream has landed: the spare becomes the member; the others learn of it by its message. -/
def execBroomComplete (s : State) : Outcome State Fault Refusal :=
  .next (match s.fab.inbox.find? fun p => p.kind == .rebuilt with
    | some p =>
      let s1 := { s with fab := { s.fab with inbox := s.fab.inbox.erase p } }
      let l := parg p 0
      if s.cod.cfg && s.cod.st != .fenced then
        updCod s1 fun k => { rejoin k l with
          lastBeat := mapSet k.lastBeat l s.gts
          coord := k.coord && coordOf (rejoin k l) == some k.self }
      else s1
    | none =>
      match s.cod.rbld with
      | none => s
      | some (l, c) =>
        if !(s.cod.rbSurv.all fun i => s.cod.rbDone.contains i) then s
        else
          let grans := rebuiltGrans s.cod
          let s1 := updCod s fun k => { rejoin k l with
            role := roleOf k.k k.m l
            self := l
            c := c
            st := .idle
            rbld := none
            coord := roleOf k.k k.m l == 2 && coordOf (rejoin k l) == some l
            ownBeat := s.gts
            beatAns := s.gts }
          let s2 := sendList s1 (s1.cod.live.filter fun i => i != l) .rebuilt [w64 l]
          eachWaiting s2 fun t c k => match k.instr with
            | .krbld _ => codDone t c k (w64 (l + grans * 2 ^ 8))
            | _ => t)

/-! Repair (14 R368). -/

/-- An uncorrectable protected granule takes the value its peers give, written by the engine of its die (02 R42). The value is
parity of the current data; a parity member's own granule holds it without what is staged for it, which the commit folds in (DEDUCED,
log entry 36). -/
def execGranuleRepair (pa : Nat) (peers : List (List Byte)) (s : State) : Outcome State Fault Refusal :=
  .next (
    let g := pa / 64 * 64
    if !granBad s g || !repairable s g then s
    else
      let surv := survivors s.cod s.cod.self
      let value := rebuildBytes s.cod surv s.cod.self peers 64
      let staged := s.cod.stages.filter fun x => protPa s x.region x.off == g
      if staged.any (fun x => stageGone s x) then selfLost s
      else
        let bs := if s.cod.role = 2 then staged.foldl (fun b x => List.zipWith (· ^^^ ·) b x.val) value else value
        let s1 := codPut s (homeDie g) (cellsAt g bs)
        let s2 := { s1 with
          poison := s1.poison.filter fun a => a / 64 != g / 64
          poisonTab := s1.poisonTab.filter fun t => s.poison.any fun a => a / 64 != g / 64 && a / 0x2000 == t / 0x2000 }
        updCod s2 fun k => { k with repairs := k.repairs + 1 })

/-! Registers (14 R370). -/

def kpelWord (s : State) : W64 :=
  let k := s.cod
  let b (x : Bool) (i : Nat) : Nat := if x then 2 ^ i else 0
  if !k.cfg then w64 k.regions.length
  else w64 (k.pelid * 2 ^ 32 + 2 ^ 31 + b k.coord 30 + b (k.st == .fenced) 29 + k.role * 2 ^ 27 + k.self * 2 ^ 22 + k.k * 2 ^ 17
    + k.m * 2 ^ 14 + b k.ovr 8 + b (!k.building.isEmpty) 7 + k.regions.length)

def kliveWord (s : State) : W64 :=
  let m (l : List Nat) : Nat := l.foldl (fun x i => x ||| 2 ^ i) 0
  w64 (m s.cod.lost * 2 ^ 32 + m s.cod.live)

def krstWord (s : State) : W64 := w64 (kCode s.cod.st * 2 ^ 60 + s.cod.deferCnt.toNat)

def kjrnWord (s : State) : W64 :=
  let k := s.cod
  match k.role with
  | 1 => w64 (k.journal.length * 2 ^ 32 + jcap k)
  | 2 => w64 (k.stages.length * 2 ^ 32 + scap k)
  | _ => 0

def kcntWord (s : State) : W64 :=
  w64 (s.cod.aborts.toNat * 2 ^ 48 + s.cod.repairs.toNat * 2 ^ 32 + s.cod.scrub.toNat * 2 ^ 16)

def kcoefWord (s : State) (j w : Nat) : W64 :=
  let k := s.cod
  w64 ((upTo 8).foldl (fun x b =>
    let i := 8 * w + b
    if k.have_ ∧ j < k.m ∧ i < k.k then x + coef k j i * 2 ^ (8 * b) else x) 0)

end Sys2Proof.Machine
end

