-- ==== Sys2Proof/Machine/Faults.lean ====
section
/-!
DEFINITION. Machine/Faults.lean: the halt line, the fault registers, the trace registers, and the collective abort (spec
file 15, R377 to R383, R390 to R394).
-/
namespace Sys2Proof.Machine
open Sys2Proof Host

/-! Effects not confirmed by the checker (06 R176; 15 R379). -/

/-- A held effect is discarded: its accesses, its launch or its packet never leave, and a qd reservation is given back. -/
def discardEff (s : State) (h : Held) : State :=
  let unqd (s : State) : State := updCtx s h.ctx fun x => { x with qdRsv := x.qdRsv - 1 }
  match h.eff with
  | .mark | .full | .trace | .trap _ => s
  | .access ids => { s with accs := s.accs.filter fun x => !ids.contains x.id }
  | .push k => if k.q = 6 then unqd s else s
  | .launch n =>
    let s1 := { s with nests := mapDel s.nests n }
    match mapFind s.nests n with
    | some x => if x.ntfy then unqd s1 else s1
    | none => s1
  | .remote id => { s with fab := { s.fab with dirs := s.fab.dirs.filter fun d => d.id != id } }

/-- Every held effect of a context, and the trace entries of its words not confirmed, are discarded. -/
def discardHeld (s : State) (c : Nat) : State :=
  let l := (getCore s (coreOf c)).held.filter fun h => h.ctx == c
  dropUnleft (updCore (l.foldl discardEff s) (coreOf c) fun k => { k with
    held := k.held.filter fun h => h.ctx != c
    tpend := k.tpend.filter fun e => e.ws.isEmpty || bitsOf (e.ws.getD 1 0).toNat 59 58 != c % 4 }) c

/-! The halt line (15 R379, R380). -/

/-- The engines stop a halted context's commands and report it; the copy engine first finishes a block in progress. -/
def engineStops (s : State) (c cause dom : Nat) (gts : W64) : State :=
  let going := (cmdsOf s c 2).any fun k => !cmdStopped s c k
  let s1 := if going then updCtx s c fun x => { x with skid := some (cause, false) } else s
  ((upTo 6).filter fun q => !(going && q == 2)).foldl (fun t q => engineStop t c q cause dom gts) s1

/-- A context becomes HALTED: effects not confirmed are discarded, values still on their way go nowhere, its waits and locks
end, its engines stop, and the stop records are written (15 R379). -/
def haltCtx (s : State) (c cause : Nat) (val gts : W64) : State :=
  let dom := domainOf s c
  let s1 := updCtx (discardHeld s c) c fun x => { x with
    apend := none
    late := []
    arch := { x.arch with phase := .halted, park := none, pend := none, block := none, tok := 0 } }
  let s2 := stopRows { s1 with
    accs := s1.accs.map fun x => if x.ctx = c ∧ x.eng.isNone then { x with dest := .none, token := none, slot := none } else x
    watches := s1.watches.filter fun w => w.ctx != c
    locks := s1.locks.filter fun l => l.ctx != c || l.q == 2 && (cmdsOf s1 c 2).any fun k => !cmdStopped s1 c k
    asks := s1.asks.filter fun l => l.ctx != c
    fab := { s1.fab with dirs := s1.fab.dirs.map fun d => if d.ctx = c ∧ d.late.isNone then { d with dest := .none, token := none, slot := none } else d } } c
  let s3 := outsideArch (updCore s2 (coreOf c) fun k => { k with landings := k.landings.filter fun l => l.ctx != c }) c
  let s4 := traceNow s3 c 15 4 (some 3) true 2 (w64 cause)
  let s5 := flogAt s4 gts c 1 cause dom [(getArch s c).pc, val, w64 (handleOf s (regionOfCtx s c))]
  engineStops s5 c cause dom gts

/-- A context of a cluster whose clock is stopped is halted when it restarts (16 R403). -/
def haltOne (s : State) (c cause : Nat) (val gts : W64) : State :=
  heldStop s c (.halt (domainOf s c) cause val) fun s => haltCtx s c cause val gts

/-- Raise the halt line of a domain: every context of the domain that is not being saved halts; what TVAL would have held in
a context that raised nothing is not stated, a free value (log entry 1). -/
def haltDomain (s : State) (dom cause : Nat) : State :=
  if s.mgt.halted.contains dom then s
  else
    let cs := (s.ctxs.filter fun p => p.2.bind.isSome && domainOf s p.1 == dom && !saving s p.1 &&
      (p.2.arch.phase == .running || p.2.arch.phase == .waiting || p.2.arch.phase == .exiting)).map (·.1)
    cs.foldl (fun t c => let (t1, v) := takeFree t; haltOne t1 c cause v t.gts) { s with mgt := { s.mgt with halted := s.mgt.halted ++ [dom] } }

/-- A context-fatal fault reaches its domain's halt line: the raiser's own record, and the domain halts unless it has. -/
def execHaltLineRaise (s : State) : Outcome State Fault Refusal :=
  .next (match s.fatals with
    | [] => s
    | (c, cause, gts, val) :: rest =>
      let s1 := { s with fatals := rest }
      if (getCtx s c).bind.isNone then s1
      else haltDomain (heldStop s1 c (.halt (domainOf s c) cause val) fun s => haltCtx s c cause val gts) (domainOf s c) cause)

/-! FHALT (15 R381, R394). -/

def execFhaltRaise (dom : Nat) (s : State) : Outcome State Fault Refusal := .next (haltDomain s dom 5)

/-- Events of an ended context that wait for its clock are gone. -/
def dropHeldEv (s : State) (c : Nat) : State :=
  updCluster s (clusterOf c) fun x => { x with heldEv := x.heldEv.filter fun e => e.2.1 != c }

/-- The domain's halted tasks end, bound and saved, and dispatch of the domain resumes. -/
def haltRelease (s : State) (dom : Nat) : State :=
  if !s.mgt.halted.contains dom then s
  else
    let cs := (s.ctxs.filter fun p => p.2.bind.isSome && domainOf s p.1 == dom &&
      (p.2.arch.phase == .halted || (getCluster s (clusterOf p.1)).heldEv.any fun e => e.2.1 == p.1 && (match e.2.2 with | .halt .. => true | _ => false))).map (·.1)
    let sv := s.saved.filter fun v => (getRegion s v.bind.region).domain == dom
    let s1 := cs.foldl (fun t c => endStopped (dropHeldEv t c) c) s
    let s2 := sv.foldl (fun t v => endSaved t v true) s1
    { s2 with mgt := { s2.mgt with halted := s2.mgt.halted.filter (· != dom) } }

def execFhaltRelease (dom : Nat) (s : State) : Outcome State Fault Refusal := .next (haltRelease s dom)

def fhaltWord (s : State) : W64 :=
  w64 (min 255 s.mgt.halted.length * 2 ^ 16 + (if s.mgt.halted.contains s.mgt.haltDom then 2 ^ 8 else 0) + s.mgt.haltDom)
/-- A write of FHALT acts on the domain it names itself (log entry 14): a release, then a raise. -/
def fhaltWrite (s : State) (x : W64) : State :=
  let dom := x.toNat % 256
  let s1 := { s with mgt := { s.mgt with haltDom := dom } }
  let s2 := if x.getLsbD 8 then haltRelease s1 dom else s1
  if x.getLsbD 9 then haltDomain s2 dom 5 else s2

/-! FLOG and SVPOOL (15 R382, R388, R394). -/

def flogWord (s : State) : W64 := w64 (s.mgt.flogBase + s.mgt.flogSize)
/-- A write of FLOG: SIZE keeps its value on a code that is none; HEAD and DROP restart at 0, in the header too. -/
def flogSet (s : State) (x : W64) : State :=
  let n := x.toNat % 32
  let size := if n = 0 ∨ 4 ≤ n ∧ n ≤ 20 then n else s.mgt.flogSize
  let base := bitsOf x.toNat 39 12 * 0x1000
  let s1 := { s with mgt := { s.mgt with flogBase := base, flogSize := size, flogHead := 0, flogDrop := 0 } }
  if size = 0 then s1
  else
    let z := List.replicate 8 (0 : Byte)
    (unitWrite s1 (homeDie base) (cellsAt base z ++ cellsAt (base + 16) z) (appliedAll s1)).1
def execFlogWrite (x : W64) (s : State) : Outcome State Fault Refusal := .next (flogSet s x)

def svpoolWord (s : State) : W64 := w64 ((s.mgt.svSlots - s.mgt.svUsed.length) * 2 ^ 48 + s.mgt.svBase + s.mgt.svSlots)
def svpoolWrite (s : State) (x : W64) : State :=
  { s with mgt := { s.mgt with
    svBase := bitsOf x.toNat 39 24 * 2 ^ 24
    svSlots := if s.mgt.svUsed.isEmpty then x.toNat % 4096 else s.mgt.svSlots } }

/-! Trace registers (15 R392 to R394). -/

def trctlWord (s : State) (k : Nat) : W64 :=
  let t := (getCore s k).trace
  w64 (t.head.toNat * 2 ^ 52 + (if t.frozen then 2 ^ 51 else 0) + t.post.toNat * 2 ^ 36 + t.tcause.toNat * 2 ^ 28 + t.trig.toNat * 2 ^ 23
    + t.cls.toNat * 2 ^ 12 + (if t.en then 1 else 0))
/-- Clearing FROZEN resumes writing and re-arms the trigger. -/
def trRearm (t : Trace) : Trace := { t with frozen := false, left := none }
def trctlWrite (s : State) (k : Nat) (x : W64) : State :=
  updCore s k fun c =>
    let t := if x.getLsbD 51 then trRearm c.trace else c.trace
    { c with trace := { t with
      post := x.extractLsb' 36 12
      tcause := x.extractLsb' 28 8
      trig := x.extractLsb' 23 5
      cls := x.extractLsb' 12 5
      en := x.getLsbD 0 } }
def execTrctlFrozenClear (core : Nat) (s : State) : Outcome State Fault Refusal :=
  .next (updCore s core fun c => { c with trace := trRearm c.trace })

def trpcWord (s : State) (k : Nat) : W64 := (getCore s k).trace.pcaddr.zeroExtend 64 <<< 4
def trpcWrite (s : State) (k : Nat) (x : W64) : State := updCore s k fun c => { c with trace := { c.trace with pcaddr := x.extractLsb' 4 37 } }
def tridxWord (s : State) (k : Nat) : W64 := (getCore s k).trace.idx.zeroExtend 64
def trdatWord (s : State) (k j : Nat) : W64 := (getCore s k).trace.lat.getD j 0

/-- Latch an entry; one never written holds zeros (log entry 2). -/
def tridxSet (s : State) (k : Nat) (x : W64) : State :=
  updCore s k fun c => { c with trace := { c.trace with
    idx := x.truncate 12
    lat := mapGet [0, 0, 0, 0] c.trace.ents (x.toNat % 4096) } }
def execTridxWrite (core : Nat) (x : W64) (s : State) : Outcome State Fault Refusal := .next (tridxSet s core x)

/-! Collective abort (15 R390, R391). -/

def fcollWord (s : State) : W64 :=
  w64 (s.mgt.tokens.toNat * 2 ^ 16 + (if s.mgt.collEn then 2 ^ 8 else 0) + s.mgt.collDom)
/-- No coordinator has answered this member for 100 µs. -/
def coordGone (s : State) : Bool := !s.cod.coord && (s.cod.role != 3 && decide (s.cod.beatAns.toNat + 100000 ≤ s.gts.toNat) || (coordDev s).isNone)
/-- A request to the coordinator, from a configured member; with no coordinator the member sends the token itself (15 R390). -/
def fcollAsk (s : State) : State :=
  if !s.cod.cfg then s
  else if coordGone s then sendToken s 2 false
  else updCod (sendCoord s .fcoll [w64 s.cod.pelid]) fun k => { k with asked := true }
def fcollWrite (s : State) (x : W64) : State :=
  let s1 := { s with mgt := { s.mgt with collEn := x.getLsbD 8, collDom := x.toNat % 256 } }
  if x.getLsbD 9 then fcollAsk s1 else s1
def execFcollRaise (s : State) : Outcome State Fault Refusal := .next (fcollAsk s)

/-- Every member and spare but this one. -/
def others (s : State) : List Nat :=
  (((upTo (s.cod.k + s.cod.m)) ++ spares s.cod).map (memberDev s.cod)).filter fun d => d != s.devno

/-- A data member takes the agreed round: it commits a round it had prepared, or rolls back one above A (R391 step 3). -/
def dataAgree (s : State) (a reason : Nat) : State :=
  let asked := s.cod.st == .prepared || s.cod.st == .fenced && s.cod.kept
  if a = nextRound s ∧ asked then decide_ (updCod s fun k => { clearRound k with c := a, st := .fenced }) a 1 0
  else if a < nextRound s ∧ (inRound s ∨ asked ∧ !s.cod.journal.isEmpty) then dataAbort s reason true
  else updCod s fun k => if k.st == .rollback then { k with fenceAfter := true } else { k with st := .fenced }

/-- Fold the rounds from n on, as many as there are up to A. -/
def foldUpTo : Nat → State → Nat → State
  | 0, s, _ => s
  | m + 1, s, n => if stageLost s n then s else foldUpTo m (decide_ (updCod (foldRound s n) fun k => { dropCounts k n with c := n }) n 1 0) (n + 1)

/-- A parity member folds every round above its C up to A and discards later ones (R391 step 4). -/
def parityAgree (s : State) (a : Nat) : State :=
  let s1 := foldUpTo (a - s.cod.c) s (nextRound s)
  let later := (s1.cod.stages.map (·.round)).eraseDups.filter fun n => decide (s1.cod.c < n)
  updCod s1 fun k => { later.foldl dropCounts k with st := .fenced }

/-- A saved task's GSYNC returns status 2 when it runs again. -/
def abortSaved (s : State) (v : Saved) : State :=
  match v.park with
  | some k =>
    if k.kind == .gsync && (getRegion s v.bind.region).domain == s.mgt.collDom then
      let b := getBar s k.addr
      let g := (arrivalOf b v.bind.serial).getD b.gen
      setBar s k.addr { b with
        arr := b.arr.map fun x => if x.1 = v.bind.serial then (x.1, x.2.1, true) else x
        owed := b.owed ++ [(v.bind.serial, g, 2)] }
    else s
  | none => s

/-- GSYNC waiters of the collective's domain return and its fabric commands fail (R391 step 7). -/
def abortFabric (s : State) : State :=
  let cs := (s.ctxs.filter fun p => p.2.bind.isSome && domainOf s p.1 == s.mgt.collDom &&
    (p.2.arch.phase == .running || p.2.arch.phase == .waiting || p.2.arch.phase == .exiting)).map (·.1)
  cs.foldl (fun t c =>
    let t1 := heldStop t c .gsyncAbort fun t => gsyncAbort t c
    let t2 := (cmdsOf t1 c 4).foldl (fun u k =>
      if k.held.isSome then u else finishCmd (dropLocks u c 4 k.seq) c k 3 7 (k.fired % 2 ^ 16) (w64 (k.prog % 2 ^ 32))) t1
    ((t2.fab.dirs.filter fun d => d.ctx == c && dirOpen d).map (·.id)).foldl (fun u id => failDirect u id 7) t2)
    (s.saved.foldl abortSaved s)

/-- Act on the agreed round (R391 steps 2 to 7). Which of the four coding engines, whose round state is one, reports the token is not
stated: the record names die 0's (DESIGN CHOICE, log entry 35). -/
def actOn (s : State) (a src reason : Nat) : State :=
  let s1 := { s with mgt := { s.mgt with tokens := s.mgt.tokens + 1 } }
  let s2 := flogRecord s1 (0x340 + 2) 5 0 0 [w64 s.cod.pelid, w64 a, w64 src, w64 reason]
  let s3 := match s2.cod.role with
    | 1 => dataAgree s2 a reason
    | 2 => parityAgree s2 a
    | _ => updCod s2 fun k => { k with st := .fenced }
  let s4 := settleWaits (updCod s3 fun k => { k with collect := none, kept := false })
  let s5 := if s4.mgt.collEn then haltDomain s4 s4.mgt.collDom 6 else s4
  abortFabric s5

/-- A device starts collecting: its own statement, and one to every other. -/
def startCollect (s : State) (src : Nat) (gts : W64) (reason : Nat) : State :=
  let args := [w64 s.cod.pelid, w64 src, gts, w64 s.cod.c, w64 s.devno]
  let s1 := (others s).foldl (fun t d => sendPkt t d 7 0 .statement 0 args []) s
  updCod s1 fun k => { k with collect := some (src * 16 + reason % 16, gts, s.gts, [(s.devno, s.cod.c)]) }

/-- A request reaches the coordinator, or a token a member: forwarded once, and acted on once; while one is being collected
for, another waits (R390, R391 step 1). -/
def execAbortTokenArrival (n : Nat) (s : State) : Outcome State Fault Refusal :=
  .next (match s.fab.inbox[n]? with
    | none => s
    | some p =>
      if p.kind = .fcoll then
        let s1 := dropInbox s n
        if s.cod.cfg && s.cod.coord && parg p 0 == s.cod.pelid then sendToken s1 2 true else s1
      else if p.kind != .token then s
      else
        let src := parg p 2
        let gts := p.args.getD 3 0
        if !s.cod.cfg || parg p 0 != s.cod.pelid || s.cod.tokens.contains (parg p 0, src, gts) then dropInbox s n
        else if s.cod.collect.isSome then s
        else
          let s1 := updCod (dropInbox s n) fun k => { k with tokens := k.tokens ++ [(k.pelid, src, gts)], asked := false }
          let s2 := (others s).foldl (fun t d => sendPkt t d 7 0 .token 0 p.args []) s1
          if parg p 5 = 1 then actOn s2 (parg p 1) src (parg p 4) else startCollect s2 src gts (parg p 4))

/-- A statement is kept and forwarded once while its token is being collected for; one that comes before its token waits,
and one whose token has been acted on is dropped. -/
def execStatementArrival (n : Nat) (s : State) : Outcome State Fault Refusal :=
  .next (match inboxAt s n .statement with
    | none => s
    | some p =>
      let dev := parg p 4
      let ident (src : Nat) (gts : W64) : Bool := parg p 1 == src && p.args.getD 2 0 == gts
      if !s.cod.cfg || parg p 0 != s.cod.pelid then dropInbox s n
      else match s.cod.collect with
        | some (sr, gts, t0, l) =>
          if !ident (sr / 16) gts then s
          else if l.any fun e => e.1 == dev then dropInbox s n
          else
            let s1 := updCod (dropInbox s n) fun k => { k with collect := some (sr, gts, t0, l ++ [(dev, parg p 3)]) }
            (others s).foldl (fun t d => sendPkt t d 7 0 .statement 0 p.args []) s1
        | none => if s.cod.tokens.contains (parg p 0, parg p 1, p.args.getD 2 0) then dropInbox s n else s)

/-- The window ends 100 µs after the token, or up to 100 µs later while a live member has sent no statement. -/
def execStatementCollectionExpiry (s : State) : Outcome State Fault Refusal :=
  .next (match s.cod.collect with
    | none => s
    | some (sr, _, t0, l) =>
      let all := s.cod.live.all fun i => l.any fun e => e.1 == memberDev s.cod i
      let age := s.gts.toNat - t0.toNat
      if (decide (100000 ≤ age) && all) || decide (200000 ≤ age) then
        actOn s ((l.map (·.2)).foldl max 0) (sr / 16) (sr % 16)
      else s)

end Sys2Proof.Machine
end

