-- ==== Sys2Proof/Machine/HostPower.lean ====
section
/-!
DEFINITION. Machine/HostPower.lean: bring-up, secure boot, the mailbox, the host's windows, the package clock, power, clock
changes and attestation (spec file 16, R395 to R406; 01, R27 to R30).
-/
namespace Sys2Proof.Machine
open Sys2Proof Host

def updMgt (s : State) (f : Mgt → Mgt) : State := { s with mgt := f s.mgt }

/-! Bring-up (16 R398, R404, R405). -/

/-- Everything returns to its reset value; fuses stay blown. -/
def execDeviceReset (s : State) : Outcome State Fault Refusal :=
  .next { State.reset with agenda := s.agenda, freeCnt := s.freeCnt, mgt := { Mgt.reset with fuse0 := s.mgt.fuse0, fuse2 := s.mgt.fuse2 } }

/-- Boot status: the stage, and bit 15 when it has failed. -/
def bootWord (s : State) : W64 := w64 (s.mgt.stage + (if s.mgt.failed then 2 ^ 15 else 0))

def stageAt (s : State) (n : Nat) : Bool := s.mgt.stage == n && !s.mgt.failed
/-- A stage fails: the device stays there, and management is alerted. -/
def stageFail (s : State) : State := updMgt s fun m => { m with failed := true, irqs := m.irqs ++ [3] }

/-- n bytes of a trailer at an offset. -/
def trBytes (t : List Byte) (off n : Nat) : List Byte := (t.drop off).take n
def trNat (t : List Byte) (off n : Nat) : Nat := leNat (trBytes t off n)
def zeros (l : List Byte) : Bool := l.all (· == 0)

/-- A signed image passes a stage (R404). -/
def imagePasses (stage fuse : Nat) (image t : List Byte) : Bool :=
  t.length == 256 && trNat t 0 4 == 0x53494731 && trNat t 4 4 == image.length % 2 ^ 32 && trNat t 0x0C 4 == 0
    && zeros (trBytes t 0x89 3) && zeros (trBytes t 0xFE 2)
    && shake256 (trBytes t 0x50 57) 64 == Config.fusedKeyDigest stage
    && edVerify (trBytes t 0x50 57) (trBytes t 0x8C 114) (t.take 0x8C)
    && shake256 image 64 == trBytes t 0x10 64 && decide (fuse ≤ trNat t 8 4)

def execBootRomVerify (image trailer : List Byte) (s : State) : Outcome State Fault Refusal :=
  .next (
    if !stageAt s 0 then s
    else if imagePasses 0 s.mgt.fuse0 image trailer then
      updMgt s fun m => { m with stage := 1, digest0 := trBytes trailer 0x10 64, ver0 := trNat trailer 8 4, fuse0 := trNat trailer 8 4 }
    else stageFail s)

/-- The tests' results: usable bands and spare rows in use, by cluster. -/
def execHbmTraining (ok : Bool) (arr : List (Nat × Nat)) (s : State) : Outcome State Fault Refusal :=
  .next (
    if !stageAt s 1 then s
    else if ok then
      let s1 := (arr.zip (upTo 64)).foldl (fun t p => updCluster t p.2 fun c => { c with
        bandok := BitVec.ofNat 4 p.1.1
        bands := BitVec.ofNat 4 p.1.1
        spused := BitVec.ofNat 4 p.1.2 }) s
      updMgt s1 fun m => { m with stage := 2 }
    else stageFail s)

/-- The labels "LX-ID" and "LX-AT". -/
def labelId : List Byte := [0x4C, 0x58, 0x2D, 0x49, 0x44]
def labelAt : List Byte := [0x4C, 0x58, 0x2D, 0x41, 0x54]

def execFirmwareVerify (image trailer : List Byte) (s : State) : Outcome State Fault Refusal :=
  .next (
    if !stageAt s 2 then s
    else if imagePasses 2 s.mgt.fuse2 image trailer then
      let d2 := trBytes trailer 0x10 64
      updMgt s fun m => { m with
        stage := 3
        digest2 := d2
        ver2 := trNat trailer 8 4
        fuse2 := trNat trailer 8 4
        idSeed := shake256 (Config.fusedSecret ++ labelId ++ m.digest0) 57
        atSeed := shake256 (Config.fusedSecret ++ labelAt ++ m.digest0 ++ d2) 57 }
    else stageFail s)

/-- The links are trained; channels without a fibre are dark (12 R332). -/
def execLinkTraining (ok : Bool) (dark : List Nat) (s : State) : Outcome State Fault Refusal :=
  .next (
    if !stageAt s 3 then s
    else if ok then dark.foldl (fun t c => setWave (setWave t false c { Wave.reset with st := 7 }) true c { Wave.reset with st := 7 }) s
    else stageFail s)

/-- Stage 4 once SETDEV, ROUTE and TIME have completed. -/
def stageUp (s : State) : State :=
  if stageAt s 3 && s.mgt.setdev && s.mgt.routed && s.mgt.timed then updMgt s fun m => { m with stage := 4 } else s

/-! The mailbox (16 R397). -/

/-- A command from the host: ignored while one is busy; refused before stage 3, and, but for SETDEV, before SETDEV. -/
def mailbox (s : State) (tag code : Nat) (run : State → State) : State :=
  if s.mgt.mbWait.isSome then s
  else if s.mgt.stage < 3 then mbFinish s 2 5 tag code []
  else if code != 1 && !s.mgt.setdev then mbFinish s 2 2 tag code []
  else run s
def mbRefuse (s : State) (reason tag code : Nat) : State := mbFinish s 2 reason tag code []
def mbDone (s : State) (tag code : Nat) (res : List W64) : State := mbFinish s 0 0 tag code res
/-- It goes on: the status reads busy. -/
def mbBusy (s : State) (tag code x : Nat) : State := updMgt s fun m => { m with mbStat := mbWord 1 0 tag code, mbWait := some (code, tag, x) }

/-- n bytes from pa lie in Global. -/
def inGlobal (pa n : Nat) : Bool := decide (pa + n ≤ 0x8000000000)

def execSetdev (tag dev groups maxdev : Nat) (s : State) : Outcome State Fault Refusal :=
  .next (mailbox s tag 1 fun s =>
    if s.mgt.setdev then mbRefuse s 3 tag 1
    else if 2 ^ 22 ≤ dev ∨ groups = 0 ∨ 131072 < groups ∨ 2 ^ 22 ≤ maxdev then mbRefuse s 1 tag 1
    else
      let s1 := { s with devno := dev, fab := { s.fab with ngrp := groups - 1, maxdev := maxdev } }
      mbDone (stageUp (updMgt s1 fun m => { m with setdev := true })) tag 1 [])

/-- The table's rows come with the event (log entry 11); each fibre takes its mode. -/
def execRoute (tag pa len : Nat) (peers : List Nat) (modes : List (Nat × Nat)) (gates : List Gate) (alts : List (Nat × Nat))
    (s : State) : Outcome State Fault Refusal :=
  .next (mailbox s tag 2 fun s =>
    if !inGlobal pa len then mbRefuse s 1 tag 2
    else
      let s1 := { s with fab := { s.fab with
        routed := peers
        gates := gates
        alts := alts
        onAlt := []
        modes := modes.foldl (fun m p => mapSet m p.1 (p.2 % 4)) s.fab.modes
        modeReq := [] } }
      mbDone (stageUp (updMgt s1 fun m => { m with routed := true })) tag 2 [])

def execTime (tag root : Nat) (s : State) : Outcome State Fault Refusal :=
  .next (mailbox s tag 3 fun s =>
    if 2 ^ 22 ≤ root then mbRefuse s 1 tag 3 else mbBusy (updMgt s fun m => { m with timeRoot := some root }) tag 3 root)

/-- A new root region (05 R119, R120; 01 R35). With no free index the reason is not stated: a free value (log entry 1). -/
def execMkroot (tag rcb table : Nat) (s : State) : Outcome State Fault Refusal :=
  .next (mailbox s tag 4 fun s =>
    if !inGlobal rcb 64 || rcb % 64 != 0 || !inGlobal table 256 || table % 256 != 0 then mbRefuse s 1 tag 4
    else if busyHome s [rcb] then s
    else
      let w := (upTo 8).map fun i => memNat s.mem (rcb + 8 * i) 8
      let r := rcbOf w none
      if r.inh != 0 || !rcbZeros w || !rcbRange r then mbRefuse s 1 tag 4
      else match freeIndex s with
        | none => let (s1, fv) := takeFree s; mbRefuse s1 (fv.toNat % 256) tag 4
        | some i =>
          let s1 := createRegion s i 0 r rcb table
          mbDone s1 tag 4 [w64 (handleOf s1 i)])

/-- The region of a host handle that names a root region. -/
def hostRoot (s : State) (h : Nat) : Option Nat :=
  let r := h % 4096
  if r = 0 ∨ bitsOf h 19 12 ≠ 0 ∨ (getRegion s r).state = .free ∨ bitsOf h 63 20 ≠ (getRegion s r).gen.toNat ∨ (getRegion s r).parent ≠ 0 then none
  else some r

def execTeardown (tag handle : Nat) (s : State) : Outcome State Fault Refusal :=
  .next (mailbox s tag 5 fun s => match hostRoot s handle with
    | none => mbRefuse s 4 tag 5
    | some r =>
      if (getRegion s r).state = .torn then mbDone s tag 5 [w64 (getRegion s r).tdCount]
      else mbBusy (updRegion (teardown s r) r fun g => { g with hostTd := true }) tag 5 r)

/-- Bytes padded with zeros to a length. -/
def padTo (n : Nat) (l : List Byte) : List Byte := l.take n ++ List.replicate (n - l.length) 0

/-- Bytes 0x000 to 0x127 of a report, with a nonce area (R406). -/
def reportHead (s : State) (nonce : List Byte) (len : Nat) : List Byte :=
  leBytes 8 0x41545331 ++ leBytes 8 s.devno ++ leBytes 8 s.gts.toNat ++ padTo 64 nonce ++ leBytes 8 len
    ++ padTo 64 s.mgt.digest0 ++ padTo 64 s.mgt.digest2 ++ leBytes 4 s.mgt.ver0 ++ leBytes 4 s.mgt.ver2
    ++ padTo 64 (edPublic s.mgt.atSeed)

/-- The report, and the attestation key's signature after it. -/
def report (s : State) (nonce : List Byte) : List Byte :=
  let cert := edSign s.mgt.idSeed (reportHead s [] nonce.length)
  let r := reportHead s nonce nonce.length ++ padTo 120 cert ++ padTo 64 (edPublic s.mgt.idSeed) ++ List.replicate 32 0
  r ++ edSign s.mgt.atSeed r

/-- A write by the management controller to Global memory. -/
def mgtWrite (s : State) (pa : Nat) (bs : List Byte) : State :=
  (List.range (bs.length / 64 + 1)).foldl (fun t i =>
    laterWrite t (homeDie (pa + 64 * i)) (cellsAt (pa + 64 * i) ((bs.drop (64 * i)).take 64)) (appliedAll t)) s

def execAttest (tag : Nat) (nonce : List Byte) (pa : Nat) (s : State) : Outcome State Fault Refusal :=
  .next (mailbox s tag 6 fun s =>
    if nonce.isEmpty || decide (64 < nonce.length) || !inGlobal pa 626 then mbRefuse s 1 tag 6
    else mbDone (mgtWrite s pa (report s nonce)) tag 6 [])

def execCrec (tag pa : Nat) (s : State) : Outcome State Fault Refusal :=
  .next (mailbox s tag 7 fun s =>
    if !inGlobal pa 64 then mbRefuse s 1 tag 7
    else if busyHome s [pa, pa + 63] then s
    else mbDone s tag 7 ((upTo 8).map fun i => w64 (memNat s.mem (pa + 8 * i) 8)))

def execCntirq (tag slot pa : Nat) (s : State) : Outcome State Fault Refusal :=
  .next (mailbox s tag 8 fun s =>
    if 16 ≤ slot ∨ pa % 8 ≠ 0 ∨ ¬ (classOf pa = some .global ∨ classOf pa = some .commons) then mbRefuse s 1 tag 8
    else mbDone (updMgt s fun m => { m with slots := mapSet m.slots slot pa }) tag 8 [w64 (mapGet 0 s.mgt.slots slot)])

/-! The host's windows (16 R396, R397). -/

def hostReads (s : State) (bs : List Byte) : State := updMgt s fun m => { m with hostRd := bs }

def execCntirqPendingRead (s : State) : Outcome State Fault Refusal :=
  .next (updMgt (hostReads s (leBytes 8 s.mgt.pending.toNat)) fun m => { m with pending := 0 })

/-- A write to a BAR 2 page: a record for a LIVE root region, which arrives at its launch queue in this cycle, behind every earlier
host write; any other write counts in the malformed-write counter (01 R33, R34; 05 R131). -/
def execHostLaunchWrite (page off : Nat) (data : List Byte) (s : State) : Outcome State Fault Refusal :=
  .next (
    if page = 0 ∨ 4096 ≤ page ∨ (getRegion s page).state = .free then s
    else if off != 0 || data.length != 64 || !live s page || (getRegion s page).parent != 0 then bumpCnt s page 0
    else
      let x : Nest := { newNest page 0 (BitVec.ofNat 512 (leNat data)) none false 0 with relId := s.nextId, arr := s.gts }
      { s with nests := mapSet s.nests s.nextNest x, nextNest := s.nextNest + 1 })

def execHostRegionStatusRead (page : Nat) (s : State) : Outcome State Fault Refusal :=
  .next (hostReads s (leBytes 8 (if page = 0 ∨ 4096 ≤ page then 0 else (rgnWord s page).toNat)))

/-- A BAR 4 write: a plain write stamped on the stack's die, applied at its home in the link's order. -/
def execBar4Write (pa : Nat) (data : List Byte) (s : State) : Outcome State Fault Refusal :=
  .next (
    if data.isEmpty || !inGlobal pa data.length then s
    else
      let d := homeDie pa
      let (s1, n, _) := takeWseq s d zeroStamp
      let cells := cellsAt pa data
      { s1 with
        nextId := s1.nextId + 1
        accs := s1.accs ++ [{
          id := s1.nextId, ctx := hostCtx, seq := s1.nextId, eng := none, die := d, kind := .wr, cells := cells, addrs := cells.map (·.1),
          vec := zeroStamp, deps := [], wseq := some n, out := true, strong := none, host := false, dest := .none, token := none, slot := none,
          deferred := false, va := w64 pa, hint := 0 }] })

/-- A BAR 4 read waits for what its home holds; uncorrectable bytes read as free values (log entry 1). -/
def execBar4Read (pa n : Nat) (s : State) : Outcome State Fault Refusal :=
  .next (
    let l := (upTo n).map fun i => pa + i
    if !inGlobal pa n || holdsRead s l || (l.any fun a => s.poison.contains a && repairable s a)
        || s.accs.any (fun x => x.ctx == hostCtx && overlaps x.addrs l) then s
    else
      let (s1, fv) := takeFree s
      hostReads s1 (l.map fun a => if s.poison.contains a then fv.truncate 8 else memGet s.mem a))

/-! The package clock (01 R27 to R30). -/

def gtsLocked (s : State) : Bool := s.gtsstat.getLsbD 31
def gtsCatch (s : State) : Bool := s.gtsstat.getLsbD 30

/-- One cycle of every running cluster clock at the rate in force (01 R28; 16 R402). -/
def clockTick (c : Cluster) : Cluster :=
  if c.stopped then c
  else
    let f := c.frac + c.curPct.toNat
    if 100 ≤ f then { c with ccy := c.ccy + 1, frac := f - 100 } else { c with frac := f }

/-- One nanosecond: the counter, each cluster's clock, and the outputs of the fabric port. adj 1 adds a tick and 2 omits one, no more often than R29 allows; catching up adds one in every 64. -/
def execGtsTick (adj : Nat) (s : State) : Outcome State Fault Refusal :=
  .next (
    let behind := s.mgt.timeRoot.isSome && !gtsLocked s
    let add := gtsCatch s && decide (63 ≤ s.gtsFrac) || adj == 1 && (behind && decide (63 ≤ s.gtsFrac) || decide (1023 ≤ s.gtsFrac))
    let omit_ := adj == 2 && !gtsCatch s && decide (1023 ≤ s.gtsFrac)
    let s1 := { s with
      gts := if add then s.gts + 2 else if omit_ then s.gts else s.gts + 1
      gtsFrac := if add || omit_ then 0 else s.gtsFrac + 1 }
    linkTick ((upTo 64).foldl (fun t k => updCluster t k clockTick) s1))

/-- GTSSTAT from its parts (01 R30). -/
def gtsWord (locked catching lost : Bool) (off : Int) : W64 :=
  w64 ((if locked then 2 ^ 31 else 0) + (if catching then 2 ^ 30 else 0) + (if lost then 2 ^ 29 else 0) + intBits 24 (intClamp true 24 off))

/-- A measurement of the offset from the time root: until TIME has completed the register reads zero (R30). -/
def execGtsSyncMeasure (offset : Int) (s : State) : Outcome State Fault Refusal :=
  .next (match s.mgt.timeRoot with
    | none => s
    | some root =>
      let off : Int := if root = s.devno then 0 else offset
      let locked := decide (off.natAbs ≤ 32)
      let fell := gtsLocked s && !locked
      let lost := s.gtsstat.getLsbD 29 || fell
      let s1 := match s.mgt.mbWait with
        | some (3, tag, _) => if locked then mbDone (stageUp (updMgt s fun m => { m with timed := true })) tag 3 [] else s
        | _ => s
      let s2 := if s1.mgt.timed then { s1 with gtsstat := gtsWord locked (decide (off < -32)) lost off } else s1
      if fell then updMgt s2 fun m => { m with irqs := m.irqs ++ [3] } else s2)

/-! Power (16 R399 to R401). -/

/-- The clock the controller plans, in %: the ceiling less its own one-per-cent steps (log entry 15). -/
def planOf (c : Cluster) : Nat := max 1 (c.cappct.toNat - c.lowered - c.aged)

def thrsnWord (c : Cluster) : W64 := w64 (c.thrNow.toNat * 2 ^ 8 + c.thrSticky.toNat)
def thrsnWrite (s : State) (k : Nat) (x : W64) : State := updCluster s k fun c => { c with thrSticky := c.thrSticky &&& ~~~(x.truncate 5) }
def clkplanWord (c : Cluster) : W64 :=
  w64 (c.cappct.toNat * 2 ^ 48 + planOf c * 2 ^ 40 + c.curPct.toNat * 2 ^ 32 + c.vmarg.toNat * 2 ^ 16 + c.gapflr.toNat * 2 ^ 4
    + (if c.clkReq.isSome then 1 else 0))
def clkplanWrite (s : State) (k : Nat) (x : W64) : State :=
  let v := bitsOf x.toNat 55 48
  if 50 ≤ v ∧ v ≤ 100 then updCluster s k fun c => { c with cappct := BitVec.ofNat 8 v } else s
def pwrcapWord (s : State) : W64 := w64 (s.mgt.draw.toNat * 2 ^ 32 + s.mgt.cap.toNat)
def pwrcapWrite (s : State) (x : W64) : State :=
  let v := x.toNat % 2 ^ 16
  if 1000 ≤ v ∧ v ≤ 3600 then updMgt s fun m => { m with cap := BitVec.ofNat 16 v } else s
def agestWord (c : Cluster) : W64 := w64 (c.replans.toNat * 2 ^ 40 + c.slack.toNat * 2 ^ 16 + c.band.toNat * 2 ^ 12)

/-- A cause acts now: NOW and the sticky bit, and the time it was last seen. -/
def causeActs (g : W64) (c : Cluster) (k : Nat) : Cluster :=
  { c with thrNow := c.thrNow ||| (1#5 <<< k), thrSticky := c.thrSticky ||| (1#5 <<< k), thrAt := mapSet c.thrAt k g }

/-- A sample: the draw, and the clusters a thermal limit (0) or the cap (3) now lowers by one step. -/
def execPowerSample (draw : BitVec 16) (causes : List (Nat × Nat)) (s : State) : Outcome State Fault Refusal :=
  .next (
    let s1 := updMgt s fun m => { m with draw := draw }
    let above := decide (s.mgt.cap.toNat < draw.toNat)
    let s2 := (upTo 64).foldl (fun t k => updCluster t k fun c => { c with thrNow := c.thrNow &&& 0b10110 }) s1
    causes.foldl (fun t p =>
      if p.1 < 64 ∧ (p.2 = 0 ∨ p.2 = 3 ∧ above) then
        updCluster t p.1 fun c => let c1 := causeActs s.gts c p.2; { c1 with lowered := if 1 < planOf c then c.lowered + 1 else c.lowered }
      else t) s2)

/-- Excess current or slew at a window boundary: the floor rises by one. -/
def execCadenceFloorStep (cluster : Nat) (slew : Bool) (s : State) : Outcome State Fault Refusal :=
  .next (
    if atBoundary (getCluster s cluster) then
      let s1 := updCluster s cluster fun c =>
        let c1 := causeActs s.gts c (if slew then 2 else 1)
        { c1 with gapflr := if c.gapflr = 15 then 15 else c.gapflr + 1 }
      let m := (getCluster s cluster).mode
      replan m (replan m s1 (2 * cluster)) (2 * cluster + 1)
    else s)

/-- A cause absent for 1 ms: its steps are taken back, the clock's before the floor's. -/
def execPowerRelief (cluster cause : Nat) (s : State) : Outcome State Fault Refusal :=
  .next (
    let c := getCluster s cluster
    let gone := match mapFind c.thrAt cause with
      | some t => decide (t.toNat + 1000000 ≤ s.gts.toNat)
      | none => false
    if !gone then s
    else
      let s1 := updCluster s cluster fun c => { c with thrNow := c.thrNow &&& ~~~(1#5 <<< cause) }
      if cause = 0 ∨ cause = 3 then updCluster s1 cluster fun c => { c with lowered := c.lowered - 1 }
      else if (cause = 1 ∨ cause = 2) ∧ c.lowered = 0 ∧ c.gapflr ≠ 0 then
        replan c.mode (replan c.mode (updCluster s1 cluster fun c => { c with gapflr := c.gapflr - 1 }) (2 * cluster)) (2 * cluster + 1)
      else s1)

/-- A measurement below 20 ps makes a re-plan: 5 mV more, and at 100 mV 1 % less (R401). -/
def execAgeingMonitor (cluster : Nat) (slack : BitVec 16) (band : BitVec 4) (s : State) : Outcome State Fault Refusal :=
  .next (updCluster s cluster fun c =>
    let c1 := { c with slack := slack, band := band }
    if slack.toInt < 20 then
      let c2 := { c1 with replans := if c.replans = 255 then 255 else c.replans + 1 }
      if c.vmarg.toNat < 100 then { c2 with vmarg := BitVec.ofNat 16 (min 100 (c.vmarg.toNat + 5)) }
      else causeActs s.gts { c2 with aged := c.aged + 1 } 4
    else c1)

/-! Clock changes (16 R402, R403). -/

/-- The Derailleur withholds dispatch and restores; at most one change in 100 µs. -/
def execClockChangeRequest (cluster : Nat) (s : State) : Outcome State Fault Refusal :=
  .next (
    let c := getCluster s cluster
    let soon := match c.clkLast with
      | some t => decide (s.gts.toNat < t.toNat + 100000)
      | none => false
    if c.clkReq.isSome || c.stopped || soon || c.curPct.toNat == planOf c then s
    else updCluster s cluster fun c => { c with clkReq := some (planOf c, 0) })

/-- Nothing of a cluster's cores is still landing or held for the checker. -/
def coresQuiet (s : State) (cluster : Nat) : Bool :=
  (upTo 8).all (fun j => (getArch s (8 * cluster + j)).fx.isEmpty) && (upTo 2).all fun h => (getCore s (2 * cluster + h)).held.isEmpty

/-- The cores stop at a window boundary; once results have landed and effects are confirmed, the clock stops. -/
def execClockChangeQuiesce (cluster : Nat) (s : State) : Outcome State Fault Refusal :=
  .next (
    let c := getCluster s cluster
    match c.clkReq with
    | none => s
    | some (p, ph) =>
      if c.stopped || (ph == 0 && !atBoundary c) then s
      else
        let s1 := updCluster s cluster fun c => { c with clkReq := some (p, 1) }
        if coresQuiet s1 cluster then
          updCluster (confirmNow (confirmNow s1 (2 * cluster)) (2 * cluster + 1)) cluster fun c => { c with stopped := true, clkStop := some s.gts }
        else s1)

/-- What a held event does when it is delivered. -/
def deliver (s : State) (e : W64 × Nat × HeldEv) : State :=
  let run (o : Outcome State Fault Refusal) : State := match o with | .next t => t | _ => s
  let c := e.2.1
  match e.2.2 with
  | .waitgWake => run (execWaitgWake c s)
  | .nwaitRecheck => run (execNwaitRecheck c s)
  | .nwaitDeadline => run (execNwaitDeadline c s)
  | .lcwaitRecheck => run (execLcwaitRecheck c s)
  | .lcwaitDeadline => run (execLcwaitDeadline c s)
  | .waitaResume => run (execWaitaResume c s)
  | .waitaDeadline => run (execWaitaDeadline c s)
  | .gsyncRelease en g bad => gsyncRelease s c en g (if bad then 3 else 0)
  | .gsyncDeadline => gsyncDeadline s c
  | .gsyncAbort => gsyncAbort s c
  | .missed q => run (execMissedPromise c q s)
  | .trap cause sub val => asyncTrap s c cause sub val
  | .halt _ cause val => haltCtx s c cause val e.1

/-- Held events in order of (GTS, source number). DESIGN CHOICE (log entry 37): the spec does not say whose source number orders an
event held over a clock stop; it is that of the context the event is for. -/
def eventOrder (l : List (W64 × Nat × HeldEv)) : List (W64 × Nat × HeldEv) :=
  sortBy (fun a b => decide (a.1.toNat < b.1.toNat) || (a.1 == b.1 && decide (a.2.1 ≤ b.2.1))) l

/-- The clock restarts after 1,500 ns at the new rate; withholding ends; held events are delivered, and saves asked for
meanwhile count from now. -/
def execClockRestart (cluster : Nat) (s : State) : Outcome State Fault Refusal :=
  .next (
    let c := getCluster s cluster
    match c.clkReq, c.clkStop with
    | some (p, _), some t0 =>
      if !c.stopped || decide (s.gts.toNat < t0.toNat + 1500) then s
      else
        let s1 := updCluster s cluster fun c => { c with
          stopped := false
          curPct := BitVec.ofNat 8 p
          clkReq := none
          clkStop := none
          clkLast := some s.gts
          heldEv := [] }
        let again (q : SaveReq) : SaveReq := if clusterOf q.ctx = cluster ∧ t0.toNat ≤ q.start.toNat then { q with start := s.gts, cyc := ccyOf s1 q.ctx } else q
        let s2 := { s1 with saveReqs := s1.saveReqs.map again }
        (eventOrder c.heldEv).foldl deliver s2
    | _, _ => s)

end Sys2Proof.Machine
end

