-- ==== Sys2Proof/Machine/RegMap.lean ====
section
/-!
DEFINITION. Machine/RegMap.lean: the assigned system register numbers and the accesses each mode is permitted (spec file 06,
R162; and the register rules of the other chapters).
-/
namespace Sys2Proof.Machine
open Sys2Proof

/-! Permissions (06 R162): 0 none, 1 read, 2 read and write. -/

def inBlock (n lo hi : Nat) : Bool := decide (lo ≤ n) && decide (n ≤ hi)

/-- Registers of the blocks both modes read and the supervisor writes (09 R239; 11 R285; 12 R310; 14 R370; 16 R400). -/
def sharedRead (n : Nat) : Bool :=
  inBlock n 0x100 0x107 || inBlock n 0x1C0 0x1C7 || inBlock n 0x200 0x203 || inBlock n 0x240 0x245 || inBlock n 0x250 0x25F
    || inBlock n 0x280 0x283
/-- The session registers: their rule names only the read (13 R336). -/
def sessionReg (n : Nat) : Bool := inBlock n 0x140 0x142
/-- Registers of the faults block, of the supervisor only (15 R394). -/
def faultReg (n : Nat) : Bool := inBlock n 0x2C0 0x2C3 || inBlock n 0x2D0 0x2D6
/-- Registers a context writes in either mode (06 R162; 10 R273). -/
def ownReg (n : Nat) : Bool := n == 4 || inBlock n 8 0xB || inBlock n 0x180 0x182
/-- Registers both modes only read (06 R162). -/
def readReg (n : Nat) : Bool := inBlock n 0 3 || n == 5 || inBlock n 0x10 0x17
/-- Registers of the sequencer the supervisor reads and writes (06 R162). -/
def supReg (n : Nat) : Bool := inBlock n 0x20 0x25 || n == 0x28

/-- What a mode may do with a register. The session registers' rule names only the read, so a write traps in either mode
(DEDUCED, log entry 16). -/
def regPerm (sup : Bool) (n : Nat) : Nat :=
  if ownReg n then 2
  else if readReg n || sessionReg n then 1
  else if sharedRead n then (if sup then 2 else 1)
  else if supReg n || faultReg n then (if sup then 2 else 0)
  else 0

/-- A register number that is assigned: every one permits some access in supervisor mode. -/
def regAssigned (n : Nat) : Bool := regPerm true n != 0

end Sys2Proof.Machine
end

