-- ==== Sys2Proof/Machine/SysReg.lean ====
section
/-!
DEFINITION. Machine/SysReg.lean: the system registers: what each reads, what a write does, and SYSRD and
SYSWR (spec file 06, R162 to R164, R168, R179; and the register rules of the other chapters).
-/
namespace Sys2Proof.Machine
open Sys2Proof Host

/-! Reads. -/

def ctxidWord (s : State) (c : Nat) : W64 :=
  w64 (s.devno * 2 ^ 42 + (if (getArch s c).mode then 2 ^ 10 else 0) + c)
/-- SPWIN (06 R163). -/
def spwinWord (s : State) (c : Nat) : W64 :=
  match (getCtx s c).bind with
  | some b => if b.supv then w64 (0x200000 * 2 ^ 32) else w64 (b.splen * 2 ^ 32 + b.spbase)
  | none => 0
/-- CHKSTAT (06 R179). -/
def chkstatWord (k : Core) : W64 := w64 (k.rewinds.toNat * 2 ^ 32 + k.lastj.toNat * 4 + (if k.retired then 2 else 0))
/-- MXPLANE and ACCWIN (09 R238, R243). -/
def mxplaneWord (m : MxCore) : W64 :=
  w64 (m.shadow.depth * 2 ^ 32 + m.active.depth * 2 ^ 24 + (if m.ready then 2 ^ 16 else 0) + m.shadow.tag * 2 ^ 8 + m.active.tag)
def accwinWord (s : State) (c : Nat) : W64 := let (b, n) := tilesHeld s c; w64 (b * 2 ^ 8 + n)

/-- The array's registers (09 R239 to R242): MODE and BANDS as last written, CADENCE the value in force (16 R399). -/
def arrayWord (s : State) (c n : Nat) : W64 :=
  let cl := getCluster s (clusterOf c)
  match n with
  | 0x100 => w64 (cl.modeNext.getD cl.mode).toNat
  | 0x101 => w64 (cl.bandok.toNat * 2 ^ 20 + cl.spused.toNat * 2 ^ 8 + (cl.bandsNext.getD cl.bands).toNat)
  | 0x102 => w64 (gapOf cl)
  | 0x103 => w64 (cl.origin.toNat * 2 ^ 16 + cl.stepC.toNat)
  | 0x104 => w64 (cl.replays.toNat * 2 ^ 32 + cl.maxRetry.toNat)
  | 0x105 => w64 cl.maxChain.toNat
  | 0x106 => mxplaneWord (mxOf s (coreOf c))
  | _ => accwinWord s c

/-- CMNCFGd and CMNWSTATd (11 R285, R300). -/
def commonsWord (s : State) (n : Nat) : W64 :=
  let k := getCommons s (n % 4)
  if n < 0x1C4 then w64 (k.cur.toNat * 2 ^ 32 + (if k.lost then 2 ^ 17 else 0) + (if k.busy then 2 ^ 16 else 0) + k.size.toNat)
  else
    let l := s.watches.filter fun x => x.die == n - 0x1C4 && x.woke.isNone
    w64 (k.spurious.toNat * 2 ^ 32 + (l.filter (·.coarse)).length * 2 ^ 16 + (l.filter (fun x => !x.coarse)).length)

/-- A register that stands in the reader's own registers: its value needs no record for re-execution. -/
def archReg (s : State) (c n : Nat) : Option W64 :=
  let a := getArch s c
  match n with
  | 0x000 => some (ctxidWord s c)
  | 0x005 => some (spwinWord s c)
  | 0x008 => some (a.aflags.zeroExtend 64)
  | 0x009 => some a.actl
  | 0x00A => some a.rseed
  | 0x00B => some (a.tsat.zeroExtend 64)
  | 0x021 => some a.tcause
  | 0x022 => some a.tpc
  | 0x023 => some a.tval
  | 0x024 => some a.tsv0
  | 0x025 => some a.tsv1
  | _ => if inBlock n 0x10 0x17 then some (mapGet 0 a.ovm (n - 0x10)) else none

/-- Any other register's value. -/
def sharedReg (s : State) (c n : Nat) : W64 :=
  let k := coreOf c
  let x := getCtx s c
  let cl := getCluster s (clusterOf c)
  if inBlock n 0x100 0x107 then arrayWord s c n
  else if inBlock n 0x1C0 0x1C7 then commonsWord s n
  else if inBlock n 0x250 0x25F then kcoefWord s ((n - 0x250) / 4) (n % 4)
  else if inBlock n 0x2D3 0x2D6 then trdatWord s k (n - 0x2D3)
  else
    match n with
    | 0x002 => cl.ccy
    | 0x003 => s.gtsstat
    | 0x004 => prioWord s c
    | 0x020 => (getCore s k).tbase
    | 0x028 => chkstatWord (getCore s k)
    | 0x140 => asessWord x.sess
    | 0x141 => ascaleWord x.sess
    | 0x142 => aqpWord x.sess
    | 0x180 => x.cpctl.zeroExtend 64
    | 0x181 => x.cpmiss.zeroExtend 64
    | 0x182 => x.cphold
    | 0x200 => fxidWord s
    | 0x201 => s.fab.fxexp
    | 0x202 => s.fab.fxset
    | 0x203 => fxlinkWord s
    | 0x240 => kpelWord s
    | 0x241 => kliveWord s
    | 0x242 => w64 s.cod.c
    | 0x243 => krstWord s
    | 0x244 => kjrnWord s
    | 0x245 => kcntWord s
    | 0x280 => thrsnWord cl
    | 0x281 => clkplanWord cl
    | 0x282 => pwrcapWord s
    | 0x283 => agestWord cl
    | 0x2C0 => flogWord s
    | 0x2C1 => svpoolWord s
    | 0x2C2 => fhaltWord s
    | 0x2C3 => fcollWord s
    | 0x2D0 => trctlWord s k
    | 0x2D1 => trpcWord s k
    | 0x2D2 => tridxWord s k
    | _ => 0

/-! Writes (00 R5): RO fields and reserved bits keep what they hold. -/

/-- A write of a register of the context itself, restored with it. -/
def archWrite (a : Arch) (n : Nat) (x : W64) : Arch :=
  match n with
  | 0x004 => { a with prio := x.truncate 2 }
  | 0x008 => { a with aflags := a.aflags &&& ~~~(x.truncate 6) }
  | 0x009 => { a with actl := x &&& 0xFFFFFFFF00000003 }
  | 0x00A => { a with rseed := x }
  | 0x00B => { a with tsat := x.truncate 32 }
  | 0x021 => { a with tcause := x &&& 0xC00000000000FFFF }
  | 0x022 => { a with tpc := x }
  | 0x023 => { a with tval := x }
  | 0x024 => { a with tsv0 := x }
  | 0x025 => { a with tsv1 := x }
  | _ => a

/-- A register that lies in the context's own registers. -/
def isArchReg (n : Nat) : Bool := n == 4 || inBlock n 8 0xB || inBlock n 0x21 0x25

/-- A write of any other register. -/
def sharedWrite (s : State) (c n : Nat) (x : W64) : State :=
  let k := coreOf c
  let cl := clusterOf c
  if inBlock n 0x1C0 0x1C3 then cmncfgWrite s (n - 0x1C0) x
  else
    match n with
    | 0x020 => updCore s k fun y => { y with tbase := x &&& 0x1FFFFFFFFF0 }
    | 0x100 => mxshareWrite s cl x
    | 0x101 => arrshapeWrite s cl x
    | 0x102 => cadenceWrite s cl x
    | 0x103 => updCluster s cl fun y => { y with stepC := x.truncate 8 }
    | 0x104 => updCluster s cl fun y => { y with maxRetry := x.truncate 4 }
    | 0x105 => updCluster s cl fun y => { y with maxChain := if x.toNat % 256 = 0 then 1 else x.truncate 8 }
    | 0x180 => updCtx s c fun y => { y with cpctl := x.truncate 2 }
    | 0x181 => updCtx s c fun y => { y with cpmiss := x.truncate 32 }
    | 0x182 => cpholdWrite s c x
    | 0x201 => fxexpWrite s x
    | 0x202 => fxsetWrite s x
    | 0x203 => fxlinkWrite s x
    | 0x280 => thrsnWrite s cl x
    | 0x281 => clkplanWrite s cl x
    | 0x282 => pwrcapWrite s x
    | 0x2C0 => flogSet s x
    | 0x2C1 => svpoolWrite s x
    | 0x2C2 => fhaltWrite s x
    | 0x2C3 => fcollWrite s x
    | 0x2D0 => trctlWrite s k x
    | 0x2D1 => trpcWrite s k x
    | 0x2D2 => tridxSet s k x
    | _ => s

/-- A write of register n by a context. -/
def regWrite (s : State) (c n : Nat) (x : W64) : State :=
  if isArchReg n then updArch s c fun a => archWrite a n x else sharedWrite s c n x

/-! SYSRD and SYSWR (06 R168). -/

/-- The number an I operand names. -/
def regNo : Operand → Nat
  | .imm x => x.toNat
  | _ => 0

/-- TVAL of a privilege trap on a register (06 R165). -/
def regTval (opc n : Nat) : W64 := w64 (n % 1024 * 2 ^ 16 + opc)

def execSysrd (f : Fields) (s : State) : Outcome State Fault Refusal :=
  .next (runWord 0x043 false false 1 f s fun s c => do
    let n := regNo f.o2
    if regPerm (getArch s c).mode n = 0 then trapW 0x02 (regTval 0x043 n)
    else if n = 1 then do
      let (s1, x) ← readGts s c
      ok (putS s1 c 2 f.o1 x 0)
    else
      match archReg s c n with
      | some x => ok (putS s c 2 f.o1 x 0)
      | none =>
        let (s1, l) := outsideVal s c [sharedReg s c n]
        ok (putS s1 c 2 f.o1 (l.getD 0 0) 0))

/-- The write applies at issue + 2, and the word is a check point. -/
def execSyswr (f : Fields) (s : State) : Outcome State Fault Refusal :=
  .next (runWord 0x044 false false 1 f s fun s c => do
    let n := regNo f.o1
    if regPerm (getArch s c).mode n < 2 then trapW 0x02 (regTval 0x044 n)
    else do
      let s1 ← holdEff s c .mark
      okHold (addFx s1 c 2 [.sysreg n (valOf (getArch s c) f.o2)]) 2)

end Sys2Proof.Machine
end

