-- ==== Sys2Proof/Machine/MemEvents.lean ====
section
/-!
DEFINITION. Machine/MemEvents.lean: accesses at their homes: applying a write, performing a load, the timeout of a host load
and the end of a write-back (spec files 02, R37 to R57; 05, R143; 07, R189, R190, R204, R205; 11, R286 to R289).
-/
namespace Sys2Proof.Machine
open Sys2Proof Host

/-- The access has no one left to report to: it leaves, and what waited for its load waits no longer. -/
def dropQuiet (s : State) (x : Access) : State := loadDone (dropAcc s x.id) x.ctx x.seq zeroStamp

/-- Commons bytes of the access lie beyond a size taken after its issue (11 R286): the access ends with its token clear, and
its context takes the Commons-range fault (DEDUCED, log entry 17). -/
def beyondCommons (s : State) (l : List Nat) : Bool := l.any fun a => classOf a == some .commons && !commonsOk s a
def rangeFault (s : State) (x : Access) : State :=
  if 512 ≤ x.ctx then dropAcc s x.id else
  let s1 := updArch (dropQuiet s x) x.ctx fun a => { a with
    tok := match x.token with | some t => a.tok &&& ~~~(1#8 <<< t) | none => a.tok
    block := if a.block = some x.seq then none else a.block }
  if (getArch s x.ctx).phase == .running || (getArch s x.ctx).phase == .waiting then asyncTrap s1 x.ctx 0x08 0 x.va else s1

/-- Uncorrectable data: the context-fatal fault, or nothing where the task has halted or ended. -/
def poisonEnd (s : State) (x : Access) : State := if 512 ≤ x.ctx ∨ (getArch s x.ctx).phase = .halted then dropQuiet s x else poisonFault s x

/-- NWAIT's read has performed (05 R143): the word goes on when the counter has reached the target or the deadline has
passed, else it parks. -/
def nwaitPerform (s : State) (x : Access) (r : Nat) (target : BitVec 32) (dl : Option W64) (bs : List Byte) (st : Stamp) : State :=
  let w := leNat bs
  let s1 := loadDone (dropAcc s x.id) x.ctx x.seq st
  let s1 := raiseFrom s1 x.ctx x.id (liveStamps s1 x.ctx)
  let late := match dl with | some d => decide (d.toNat ≤ s.gts.toNat) | none => false
  if late || decide (target.toNat ≤ w % 2 ^ 32) then finishWait s1 x.ctx r (w64 w) (some st)
  else parkAt (updArch s1 x.ctx fun a => { a with base := stampMax a.base st }) x.ctx .nwait r dl (x.addrs.headD 0) (target.zeroExtend 64) 0

/-- A read performs with these bytes and this stamp. -/
def performRead (s : State) (x : Access) (bs : List Byte) (st : Stamp) : State :=
  match x.dest with
  | .nwait r target dl => nwaitPerform s x r target dl bs st
  | .waita r e w dl => waitaPerform s x r e w dl bs st
  | _ => finishRead s x bs st

/-- An atomic needs the old bytes: all but a swap without a destination do (07 R189). -/
def atomicReads (x : Access) : Bool :=
  match x.kind, x.dest with
  | .rd, _ => false
  | .wr, _ => false
  | .amo 8 _ _, .none => false
  | _, _ => true

/-- An access whose bytes have just turned out uncorrectable, or are known to be: repaired where they can be, else its fault (07
R189; 11 R289). -/
def readBad (s : State) (x : Access) : State :=
  if awaitsRepair s x.addrs then s else portPump (poisonEnd s x) x.ctx

/-- A read is answered (02 R43; 07 R189 to R191): bad says that its bytes turn out uncorrectable, host what the host's
completion holds. Of an atomic that can be applied, bad says the same of the bytes it reads (11 R289). -/
def execLoadPerform (id : Nat) (bad : Bool) (host : List Byte) (s : State) : Outcome State Fault Refusal :=
  .next (match getAcc s id with
    | none => s
    | some x =>
      if bad && atomicReads x && canApply s x && !x.host && !beyondCommons s x.addrs && x.addrs != [] then readBad (markPoison s x.addrs) x
      else if !canRead s x then s
      else if x.host then
        if host.length = x.addrs.length then portPump (performRead s x host zeroStamp) x.ctx else s
      else
        let s1 := if bad then markPoison s x.addrs else s
        if beyondCommons s1 x.addrs then portPump (rangeFault s1 x) x.ctx
        else if poisoned s1 x.addrs then readBad s1 x
        else
          let (bs, st) := readFor s1 x.ctx x.id x.addrs
          portPump (performRead (llcRead s1 x.addrs x.hint) x bs st) x.ctx)

/-- The stamp a write carries: its vector with its die's entry raised to its number (02 R42). -/
def writeStamp (x : Access) : Stamp :=
  match x.wseq with
  | some n => stampSet x.vec x.die (maxW (stampEntry x.vec x.die) n)
  | none => x.vec

/-- A write held at its home is counted once (14 R358, R370). -/
def deferAcc (s : State) (x : Access) : State :=
  if x.deferred then s
  else { s with
    accs := s.accs.map fun y => if y.id = x.id then { y with deferred := true } else y
    cod := { s.cod with deferCnt := if s.cod.deferCnt = 0xFFFFFFFF then s.cod.deferCnt else s.cod.deferCnt + 1 } }

/-- A plain or strong write is applied: a host one leaves on the link (16 R395). -/
def applyWrite (s : State) (x : Access) : State :=
  let s1 := dropAcc s x.id
  if x.host then { s1 with mem := memPut s1.mem x.cells } else homeWrite s1 x.cells (writeStamp x) x.hint

/-- An atomic reads, computes and writes at the home in one step (07 R195, R196; 11 R288). -/
def applyAtomic (s : State) (x : Access) : State :=
  let (old, st) := readHome s x.addrs
  let s1 := match atomicNew x.kind old with
    | some bs => homeWrite (llcRead s x.addrs x.hint) (x.addrs.zip bs) (writeStamp x) x.hint
    | none => llcRead s x.addrs x.hint
  match x.dest with
  | .none => dropQuiet s1 x
  | _ => finishRead s1 x old st

/-- A write or atomic is applied at its home (02 R42, R43; 14 R358; 11 R298). -/
def execWriteApply (id : Nat) (s : State) : Outcome State Fault Refusal :=
  .next (match getAcc s id with
    | none => s
    | some x =>
      if !canApply s x then s
      else if x.host then portPump (applyWrite s x) x.ctx
      else if beyondCommons s x.addrs then portPump (rangeFault s x) x.ctx
      else if holdsWrite s x.addrs then deferAcc s x
      else if x.kind == .wr then portPump (applyWrite s x) x.ctx
      else if atomicReads x && poisoned s x.addrs then readBad s x
      else portPump (applyAtomic s x) x.ctx)

/-- A host load without a completion for 50 µs (50,000 cycles) becomes a data-poison fault (07 R205). -/
def execHostLoadTimeout (id : Nat) (s : State) : Outcome State Fault Refusal :=
  .next (match getAcc s id with
    | none => s
    | some x =>
      match x.wseq with
      | some t => if x.host && x.kind == .rd && decide (t.toNat + 50000 ≤ ccyOf s x.ctx) then portPump (poisonEnd s x) x.ctx else s
      | none => s)

/-- The write-back of the oldest FLUSHL of a context completes: the line's earlier writes of the context have been applied, HBM
holds its bytes, and .INV drops it (07 R204). -/
def execFlushlWritebackComplete (ctx : Nat) (s : State) : Outcome State Fault Refusal :=
  .next (match (getCtx s ctx).flushes with
    | [] => s
    | e :: rest =>
      let line := e / 2
      if s.accs.any fun x => x.ctx == ctx && x.kind != .rd && x.addrs.any (fun a => a / 1024 == line) then s
      else
        let s1 := updCtx s ctx fun x => { x with flushes := rest }
        { s1 with
          hbm := s1.hbm.filter fun p => p.1 / 1024 != line
          llc := if e % 2 = 1 then mapDel s1.llc line
            else match mapFind s1.llc line with
              | some l => mapSet s1.llc line { l with dirty := false }
              | none => s1.llc })

end Sys2Proof.Machine
end

