-- ==== Sys2Proof/Machine/SeqEvents.lean ====
section
/-!
DEFINITION. Machine/SeqEvents.lean: the sequencer's own events: results that land, lines and walks that arrive, traps taken,
and the promotion of a starved context (spec file 01, R19, R20; 06, R148 to R151, R166; 07, R182 to R185).
-/
namespace Sys2Proof.Machine
open Sys2Proof Host

/-! Results (01 R19, R20; 06 R151). -/

/-- One result reaches its place: a register of the context, or a system register a SYSWR writes. -/
def landUpd (c : Nat) (s : State) (x : Fx) : State :=
  match x.upd with
  | .sysreg n v => regWrite s c n v
  | u => updArch s c fun a => applyUpd a u

/-- Every fixed-latency result of a context whose cycle has come lands, in its order. -/
def landFixed (s : State) (c : Nat) : State :=
  let now := ccyOf s c
  let l := (getArch s c).fx
  let due := l.filter fun x => decide (x.due ≤ now)
  if due.isEmpty then s
  else due.foldl (landUpd c) (updArch s c fun a => { a with fx := l.filter fun x => !decide (x.due ≤ now) })

def execFixedResultLand (ctx : Nat) (s : State) : Outcome State Fault Refusal := .next (landFixed s ctx)

/-- A variable-latency value lands: its registers, its slot's stamp, its acquire, and its token or hold ends. -/
def landValue (s : State) (l : Landing) : State :=
  let now := ccyOf s l.ctx
  let s1 := match l.slot with
    | some (_, st, none) => loadDone s l.ctx l.seq st
    | some (_, st, some peer) => remoteDone s l.ctx l.seq peer st
    | none => s
  updArch s1 l.ctx fun a =>
    let b := applyUpds a l.upds
    { b with
      tok := match l.token with | some t => b.tok &&& ~~~(1#8 <<< t) | none => b.tok
      tokAt := match l.token with | some t => mapSet b.tokAt t (now + 1) | none => b.tokAt
      block := if b.block = some l.seq then none else b.block
      base := match l.acq with | some st => stampMax b.base st | none => b.base }

/-- The n-th value on its way to a core lands, and is recorded for re-execution; one whose word a rewind has undone waits in
the journal for it (06 R174, R176). -/
def execTokenResultLand (core n : Nat) (s : State) : Outcome State Fault Refusal :=
  .next (match (getCore s core).landings[n]? with
    | none => s
    | some l =>
      if frozenAt s (4 * core) then s
      else if (getArch s l.ctx).seq ≤ l.seq then updCore s core fun k => { k with
        landings := k.landings.eraseIdx n
        replay := k.replay ++ [⟨l.ctx, l.seq, [], some l, 0⟩] }
      else landValue (updCore s core fun k => { k with
        landings := k.landings.eraseIdx n
        outs := k.outs ++ [⟨l.ctx, l.seq, [], some l, k.outNext⟩]
        outNext := k.outNext + 1 }) l)

/-! The instruction cache (06 R148). -/

/-- The lines of 256 bytes a core's 64 KiB cache holds. -/
def lineCount : Nat := 256

/-- The oldest line asked for arrives; the cache drops its oldest line when it is full. -/
def execIcacheFill (core : Nat) (s : State) : Outcome State Fault Refusal :=
  .next (match (getCore s core).fetchWait with
    | [] => s
    | l :: rest => updCore s core fun k => { k with
        fetchWait := rest
        lines := if k.lines.contains l then k.lines else (k.lines ++ [l]).drop (k.lines.length + 1 - lineCount) })

/-! Walks (07 R182 to R185). -/

/-- A die's walker cache is kept by die and address. -/
def walkKey (core a : Nat) : Nat := core / 32 * 2 ^ 41 + a
/-- A table entry as the walker sees it: its cached copy, else memory. -/
def walkRd (s : State) (core a : Nat) : Nat :=
  match mapFind s.walker (walkKey core a) with
  | some w => w.toNat
  | none => memNat s.mem a 8

/-- The table an entry of a walk lies in: the top table for the first, else the 8 KiB table. -/
def tableOf (root i a : Nat) : Nat := if i = 0 then root else a / 0x2000 * 0x2000

/-- The first entry of the walk, not cached, with uncorrectable bytes, in a table not yet known as poisoned. -/
def badEntry (s : State) (core root : Nat) : Nat → List Nat → Option (Nat × Nat)
  | _, [] => none
  | i, a :: t =>
    if s.poisonTab.contains (tableOf root i a) then none
    else if (mapFind s.walker (walkKey core a)).isNone && poisoned s ((upTo 8).map fun j => a + j) then some (i, a)
    else badEntry s core root (i + 1) t

/-- The entries of a walk enter the walker cache, but for those of poisoned tables. -/
def fillWalker (s : State) (core root : Nat) (l : List Nat) : State :=
  (l.zip (upTo l.length)).foldl (fun t p =>
    if s.poisonTab.contains (tableOf root p.2 p.1) then t
    else { t with walker := mapSet t.walker (walkKey core p.1) (w64 (walkRd s core p.1)) }) s

/-- A page enters the translation cache of 128 entries; when it is full the victim-th unpinned entry leaves, and with none
the walk waits (07 R184). -/
def tlbInsert (s : State) (core victim : Nat) (e : TlbEnt) : Option State :=
  let k := getCore s core
  let free := k.tlb.filter fun x => !entryPinned (pinnedPages s core) x
  if k.tlb.length < 128 then some (updCore s core fun k => { k with tlb := k.tlb ++ [e] })
  else match free[victim % free.length]? with
    | some x => some (updCore s core fun k => { k with tlb := k.tlb.erase x ++ [e] })
    | none => none

/-- The n-th of the unit numbers that are produced: the reserved ones, 7 of each die and those from 0x363, are left out (01 R11). -/
def producedUnit (n : Nat) : Nat :=
  let m := n % 0x35F
  if m < 0x347 then m else if m < 0x34E then m + 1 else if m < 0x355 then m + 2 else if m < 0x35C then m + 3 else m + 4

/-- A table page is found poisoned: its entries leave the walker cache, and the supervisor is notified once (07 R185). Which
unit the record names is not stated: a free value (log entry 1). -/
def poisonTable (s : State) (root i a : Nat) : State :=
  let t := tableOf root i a
  let size := if i = 0 then 256 else 0x2000
  let (s1, fv) := takeFree s
  flogRecord { s1 with
    poisonTab := s1.poisonTab ++ [t]
    walker := s1.walker.filter fun p => !(decide (t ≤ p.1 % 2 ^ 41) && decide (p.1 % 2 ^ 41 < t + size)) }
    (producedUnit fv.toNat) 4 0 0 [w64 t, w64 (i + 1)]

/-- The oldest walk of a core ends: with a translation, or with the fault the word that asked takes. -/
def endWalk (s : State) (core victim root vp : Nat) : State :=
  let va := vp * 0x10000
  let done (s : State) : State := updCore s core fun k => { k with walks := k.walks.drop 1 }
  match walkBy (walkRd s core) (fun t => s.poisonTab.contains t) root va with
  | .error (r, p) => done (updCore s core fun k => { k with wfaults := k.wfaults ++ [⟨root, vp, r, p⟩] })
  | .ok e => match tlbInsert s core victim e with
    | some s1 => done s1
    | none => s

def execTranslationWalkComplete (core victim : Nat) (s : State) : Outcome State Fault Refusal :=
  .next (match (getCore s core).walks with
    | [] => s
    | (root, vp) :: _ =>
      let l := walkReads (walkRd s core) root (vp * 0x10000)
      match badEntry s core root 0 l with
      | some (i, a) =>
        if repairable s a then s else endWalk (poisonTable s root i a) core victim root vp
      | none => endWalk (fillWalker s core root l) core victim root vp)

/-! Traps and promotion (06 R149, R166). -/

/-- The trap that waits is taken, then the next of those behind it once none is being handled. -/
def execTrapEntry (ctx : Nat) (s : State) : Outcome State Fault Refusal := .next (nextLate (tryTrap s ctx) ctx)

/-- The lowest-numbered context ready and not selected for 65,536 cycles is selected next. -/
def execStarvationPromotion (core : Nat) (s : State) : Outcome State Fault Refusal :=
  .next (updCore s core fun k => { k with
    promoted := (upTo 4).find? fun j => decide (65536 ≤ (getCtx s (4 * core + j)).unsel) })

end Sys2Proof.Machine
end

