-- ==== Sys2Proof/Machine/Checker.lean ====
section
/-!
DEFINITION. Machine/Checker.lean: the Tandem checker: releasing the effects of a matched check point, the rewind of a
mismatched one, and the retirement of a core (spec file 06, R170, R173 to R179; 15, R388).
-/
namespace Sys2Proof.Machine
open Sys2Proof Host

/-! What a matched check point releases (06 R175). -/

/-- An access leaves its core, towards the stamping point; a host access leaves on the link in this cycle (02 R42; 16 R395). -/
def releaseAccess (s : State) (id : Nat) : State :=
  match getAcc s id with
  | none => s
  | some x =>
    { s with accs := s.accs.map fun z => if z.id = id then
        { z with out := true, wseq := if x.host then some (w64 (ccyOf s x.ctx)) else z.wseq } else z }

/-- The context of a CTXSV may be saved: on the issuer's core, not the issuer, RUNNING or WAITING; the cause where it may not. -/
def svCause (s : State) (c n : Nat) : Nat :=
  if 512 ≤ n ∨ coreOf n ≠ coreOf c then 2
  else if n = c ∨ saving s n ∨ !((getArch s n).phase == .running || (getArch s n).phase == .waiting) then 1 else 0

/-- CTXSV and CTXRS reach the Derailleur (06 R170). -/
def askSave (s : State) (c : Nat) (k : Cmd) : State :=
  let n := k.x1.toNat
  let serial := k.aux.getD 1 0
  match svCause s c n with
  | 0 => { s with saveReqs := s.saveReqs ++ [⟨n, byTask serial, k.seq, w64 (k.aux.getD 0 0), s.gts, ccyOf s n, none, (getArch s n).seq⟩] }
  | e => qdFree s serial k.seq e (n % 2 ^ 32)
def askRestore (s : State) (c : Nat) (k : Cmd) : State :=
  let n := k.x1.toNat
  let serial := k.aux.getD 1 0
  if 512 ≤ n ∨ coreOf n ≠ coreOf c then qdFree s serial k.seq 2 (n % 2 ^ 32)
  else if (getCtx s n).bind.isSome || (getArch s n).phase != .free || s.restoreReqs.any (fun q => q.1 == n) then qdFree s serial k.seq 1 n
  else { s with restoreReqs := s.restoreReqs ++ [(n, serial, k.seq, w64 (k.aux.getD 0 0))] }

/-- A qd request reaches the Derailleur (05 R141, R145). -/
def derRequest (s : State) (c : Nat) (k : Cmd) : State :=
  match k.instr with
  | .rgnmk _ => doRgnmk s c k
  | .rgnset f => doRgnset s c k (modBits f 82 80)
  | .rgntd _ => doRgntd s c k
  | .ctxsv _ => askSave s c k
  | .ctxrs _ => askRestore s c k
  | _ => s

/-- An effect without a queue takes place: the accumulator port, a counter, an arrival, a ring, a link control. -/
def directEffect (s : State) (c : Nat) (k : Cmd) : State :=
  match k.instr with
  | .mwra _ => mwraApply s c k
  | .lcinit _ | .lcadd _ => counterApply s k
  | .gsync _ => gsyncArrive s (k.aux.getD 0 0) (k.aux.getD 1 0)
  | .plcfgOpen _ | .plcfgClose _ | .plrel _ => ringEffect s c k
  | _ => lnctlEffect s k

/-- A released effect leaves the core: an access towards the stamping point, a push into its queue (of a task cut off meanwhile it
completes TORN at once, 05 R139), a record towards its home die, where it arrives 24 cycles after its issue (01 R33). -/
def releaseEff (s : State) (h : Held) : State :=
  match h.eff with
  | .mark | .full | .trace => s
  | .trap _ => tryTrap s h.ctx
  | .access ids => ids.foldl releaseAccess s
  | .push k =>
    if k.q ≤ 5 then updCtx s h.ctx fun x => if x.cut then x else { x with cmds := x.cmds ++ [{ k with base := stampMax k.base x.lastWrite }] }
    else if k.q = 6 then derRequest s h.ctx k
    else directEffect s h.ctx k
  | .launch n => updNest s n fun x => { x with rel := stampMax x.rel (getCtx s h.ctx).lastWrite, left := true, arr := s.gts + 20 }
  | .remote _ => s

/-- A request whose region control block lies at a home that takes no access now stays where it is (11 R286; 14 R358). -/
def rcbHeld (s : State) (h : Held) : Bool :=
  let at_ (pa : Nat) : List Nat := (upTo 64).map fun i => pa + i
  match h.eff with
  | .push k => match k.instr with
    | .rgnmk _ => holdsRead s (at_ (k.aux.getD 0 0))
    | .rgnset _ => match resolve s h.ctx k.x1 with
      | some r => let l := at_ (getRegion s r).rcb; live s r && (holdsRead s l || holdsWrite s l)
      | none => false
    | _ => false
  | _ => false

/-- The oldest check point matches: its word and every earlier one are confirmed, and its effect leaves (06 R173 to R175). -/
def execCheckPointMatch (core : Nat) (s : State) : Outcome State Fault Refusal :=
  .next (match (getCore s core).held with
    | [] => s
    | h :: rest =>
      if ccyOf s (4 * core) < h.due || rcbHeld s h then s
      else
        let s1 := updCore s core fun k =>
          { traceConfirm k h.trIdx with
            held := rest.map fun g => { g with jcount := g.jcount - h.jcount }
            conf := h.snap
            confIdx := h.outIdx
            outs := k.outs.filter fun o => decide (h.outIdx ≤ o.idx)
            jcount := k.jcount - h.jcount
            misses := [] }
        portPump (releaseEff s1 h) h.ctx)

/-! The rewind (06 R176). -/

/-- A write of a register that is not the context's own, already made, is not made again. -/
def madeAlready (now : Nat) (x : Fx) : Bool :=
  decide (x.due ≤ now) && (match x.upd with
    | .sysreg n _ => !isArchReg n
    | _ => false)

/-- A context's registers as the journal gives them. -/
def unwind (s : State) (c : Nat) (a : Arch) : State :=
  let now := ccyOf s c
  updArch s c fun _ => { a with fx := a.fx.filter fun x => !madeAlready now x }

/-- The word of this number has been confirmed in its context. -/
def confirmed (s : State) (c seq : Nat) : Bool := decide (seq < (getArch s c).seq)

/-- The journal's values after the unwinding: those of confirmed words land again at once; the others, with the values still on
their way to words now undone, wait for their words (06 R176 point 4). -/
def rejournal (s : State) (core : Nat) : State :=
  let k := getCore s core
  let outs := k.outs.filter fun o => decide (k.confIdx ≤ o.idx)
  let again := outs.filterMap fun o => o.land.filter fun l => confirmed s l.ctx l.seq
  let mine := outs.filter fun o => match o.land with
    | some l => !confirmed s l.ctx l.seq
    | none => true
  let late := k.landings.filter fun l => !confirmed s l.ctx l.seq
  let s1 := updCore s core fun k => { k with
    outs := outs.filter fun o => match o.land with
      | some l => confirmed s l.ctx l.seq
      | none => false
    landings := k.landings.filter fun l => confirmed s l.ctx l.seq
    replay := mine ++ (late.map fun l => ⟨l.ctx, l.seq, [], some l, 0⟩) ++ k.replay }
  again.foldl landValue s1

/-- A pending load, token or hold of the restored state still has the access or value it waits for. -/
def stillComing (s : State) (c : Nat) (tok : Option Nat) (seq : Nat) : Bool :=
  let same (t : Option Nat) (q : Nat) : Bool := match tok with
    | some i => t == some i
    | none => q == seq
  (s.accs.any fun x => x.ctx == c && x.eng.isNone && same x.token x.seq) ||
  ((getCore s (coreOf c)).landings.any fun l => l.ctx == c && same l.token l.seq) ||
  (s.fab.dirs.any fun d => d.ctx == c && d.late.isNone && same d.token d.seq)

/-- A restored context waits for nothing that has come meanwhile, and a word that had parked runs again. -/
def tidy (s : State) (c : Nat) : State :=
  let a := getArch s c
  let gone (x : Access) : Bool := x.ctx == c && waitRead x && a.block != some x.seq
  let watching := (match a.park with | some k => k.kind == .waita | none => false)
  let s1 := { s with
    accs := s.accs.filter fun x => !gone x
    watches := if watching then s.watches else s.watches.filter fun w => w.ctx != c }
  let woken := a.park.isSome && ((getCore s (coreOf c)).replay.any (fun o => o.ctx == c && o.seq == a.seq && o.land.isSome)
    || watching && !(s1.watches.any fun w => w.ctx == c))
  updArch s1 c fun a => { a with
    phase := if woken then .running else a.phase
    park := if woken then none else a.park
    tok := BitVec.ofNat 8 ((upTo 8).foldl (fun n t => if a.tok.getLsbD t && stillComing s1 c (some t) 0 then n + 2 ^ t else n) 0)
    block := a.block.filter fun q => stillComing s1 c none q
    slots := a.slots.map fun p => (p.1, { p.2 with pend := p.2.pend.filter fun q => stillComing s1 c none q }) }

/-- A held effect is undone: the record of a LAUNCH keeps its place for the re-execution, and a trap no word raised waits again. -/
def undoEff (s : State) (h : Held) : State :=
  match h.eff with
  | .launch n => match mapFind s.nests n with
    | some x => if x.ntfy then updCtx s h.ctx fun y => { y with qdRsv := y.qdRsv - 1 } else s
    | none => s
  | .trap (some t) => updCtx s h.ctx fun y => { y with late := t :: y.late }
  | _ => discardEff s h

/-- Every held effect is discarded and the four contexts return to the last confirmed check point. -/
def rewind (s : State) (core : Nat) : State :=
  let k := getCore s core
  let s1 := k.held.foldl undoEff s
  let s2 := updCore s1 core fun k => { k with held := [], jcount := 0, tpend := [] }
  let s3 := if k.conf.length = 4 then (k.conf.zip (upTo 4)).foldl (fun t p => unwind t (4 * core + p.2) p.1) s2 else s2
  (upTo 4).foldl (fun t j => tidy t (4 * core + j)) (rejournal s3 core)

/-! Retirement (06 R177, R178; 15 R388). -/

/-- A running task of a retired core is to be saved; with no slot left it ends by the context-fatal fault 0x03. -/
def retireCtx (s : State) (c : Nat) : State :=
  if (getCtx s c).bind.isNone || saving s c || !((getArch s c).phase == .running || (getArch s c).phase == .waiting) then s
  else
    match freeSlot s with
    | some k => { s with
        saveReqs := s.saveReqs ++ [⟨c, byRetire, 0, w64 (s.mgt.svBase + k * 2 ^ 24), s.gts, ccyOf s c, some k, (getArch s c).seq⟩]
        mgt := { s.mgt with svUsed := s.mgt.svUsed ++ [k] } }
    | none => let (s1, fv) := takeFree s; contextFatal s1 c 3 fv

/-- A result element a re-execution was to take: words 1 to 7 of POPQ's record, or from word 1 on of DRAINQ's. -/
def elemFrom (l : List W64) : Elem :=
  ⟨(l.getD 6 0).toNat, l.getD 0 0, l.getD 1 0, ⟨l.getD 2 0, l.getD 3 0, l.getD 4 0, l.getD 5 0⟩, 0⟩
def elemsFrom : Nat → List W64 → List Elem
  | 0, _ => []
  | n + 1, l => if l.length < 7 then [] else elemFrom l :: elemsFrom n (l.drop 7)

/-- What the words of a context that are not run again here took from its queues is put back, oldest first (06 R178). -/
def putBack (s : State) (c : Nat) : State :=
  let k := getCore s (coreOf c)
  let es := (k.replay.filter fun o => o.ctx == c && o.land.isNone && decide (7 < o.vals.length)).flatMap fun o => elemsFrom o.vals.length (o.vals.drop 1)
  updCore (updCtx (dropUnleft s c) c fun x => { x with res := es ++ x.res }) (coreOf c) fun k => { k with replay := k.replay.filter fun o => o.ctx != c }

/-- The core stays retired: its hard-fault record, SOLO for the other core, and a save of each task as the rewind left it. -/
def retireCore (s : State) (core c : Nat) (pc : W64) : State :=
  let s0 := (upTo 4).foldl (fun t j => putBack t (4 * core + j)) s
  let s0 := { s0 with saveReqs := s0.saveReqs.map fun q => if coreOf q.ctx = core then { q with upto := (getArch s0 q.ctx).seq } else q }
  let s1 := updCore s0 core fun k => { k with retired := true }
  let s2 := flogRecord s1 (0x200 + core) 3 0 0 [w64 c, pc]
  let s3 := mxshareWrite s2 (core / 2) (if core % 2 = 0 then 3 else 2)
  (upTo 4).foldl (fun t j => retireCtx t (4 * core + j)) s3

/-- The oldest check point mismatches: the rewind, re-execution 12 cycles later, and at a second mismatch of the same point the
core's retirement (06 R176 to R179). -/
def execCheckerMismatch (core : Nat) (s : State) : Outcome State Fault Refusal :=
  .next (match (getCore s core).held with
    | [] => s
    | h :: _ =>
      if ccyOf s (4 * core) < h.due then s
      else
        let again := (getCore s core).misses.contains (h.ctx, h.pc)
        let s1 := updCore (rewind s core) core fun k => { k with
          rewinds := k.rewinds + 1
          lastj := BitVec.ofNat 2 (h.ctx % 4)
          misses := k.misses ++ [(h.ctx, h.pc)]
          stopUntil := ccyOf s (4 * core) + 12 }
        let s2 := traceNow s1 h.ctx 14 4 (some 4) true h.pc (w64 (getCore s1 core).rewinds.toNat)
        if again then retireCore s2 core h.ctx h.pc else s2)

end Sys2Proof.Machine
end

