-- ==== Sys2Proof/Machine/Forms.lean ====
section
/-!
DEFINITION. Machine/Forms.lean: the opcode map and, for every opcode, the modifiers it accepts, the operand kinds and values of
each field, and whether it takes SETW and HINT (spec file 03, R71 to R83; 05 R141 to R145; 06 R153 to R172; 07 R186 to R204;
08 R207 to R233; 09 R244; 10 R265; 11 R293; 12 R315; 13 R342; 14 R372).
-/
namespace Sys2Proof.Machine
open Sys2Proof

/-! The opcode map (03 R82): the assigned ranges. -/

def opcRanges : List (Nat × Nat) :=
  [(0x000, 0x026), (0x030, 0x036), (0x038, 0x03A), (0x040, 0x04D), (0x060, 0x065), (0x080, 0x094), (0x100, 0x117), (0x120, 0x125),
    (0x130, 0x135), (0x140, 0x147), (0x150, 0x154), (0x180, 0x189), (0x1A0, 0x1A4), (0x1C0, 0x1C8), (0x1E0, 0x1E4), (0x200, 0x20D),
    (0x220, 0x229)]
def opcOk (n : Nat) : Bool := opcRanges.any fun r => inBlock n r.1 r.2

/-! Type codes (03 R79) and the sets the chapters name. -/

def tyScalarInt : List Nat := [0x00, 0x02, 0x03, 0x04, 0x05, 0x0A, 0x0B, 0x0C, 0x0D]
def tySigned : List Nat := [0x00, 0x02, 0x03, 0x04, 0x05]
def tyScalarFlt : List Nat := [0x00, 0x10, 0x11]
/-- FCVT (06 R158). -/
def tyFcvt : List Nat := [0x00, 0x10, 0x11, 0x12, 0x13, 0x04, 0x05, 0x0C, 0x0D, 0x06]
/-- FLT, INT, SINT and UNP (08 R210). -/
def tyFLT : List Nat := [0x10, 0x12, 0x13, 0x32, 0x33, 0x34, 0x35, 0x36, 0x37, 0x38]
def tyINT : List Nat := [0x04, 0x0C, 0x23, 0x2B, 0x22, 0x2A, 0x21, 0x29]
def tySINT : List Nat := [0x04, 0x23, 0x22, 0x21]
def tyUNP : List Nat := [0x10, 0x12, 0x13, 0x04, 0x0C]
/-- The unpacked MX formats (08 R222). -/
def tyMXU : List Nat := [0x14, 0x15, 0x16, 0x17, 0x18]
/-- The packed forms but .CB4P (03 R80). -/
def tyPacked : List Nat := [0x21, 0x22, 0x23, 0x29, 0x2A, 0x2B, 0x32, 0x33, 0x34, 0x35, 0x36, 0x37, 0x38]
def tyVcvt : List Nat := tyUNP ++ tyMXU ++ tyPacked
/-- The special functions' types (08 R221). -/
def tySpecial : List Nat := [0x10, 0x12, 0x13, 0x32, 0x33]
def tyRed : List Nat := [0x10, 0x04, 0x0C]
/-- VDOT's floating types (08 R233). -/
def tyDotFlt : List Nat := [0x10, 0x32, 0x33, 0x34, 0x35, 0x36, 0x37, 0x38]
def tyVqnt : List Nat := [0x00, 0x02, 0x0A, 0x03, 0x0B, 0x04, 0x0C]
def tyVdeq : List Nat := [0x00, 0x10, 0x12, 0x13]
/-- The Commons commands' types (11 R293) and GRED's (12 R325). -/
def tyBank : List Nat := [0x00, 0x04, 0x0C, 0x05, 0x0D, 0x10, 0x06]
def tyGred : List Nat := [0x00, 0x05, 0x0D, 0x06, 0x11]

/-- An MX format, packed or not (08 R222). -/
def isMX (t : Nat) : Bool := inBlock t 0x14 0x18 || inBlock t 0x34 0x38
/-- Sub-elements in a lane (03 R80). -/
def perLane (t : Nat) : Nat :=
  if t = 0x23 ∨ t = 0x2B ∨ t = 0x32 ∨ t = 0x33 then 2
  else if t = 0x21 ∨ t = 0x29 ∨ t = 0x38 ∨ t = 0x39 then 8
  else if 0x20 ≤ t then 4 else 1

/-! Modifiers: which of the eleven MOD bits an opcode accepts (defect 3). Bits are numbered as in the word. -/

def mbits (m : BitVec 11) (hi lo : Nat) : Nat := bitsOf m.toNat (hi - 80) (lo - 80)
def mty (m : BitVec 11) : Nat := mbits m 90 85
def tyOr (m : BitVec 11) (d : Nat) : Nat := if mty m = 0 then d else mty m
/-- Only the low k bits of MOD may be set. -/
def modLow (m : BitVec 11) (k : Nat) : Bool := decide (m.toNat < 2 ^ k)
def modNone (m : BitVec 11) : Bool := m == 0
/-- An integer type in MOD[90:85] with SAT in MOD[80] (06 R153). -/
def modInt (m : BitVec 11) (tys : List Nat) (sat : Bool) : Bool :=
  tys.contains (mty m) && mbits m 84 81 == 0 && (sat || mbits m 80 80 == 0)
/-- The arithmetic layout: type, a rounding code below 101, any overflow code (03 R81). -/
def modArith (m : BitVec 11) (tys : List Nat) : Bool := tys.contains (mty m) && decide (mbits m 84 82 ≤ 4)
/-- A vector word's layout (08 R210): floating types with rounding and overflow, integer types with SAT where accepted. -/
def modVec (m : BitVec 11) (d : Nat) (flt int : List Nat) (sat : Bool) : Bool :=
  let t := tyOr m d
  if flt.contains t then decide (mbits m 84 82 ≤ 4)
  else int.contains t && mbits m 84 83 == 0 && mbits m 81 80 == 0 && (sat || mbits m 82 82 == 0)
/-- A vector word whose rounding and overflow codes must be zero for floating types. -/
def modVecPlain (m : BitVec 11) (d : Nat) (flt int : List Nat) (sat : Bool) : Bool :=
  modVec m d flt int sat && (!flt.contains (tyOr m d) || mbits m 84 80 == 0)
/-- A reduction: the overflow code is reserved (08 R231, R233). -/
def modRed (m : BitVec 11) (flt int : List Nat) (sat : Bool) : Bool := modVec m 0x10 flt int sat && mbits m 81 80 == 0
/-- Observer mask against the strong bit (07 R186). -/
def modStrong (m : BitVec 11) : Bool := mbits m 87 87 == 0 && ((mbits m 86 86 == 1) == (mbits m 85 80 != 0))
/-- A bank operation: op, type, SAT with .ADD of the types named (11 R293; 12 R325). -/
def modBank (m : BitVec 11) (tys sats : List Nat) : Bool :=
  tys.contains (mty m) && mbits m 84 83 == 0 && mbits m 81 80 != 3
    && (mbits m 82 82 == 0 || (mbits m 81 80 == 0 && sats.contains (mty m)))

/-- The sequencer (06 R153 to R172). -/
def modSeq (n : Nat) (m : BitVec 11) : Bool :=
  match n with
  | 0x004 | 0x005 | 0x006 | 0x008 | 0x00E | 0x01D => modInt m tyScalarInt true
  | 0x007 | 0x009 | 0x00A | 0x00B | 0x00C | 0x00D | 0x00F | 0x010 | 0x011 | 0x012 | 0x013 | 0x015 | 0x016 | 0x017 => modInt m tyScalarInt false
  | 0x014 => modInt m tySigned true
  | 0x01A | 0x038 | 0x03A | 0x04C => modLow m 1
  | 0x01F => tyScalarInt.contains (mty m) && mbits m 84 84 == 0 && decide (mbits m 83 80 ≤ 6)
  | 0x020 => modLow m 3
  | 0x022 | 0x023 | 0x024 => modArith m tyScalarFlt
  | 0x025 => tyScalarFlt.contains (mty m) && mbits m 84 83 == 0
  | 0x026 => modArith m tyFcvt
  | 0x04B => modLow m 3 && decide (mbits m 81 80 ≤ 1)
  | 0x04D => modLow m 3 && mbits m 81 80 != 3
  | _ => modNone m

/-- The Derailleur (05 R142 to R145). -/
def modDer (n : Nat) (m : BitVec 11) : Bool :=
  match n with
  | 0x060 => modLow m 2
  | 0x062 => modLow m 2 && mbits m 81 80 != 3
  | 0x065 => decide (m.toNat ≤ 4)
  | _ => modNone m

/-- The memory pipe (07 R186 to R204). -/
def modMem (n : Nat) (m : BitVec 11) : Bool :=
  match n with
  | 0x080 | 0x081 => mbits m 90 88 != 4 && modStrong m
  | 0x082 | 0x083 => [0, 3, 7].contains (mbits m 90 88) && mbits m 87 80 == 0
  | 0x084 | 0x085 => mbits m 90 88 == 0 && modStrong m
  | 0x086 | 0x087 => mbits m 90 88 != 4 && mbits m 87 82 == 0
  | 0x088 => decide (mbits m 90 87 ≤ 8) && mbits m 85 80 != 0
  | 0x089 => mbits m 90 87 == 0 && mbits m 85 80 != 0
  | 0x08A | 0x08B => mbits m 90 86 == 0 && mbits m 85 80 != 0
  | 0x093 | 0x094 => modLow m 1
  | _ => modNone m

/-- The vector unit (08 R210 to R233). -/
def modVector (n : Nat) (m : BitVec 11) : Bool :=
  match n with
  | 0x100 | 0x101 | 0x102 | 0x103 | 0x104 => modVec m 0x10 tyFLT tyINT true
  | 0x105 | 0x106 => modVecPlain m 0x10 tyFLT tySINT true
  | 0x107 | 0x108 => modVecPlain m 0x10 tyFLT tyINT false
  | 0x109 | 0x10E | 0x10F | 0x110 | 0x111 => modVec m 0x04 [] tyINT false
  | 0x10D => modVec m 0x04 [] tyINT true
  | 0x112 =>
    let t := tyOr m 0x10
    let cc := mbits m 83 80
    tyUNP.contains t && mbits m 84 84 == 0
      && (decide (cc ≤ 5) || (decide (cc ≤ 7) && tyFLT.contains t) || (cc == 8 && tyINT.contains t))
  | 0x114 => modLow m 3
  | 0x120 | 0x121 | 0x122 | 0x123 | 0x124 | 0x125 => modVecPlain m 0x10 tySpecial [] false
  | 0x130 => modArith m tyVcvt
  | 0x131 => modArith m (0x39 :: tyPacked)
  | 0x132 => modArith m tyUNP
  | 0x133 => modArith m (0x00 :: tyFLT)
  | 0x134 => modArith m tyVqnt
  | 0x135 => modArith m tyVdeq
  | 0x141 | 0x145 | 0x146 => modLow m 1
  | 0x150 => modRed m [0x10] [0x04, 0x0C] true
  | 0x151 | 0x152 => modRed m [0x10] [0x04, 0x0C] false
  | 0x153 =>
    let op := mbits m 81 80
    tyRed.contains (tyOr m 0x10) && op != 3
      && (if tyOr m 0x10 = 0x10 then decide (mbits m 84 82 ≤ 4) else mbits m 84 83 == 0 && (mbits m 82 82 == 0 || op == 0))
  | 0x154 => modRed m tyDotFlt tyINT true
  | _ => modNone m

/-- The matrix and attention engines (09 R244; 13 R342). -/
def modMx (n : Nat) (m : BitVec 11) : Bool :=
  match n with
  | 0x180 => modLow m 2
  | 0x182 => modLow m 6
  | 0x183 => modLow m 8 && decide (mbits m 84 82 ≤ 4)
  | 0x188 | 0x189 | 0x1A4 => modLow m 1
  | 0x1A2 => modLow m 4 && mbits m 81 80 != 3 && (mbits m 83 83 == 0 || mbits m 82 82 == 1)
  | 0x1A3 => modLow m 5 && decide (mbits m 84 82 ≤ 4)
  | _ => modNone m

/-- The copy engine and the Commons (10 R265; 11 R293). -/
def modCopy (n : Nat) (m : BitVec 11) : Bool :=
  match n with
  | 0x1C0 | 0x1C1 | 0x1C2 | 0x1C3 | 0x1C4 => modLow m 3
  | 0x1C5 => decide (m.toNat ≤ 2)
  | 0x1E0 | 0x1E1 => modBank m tyBank [0x00, 0x04, 0x05]
  | 0x1E2 => m == 0 || m == 0x40
  | 0x1E4 => modBank m tyBank []
  | _ => modNone m

/-- The fabric port and the coding engine (12 R315; 14 R372). -/
def modFab (n : Nat) (m : BitVec 11) : Bool :=
  match n with
  | 0x200 | 0x201 => decide (mbits m 90 88 ≤ 4) && mbits m 87 86 == 0 && mbits m 84 83 == 0 && mbits m 80 80 == 0
  | 0x202 => decide (mbits m 90 87 ≤ 8) && mbits m 85 83 == 0 && mbits m 80 80 == 0
  | 0x203 => decide (mbits m 90 87 ≤ 11) && mbits m 86 83 == 0 && mbits m 80 80 == 0
  | 0x204 | 0x205 | 0x206 => modLow m 3 && mbits m 80 80 == 0
  | 0x208 => modBank m tyGred [0x00, 0x05]
  | 0x209 | 0x20A | 0x220 | 0x229 => modLow m 1
  | 0x20C => decide (m.toNat ≤ 4)
  | 0x20D => modLow m 5 && decide (mbits m 83 80 ≤ 4)
  | 0x227 => modLow m 2
  | _ => modNone m

def modOk (n : Nat) (m : BitVec 11) : Bool :=
  if n < 0x060 then modSeq n m
  else if n < 0x080 then modDer n m
  else if n < 0x100 then modMem n m
  else if n < 0x180 then modVector n m
  else if n < 0x1C0 then modMx n m
  else if n < 0x200 then modCopy n m
  else modFab n m

/-! Operand kinds (03 R71 to R73). -/

/-- What a field may hold: nothing, a scalar, a whole vector, a quarter, a predicate, a mask, the control taint, a short
immediate, a tile, a result queue, a command queue, a long immediate; or a value no instruction accepts. -/
inductive OpCls where
  | no | s | w | q | p | m | c | i | t | r | x | l | bad
  deriving DecidableEq, Repr

def clsOf : Operand → OpCls
  | .none => .no
  | .s _ => .s
  | .v _ => .w
  | .vq _ _ => .q
  | .p _ => .p
  | .m _ => .m
  | .ctl => .c
  | .imm _ => .i
  | .tile _ => .t
  | .queue cmd n => if n = 7 ∨ (cmd = true ∧ n = 6) then .bad else if cmd then .x else .r
  | .long _ => .l

/-- The kind code of a class (03 R71). -/
def kindOf : OpCls → Nat
  | .no => 0
  | .s => 1
  | .w | .q => 2
  | .p | .m | .c => 3
  | .i => 4
  | .t => 5
  | .r | .x => 6
  | .l | .bad => 7

/-- A scalar or a short immediate. -/
def cSI : List OpCls := [.s, .i]
/-- A scalar, a short or a long immediate. -/
def cSIL : List OpCls := [.s, .i, .l]
def cV : List OpCls := [.w, .q]
/-- A vector, a scalar or a short immediate. -/
def cVSI : List OpCls := [.w, .q, .s, .i]
/-- A mask or nothing. -/
def cM : List OpCls := [.m, .no]
/-- A scalar or nothing. -/
def cS0 : List OpCls := [.s, .no]
/-- Anything with a taint set (07 R198). -/
def cTaint : List OpCls := [.s, .w, .q, .p, .m, .c]
/-- A register SPILLM can name (07 R199). -/
def cRange : List OpCls := [.s, .w, .m, .p]

/-- The sequencer's operand table (06 R154 to R172). -/
def slotsSeq (n : Nat) (m : BitVec 11) (o1 : Operand) : List (List OpCls) :=
  match n with
  | 0x001 => [[.s], [.i, .l]]
  | 0x002 => [[.s], [.s], [.i, .l]]
  | 0x003 => [[.s, .m], [.s, .m]]
  | 0x004 | 0x005 | 0x006 | 0x007 | 0x008 | 0x009 | 0x00A | 0x00B | 0x00C | 0x00D | 0x00E | 0x00F | 0x010 | 0x011 | 0x012
  | 0x013 => [[.s], [.s], cSIL]
  | 0x014 | 0x015 | 0x016 | 0x017 => [[.s], [.s]]
  | 0x018 | 0x019 => [[.s], [.s], cSI]
  | 0x01A => [[.s], [.s], cSI, cSI]
  | 0x01B => [[.s], [.s], [.s], cSI, cSI]
  | 0x01C | 0x01D => [[.s], [.s], [.s], cSI]
  | 0x01E => [[.s], [.p], [.s], cSI]
  | 0x01F => [[.p], [.s], cSIL]
  | 0x020 => [[.p], [.p], [.p]]
  | 0x021 => [[.s, .p], [.s, .p]]
  | 0x022 | 0x023 => [[.s], [.s], [.s]]
  | 0x024 => [[.s], [.s], [.s], [.s]]
  | 0x025 => [[.p], [.s], [.s]]
  | 0x026 => [[.s], [.s], [.i]]
  | 0x030 => [[.i]]
  | 0x031 | 0x033 => [[.s]]
  | 0x032 => [[.s], cSI]
  | 0x034 => [[.s], [.i]]
  | 0x036 => [[.i, .no]]
  | 0x038 =>
    [[.s, .q], if clsOf o1 = .s then [.s] else [.no], [.r], if mbits m 80 80 = 1 then [.p] else [.no]]
  | 0x039 => [[.s], [.r, .x]]
  | 0x03A => [[.s], [.r]]
  | 0x040 | 0x042 => [[.i]]
  | 0x043 => [[.s], [.i]]
  | 0x044 => [[.i], [.s]]
  | 0x045 | 0x046 => [[.s]]
  | 0x047 => [[.s], [.s]]
  | 0x048 => [[.s], cSI]
  | 0x049 | 0x04A => [[.s], [.s], [.i]]
  | 0x04B => if mbits m 81 80 = 1 then [[.s]] else []
  | 0x04C => [[.s], [.i]]
  | 0x04D => if mbits m 82 82 = 1 then [[.s]] else [[.s], [.s]]
  | _ => []

/-- The Derailleur's (05 R142 to R145). -/
def slotsDer (n : Nat) (m : BitVec 11) : List (List OpCls) :=
  match n with
  | 0x060 => [[.s], [.s], [.s], [.i]]
  | 0x061 => [[.s], [.s], [.i], cSI, cS0]
  | 0x062 => [[.s], [.s], if mbits m 81 80 = 1 then [.no] else cSI]
  | 0x063 => [[.s], [.i], [.s]]
  | 0x064 => [[.s]]
  | 0x065 => [[.s], [.s]]
  | _ => []

/-- The memory pipe's (07 R191 to R204). -/
def slotsMem (n : Nat) : List (List OpCls) :=
  match n with
  | 0x080 => [[.s], [.s], cSI]
  | 0x081 => [[.s], cSI, [.s]]
  | 0x082 => [[.s], [.s], [.s], cSI]
  | 0x083 => [[.s], cSI, [.s], [.s]]
  | 0x084 => [cV, [.s], cSI, cM]
  | 0x085 => [[.s], cSI, cV, cM]
  | 0x086 => [[.w], [.s], cSI, [.w], cM]
  | 0x087 => [[.s], cSI, [.w], [.w], cM]
  | 0x088 => [cS0, [.s], cSI, [.s]]
  | 0x089 | 0x08A => [[.s], [.s], cSI, [.s], [.s]]
  | 0x08C => [cTaint]
  | 0x08D => [cTaint, cTaint]
  | 0x08E => [[.s], cTaint]
  | 0x090 => [[.s], cSI, cRange, cRange]
  | 0x091 => [cRange, [.s], cSI, cRange]
  | 0x092 | 0x094 => [[.s], cSI]
  | 0x093 => [[.s], [.s], cSI]
  | _ => []

/-- The vector unit's (08 R213 to R233). -/
def slotsVec (n : Nat) (o2 : Operand) : List (List OpCls) :=
  match n with
  | 0x100 | 0x101 | 0x102 | 0x107 | 0x108 | 0x109 | 0x10A | 0x10B | 0x10C | 0x10D | 0x10E | 0x10F | 0x133 => [cV, cV, cVSI, cM]
  | 0x103 | 0x104 => [cV, cV, cV, cVSI, cM]
  | 0x105 | 0x106 | 0x110 | 0x111 | 0x117 | 0x120 | 0x121 | 0x122 | 0x123 | 0x124 | 0x125 => [cV, cV, cM]
  | 0x112 => [[.m], cV, cVSI, cM]
  | 0x113 => [cV, [.m], cV, cVSI]
  | 0x114 => [[.m], [.m], [.m]]
  | 0x115 | 0x116 => [[.s], [.m], cM]
  | 0x130 => [cV, cV, [.i], [.s, .w, .q, .no], cM]
  | 0x131 | 0x132 => [[.w], [.w], [.i], [.s, .w, .no], cM]
  | 0x134 => [cV, cV, [.w, .q, .s], [.w, .q, .s], cM]
  | 0x135 => [cV, cV, [.w, .q, .s], cVSI, cM]
  | 0x140 => [[.w], [.s, .w], if clsOf o2 = .s then [.no] else cSI, cM]
  | 0x141 => [[.s], [.w], cSI]
  | 0x142 => [[.w], [.s], cSI]
  | 0x143 => [[.w], [.w], [.w, .no], [.w], cM]
  | 0x144 => [[.w], [.w], cSI, cM]
  | 0x145 | 0x146 => [[.w], [.w], [.w], cM]
  | 0x147 => [[.w], [.w], [.w], cSI, cM]
  | 0x150 | 0x151 | 0x152 => [[.s], [.w], cM]
  | 0x153 => [[.w], [.w], cM]
  | 0x154 => [[.s], [.w], [.w], cM]
  | _ => []

/-- The matrix and attention engines' (09 R244, R249; 13 R342). -/
def slotsMx (n : Nat) (m : BitVec 11) : List (List OpCls) :=
  match n with
  | 0x180 => [[.q], [.s], cSI, cSI]
  | 0x182 => [[.t], [.q], [.s], cSI, cSI]
  | 0x183 => [[.s], cSI, [.q], [.t], if mbits m 87 87 = 1 then [.s] else [.no]]
  | 0x184 => [[.t], [.i, .s, .no]]
  | 0x185 => [[.s], cSI]
  | 0x186 => [[.w], [.t], cSI, cM]
  | 0x187 => [[.t], cSI, [.w], cM]
  | 0x188 => [[.s], cSI, if mbits m 80 80 = 1 then [.no] else [.t]]
  | 0x189 => if mbits m 80 80 = 1 then [[.s], cSI] else [[.t], [.s], cSI]
  | 0x1A0 => [[.t], [.t], [.t], [.s], cSI]
  | 0x1A1 => [[.s], cSI, [.q], cSI]
  | 0x1A2 => if mbits m 82 82 = 1 then [cSI, cSI, [.q], cSI] else [[.s], cSI, [.q], cSI]
  | 0x1A3 => [[.s], cSI, [.q], cS0]
  | _ => []

/-- The copy engine's and the Commons' (10 R265; 11 R293). -/
def slotsCopy (n : Nat) (o3 : Operand) : List (List OpCls) :=
  match n with
  | 0x1C0 | 0x1C1 | 0x1C2 | 0x1C4 => [[.s], cSI, [.s], cSI, [.q]]
  | 0x1C3 => [[.s], cSI, [.s], [.q]]
  | 0x1C5 | 0x1C7 => [[.s], cSI, cSI]
  | 0x1C6 => [[.s], [.s], cSI, cSI, cS0]
  | 0x1C8 => [[.x], [.s], cSI, cSI]
  | 0x1E0 => [[.s], cSI, [.w, .s], if clsOf o3 = .w then cM else cSI, if clsOf o3 = .w then [.no] else cSI]
  | 0x1E1 | 0x1E4 => [[.s], cSI, cSI]
  | 0x1E2 => [[.s], [.s], cSI, cSI, cS0]
  | 0x1E3 => [[.s], cSI, [.s], cSI]
  | _ => []

/-- The fabric port's and the coding engine's (12 R315; 14 R372). -/
def slotsFab (n : Nat) (m : BitVec 11) : List (List OpCls) :=
  match n with
  | 0x200 => [[.s, .w], [.s], cSI]
  | 0x201 => [[.s], cSI, [.s, .w]]
  | 0x202 => [cS0, [.s], cSI, [.s]]
  | 0x203 => [[.q, .no], [.s], cSI, [.q], cSI]
  | 0x204 | 0x205 | 0x206 => [[.s], cSI, [.s], cSI, [.q]]
  | 0x207 => [[.s], cSI, cS0]
  | 0x208 => [[.s], cSI, [.s], cSI, [.s]]
  | 0x209 => [[.s], if mbits m 80 80 = 1 then cSI else [.q]]
  | 0x20A => if mbits m 80 80 = 1 then [cSI, [.no], [.no], [.s], cSI] else [cSI, [.s], cSI, [.s], cSI]
  | 0x20B => [[.s], cSI, [.s]]
  | 0x20C => [[.s], cSI, cSI]
  | 0x20D => [[.s], cSI]
  | 0x220 => [[.s], cSI]
  | 0x221 => [cSI, [.s], cSI, cSI]
  | 0x222 | 0x223 | 0x224 | 0x225 | 0x226 | 0x228 => [cSI]
  | 0x227 => [[.s], cSI]
  | 0x229 => [cSI, [.s], cSI]
  | _ => []

/-- The classes of each field of an opcode, given MOD and the operands of the fields before: missing fields hold kind 000. -/
def slots (n : Nat) (m : BitVec 11) (pre : List Operand) : List (List OpCls) :=
  if n < 0x060 then slotsSeq n m (pre.getD 0 .none)
  else if n < 0x080 then slotsDer n m
  else if n < 0x100 then slotsMem n
  else if n < 0x180 then slotsVec n (pre.getD 1 .none)
  else if n < 0x1C0 then slotsMx n m
  else if n < 0x200 then slotsCopy n (pre.getD 2 .none)
  else slotsFab n m

/-- The classes the field after those of pre accepts. -/
def slot (n : Nat) (m : BitVec 11) (pre : List Operand) : List OpCls := (slots n m pre).getD pre.length [.no]

/-! Values an instruction does not accept (defect 6). -/

/-- The register number of an operand. -/
def regIdx : Operand → Nat
  | .s i => i.toNat
  | .p i => i.toNat
  | .m i => i.toNat
  | .v i => i.toNat
  | .vq i _ => i.toNat
  | .tile i => i.toNat
  | _ => 0

/-- An immediate's code: its value where it is not negative, and a number above every code otherwise. -/
def immCode : Operand → Nat
  | .imm x => x.toNat
  | _ => 0
def immPos (o : Operand) : Bool := decide (immCode o < 4096)

/-- Every vector operand of the word is in one form (08 R207). -/
def sameForm (pre : List Operand) (o : Operand) : Bool :=
  let vs := pre.filter fun x => clsOf x == .w || clsOf x == .q
  match vs with
  | [] => true
  | v :: _ => if clsOf o = .w ∨ clsOf o = .q then clsOf o == clsOf v else true

/-- An immediate in the place of an element is accepted with .I32 and .N32 only (08 R207). -/
def elemImm (m : BitVec 11) (d : Nat) (o : Operand) : Bool :=
  clsOf o != .i || tyOr m d == 0x04 || tyOr m d == 0x0C

/-- The sub-elements a packed type splits a register group into; .CB4P acts as .N4P (08 R224, R225). -/
def evenReg (o : Operand) : Bool := regIdx o % 2 == 0

/-- Whether the scale operand is in place: only where exactly one side is an MX format (08 R222). -/
def scaleOk (td ts : Nat) (o : Operand) : Bool := clsOf o == .no || isMX td != isMX ts

/-- The further rules of an opcode on field k (from 0), whose operand is o, after the operands pre. -/
def valueOk (n : Nat) (m : BitVec 11) (pre : List Operand) (o : Operand) : Bool :=
  let k := pre.length
  let p (i : Nat) : Operand := pre.getD i .none
  match n with
  -- PMOV: a scalar to a scalar (06 R157)
  | 0x021 => k != 1 || !(clsOf (p 0) == .s && clsOf o == .s)
  -- FCVT: the source's type code (06 R158)
  | 0x026 => k != 2 || tyFcvt.contains (immCode o)
  -- YIELD, TRAP, BRK, TRACE: 0 to 4,095 (06 R160, R167, R169)
  | 0x036 | 0x040 | 0x042 => k != 0 || immPos o
  | 0x04C => k != 1 || immPos o
  -- SYSRD, SYSWR: an assigned register (06 R162)
  | 0x043 => k != 1 || regAssigned (immCode o)
  | 0x044 => k != 0 || regAssigned (immCode o)
  -- LDP: two registers (07 R192)
  | 0x082 => k != 1 || o != p 0
  -- CAS2: even registers (07 R196)
  | 0x08A => !(k == 0 || k == 3 || k == 4) || evenReg o
  -- SPILLM, FILLM: an ascending range of one class (07 R199)
  | 0x090 => k != 3 || (clsOf o == clsOf (p 2) && decide (regIdx (p 2) ≤ regIdx o))
  | 0x091 => k != 3 || (clsOf o == clsOf (p 0) && decide (regIdx (p 0) ≤ regIdx o))
  -- element immediates and the vector forms (08 R207)
  | 0x100 | 0x101 | 0x102 | 0x107 | 0x108 | 0x112 => sameForm pre o && (k != 2 || elemImm m 0x10 o)
  | 0x109 => sameForm pre o && (k != 2 || elemImm m 0x04 o)
  | 0x103 | 0x104 => sameForm pre o && (k != 3 || elemImm m 0x10 o)
  | 0x105 | 0x106 | 0x10A | 0x10B | 0x10C | 0x10D | 0x10E | 0x10F | 0x110 | 0x111 | 0x113 | 0x117 | 0x120 | 0x121 | 0x122 | 0x123
  | 0x124 | 0x125 | 0x133 | 0x134 | 0x135 => sameForm pre o
  -- VCVT (08 R222, R223)
  | 0x130 =>
    sameForm pre o && (k != 2 || (tyVcvt.contains (immCode o) && perLane (immCode o) == perLane (mty m)))
      && (k != 3 || scaleOk (mty m) (immCode (p 2)) o)
  -- VPACK (08 R224)
  | 0x131 =>
    (k != 1 || regIdx o % perLane (mty m) == 0) && (k != 2 || (tyUNP.contains (immCode o) && (mty m != 0x39 || immCode o == 0x0C)))
      && (k != 3 || scaleOk (mty m) (immCode (p 2)) o)
  -- VUNPK (08 R225): its first field is checked with its third
  | 0x132 =>
    (k != 2 || ((0x39 :: tyPacked).contains (immCode o) && (immCode o != 0x39 || mty m == 0x0C)))
      && (k != 3 || scaleOk (mty m) (immCode (p 2)) o)
  -- ACFG: three tiles (13 R342)
  | 0x1A0 => !(k == 1 || k == 2) || !pre.contains o
  -- CARM: xc or xf (10 R265)
  | 0x1C8 => k != 0 || o == .queue true 2 || o == .queue true 4
  -- RLD, RST: the register fits the width (12 R315, R316)
  | 0x200 => k != 0 || widthReg m o
  | 0x201 => k != 2 || widthReg m o
  | _ => true
where
  /-- .B8 a scalar, .B16 an even scalar, wider a whole vector (12 R316). -/
  widthReg (m : BitVec 11) (o : Operand) : Bool :=
    match mbits m 90 88 with
    | 0 => clsOf o == .s
    | 1 => clsOf o == .s && evenReg o
    | _ => clsOf o == .w

/-- VUNPK's first destination is a multiple of the registers it writes (08 R225): a defect of the first field, which needs the
third. -/
def firstFieldOk (n : Nat) (o1 o3 : Operand) : Bool :=
  n != 0x132 || !(0x39 :: tyPacked).contains (immCode o3) || regIdx o1 % perLane (immCode o3) == 0

/-! Variants of one opcode, told apart by MOD or by the kind of an operand (rows of the opcode table that share an opcode). -/

def variantOf (n : Nat) (m : BitVec 11) (o3 : Operand) : Nat :=
  match n with
  | 0x04B => mbits m 81 80
  | 0x04D | 0x1A2 => mbits m 82 82
  | 0x188 | 0x189 | 0x209 => mbits m 80 80
  | 0x1E0 => if clsOf o3 = .w then 0 else 1
  | 0x203 => mbits m 90 87
  | 0x20C => mbits m 82 80
  | _ => 0

/-! SETW and HINT (03 R76, R77; 07 R190; 09 R243; 10 R265; 12 R315; 13 R340). -/

def setwOk (n : Nat) (o1 : Operand) : Bool :=
  [0x080, 0x082, 0x084, 0x086, 0x089, 0x08A, 0x093, 0x186, 0x200].contains n
    || ([0x088, 0x202, 0x203].contains n && clsOf o1 != .no)

def hintOk (n : Nat) : Bool :=
  inBlock n 0x080 0x08A || inBlock n 0x090 0x092 || [0x183, 0x188, 0x189, 0x1A1, 0x1A2, 0x1A3].contains n || inBlock n 0x1C0 0x1C4
    || inBlock n 0x200 0x202 || inBlock n 0x204 0x206

end Sys2Proof.Machine
end

