-- ==== Sys2Proof/WellFormed.lean ====
section
/-!
DEFINITION. WellFormed.lean: the well-formed instructions: words whose fields the instruction's chapter accepts (spec file 03,
R83), and events that name units of the package (01 R8).
-/
namespace Sys2Proof
open Machine

/-- The opcode, the variant and the fields of an instruction word (03 R82); an event has none. -/
def wordOf : Instr → Option (Nat × Nat × Fields)
  | .nop f => some (0x0, 0, f)
  | .movi f => some (0x1, 0, f)
  | .movhi f => some (0x2, 0, f)
  | .mov f => some (0x3, 0, f)
  | .add f => some (0x4, 0, f)
  | .sub f => some (0x5, 0, f)
  | .mul f => some (0x6, 0, f)
  | .mulh f => some (0x7, 0, f)
  | .div f => some (0x8, 0, f)
  | .rem f => some (0x9, 0, f)
  | .and f => some (0xa, 0, f)
  | .or f => some (0xb, 0, f)
  | .xor f => some (0xc, 0, f)
  | .andn f => some (0xd, 0, f)
  | .shl f => some (0xe, 0, f)
  | .shr f => some (0xf, 0, f)
  | .sar f => some (0x10, 0, f)
  | .rot f => some (0x11, 0, f)
  | .min f => some (0x12, 0, f)
  | .max f => some (0x13, 0, f)
  | .abs f => some (0x14, 0, f)
  | .clz f => some (0x15, 0, f)
  | .ctz f => some (0x16, 0, f)
  | .popc f => some (0x17, 0, f)
  | .sext f => some (0x18, 0, f)
  | .zext f => some (0x19, 0, f)
  | .bfx f => some (0x1a, 0, f)
  | .bfi f => some (0x1b, 0, f)
  | .lea f => some (0x1c, 0, f)
  | .mada f => some (0x1d, 0, f)
  | .sel f => some (0x1e, 0, f)
  | .cmp f => some (0x1f, 0, f)
  | .plog f => some (0x20, 0, f)
  | .pmov f => some (0x21, 0, f)
  | .fadd f => some (0x22, 0, f)
  | .fmul f => some (0x23, 0, f)
  | .ffma f => some (0x24, 0, f)
  | .fcmp f => some (0x25, 0, f)
  | .fcvt f => some (0x26, 0, f)
  | .br f => some (0x30, 0, f)
  | .bri f => some (0x31, 0, f)
  | .call f => some (0x32, 0, f)
  | .ret f => some (0x33, 0, f)
  | .loop f => some (0x34, 0, f)
  | .exit f => some (0x35, 0, f)
  | .yield f => some (0x36, 0, f)
  | .popq f => some (0x38, 0, f)
  | .qstat f => some (0x39, 0, f)
  | .drainq f => some (0x3a, 0, f)
  | .trap f => some (0x40, 0, f)
  | .tret f => some (0x41, 0, f)
  | .brk f => some (0x42, 0, f)
  | .sysrd f => some (0x43, 0, f)
  | .syswr f => some (0x44, 0, f)
  | .gtsrd f => some (0x45, 0, f)
  | .ccyrd f => some (0x46, 0, f)
  | .waitg f => some (0x47, 0, f)
  | .prio f => some (0x48, 0, f)
  | .ctxsv f => some (0x49, 0, f)
  | .ctxrs f => some (0x4a, 0, f)
  | .tlbinvAll f => some (0x4b, 0, f)
  | .tlbinvPage f => some (0x4b, 1, f)
  | .trace f => some (0x4c, 0, f)
  | .quiesce f => some (0x4d, 0, f)
  | .quiesceEnd f => some (0x4d, 1, f)
  | .launch f => some (0x60, 0, f)
  | .nwait f => some (0x61, 0, f)
  | .nstat f => some (0x62, 0, f)
  | .rgnmk f => some (0x63, 0, f)
  | .rgntd f => some (0x64, 0, f)
  | .rgnset f => some (0x65, 0, f)
  | .ld f => some (0x80, 0, f)
  | .st f => some (0x81, 0, f)
  | .ldp f => some (0x82, 0, f)
  | .stp f => some (0x83, 0, f)
  | .ldv f => some (0x84, 0, f)
  | .stv f => some (0x85, 0, f)
  | .ldvg f => some (0x86, 0, f)
  | .stvs f => some (0x87, 0, f)
  | .amo f => some (0x88, 0, f)
  | .cas f => some (0x89, 0, f)
  | .cas2 f => some (0x8a, 0, f)
  | .fence f => some (0x8b, 0, f)
  | .tclr f => some (0x8c, 0, f)
  | .tadd f => some (0x8d, 0, f)
  | .trd f => some (0x8e, 0, f)
  | .tfold f => some (0x8f, 0, f)
  | .spillm f => some (0x90, 0, f)
  | .fillm f => some (0x91, 0, f)
  | .pref f => some (0x92, 0, f)
  | .xlate f => some (0x93, 0, f)
  | .flushl f => some (0x94, 0, f)
  | .vadd f => some (0x100, 0, f)
  | .vsub f => some (0x101, 0, f)
  | .vmul f => some (0x102, 0, f)
  | .vfma f => some (0x103, 0, f)
  | .vfms f => some (0x104, 0, f)
  | .vneg f => some (0x105, 0, f)
  | .vabs f => some (0x106, 0, f)
  | .vmin f => some (0x107, 0, f)
  | .vmax f => some (0x108, 0, f)
  | .vmulh f => some (0x109, 0, f)
  | .vand f => some (0x10a, 0, f)
  | .vor f => some (0x10b, 0, f)
  | .vxor f => some (0x10c, 0, f)
  | .vshl f => some (0x10d, 0, f)
  | .vshr f => some (0x10e, 0, f)
  | .vsar f => some (0x10f, 0, f)
  | .vclz f => some (0x110, 0, f)
  | .vpopc f => some (0x111, 0, f)
  | .vcmp f => some (0x112, 0, f)
  | .vsel f => some (0x113, 0, f)
  | .vmlog f => some (0x114, 0, f)
  | .vmpop f => some (0x115, 0, f)
  | .vmfst f => some (0x116, 0, f)
  | .vmov f => some (0x117, 0, f)
  | .vexp2 f => some (0x120, 0, f)
  | .vlog2 f => some (0x121, 0, f)
  | .vrcp f => some (0x122, 0, f)
  | .vrsq f => some (0x123, 0, f)
  | .vsqrt f => some (0x124, 0, f)
  | .vtanh f => some (0x125, 0, f)
  | .vcvt f => some (0x130, 0, f)
  | .vpack f => some (0x131, 0, f)
  | .vunpk f => some (0x132, 0, f)
  | .vscale f => some (0x133, 0, f)
  | .vqnt f => some (0x134, 0, f)
  | .vdeq f => some (0x135, 0, f)
  | .vbcst f => some (0x140, 0, f)
  | .vext f => some (0x141, 0, f)
  | .vins f => some (0x142, 0, f)
  | .vshuf f => some (0x143, 0, f)
  | .vrot f => some (0x144, 0, f)
  | .vzip f => some (0x145, 0, f)
  | .vuzp f => some (0x146, 0, f)
  | .vsld f => some (0x147, 0, f)
  | .vredadd f => some (0x150, 0, f)
  | .vredmax f => some (0x151, 0, f)
  | .vredmin f => some (0x152, 0, f)
  | .vscan f => some (0x153, 0, f)
  | .vdot f => some (0x154, 0, f)
  | .mldw f => some (0x180, 0, f)
  | .mswap f => some (0x181, 0, f)
  | .mmul f => some (0x182, 0, f)
  | .mdrain f => some (0x183, 0, f)
  | .mzero f => some (0x184, 0, f)
  | .mcbt f => some (0x185, 0, f)
  | .mrda f => some (0x186, 0, f)
  | .mwra f => some (0x187, 0, f)
  | .msave f => some (0x188, 0, f)
  | .msavePl f => some (0x188, 1, f)
  | .mrest f => some (0x189, 0, f)
  | .mrestPl f => some (0x189, 1, f)
  | .acfg f => some (0x1a0, 0, f)
  | .aldq f => some (0x1a1, 0, f)
  | .akv f => some (0x1a2, 0, f)
  | .akvPl f => some (0x1a2, 1, f)
  | .afin f => some (0x1a3, 0, f)
  | .arst f => some (0x1a4, 0, f)
  | .cpy f => some (0x1c0, 0, f)
  | .cpyg f => some (0x1c1, 0, f)
  | .cpys f => some (0x1c2, 0, f)
  | .cfil f => some (0x1c3, 0, f)
  | .ctrn f => some (0x1c4, 0, f)
  | .lcinit f => some (0x1c5, 0, f)
  | .lcwait f => some (0x1c6, 0, f)
  | .lcadd f => some (0x1c7, 0, f)
  | .carm f => some (0x1c8, 0, f)
  | .bred f => some (0x1e0, 0, f)
  | .bredBlock f => some (0x1e0, 1, f)
  | .bsum f => some (0x1e1, 0, f)
  | .waita f => some (0x1e2, 0, f)
  | .bfill f => some (0x1e3, 0, f)
  | .bclr f => some (0x1e4, 0, f)
  | .rld f => some (0x200, 0, f)
  | .rst f => some (0x201, 0, f)
  | .ramo f => some (0x202, 0, f)
  | .ropCasw f => some (0x203, 0, f)
  | .ropFxadd f => some (0x203, 1, f)
  | .ropEnq f => some (0x203, 2, f)
  | .ropDeq f => some (0x203, 3, f)
  | .ropChase f => some (0x203, 4, f)
  | .ropBadd f => some (0x203, 5, f)
  | .ropMinloc f => some (0x203, 6, f)
  | .ropGath4 f => some (0x203, 7, f)
  | .ropScat4 f => some (0x203, 8, f)
  | .ropLcarr f => some (0x203, 9, f)
  | .ropHist f => some (0x203, 10, f)
  | .ropPutsig f => some (0x203, 11, f)
  | .rput f => some (0x204, 0, f)
  | .rget f => some (0x205, 0, f)
  | .mcast f => some (0x206, 0, f)
  | .gsync f => some (0x207, 0, f)
  | .gred f => some (0x208, 0, f)
  | .plcfgOpen f => some (0x209, 0, f)
  | .plcfgClose f => some (0x209, 1, f)
  | .plsend f => some (0x20a, 0, f)
  | .plrel f => some (0x20b, 0, f)
  | .lnctlMode f => some (0x20c, 0, f)
  | .lnctlRetrain f => some (0x20c, 1, f)
  | .lnctlDisable f => some (0x20c, 2, f)
  | .lnctlEnable f => some (0x20c, 3, f)
  | .lnctlPark f => some (0x20c, 4, f)
  | .lnstat f => some (0x20d, 0, f)
  | .kcfg f => some (0x220, 0, f)
  | .kprot f => some (0x221, 0, f)
  | .kunpr f => some (0x222, 0, f)
  | .kopen f => some (0x223, 0, f)
  | .kprep f => some (0x224, 0, f)
  | .kcomt f => some (0x225, 0, f)
  | .kabrt f => some (0x226, 0, f)
  | .kstat f => some (0x227, 0, f)
  | .krbld f => some (0x228, 0, f)
  | .kscrb f => some (0x229, 0, f)
  | _ => none

/-- A long immediate that starts in field k (from 0) fits there (03 R72). -/
def longFits (k : Nat) (x : BitVec 61) : Bool :=
  match k with
  | 1 => true
  | 2 => (x.truncate 45).signExtend 61 == x
  | 3 => (x.truncate 29).signExtend 61 == x
  | _ => false

/-- Every operand is one its field accepts; after a long immediate nothing follows (03 R71 to R73). -/
def opsOk (n : Nat) (m : BitVec 11) : List Operand → List Operand → Bool
  | _, [] => true
  | pre, .long x :: t => (slot n m pre).contains .l && longFits pre.length x && t.all (· == .none)
  | pre, o :: t => (slot n m pre).contains (clsOf o) && valueOk n m pre o && opsOk n m (pre ++ [o]) t

def opList (f : Fields) : List Operand := [f.o1, f.o2, f.o3, f.o4, f.o5]

/-- The fields of a word are ones opcode n accepts (03 R83). -/
def formOk (n : Nat) (f : Fields) : Bool :=
  opcOk n && modOk n f.mod && opsOk n f.mod [] (opList f) && firstFieldOk n f.o1 f.o3
    && (!f.setw.getLsbD 3 || setwOk n f.o1) && (f.hint == 0 || hintOk n)

/-- An event names units the package has (01 R8). -/
def eventOk : Instr → Bool
  | .dispatch die => decide (die < 4)
  | .starvationPromotion core => decide (core < 128)
  | .fixedResultLand ctx => decide (ctx < 512)
  | .tokenResultLand core _ => decide (core < 128)
  | .icacheFill core => decide (core < 128)
  | .translationWalkComplete core _ => decide (core < 128)
  | .trapEntry ctx => decide (ctx < 512)
  | .checkPointMatch core => decide (core < 128)
  | .checkerMismatch core => decide (core < 128)
  | .exitDrainComplete ctx => decide (ctx < 512)
  | .waitgWake ctx => decide (ctx < 512)
  | .nwaitRecheck ctx => decide (ctx < 512)
  | .nwaitDeadline ctx => decide (ctx < 512)
  | .mxshareWrite cluster _ => decide (cluster < 64)
  | .mxshareApply cluster => decide (cluster < 64)
  | .cadenceWrite cluster _ => decide (cluster < 64)
  | .cadenceApply cluster => decide (cluster < 64)
  | .arrshapeWrite cluster _ => decide (cluster < 64)
  | .arrshapeApply cluster => decide (cluster < 64)
  | .mldwExec core => decide (core < 128)
  | .mcbtExec core => decide (core < 128)
  | .mswapExchange core => decide (core < 128)
  | .mmulExec core => decide (core < 128)
  | .mmulRowLand core => decide (core < 128)
  | .mmulComplete core => decide (core < 128)
  | .rowCheckMismatch core _ => decide (core < 128)
  | .mdrainExec core _ => decide (core < 128)
  | .mzeroExec core => decide (core < 128)
  | .msaveExec core _ => decide (core < 128)
  | .mrestExec core _ => decide (core < 128)
  | .acfgExec core => decide (core < 128)
  | .aldqExec core _ => decide (core < 128)
  | .akvExec core _ => decide (core < 128)
  | .akvPlChosen core _ => decide (core < 128)
  | .afinExec core _ => decide (core < 128)
  | .arstExec core => decide (core < 128)
  | .copyCommandStart cluster => decide (cluster < 64)
  | .copyBlock cluster _ _ _ => decide (cluster < 64)
  | .missedPromise ctx _ => decide (ctx < 512)
  | .gateHead ctx _ => decide (ctx < 512)
  | .gateFiring ctx _ => decide (ctx < 512)
  | .cpholdResume ctx => decide (ctx < 512)
  | .cpholdAbandon ctx => decide (ctx < 512)
  | .lcwaitRecheck ctx => decide (ctx < 512)
  | .lcwaitDeadline ctx => decide (ctx < 512)
  | .cmncfgSizeWrite die _ => decide (die < 4)
  | .repartitionComplete die _ => decide (die < 4)
  | .bredExec die _ => decide (die < 4)
  | .bsumExec die _ => decide (die < 4)
  | .bfillExec die => decide (die < 4)
  | .bclrExec die => decide (die < 4)
  | .waitaResume ctx => decide (ctx < 512)
  | .waitaDeadline ctx => decide (ctx < 512)
  | .fabricFaultDelivery ctx => decide (ctx < 512)
  | .rputExec ctx _ => decide (ctx < 512)
  | .rgetExec ctx _ => decide (ctx < 512)
  | .mcastExec ctx _ => decide (ctx < 512)
  | .gredExec ctx => decide (ctx < 512)
  | .gsyncDeadline ctx => decide (ctx < 512)
  | .plsendExec ctx _ => decide (ctx < 512)
  | .trctlFrozenClear core => decide (core < 128)
  | .tridxWrite core _ => decide (core < 128)
  | .lateAccessMark ctx => decide (ctx < 512)
  | .cadenceFloorStep cluster _ => decide (cluster < 64)
  | .powerRelief cluster _ => decide (cluster < 64)
  | .ageingMonitor cluster _ _ => decide (cluster < 64)
  | .clockChangeRequest cluster => decide (cluster < 64)
  | .clockChangeQuiesce cluster => decide (cluster < 64)
  | .clockRestart cluster => decide (cluster < 64)
  | .codingCommandStart die _ _ => decide (die < 4)
  | .flushlWritebackComplete ctx => decide (ctx < 512)
  | _ => true

/-- A well-formed instruction: a word of its opcode and variant with accepted fields, or an event of an existing unit. -/
def wellFormed (i : Instr) : Bool :=
  match wordOf i with
  | some (n, v, f) => formOk n f && variantOf n f.mod f.o3 == v
  | none => eventOk i

end Sys2Proof
end

