-- ==== Sys2Proof/Decode.lean ====
section
/-!
DEFINITION. Decode.lean: decoding an instruction word of 16 bytes, its defects in the order the spec checks them, and the
encoder (spec file 03, R69 to R83).
-/
namespace Sys2Proof
open Machine

/-! Operand fields (03 R71). -/

/-- Operand field k (0 for O1) of a word. -/
def rawField (w : IWord) (k : Nat) : BitVec 16 := w.extractLsb' (64 - 16 * k) 16
def rawKind (r : BitVec 16) : Nat := (r.extractLsb' 13 3).toNat
def rawBits (r : BitVec 16) (hi lo : Nat) : Nat := bitsOf r.toNat hi lo

/-- The reserved payload bits of a field are zero. -/
def rsvOk (r : BitVec 16) : Bool :=
  match rawKind r with
  | 0 => rawBits r 12 0 == 0
  | 1 => rawBits r 12 6 == 0
  | 2 => rawBits r 12 8 == 0 && (rawBits r 7 7 == 0 || rawBits r 6 5 == 0)
  | 3 => rawBits r 12 7 == 0 && (rawBits r 6 4 != 1 || rawBits r 3 3 == 0) && (rawBits r 6 4 != 2 || rawBits r 3 0 == 0)
  | 5 => rawBits r 12 5 == 0
  | 6 => rawBits r 12 4 == 0
  | _ => true

/-- The operand a field names; none for a sub-kind that does not exist. -/
def readOp (r : BitVec 16) : Option Operand :=
  match rawKind r with
  | 0 => some .none
  | 1 => some (.s (r.extractLsb' 0 6))
  | 2 => if rawBits r 7 7 = 1 then some (.v (r.extractLsb' 0 5)) else some (.vq (r.extractLsb' 0 5) (r.extractLsb' 5 2))
  | 3 =>
    match rawBits r 6 4 with
    | 0 => some (.p (r.extractLsb' 0 4))
    | 1 => some (.m (r.extractLsb' 0 3))
    | 2 => some .ctl
    | _ => none
  | 4 => some (.imm (r.extractLsb' 0 13))
  | 5 => some (.tile (r.extractLsb' 0 5))
  | 6 => some (.queue (rawBits r 3 3 == 1) (r.extractLsb' 0 3))
  | _ => none

/-- A field as its operand, nothing where it names none. -/
def fieldOp (r : BitVec 16) : Operand := (readOp r).getD .none

/-- Field k starts a long immediate (03 R72). -/
def longAt (w : IWord) (k : Nat) : Bool := rawKind (rawField w k) == 7

/-- The fields of a word (03 R69, R72). -/
def fieldsOf (w : IWord) : Fields where
  ga := w.extractLsb' 113 5
  gb := w.extractLsb' 108 5
  gc := w.extractLsb' 107 1
  await := w.extractLsb' 99 8
  setw := w.extractLsb' 95 4
  hint := w.extractLsb' 93 2
  yld := w.extractLsb' 92 1
  mod := w.extractLsb' 80 11
  o1 := fieldOp (rawField w 0)
  o2 := if longAt w 1 then .long (w.extractLsb' 0 61) else fieldOp (rawField w 1)
  o3 := if longAt w 1 then .none else if longAt w 2 then .long ((w.extractLsb' 0 45).signExtend 61) else fieldOp (rawField w 2)
  o4 :=
    if longAt w 1 || longAt w 2 then .none
    else if longAt w 3 then .long ((w.extractLsb' 0 29).signExtend 61)
    else fieldOp (rawField w 3)
  o5 := if longAt w 1 || longAt w 2 || longAt w 3 then .none else fieldOp (rawField w 4)

/-- The opcode of a word. -/
def opcOf (w : IWord) : Nat := (w.extractLsb' 118 10).toNat

/-! Defects (03 R83): the operand field, 0 where it is none, and the defect code. -/

/-- The first operand defect, field by field: the kind, the reserved bits, the value. -/
def scan (n : Nat) (m : BitVec 11) : List (BitVec 16) → List Operand → Option (Nat × Nat)
  | [], _ => none
  | r :: t, pre =>
    let k := pre.length + 1
    let sl := slot n m pre
    if !(sl.any fun z => kindOf z == rawKind r) then some (k, 4)
    else if rawKind r = 7 then none
    else if !rsvOk r then some (k, 5)
    else
      match readOp r with
      | none => some (k, 6)
      | some o => if sl.contains (clsOf o) && valueOk n m pre o then scan n m t (pre ++ [o]) else some (k, 6)

def rawList (w : IWord) : List (BitVec 16) := [rawField w 0, rawField w 1, rawField w 2, rawField w 3, rawField w 4]

/-- The operand defects of a word, VUNPK's first field among them. -/
def operandDefect (n : Nat) (w : IWord) : Option (Nat × Nat) :=
  let f := fieldsOf w
  match scan n f.mod (rawList w) [] with
  | some (1, d) => some (1, d)
  | r => if firstFieldOk n f.o1 f.o3 then r else some (1, 6)

/-- The defect that the illegal-instruction trap reports for a word, the first in the order of R83. -/
def defectOf (w : IWord) : Option (Nat × Nat) :=
  let n := opcOf w
  let f := fieldsOf w
  if !opcOk n then some (0, 1)
  else if w.getLsbD 91 then some (0, 2)
  else if !modOk n f.mod then some (0, 3)
  else
    match operandDefect n w with
    | some d => some d
    | none =>
      if f.setw.getLsbD 3 && !setwOk n f.o1 then some (0, 7)
      else if f.hint != 0 && !hintOk n then some (0, 8)
      else none

/-- TVAL of the trap (03 R83). -/
def defectTval (d : Nat × Nat) : W64 := BitVec.ofNat 64 (d.1 * 16 + d.2)

/-! The instruction of a word. -/

/-- The sequencer's words. -/
def buildSeq (n v : Nat) (f : Fields) : Option Instr :=
  match n, v with
  | 0x0, 0 => some (.nop f)
  | 0x1, 0 => some (.movi f)
  | 0x2, 0 => some (.movhi f)
  | 0x3, 0 => some (.mov f)
  | 0x4, 0 => some (.add f)
  | 0x5, 0 => some (.sub f)
  | 0x6, 0 => some (.mul f)
  | 0x7, 0 => some (.mulh f)
  | 0x8, 0 => some (.div f)
  | 0x9, 0 => some (.rem f)
  | 0xa, 0 => some (.and f)
  | 0xb, 0 => some (.or f)
  | 0xc, 0 => some (.xor f)
  | 0xd, 0 => some (.andn f)
  | 0xe, 0 => some (.shl f)
  | 0xf, 0 => some (.shr f)
  | 0x10, 0 => some (.sar f)
  | 0x11, 0 => some (.rot f)
  | 0x12, 0 => some (.min f)
  | 0x13, 0 => some (.max f)
  | 0x14, 0 => some (.abs f)
  | 0x15, 0 => some (.clz f)
  | 0x16, 0 => some (.ctz f)
  | 0x17, 0 => some (.popc f)
  | 0x18, 0 => some (.sext f)
  | 0x19, 0 => some (.zext f)
  | 0x1a, 0 => some (.bfx f)
  | 0x1b, 0 => some (.bfi f)
  | 0x1c, 0 => some (.lea f)
  | 0x1d, 0 => some (.mada f)
  | 0x1e, 0 => some (.sel f)
  | 0x1f, 0 => some (.cmp f)
  | 0x20, 0 => some (.plog f)
  | 0x21, 0 => some (.pmov f)
  | 0x22, 0 => some (.fadd f)
  | 0x23, 0 => some (.fmul f)
  | 0x24, 0 => some (.ffma f)
  | 0x25, 0 => some (.fcmp f)
  | 0x26, 0 => some (.fcvt f)
  | 0x30, 0 => some (.br f)
  | 0x31, 0 => some (.bri f)
  | 0x32, 0 => some (.call f)
  | 0x33, 0 => some (.ret f)
  | 0x34, 0 => some (.loop f)
  | 0x35, 0 => some (.exit f)
  | 0x36, 0 => some (.yield f)
  | 0x38, 0 => some (.popq f)
  | 0x39, 0 => some (.qstat f)
  | 0x3a, 0 => some (.drainq f)
  | 0x40, 0 => some (.trap f)
  | 0x41, 0 => some (.tret f)
  | 0x42, 0 => some (.brk f)
  | 0x43, 0 => some (.sysrd f)
  | 0x44, 0 => some (.syswr f)
  | 0x45, 0 => some (.gtsrd f)
  | 0x46, 0 => some (.ccyrd f)
  | 0x47, 0 => some (.waitg f)
  | 0x48, 0 => some (.prio f)
  | 0x49, 0 => some (.ctxsv f)
  | 0x4a, 0 => some (.ctxrs f)
  | 0x4b, 0 => some (.tlbinvAll f)
  | 0x4b, 1 => some (.tlbinvPage f)
  | 0x4c, 0 => some (.trace f)
  | 0x4d, 0 => some (.quiesce f)
  | 0x4d, 1 => some (.quiesceEnd f)
  | _, _ => none

/-- The Derailleur's. -/
def buildDer (n v : Nat) (f : Fields) : Option Instr :=
  match n, v with
  | 0x60, 0 => some (.launch f)
  | 0x61, 0 => some (.nwait f)
  | 0x62, 0 => some (.nstat f)
  | 0x63, 0 => some (.rgnmk f)
  | 0x64, 0 => some (.rgntd f)
  | 0x65, 0 => some (.rgnset f)
  | _, _ => none

/-- The memory pipe's. -/
def buildMem (n v : Nat) (f : Fields) : Option Instr :=
  match n, v with
  | 0x80, 0 => some (.ld f)
  | 0x81, 0 => some (.st f)
  | 0x82, 0 => some (.ldp f)
  | 0x83, 0 => some (.stp f)
  | 0x84, 0 => some (.ldv f)
  | 0x85, 0 => some (.stv f)
  | 0x86, 0 => some (.ldvg f)
  | 0x87, 0 => some (.stvs f)
  | 0x88, 0 => some (.amo f)
  | 0x89, 0 => some (.cas f)
  | 0x8a, 0 => some (.cas2 f)
  | 0x8b, 0 => some (.fence f)
  | 0x8c, 0 => some (.tclr f)
  | 0x8d, 0 => some (.tadd f)
  | 0x8e, 0 => some (.trd f)
  | 0x8f, 0 => some (.tfold f)
  | 0x90, 0 => some (.spillm f)
  | 0x91, 0 => some (.fillm f)
  | 0x92, 0 => some (.pref f)
  | 0x93, 0 => some (.xlate f)
  | 0x94, 0 => some (.flushl f)
  | _, _ => none

/-- The vector unit's. -/
def buildVec (n v : Nat) (f : Fields) : Option Instr :=
  match n, v with
  | 0x100, 0 => some (.vadd f)
  | 0x101, 0 => some (.vsub f)
  | 0x102, 0 => some (.vmul f)
  | 0x103, 0 => some (.vfma f)
  | 0x104, 0 => some (.vfms f)
  | 0x105, 0 => some (.vneg f)
  | 0x106, 0 => some (.vabs f)
  | 0x107, 0 => some (.vmin f)
  | 0x108, 0 => some (.vmax f)
  | 0x109, 0 => some (.vmulh f)
  | 0x10a, 0 => some (.vand f)
  | 0x10b, 0 => some (.vor f)
  | 0x10c, 0 => some (.vxor f)
  | 0x10d, 0 => some (.vshl f)
  | 0x10e, 0 => some (.vshr f)
  | 0x10f, 0 => some (.vsar f)
  | 0x110, 0 => some (.vclz f)
  | 0x111, 0 => some (.vpopc f)
  | 0x112, 0 => some (.vcmp f)
  | 0x113, 0 => some (.vsel f)
  | 0x114, 0 => some (.vmlog f)
  | 0x115, 0 => some (.vmpop f)
  | 0x116, 0 => some (.vmfst f)
  | 0x117, 0 => some (.vmov f)
  | 0x120, 0 => some (.vexp2 f)
  | 0x121, 0 => some (.vlog2 f)
  | 0x122, 0 => some (.vrcp f)
  | 0x123, 0 => some (.vrsq f)
  | 0x124, 0 => some (.vsqrt f)
  | 0x125, 0 => some (.vtanh f)
  | 0x130, 0 => some (.vcvt f)
  | 0x131, 0 => some (.vpack f)
  | 0x132, 0 => some (.vunpk f)
  | 0x133, 0 => some (.vscale f)
  | 0x134, 0 => some (.vqnt f)
  | 0x135, 0 => some (.vdeq f)
  | 0x140, 0 => some (.vbcst f)
  | 0x141, 0 => some (.vext f)
  | 0x142, 0 => some (.vins f)
  | 0x143, 0 => some (.vshuf f)
  | 0x144, 0 => some (.vrot f)
  | 0x145, 0 => some (.vzip f)
  | 0x146, 0 => some (.vuzp f)
  | 0x147, 0 => some (.vsld f)
  | 0x150, 0 => some (.vredadd f)
  | 0x151, 0 => some (.vredmax f)
  | 0x152, 0 => some (.vredmin f)
  | 0x153, 0 => some (.vscan f)
  | 0x154, 0 => some (.vdot f)
  | _, _ => none

/-- The matrix and attention engines'. -/
def buildMx (n v : Nat) (f : Fields) : Option Instr :=
  match n, v with
  | 0x180, 0 => some (.mldw f)
  | 0x181, 0 => some (.mswap f)
  | 0x182, 0 => some (.mmul f)
  | 0x183, 0 => some (.mdrain f)
  | 0x184, 0 => some (.mzero f)
  | 0x185, 0 => some (.mcbt f)
  | 0x186, 0 => some (.mrda f)
  | 0x187, 0 => some (.mwra f)
  | 0x188, 0 => some (.msave f)
  | 0x188, 1 => some (.msavePl f)
  | 0x189, 0 => some (.mrest f)
  | 0x189, 1 => some (.mrestPl f)
  | 0x1a0, 0 => some (.acfg f)
  | 0x1a1, 0 => some (.aldq f)
  | 0x1a2, 0 => some (.akv f)
  | 0x1a2, 1 => some (.akvPl f)
  | 0x1a3, 0 => some (.afin f)
  | 0x1a4, 0 => some (.arst f)
  | _, _ => none

/-- The copy engine's and the Commons'. -/
def buildCopy (n v : Nat) (f : Fields) : Option Instr :=
  match n, v with
  | 0x1c0, 0 => some (.cpy f)
  | 0x1c1, 0 => some (.cpyg f)
  | 0x1c2, 0 => some (.cpys f)
  | 0x1c3, 0 => some (.cfil f)
  | 0x1c4, 0 => some (.ctrn f)
  | 0x1c5, 0 => some (.lcinit f)
  | 0x1c6, 0 => some (.lcwait f)
  | 0x1c7, 0 => some (.lcadd f)
  | 0x1c8, 0 => some (.carm f)
  | 0x1e0, 0 => some (.bred f)
  | 0x1e0, 1 => some (.bredBlock f)
  | 0x1e1, 0 => some (.bsum f)
  | 0x1e2, 0 => some (.waita f)
  | 0x1e3, 0 => some (.bfill f)
  | 0x1e4, 0 => some (.bclr f)
  | _, _ => none

/-- The fabric port's and the coding engine's. -/
def buildFab (n v : Nat) (f : Fields) : Option Instr :=
  match n, v with
  | 0x200, 0 => some (.rld f)
  | 0x201, 0 => some (.rst f)
  | 0x202, 0 => some (.ramo f)
  | 0x203, 0 => some (.ropCasw f)
  | 0x203, 1 => some (.ropFxadd f)
  | 0x203, 2 => some (.ropEnq f)
  | 0x203, 3 => some (.ropDeq f)
  | 0x203, 4 => some (.ropChase f)
  | 0x203, 5 => some (.ropBadd f)
  | 0x203, 6 => some (.ropMinloc f)
  | 0x203, 7 => some (.ropGath4 f)
  | 0x203, 8 => some (.ropScat4 f)
  | 0x203, 9 => some (.ropLcarr f)
  | 0x203, 10 => some (.ropHist f)
  | 0x203, 11 => some (.ropPutsig f)
  | 0x204, 0 => some (.rput f)
  | 0x205, 0 => some (.rget f)
  | 0x206, 0 => some (.mcast f)
  | 0x207, 0 => some (.gsync f)
  | 0x208, 0 => some (.gred f)
  | 0x209, 0 => some (.plcfgOpen f)
  | 0x209, 1 => some (.plcfgClose f)
  | 0x20a, 0 => some (.plsend f)
  | 0x20b, 0 => some (.plrel f)
  | 0x20c, 0 => some (.lnctlMode f)
  | 0x20c, 1 => some (.lnctlRetrain f)
  | 0x20c, 2 => some (.lnctlDisable f)
  | 0x20c, 3 => some (.lnctlEnable f)
  | 0x20c, 4 => some (.lnctlPark f)
  | 0x20d, 0 => some (.lnstat f)
  | 0x220, 0 => some (.kcfg f)
  | 0x221, 0 => some (.kprot f)
  | 0x222, 0 => some (.kunpr f)
  | 0x223, 0 => some (.kopen f)
  | 0x224, 0 => some (.kprep f)
  | 0x225, 0 => some (.kcomt f)
  | 0x226, 0 => some (.kabrt f)
  | 0x227, 0 => some (.kstat f)
  | 0x228, 0 => some (.krbld f)
  | 0x229, 0 => some (.kscrb f)
  | _, _ => none

/-- The instruction of an opcode and variant (03 R82). -/
def build (n v : Nat) (f : Fields) : Option Instr :=
  if n < 0x060 then buildSeq n v f
  else if n < 0x080 then buildDer n v f
  else if n < 0x100 then buildMem n v f
  else if n < 0x180 then buildVec n v f
  else if n < 0x1C0 then buildMx n v f
  else if n < 0x200 then buildCopy n v f
  else buildFab n v f

/-- Why bytes are no instruction. -/
inductive Reject where
  /-- Fewer than the 16 bytes of a word. -/
  | short
  /-- An illegal word: the operand field and the defect of R83. -/
  | illegal (field defect : Nat)
  deriving DecidableEq, Repr

/-- Decode a word: its instruction, or the defect that makes it illegal. -/
def decodeWord (w : IWord) : Except Reject Instr :=
  match defectOf w with
  | some d => .error (.illegal d.1 d.2)
  | none =>
    let f := fieldsOf w
    match build (opcOf w) (variantOf (opcOf w) f.mod f.o3) f with
    | some i => .ok i
    | none => .error (.illegal 0 1)

/-- Decode the word at the head of a byte sequence; the rest follows it. -/
def decode (bs : List Byte) : Except Reject (Instr × List Byte) :=
  if bs.length < 16 then .error .short
  else
    match decodeWord (BitVec.ofNat 128 (leNat (bs.take 16))) with
    | .ok i => .ok (i, bs.drop 16)
    | .error e => .error e

/-! The encoder, from the same tables. -/

/-- An operand field of kind k (03 R71). -/
def encOp : Operand → BitVec 16
  | .none => 0
  | .s i => 1#3 ++ 0#7 ++ i
  | .v i => 2#3 ++ 0#5 ++ 1#1 ++ 0#2 ++ i
  | .vq i q => 2#3 ++ 0#5 ++ 0#1 ++ q ++ i
  | .p i => 3#3 ++ 0#6 ++ 0#3 ++ i
  | .m i => 3#3 ++ 0#6 ++ 1#3 ++ 0#1 ++ i
  | .ctl => 0x6020
  | .imm x => 4#3 ++ x
  | .tile a => 5#3 ++ 0#8 ++ a
  | .queue cmd n => 6#3 ++ 0#9 ++ BitVec.ofBool cmd ++ n
  | .long x => 7#3 ++ x.extractLsb' 48 13

/-- The five operand fields as 80 bits: a long immediate fills the word from its field on (03 R72). -/
def encOps (f : Fields) : BitVec 80 :=
  match f.o2, f.o3, f.o4 with
  | .long x, _, _ => encOp f.o1 ++ 7#3 ++ x
  | _, .long x, _ => encOp f.o1 ++ encOp f.o2 ++ 7#3 ++ x.extractLsb' 0 45
  | _, _, .long x => encOp f.o1 ++ encOp f.o2 ++ encOp f.o3 ++ 7#3 ++ x.extractLsb' 0 29
  | _, _, _ => encOp f.o1 ++ encOp f.o2 ++ encOp f.o3 ++ encOp f.o4 ++ encOp f.o5

/-- The word of an opcode and fields (03 R69). -/
def encodeWord (n : BitVec 10) (f : Fields) : IWord :=
  n ++ f.ga ++ f.gb ++ f.gc ++ f.await ++ f.setw ++ f.hint ++ f.yld ++ 0#1 ++ f.mod ++ encOps f

/-- The word of an instruction; an event has none. -/
def encode (i : Instr) : IWord :=
  match wordOf i with
  | some (n, _, f) => encodeWord (BitVec.ofNat 10 n) f
  | none => 0

/-- The 16 bytes of a word, in memory order (03 R70). -/
def wordBytes (w : IWord) : List Byte := leBytes 16 w.toNat

/-- What the decoder reads from an instruction whose bits are w, bit 0 the least significant of its word. -/
def decodeTableWord (nbits w : Nat) : Option Instr :=
  match decode (wordBytes (BitVec.ofNat 128 (w % 2 ^ nbits))) with
  | .ok (i, _) => some i
  | .error _ => none

end Sys2Proof
end

