-- ==== Sys2Proof/Machine/Save.lean ====
section
/-!
DEFINITION. Machine/Save.lean: the save of a task: when its units are at their stopping points, and its image (spec file 15,
R384 to R388; 09, R254, R258, R259; 10, R281; 11, R295; 12, R319, R330; 13, R350; 14, R375).
-/
namespace Sys2Proof.Machine
open Sys2Proof Host

/-! Stopping points (15 R384 steps 1 to 4). -/

/-- The array unit has reached a retirement point, or cannot go on towards one (09 R252, R254). -/
def mxStopped (s : State) (c : Nat) : Bool :=
  let m := mxOf s (coreOf c)
  !(m.rows.any fun r => r.ctx == c) && (m.swap.map (·.1)) != some c && (m.runs.all fun r => r.ctx != c || runLanded s (coreOf c) r) && atRetirement s c

/-- An access of the context that the save waits for; a waiting word's read is left (15 R384). -/
def saveWaitsFor (c : Nat) (x : Access) : Bool := x.ctx == c && !waitRead x

/-- Everything of the context has come to rest. -/
def saveQuiet (s : State) (c : Nat) : Bool :=
  let x := getCtx s c
  let k := getCore s (coreOf c)
  x.arch.fx.isEmpty && x.arch.pend.isNone && !(k.held.any fun h => h.ctx == c) && !(k.landings.any fun l => l.ctx == c)
    && !(s.accs.any (saveWaitsFor c)) && x.flushes.isEmpty && !(s.fab.dirs.any fun d => dirOpen d && d.ctx == c)
    && !(s.fab.awaits.any fun a => a.ctx == c) && !reExecuting s c && (s.saveReqs.all fun q => q.ctx != c || decide (q.upto ≤ x.arch.seq))
    && x.cmds.all (cmdStopped s c) && mxStopped s c && !frozenAt s c

/-- The checker has confirmed every word the context has issued (15 R384 step 1). -/
def wordsConfirmed (s : State) (c : Nat) : Bool :=
  match (getCore s (coreOf c)).conf[c % 4]? with
  | some a => a.seq == (getArch s c).seq
  | none => true
/-- Pre-emption is a check point (06 R173). -/
def markSave (s : State) (c : Nat) : State :=
  let sn := snapOf s (coreOf c)
  updCore s (coreOf c) fun x => { x with held := x.held ++ [⟨c, (getArch s c).seq, (getArch s c).pc, ccyOf s c + 4, .mark, sn, x.jcount, x.outNext, x.tcount⟩] }

/-! The image (15 R386, R387). Encodings the spec leaves to the model are those of log entry 21. -/

def fillTo (n : Nat) (l : List Byte) : List Byte := l ++ List.replicate (n - l.length) 0
def wordsLe (l : List Nat) : List Byte := l.flatMap (leBytes 8)
def stampLe (v : Stamp) : List Byte := wordsLe [v.d0.toNat, v.d1.toNat, v.d2.toNat, v.d3.toNat]
/-- Bit i of the number set where the test holds. -/
def bitsWhere (n : Nat) (p : Nat → Bool) : Nat := (upTo n).foldl (fun x i => if p i then x + 2 ^ i else x) 0

def secRegs (a : Arch) : List Byte :=
  fillTo 8832 (wordsLe ((upTo 64).map fun i => (rdS a i).toNat) ++ ((upTo 32).flatMap fun i => leBytes 256 (rdV a i).toNat)
    ++ wordsLe ((upTo 8).map fun i => (rdM a i).toNat) ++ wordsLe [bitsWhere 16 (rdP a)])

/-- The place of a slot among the sixteen by age. -/
def ageRank (a : Arch) (j : Nat) : Nat := ((upTo 16).filter fun i => decide ((slotOf a i).age < (slotOf a j).age)).length

/-- A slot record: its state is 2 while its load is awaited, 1 while its bit is held, else 0. -/
def slotRecord (s : State) (c j : Nat) : List Byte :=
  let a := getArch s c
  let x := slotOf a j
  let target := match x.dev with
    | some d => d + 2 ^ 31
    | none => 0
  let st := if x.pend.isSome then 2 else if slotLive s c j then 1 else 0
  stampLe x.stamp ++ leBytes 4 target ++ [x.gen, if x.mark then 1 else 0, BitVec.ofNat 8 (ageRank a j), BitVec.ofNat 8 st]
    ++ List.replicate 8 0

def taintLe (n : Nat) (f : Nat → Taint) : List Byte := (upTo n).flatMap fun i => leBytes 2 (f i).toNat
def secTaint (s : State) (c : Nat) : List Byte :=
  let a := getArch s c
  fillTo 0x200 (fillTo 0x1C0 (taintLe 64 (mapGet 0 a.sT) ++ taintLe 16 (mapGet 0 a.pT) ++ taintLe 8 (mapGet 0 a.mT) ++ taintLe 128 (mapGet 0 a.vT)
    ++ leBytes 2 a.cT.toNat) ++ stampLe a.base) ++ (upTo 16).flatMap (slotRecord s c)

/-- The traps that wait for the task. -/
def waitingTraps (x : Ctx) : List TrapRec := x.apend.toList ++ x.late

def latchWord (a : Arch) : Nat := match a.latch with
  | some n => 2 ^ 63 + n % 128 * 2 ^ 56
  | none => 0

def secSys (s : State) (c : Nat) : List Byte :=
  let x := getCtx s c
  let a := x.arch
  wordsLe ([a.prio.toNat, a.aflags.toNat, a.actl.toNat, a.rseed.toNat, a.tsat.toNat, a.tcause.toNat, a.tpc.toNat, a.tval.toNat, a.tsv0.toNat,
    a.tsv1.toNat] ++ ((upTo 8).map fun i => (mapGet 0 a.ovm i).toNat) ++ [x.cpctl.toNat, x.cpmiss.toNat, x.cphold.toNat, latchWord a,
    bitsWhere 64 (fun i => (waitingTraps x).any fun t => t.cause.toNat == i), mapGet 0 (mxOf s (coreOf c)).plain c])

/-- Destination kinds: 0 none, 1 a scalar, 2 a pair, 3 the low lanes of a vector, 4 a quarter. -/
def destKind (d : Direct) : Nat × Nat × Nat × Nat :=
  match d.dest with
  | .scalar r w _ _ => (1, r, w, 0)
  | .pair r _ w _ _ => (2, r, w, 0)
  | .lanes r m w _ _ => if d.op = 4 then (4, r, w, ((upTo 4).find? fun q => m.getLsbD (16 * q)).getD 0)
      else (3, r, (bitsCount m) * w, 0)
  | _ => (0, 0, 0, 0)
where
  bitsCount (m : W64) : Nat := ((upTo 64).filter fun i => m.getLsbD i).length
/-- The late accesses of a context, in SEQ order: those marked, and those whose failure is held. -/
def lateOf (s : State) (c : Nat) : List Direct := sortBy (fun a b => decide (a.id ≤ b.id)) (s.fab.dirs.filter fun d =>
  d.ctx == c && (d.late == some 0 || d.late.isNone))

def secTok (s : State) (c : Nat) : List Byte :=
  (upTo 8).flatMap fun t => match (lateOf s c).find? fun d => d.token == some t with
    | some d => fillTo 16 [2, BitVec.ofNat 8 (destKind d).1, BitVec.ofNat 8 (destKind d).2.1]
    | none => List.replicate 16 0

def bit (b : Bool) (n : Nat) : Nat := if b then 2 ^ n else 0

/-- A command's progress, 64 bytes. -/
def progLe (k : Cmd) : List Byte :=
  fillTo 64 (leBytes 8 k.prog ++ leBytes 4 k.fired ++ leBytes 4 k.gateF
    ++ leBytes 4 (bit k.gateOpen 0 + bit k.gateP 1 + bit k.missed 2 + bit (k.aux == [6]) 3 + k.flags.toNat * 2 ^ 8)
    ++ leBytes 4 k.rs.c ++ leBytes 8 k.promise.toNat ++ leBytes 8 k.rs.seed.toNat ++ leBytes 8 k.rs.t.toNat)

def cmdEntry (k : Cmd) : List Byte :=
  wordBytes (encode k.instr) ++ wordsLe [k.x1.toNat, k.x2.toNat, k.x3.toNat, k.x4.toNat, k.x5.toNat,
    k.seq % 2 ^ 16 + k.taint.toNat * 2 ^ 16 + k.q * 2 ^ 32] ++ progLe k
    ++ (match k.instr with | .bred _ => leBytes 256 k.vec.toNat | _ => fillTo 256 (leBytes 64 k.desc.toNat))

/-- The commands still to be executed, in queue then SEQ order. A gated entry whose firing's element waits for room is saved as it
stands for its next firing. -/
def savedCmds (s : State) (c : Nat) : List Cmd := (upTo 6).flatMap fun q => (cmdsOf s c q).filterMap fun k =>
  if k.held.isNone || k.err != 0 then some k else if k.gateOpen then some (rearm k) else none
def secCmds (s : State) (c : Nat) : List Byte := (savedCmds s c).flatMap cmdEntry

def resEntry (e : Elem) : List Byte := wordsLe [e.q, e.stat.toNat, e.val.toNat, 0]
/-- Elements present, and those that wait for room. -/
def savedRes (s : State) (c : Nat) : List Elem := (getCtx s c).res ++ (mxRunsOf s c).map runElem ++ (getCtx s c).cmds.filterMap (·.held)
def secRes (s : State) (c : Nat) : List Byte := (savedRes s c).flatMap resEntry

/-- STATE 3 with its CAUSE for a held failure, else 1. -/
def lateEntry (d : Direct) : List Byte :=
  let (st, cause) := match d.st with
    | .failed e => (3, e)
    | _ => (1, 0)
  let tok := d.token.getD 0
  let (kd, r, w, q) := destKind d
  fillTo 192 (wordsLe [st + cause * 2 ^ 8 + tok * 2 ^ 16 + bit d.token.isSome 19 + d.op * 2 ^ 24 + d.xf % 2 ^ 16 * 2 ^ 32,
    kd + r * 2 ^ 8 + w * 2 ^ 16 + q * 2 ^ 32 + (match d.slot with | some j => (16 + j) * 2 ^ 40 | none => 0) + (destTaint d.dest).toNat * 2 ^ 48,
    d.peer, d.sent.toNat] ++ stampLe zeroStamp)
def secLate (s : State) (c : Nat) : List Byte := (lateOf s c).flatMap lateEntry

def secSess (s : State) (c : Nat) : List Byte :=
  let x := (getCtx s c).sess
  if x.phase = 0 then []
  else fillTo 64 (wordsLe [(asessWord x).toNat, (ascaleWord x).toNat, (aqpWord x).toNat])
    ++ (upTo 16).flatMap fun g => leBytes 4 ((mapFind x.last g).getD 0xFFFFFFFF)

/-- A ring's record: the fields 0 to 6 it was opened with, LAND and WM. -/
def ringRecord (r : Ring) : List Byte :=
  fillTo 64 ([r.key.toNat, r.succ, r.pred, r.ns + r.lane * 2 ^ 4, r.slot, r.blk, r.lcb, r.land, r.wm].flatMap (leBytes 4))
def ownsRings (s : State) (c : Nat) : Bool := s.fab.rings.any fun p => p.2.owner == serialOf s c
def secRings (s : State) (c : Nat) : List Byte :=
  if !ownsRings s c then []
  else (upTo 16).flatMap fun g => match ownRing s c g with
    | some r => ringRecord r
    | none => List.replicate 64 0

def secTiles (s : State) (c : Nat) : List Byte := let (b, n) := tilesHeld s c; (upTo n).flatMap fun i => tileBytes s (coreOf c) (b + i)
def hasPlanes (s : State) (c : Nat) : Bool := (mxOf s (coreOf c)).used.contains (serialOf s c)
def secPlanes (s : State) (c : Nat) : List Byte := if hasPlanes s c then planesBytes s (coreOf c) else []
def secWindow (s : State) (c : Nat) : List Byte := spRead s ((upTo (spLen s c)).map (spAddr s c))

def sections (s : State) (c : Nat) : List (List Byte) :=
  [secRegs (getArch s c), secTaint s c, secSys s c, secTok s c, secCmds s c, secRes s c, secLate s c, secSess s c, secRings s c, secTiles s c,
    secPlanes s c, secWindow s c]

/-- Each section at the next multiple of 64: its offset, 0 where it is absent, and its length. -/
def layout : Nat → List (List Byte) → List (Nat × Nat)
  | _, [] => []
  | at_, b :: t => if b.isEmpty then (0, 0) :: layout at_ t else (at_, b.length) :: layout ((at_ + b.length + 63) / 64 * 64) t

/-- LEN: where the last section ends. -/
def imageLen (l : List (Nat × Nat)) : Nat := l.foldl (fun m p => max m (p.1 + p.2)) 256

/-- BIND: the task's serial number at the device that saved it. -/
def imageHeader (s : State) (c : Nat) (l : List (Nat × Nat)) : List Byte :=
  let x := getCtx s c
  let m := mxOf s (coreOf c)
  let halted := s.mgt.halted.contains (getRegion s (regionOfCtx s c)).domain
  let flags := bit (hasPlanes s c) 0 + bit (x.sess.phase != 0) 1 + bit (ownsRings s c) 2 + bit x.arch.mode 3 + bit (!(lateOf s c).isEmpty) 4 + bit halted 5
  fillTo 256 (leBytes 4 0x43580001 ++ leBytes 4 (imageLen l) ++ leBytes 4 s.devno ++ leBytes 4 c ++ leBytes 8 s.gts.toNat
    ++ leBytes 8 x.arch.lastGts.toNat ++ leBytes 4 (handleOf s (regionOfCtx s c)) ++ leBytes 1 (tilesHeld s c).2
    ++ leBytes 1 (getCluster s (clusterOf c)).bands.toNat ++ leBytes 1 (if hasPlanes s c then nreq m.active m.shadow else 0) ++ leBytes 1 flags
    ++ leBytes 4 (spLen s c) ++ leBytes 4 0 ++ leBytes 8 x.arch.pc.toNat ++ leBytes 8 (serialOf s c)
    ++ l.flatMap fun p => leBytes 4 p.1 ++ leBytes 4 p.2)

/-- The sections at their offsets behind the header. -/
def fillImage : List Byte → List (List Byte) → List Byte
  | acc, [] => acc
  | acc, b :: t => fillImage (if b.isEmpty then acc else fillTo ((acc.length + 63) / 64 * 64) acc ++ b) t

def imageBytes (s : State) (c : Nat) : List Byte :=
  let secs := sections s c
  fillImage (imageHeader s c (layout 256 secs)) secs

/-! The end of a save (15 R384 step 5). -/

/-- The late entries get their place in the image: a reply that comes later is written there; held failures stand in it. -/
def redirectLate (s : State) (c at_ : Nat) : State :=
  let l := lateOf s c
  let place (d : Direct) : Option Direct :=
    if d.ctx != c || !(l.any fun e => e.id == d.id) then some d
    else match d.st with
      | .failed _ => none
      | _ => some { d with late := some (at_ + 192 * (l.idxOf d)) }
  { s with fab := { s.fab with dirs := s.fab.dirs.filterMap place } }

def whyOf (who : Nat) : SaveWhy := if who = byProgress then .progress else if who = byRetire then .retire else .ctxsv

/-- What is kept of the task beside its image. -/
def savedOf (s : State) (q : SaveReq) (b : Bind) : Saved :=
  let x := getCtx s q.ctx
  { image := q.image.toNat, slot := q.slot, bind := b, why := whyOf q.who, park := x.arch.park, core := coreOf q.ctx
    ahead := if q.who = byProgress then [q.n] else [], reached := false, traps := waitingTraps x, qseq := x.arch.qseq, qdRsv := x.qdRsv
    disc := (x.discStat, x.discFail, x.discNote), discFirst := x.discFirst }

/-- The context becomes FREE; its rings stay open. -/
def leaveCtx (s : State) (c : Nat) : State :=
  let t := freeCtx { s with accs := s.accs.filter fun x => x.ctx != c } c
  { t with fab := { t.fab with rings := s.fab.rings } }

def dropReq (s : State) (q : SaveReq) : State := { s with saveReqs := s.saveReqs.erase q }
def freePool (s : State) (k : Option Nat) : State :=
  { s with mgt := { s.mgt with svUsed := match k with | some n => s.mgt.svUsed.filter (· != n) | none => s.mgt.svUsed } }
/-- A task that asked by CTXSV gets its element. -/
def answerSave (s : State) (q : SaveReq) (status cause : Nat) (val : W64) (vec : Stamp := zeroStamp) : State :=
  if q.who < 2 then s else qdElem s (q.who - 2) q.n status cause q.ctx val vec
def failSave (s : State) (q : SaveReq) : State :=
  let (s1, fv) := takeFree (freePool (dropReq s q) q.slot)
  answerSave s1 q 3 1 fv

/-- P's next iteration is bound where the task that held it up has left (05 R138). -/
def bindNext (s : State) (q : SaveReq) : State :=
  if q.who != byProgress then s
  else match mapFind s.nests q.n with
    | none => s
    | some x =>
      if x.place == .hw && x.ready && released s x then
        match eligible s x.region q.ctx with
        | some w => afterBind s (bindTask s q.n x q.ctx w) (classes s) q.n x q.ctx
        | none => s
      else s

/-- The image is written and the task becomes SAVED. -/
def writeSave (s : State) (q : SaveReq) (b : Bind) : State :=
  let c := q.ctx
  let s0 := traceNow (endWaits s c) c 15 4 (some 3) true 0 q.image
  let secs := sections s0 c
  let bs := imageBytes s0 c
  let late := ((layout 256 secs).getD 6 (0, 0)).1
  let (s1, st) := unitWrite s0 (dieOf c) (cellsAt q.image.toNat bs) (appliedAll s0)
  let s2 := redirectLate s1 c (q.image.toNat + late)
  let v := savedOf s2 q b
  let s3 := leaveCtx s2 c
  bindNext (latchSaved (answerSave (dropReq { s3 with saved := s3.saved ++ [v] } q) q 0 0 (w64 bs.length) st)) q

/-- The first save whose context has come to rest, or has ended on the way, is finished: its image is written, or cannot be
(15 R378 cause 0x03). -/
def execContextSave (bad : Bool) (s : State) : Outcome State Fault Refusal :=
  .next (match s.saveReqs.find? fun q => !((getArch s q.ctx).phase == .running || (getArch s q.ctx).phase == .waiting) || saveQuiet s q.ctx with
    | none => s
    | some q =>
      match (getCtx s q.ctx).bind, (getArch s q.ctx).phase == .running || (getArch s q.ctx).phase == .waiting with
      | some b, true =>
        if !wordsConfirmed s q.ctx then markSave s q.ctx
        else if holdsWrite s ((upTo (imageBytes s q.ctx).length).map fun i => q.image.toNat + i) then s
        else if bad then
          let (s1, fv) := takeFree (failSave s q)
          contextFatal s1 q.ctx 3 fv
        else writeSave s q b
      | _, _ => failSave s q)

/-! Late accesses (15 R384 step 2, R385). -/

/-- The access leaves the port now if it still stands there: its redirection is to be recorded before its reply. -/
def markLate (s : State) (id : Nat) : State :=
  match s.fab.dirs.find? fun d => d.id == id with
  | none => s
  | some d =>
    let out := d.st == .port
    let s1 := if out then sendFor s (regionOfCtx s d.ctx) d.peer d.lane d.lane d.kind d.tag (stampWords d.vec ++ d.args) d.data else s
    let gone (e : Direct) : Direct :=
      { e with st := .sent, sent := if out then s.gts else e.sent, cyc := if out then ccyOf s d.ctx else e.cyc, late := some 0 }
    { s1 with fab := { s1.fab with dirs := s1.fab.dirs.map fun e => if e.id = id then gone e else e } }

/-- At V + 2,000 cycles the direct accesses of a context being saved that are not complete become late ones. -/
def execLateAccessMark (ctx : Nat) (s : State) : Outcome State Fault Refusal :=
  .next (match s.saveReqs.find? fun q => q.ctx == ctx with
    | none => s
    | some q =>
      if ccyOf s ctx < q.cyc + 2000 || ((getCore s (coreOf ctx)).held.any fun h => h.ctx == ctx) then s
      else ((s.fab.dirs.filter fun d => d.ctx == ctx && dirOpen d).map (·.id)).foldl markLate s)

/-- Write into a late entry: what comes with the reply first, then STATE with its CAUSE by a strong store. -/
def putLate (s : State) (pa st cause : Nat) (v : Stamp) (data : List Byte) : State :=
  let d := homeDie pa
  let s1 := if st = 2 then (unitWrite s d (cellsAt (pa + 0x20) (stampLe v) ++ cellsAt (pa + 0x40) (data.take 128)) (appliedAll s)).1 else s
  (unitWrite s1 d [(pa, BitVec.ofNat 8 st), (pa + 1, BitVec.ofNat 8 cause)] (appliedAll s1)).1

/-- The place of a late access's entry, once its image has been written. -/
def latePlace (d : Direct) : Option Nat := d.late.filter (· != 0)

/-- A reply, acknowledgement or refusal for a late access is written into its entry. -/
def execLateReplyArrival (n : Nat) (s : State) : Outcome State Fault Refusal :=
  .next (match s.fab.inbox[n]? with
    | none => s
    | some p =>
      match s.fab.dirs.find? fun d => d.tag == p.tag && d.peer == p.src && d.st == .sent && (latePlace d).isSome with
      | none => s
      | some d =>
        let pa := (latePlace d).getD 0
        if (p.kind != .reply && p.kind != .refuse) || holdsWrite s ((upTo 192).map fun i => pa + i) then s
        else
          let s1 := dropDirect (dropInbox s n) d.id
          if p.kind = .refuse then putLate s1 pa 3 (p.args.headD 0).toNat zeroStamp []
          else putLate s1 pa 2 0 (stampFrom (p.args.drop 1)) p.data)

/-- 100 µs after it was sent, a late access without an answer fails with CAUSE 0x02. -/
def execLateAccessTimeout (tag : Nat) (s : State) : Outcome State Fault Refusal :=
  .next (match s.fab.dirs.find? fun d => d.tag == tag && d.st == .sent && (latePlace d).isSome && overdue s d.ctx d.cyc with
    | none => s
    | some d =>
      let pa := (latePlace d).getD 0
      if holdsWrite s ((upTo 192).map fun i => pa + i) then s else putLate (dropDirect s d.id) pa 3 2 zeroStamp [])

end Sys2Proof.Machine
end

