-- ==== Sys2Proof/Machine/Restore.lean ====
section
/-!
DEFINITION. Machine/Restore.lean: the restore of a saved task from its image (spec file 15, R385, R388, R389; 01, R31; 05,
R138; 06, R170; 09, R261; 12, R330).
-/
namespace Sys2Proof.Machine
open Sys2Proof Host

/-! Reading an image (15 R386, R387). -/

/-- The n-byte number at an offset of a byte list. -/
def leAt (l : List Byte) (o n : Nat) : Nat := leNat ((l.drop o).take n)

/-- An image as its checks find it: the header, and the sections. -/
structure Image where
  at_ : Nat
  len : Nat
  sdev : Nat
  lastg : W64
  rgn : Nat
  ntile : Nat
  bands : Nat
  nreq : Nat
  flags : Nat
  splen : Nat
  pc : W64
  bind : Nat
  dir : List (Nat × Nat)
  deriving DecidableEq, Repr

def imageAt (s : State) (at_ : Nat) : Image :=
  let h := memRead s.mem at_ 256
  { at_ := at_, len := leAt h 4 4, sdev := leAt h 8 4 % 2 ^ 22, lastg := w64 (leAt h 0x18 8), rgn := leAt h 0x20 4, ntile := leAt h 0x24 1
    bands := leAt h 0x25 1, nreq := leAt h 0x26 1, flags := leAt h 0x27 1, splen := leAt h 0x28 4, pc := w64 (leAt h 0x30 8)
    bind := leAt h 0x38 8, dir := (upTo 12).map fun i => (leAt h (0x40 + 8 * i) 4, leAt h (0x44 + 8 * i) 4) }

/-- The bytes of a section. -/
def secOf (s : State) (m : Image) (i : Nat) : List Byte := let (o, n) := m.dir.getD i (0, 0); memRead s.mem (m.at_ + o) n
def secLen (m : Image) (i : Nat) : Nat := (m.dir.getD i (0, 0)).2

/-- The directory: each section aligned, inside the image, and of a size it can have. -/
def dirOk (m : Image) : Bool :=
  let size (i : Nat) : Bool :=
    let n := secLen m i
    match i with
    | 0 => n == 8832
    | 1 => n == 1280
    | 2 => n == 192
    | 3 => n == 128
    | 4 => n % 384 == 0
    | 5 => n % 32 == 0
    | 6 => n % 192 == 0
    | 7 => n == if m.flags.testBit 1 then 128 else 0
    | 8 => n == if m.flags.testBit 2 then 1024 else 0
    | 9 => n == m.ntile * tileImage
    | 10 => n == if m.flags.testBit 0 then planeImage else 0
    | _ => n == m.splen
  (upTo 12).all fun i =>
    let (o, n) := m.dir.getD i (0, 0)
    size i && (n == 0 || (o % 64 == 0 && decide (256 ≤ o) && decide (o + n ≤ m.len)))

/-- The image can be read at all: nothing in it is uncorrectable. -/
def imageReadable (s : State) (m : Image) : Bool := !(s.poison.any fun a => decide (m.at_ ≤ a) && decide (a < m.at_ + max 256 m.len))

/-- A home of the image accepts nothing now (11 R286). -/
def imageBusy (s : State) (m : Image) : Bool := busyHome s [m.at_, m.at_ + 255, m.at_ + m.len]

/-- The late entries of an image, by their places. -/
def latePlaces (m : Image) : List Nat := (upTo (secLen m 6 / 192)).map fun i => m.at_ + (m.dir.getD 6 (0, 0)).1 + 192 * i
/-- A late entry is still awaited. -/
def lateWaits (s : State) (m : Image) : Bool := (latePlaces m).any fun p => memGet s.mem p == 1

/-! Where the task goes. -/

/-- The task of an image on this device: its own record when it was saved here, or one of the region its handle names (log entry
22). -/
def taskOf (s : State) (m : Image) : Option (Option Saved × Nat) :=
  if m.sdev = s.devno then (s.saved.find? fun v => v.bind.serial == m.bind).map fun v => (some v, v.bind.region)
  else
    let r := m.rgn % 4096
    if r ≠ 0 ∧ (getRegion s r).state = .live ∧ handleOf s r = m.rgn then some (none, r) else none

/-- The window an image needs: its region's, placed at the lowest free address of the core (01 R13; 05 R124); the image of a task
that sees the whole scratchpad holds all of it. -/
def windowFor (s : State) (core r : Nat) (m : Image) : Option Nat :=
  let g := getRegion s r
  if g.supv then (if m.splen = 0x200000 ∧ m.ntile = 32 then windowAt s core g.spb else none)
  else if m.splen = g.spb ∧ m.ntile = g.spb / 0x10000 then windowAt s core g.spb else none

/-- The checks of an image (15 R389 step 1): its version and directory, tiles, window, and the ring rule; a halted task is not
restored, nor planes onto a core whose planes are taken (09 R254). -/
def imageFits (s : State) (core : Nat) (m : Image) : Option (Option Saved × Nat × Nat) :=
  if memNat s.mem m.at_ 4 != 0x43580001 || !imageReadable s m || !dirOk m || (m.flags.testBit 2 && m.sdev != s.devno)
      || (m.flags.testBit 0 && planesTaken s core) then none
  else match taskOf s m with
    | none => none
    | some (v, r) =>
      if s.mgt.halted.contains (getRegion s r).domain then none else (windowFor s core r m).map fun w => (v, r, w)

/-! Registers (15 R389 steps 2 to 4). -/

/-- A map from n values read in order. -/
def mapOf {α : Type} (n : Nat) (f : Nat → α) : Map α := (upTo n).map fun i => (i, f i)

def regsFrom (b : List Byte) (a : Arch) : Arch :=
  { a with
    sreg := mapOf 64 fun i => w64 (leAt b (8 * i) 8)
    vreg := mapOf 32 fun i => BitVec.ofNat 2048 (leAt b (512 + 256 * i) 256)
    mreg := mapOf 8 fun i => w64 (leAt b (8704 + 8 * i) 8)
    preg := (mapOf 16 fun i => (leAt b 8768 8).testBit i).drop 1 }

/-- A slot's record; on another device a slot not remote is freed. -/
def slotFrom (b : List Byte) (j : Nat) (same : Bool) : Slot :=
  let o := 0x200 + 48 * j
  let t := leAt b (o + 32) 4
  let far := t.testBit 31
  { dev := if far then some (t % 2 ^ 22) else none
    stamp := if same || far then ⟨w64 (leAt b o 8), w64 (leAt b (o + 8) 8), w64 (leAt b (o + 16) 8), w64 (leAt b (o + 24) 8)⟩ else zeroStamp
    gen := BitVec.ofNat 8 (leAt b (o + 36) 1), mark := leAt b (o + 37) 1 != 0, age := leAt b (o + 38) 1, pend := none }

/-- The slots whose bits stay in the taint sets. -/
def keptSlots (b : List Byte) (same : Bool) : Taint :=
  BitVec.ofNat 16 (bitsWhere 16 fun j => same || (leAt b (0x200 + 48 * j + 32) 4).testBit 31)

def taintFrom (b : List Byte) (same : Bool) (a : Arch) : Arch :=
  let keep := keptSlots b same
  let t (o : Nat) : Taint := BitVec.ofNat 16 (leAt b o 2) &&& keep
  { a with
    sT := mapOf 64 fun i => t (2 * i)
    pT := (mapOf 16 fun i => t (0x80 + 2 * i)).drop 1
    mT := mapOf 8 fun i => t (0xA0 + 2 * i)
    vT := mapOf 128 fun i => t (0xB0 + 2 * i)
    cT := t 0x1B0
    base := if same then ⟨w64 (leAt b 0x1C0 8), w64 (leAt b 0x1C8 8), w64 (leAt b 0x1D0 8), w64 (leAt b 0x1D8 8)⟩ else zeroStamp
    slots := mapOf 16 fun j => slotFrom b j same
    slotAge := 16 }

def sysFrom (b : List Byte) (a : Arch) : Arch :=
  let w (i : Nat) : W64 := w64 (leAt b (8 * i) 8)
  { a with
    prio := (w 0).truncate 2, aflags := (w 1).truncate 6, actl := w 2, rseed := w 3, tsat := (w 4).truncate 32
    tcause := w 5, tpc := w 6, tval := w 7, tsv0 := w 8, tsv1 := w 9
    ovm := mapOf 8 fun i => w (10 + i)
    latch := if (w 21).getLsbD 63 then some (bitsOf (w 21).toNat 62 56) else none }

/-- Results present; they carry the frontiers, which every write of the task has reached. -/
def resFrom (s : State) (now : Nat) (b : List Byte) : List Elem :=
  (upTo (b.length / 32)).map fun i => ⟨leAt b (32 * i) 8 % 8, w64 (leAt b (32 * i + 8) 8), w64 (leAt b (32 * i + 16) 8), appliedAll s, now⟩

def sessFrom (b : List Byte) : Session :=
  if b.isEmpty then .reset
  else
    let x := leAt b 0 8
    let y := leAt b 8 8
    { phase := x / 2 ^ 62, m := bitsOf x 61 53, d := bitsOf x 52 44, qfmt := bitsOf x 43 38, ts := bitsOf x 14 10, tOut := bitsOf x 9 5, tq := x % 32
      w := y / 2 ^ 32, scale := w64 (y % 2 ^ 32), qp0 := leAt b 16 8
      last := (upTo 16).filterMap fun g => let n := leAt b (64 + 4 * g) 4; if n = 0xFFFFFFFF then none else some (g, n) }

/-! Commands pushed again (15 R389 step 5). -/

/-- The word of a command runs again. -/
def runPush (i : Instr) (s : State) : State :=
  let o : Outcome State Fault Refusal := match i with
    | .mldw f => execMldw f s
    | .mcbt f => execMcbt f s
    | .mswap f => execMswap f s
    | .mmul f => execMmul f s
    | .mdrain f => execMdrain f s
    | .mzero f => execMzero f s
    | .msave f => execMsave f s
    | .msavePl f => execMsavePl f s
    | .mrest f => execMrest f s
    | .mrestPl f => execMrestPl f s
    | .acfg f => execAcfg f s
    | .aldq f => execAldq f s
    | .akv f => execAkv f s
    | .akvPl f => execAkvPl f s
    | .afin f => execAfin f s
    | .arst f => execArst f s
    | .cpy f => execCpy f s
    | .cpyg f => execCpyg f s
    | .cpys f => execCpys f s
    | .cfil f => execCfil f s
    | .ctrn f => execCtrn f s
    | .carm f => execCarm f s
    | .bred f => execBred f s
    | .bredBlock f => execBredBlock f s
    | .bsum f => execBsum f s
    | .bfill f => execBfill f s
    | .bclr f => execBclr f s
    | .rput f => execRput f s
    | .rget f => execRget f s
    | .mcast f => execMcast f s
    | .gred f => execGred f s
    | .plsend f => execPlsend f s
    | .kcfg f => execKcfg f s
    | .kprot f => execKprot f s
    | .kunpr f => execKunpr f s
    | .kopen f => execKopen f s
    | .kprep f => execKprep f s
    | .kcomt f => execKcomt f s
    | .kabrt f => execKabrt f s
    | .krbld f => execKrbld f s
    | .kscrb f => execKscrb f s
    | _ => .next s
  match o with
  | .next t => t
  | _ => s

/-- Give an operand the value it had at the push. -/
def putOperand (x : W64) (v : VReg) (a : Arch) : Operand → Arch
  | .s i => { a with sreg := mapSet a.sreg i.toNat x }
  | .m i => { a with mreg := mapSet a.mreg i.toNat x }
  | .v i => { a with vreg := mapSet a.vreg i.toNat v }
  | .vq i q => { a with vreg := mapSet a.vreg i.toNat (v <<< (512 * q.toNat)) }
  | _ => a

/-- Make one guard true. -/
def openGuard (g : BitVec 5) (a : Arch) : Arch := { a with preg := mapSet a.preg (g.toNat % 16) (!g.getLsbD 4) }

/-- The context as it was at the push: the operands' values, guards that let the word pass, nothing it waits for. A result that
never lands keeps a trap from being taken here. -/
def pushArch (e : List Byte) (f : Fields) (priv : Bool) (a : Arch) : Arch :=
  let x (i : Nat) : W64 := w64 (leAt e (16 + 8 * i) 8)
  let v := BitVec.ofNat 2048 (leAt e 128 256)
  let b := putOperand (x 4) v (putOperand (x 3) v (putOperand (x 2) v (putOperand (x 1) v (putOperand (x 0) v a f.o1) f.o2) f.o3) f.o4) f.o5
  { openGuard f.ga (openGuard f.gb b) with
    phase := .running, pend := none, tok := 0, tokAt := [], fence := none, mode := a.mode || priv, fx := [⟨2 ^ 64, 0, .flags 0⟩] }

/-- What pushing again came to: the command, a trap, or a wait. -/
inductive Pushed where
  | cmd (s : State) (k : Cmd)
  | trap (s : State) (t : TrapRec)
  | wait

/-- Run the word of an entry beside the machine; its walks are made at once. -/
def tryPush (i : Instr) (f : Fields) (e : List Byte) (c : Nat) : Nat → State → Pushed
  | 0, _ => .wait
  | n + 1, s =>
    let k := coreOf c
    let priv := match i with | .kcfg _ => true | _ => false
    let s1 := updCore (updArch { s with cur := c } c (pushArch e f priv)) k fun y => { y with held := [], walks := [] }
    let t := runPush i (updCtx s1 c fun x => { x with apend := none, late := [], cmds := [] })
    let back (u : State) : State :=
      { s with
        freeCnt := u.freeCnt
        cores := mapSet s.cores k { getCore s k with tlb := (getCore u k).tlb, wfaults := (getCore u k).wfaults } }
    match (getCore t k).held.head?, (getArch t c).pend with
    | some h, _ => match h.eff with
      | .push q => .cmd (back t) q
      | _ => .wait
    | none, some r => .trap (back t) r
    | none, none =>
      match (getCore t k).walks with
      | [] => .wait
      | q :: _ =>
        let u := match execTranslationWalkComplete k 0 (updCore s k fun y => { y with walks := [q] }) with
          | .next u => u
          | _ => s
        if (getCore u k).walks.isEmpty then tryPush i f e c n (updCore u k fun y => { y with walks := (getCore s k).walks }) else .wait

/-- The progress an entry holds. -/
def progressOf (s : State) (a : Arch) (e : List Byte) (k : Cmd) : Cmd :=
  let b := e.drop 0x40
  let fl := leAt b 16 4
  let w := leAt e 0x38 8
  let t : Taint := BitVec.ofNat 16 (bitsOf w 31 16)
  { k with
    seq := w % 2 ^ 16, q := bitsOf w 34 32, taint := t, base := accVec a t, deps := [], before := s.nextId
    prog := if bitsOf w 34 32 = 5 then 0 else leAt b 0 8
    fired := leAt b 8 4, gateF := leAt b 12 4, gateOpen := fl.testBit 0, gateP := fl.testBit 1, missed := fl.testBit 2
    aux := if fl.testBit 3 then [6] else k.aux
    flags := BitVec.ofNat 6 (fl / 2 ^ 8), promise := w64 (leAt b 24 8), rs := ⟨w64 (leAt b 32 8), w64 (leAt b 40 8), leAt b 20 4⟩
    stamp := appliedAll s, started := false }

/-- The fields of a word. -/
def fieldsOfWord (w : IWord) : Fields := fieldsOf w

/-- Push the entries again in order; the first that traps ends it, and its trap comes before the first word. None: a walk is still to
come. -/
def pushAll (c : Nat) : List (List Byte) → State → Option State
  | [], s => some s
  | e :: rest, s =>
    let w : IWord := BitVec.ofNat 128 (leAt e 0 16)
    match decodeWord w with
    | .error _ => pushAll c rest s
    | .ok i =>
      match tryPush i (fieldsOfWord w) e c 256 s with
      | .wait => none
      | .trap t r => some (updArch t c fun a => { a with pend := some r })
      | .cmd t k => pushAll c rest (updCtx t c fun x => { x with cmds := x.cmds ++ [progressOf t x.arch e k] })

/-- Cut a section into entries. -/
def entries (n : Nat) (b : List Byte) : List (List Byte) := (upTo (b.length / n)).map fun i => (b.drop (n * i)).take n

/-! Late accesses and pending traps (15 R385, R389 steps 6 and 7). -/

/-- An arrived value is installed as it would have landed (12 R316). -/
def installLate (a : Arch) (e : List Byte) : Arch :=
  let d := leAt e 8 8
  let r := bitsOf d 15 8
  let w := bitsOf d 31 16
  let q := bitsOf d 33 32
  let t : Taint := BitVec.ofNat 16 (d / 2 ^ 48)
  let dest : Dest := match d % 256 with
    | 1 => .scalar r w false t
    | 2 => .pair r (r + 1) w false t
    | 3 => let m := lowLanes w; .lanes r m 4 false (quarterTaints m fun _ => t)
    | 4 => .lanes r (BitVec.ofNat 64 (0xFFFF * 2 ^ (16 * q))) w false ((upTo 4).map fun i => if i = q then some (t, false) else none)
    | _ => .none
  let b := applyUpds a (destUpds dest (e.drop 0x40))
  let st : Stamp := ⟨w64 (leAt e 0x20 8), w64 (leAt e 0x28 8), w64 (leAt e 0x30 8), w64 (leAt e 0x38 8)⟩
  let j := bitsOf d 43 40
  if d.testBit 44 then { b with slots := mapSet b.slots j { slotOf b j with dev := some (leAt e 0x10 8), stamp := st, pend := none } } else b

/-- The fault of a failed late access. -/
def lateFault (s : State) (c : Nat) (e : List Byte) : TrapRec :=
  ⟨0x11, BitVec.ofNat 8 (leAt e 1 1), w64 (4 + leAt e 4 2 * 2 ^ 16), (getArch s c).pc, [], ccyOf s c⟩

/-- TVAL of a missed promise (10 R272). -/
def missTval (k : Cmd) : W64 := w64 (k.promise.toNat % 2 ^ 32 * 2 ^ 32 + k.seq % 2 ^ 16 * 2 ^ 16 + k.fired % 2 ^ 16)

/-- The traps an image says are pending, where no record of them is kept here: the copy hold's cause is its element's; what else
a value holds is fv, a free value (log entry 1). -/
def foreignTraps (s : State) (c : Nat) (bits : Nat) (fv : W64) : List TrapRec :=
  let x := getCtx s c
  let mk (cause sub : Nat) (v : W64) : TrapRec := ⟨BitVec.ofNat 8 cause, BitVec.ofNat 8 sub, v, x.arch.pc, [], ccyOf s c⟩
  let n := bitsOf x.cphold.toNat 47 32
  let sub := ((x.res.find? fun e => e.q == 2 && e.stat.toNat / 2 ^ 60 == 3 && bitsOf e.stat.toNat 47 32 == n).map fun e => bitsOf e.stat.toNat 55 48).getD 0
  (if bits.testBit 8 then [mk 8 0 fv] else [])
    ++ (if bits.testBit 0x11 then [mk 0x11 sub (w64 (2 + n * 2 ^ 16))] else [])
    ++ (if bits.testBit 0x0C then (x.cmds.filter (·.missed)).map fun k => mk 0x0C 0 (missTval k) else [])

/-- Of the traps that wait, a missed promise comes after the others. -/
def promisesLast (l : List TrapRec) : List TrapRec := l.filter (·.cause != 0x0C) ++ l.filter (·.cause == 0x0C)

/-! Installing (15 R389). -/

/-- Tiles, planes, the chain count and the window; uncovered planes stay empty. -/
def installStores (s : State) (c : Nat) (m : Image) (covered : Bool) : State :=
  let k := coreOf c
  let b := (tilesHeld s c).1
  let s1 := ((entries tileImage (secOf s m 9)).zip (upTo m.ntile)).foldl (fun t p => installTile t k (b + p.2) p.1) s
  let s2 := if !m.flags.testBit 0 then s1
    else if covered then markUsed (let p := secOf s m 10; installPlanes s1 k p ((p.getD 12 0).getLsbD 0)) k c
    else updMx s1 k emptyPlanes
  let n := leAt (secOf s m 2) 184 8
  let s3 := updMx s2 k fun y => { y with plain := if n = 0 then mapDel y.plain c else mapSet y.plain c n }
  spWrite s3 ((((upTo m.splen).map (spAddr s3 c)).zip (secOf s m 11)))

/-- The rings of the task continue where they stood. -/
def installRings (s : State) (c : Nat) (m : Image) : State :=
  ((entries 64 (secOf s m 8)).zip (upTo 16)).foldl (fun t p => match ownRing t c p.2 with
    | some _ => updRing t p.2 fun r => { r with ctx := c, land := leAt p.1 28 4, wm := leAt p.1 32 4 }
    | none => t) s

/-- The next position of each queue, from the entries where nothing else tells it. -/
def seqAfter (es : List (List Byte)) : Map Nat :=
  (upTo 6).filterMap fun q => ((es.filter fun e => bitsOf (leAt e 0x38 8) 34 32 == q).getLast?).map fun e => (q, leAt e 0x38 2 + 1)

/-- The registers, queues and stores of the task in the context, before its commands. -/
def installTask (s : State) (c : Nat) (m : Image) (v : Option Saved) (r w : Nat) : State :=
  let g := getRegion s r
  let same := m.sdev == s.devno
  let es := entries 384 (secOf s m 4)
  let late := entries 192 (secOf s m 6)
  let a0 : Arch := { Arch.reset with
    phase := .running, pc := m.pc, mode := m.flags.testBit 3, seq := (getArch s c).seq, lastGts := m.lastg
    hold := ccyOf s c + 24 + (m.len + 63) / 64
    qseq := match v with | some x => x.qseq | none => seqAfter es }
  let a1 := sysFrom (secOf s m 2) (taintFrom (secOf s m 1) same (regsFrom (secOf s m 0) a0))
  let a2 := (late.filter fun e => leAt e 0 1 == 2).foldl installLate a1
  let b : Bind := match v with
    | some x => { x.bind with spbase := w }
    | none => ⟨r, 2 ^ 64 + s.serial + 1, [], s.serial + 1, w, g.spb, g.supv, g.root⟩
  let sys := secOf s m 2
  let x : Ctx := { Ctx.reset with
    arch := a2, bind := some b, res := resFrom s (ccyOf s c) (secOf s m 5), sess := sessFrom (secOf s m 7)
    cpctl := BitVec.ofNat 2 (leAt sys 144 8), cpmiss := BitVec.ofNat 32 (leAt sys 152 8), cphold := w64 (leAt sys 160 8)
    gtsFloor := if s.gts.toNat ≤ m.lastg.toNat then some m.lastg else none
    qdRsv := (v.map (·.qdRsv)).getD 0
    discStat := (v.map (·.disc.1)).getD 0, discFail := (v.map (·.disc.2.1)).getD false, discNote := (v.map (·.disc.2.2)).getD false
    discFirst := v.bind (·.discFirst) }
  let s1 := { (updCtx s c fun _ => x) with
    serial := if v.isNone then s.serial + 1 else s.serial
    saved := match v with | some y => s.saved.filter fun z => z.bind.serial != y.bind.serial | none => s.saved }
  installRings (installStores (freePool s1 (v.bind (·.slot))) c m (decide (m.nreq ≤ nbOf s (coreOf c)))) c m

/-- The traps the restored task takes before its first word, in their order. -/
def restoreTraps (s : State) (c : Nat) (m : Image) (v : Option Saved) (fv : W64) : List TrapRec :=
  let bands := (getCluster s (clusterOf c)).bands.toNat
  let resume : List TrapRec := if m.flags.testBit 0 && decide (nbOf s (coreOf c) < m.nreq) then
      [⟨0x10, 0, w64 (m.bands % 16 + m.nreq % 16 * 2 ^ 4 + bands * 2 ^ 8), m.pc, [], ccyOf s c⟩] else []
  let late := ((entries 192 (secOf s m 6)).filter fun e => leAt e 0 1 == 3).map (lateFault s c)
  resume ++ late ++ promisesLast (match v with | some x => x.traps | none => foreignTraps s c (leAt (secOf s m 2) 176 8) fv)

/-- qd elements delivered while the task was SAVED (05 R142). -/
def deliverOwed (s : State) (serial : Nat) : State :=
  let mine := s.qdOwed.filter fun o => o.1 == serial
  mine.foldl (fun t o => qdElem t serial o.2.1 (o.2.2.1 / 2 ^ 8) (o.2.2.1 % 2 ^ 8) o.2.2.2.1 o.2.2.2.2)
    { s with qdOwed := s.qdOwed.filter fun o => o.1 != serial }

/-- Promises passed while the task was SAVED are missed now: the traps, or the counts (10 R272). -/
def latePromises (s : State) (c : Nat) : State × List TrapRec :=
  let l := (getCtx s c).cmds.filter fun k => k.q == 2 && missDue s k
  if (getCtx s c).cpctl.getLsbD 0 then
    (l.foldl (fun t k => setCmd t c { k with missed := true }) s, l.map fun k => ⟨0x0C, 0, missTval k, (getArch s c).pc, [], ccyOf s c⟩)
  else (l.foldl (fun t k => missNow t c k) s, [])

/-- Install an image in a context. None: a walk of a command's addresses is still to come. -/
def restoreInto (s : State) (c : Nat) (m : Image) (v : Option Saved) (r w : Nat) : Option State :=
  let (s0, fv) := takeFree s
  let s1 := installTask s0 c m v r w
  let traps := restoreTraps s1 c m v fv
  match pushAll c (entries 384 (secOf s m 4)) s1 with
  | none => none
  | some s2 =>
    let (s3, more) := latePromises s2 c
    let s3 := updCtx s3 c fun x => { x with late := traps ++ more }
    let s4 := deliverOwed s3 (serialOf s3 c)
    some (nextLate (traceNow (outsideArch s4 c) c 15 4 (some 3) true 1 (w64 m.at_)) c)

/-! Who asks (05 R138; 06 R170, R178). -/

/-- A CTXRS: the image is installed in the context it names, or does not fit. None: it waits. -/
def restoreAsked (s : State) (bad : Bool) (q : Nat × Nat × Nat × W64) : Option State :=
  let (c, serial, seq, at_) := q
  let s0 := { s with restoreReqs := s.restoreReqs.erase q }
  let m := imageAt s at_.toNat
  if imageBusy s m then none
  else match if bad then none else imageFits s (coreOf c) m with
  | none => some (qdFree s0 serial seq 3 c)
  | some (v, r, w) =>
    if lateWaits s m || withheldAt s c then none
    else (restoreInto s0 c m v r w).map fun t => qdElem t serial seq 0 0 c (w64 m.len) (readHome s ((upTo m.len).map fun i => m.at_ + i)).2

/-- The context-fatal fault 0x04 of a task the Derailleur cannot restore: it takes the context and halts there (15 R378, R389). -/
def restoreFails (s : State) (c w : Nat) (v : Saved) : State :=
  let s1 := updCtx s c fun _ => { Ctx.reset with arch := { Arch.reset with seq := (getArch s c).seq, phase := .running }, bind := some { v.bind with spbase := w } }
  let s2 := freePool { s1 with saved := s1.saved.filter fun x => x.bind.serial != v.bind.serial } v.slot
  let (s3, fv) := takeFree s2
  contextFatal (outsideArch s3 c) c 4 fv

/-- A saved task goes to its context. -/
def restoreOwn (s : State) (bad : Bool) (v : Saved) : Option State :=
  (restoreCtx s v).bind fun p =>
    let m := imageAt s v.image
    if imageBusy s m || starvedAt s p.1 || !bad && lateWaits s m then none
    else match if bad then none else imageFits s (coreOf p.1) m with
      | some (some x, r, w) => if x.bind.serial = v.bind.serial then restoreInto s p.1 m (some x) r w else some (restoreFails s p.1 p.2 v)
      | _ => some (restoreFails s p.1 p.2 v)

/-- The restorable saved tasks in the order they go: by class, and among equals as they were saved. -/
def restoreOrder (s : State) : List Saved :=
  let cl := classes s
  sortBy (fun a b => decide (mapGet 0 cl b.bind.nest ≤ mapGet 0 cl a.bind.nest)) (s.saved.filter (restorable s))

/-- The next restore: a CTXRS that waits, else a saved task of the Derailleur's; bad says that the image proves unreadable. -/
def execContextRestore (bad : Bool) (s : State) : Outcome State Fault Refusal :=
  .next (match s.restoreReqs.findSome? (restoreAsked s bad) with
    | some t => t
    | none => ((restoreOrder s).findSome? (restoreOwn s bad)).getD s)

end Sys2Proof.Machine
end

