-- ==== Sys2Proof/Machine/Dispatch.lean ====
section
/-!
DEFINITION. Machine/Dispatch.lean: one arm for each instruction word and event, each one call of its meaning.
-/
namespace Sys2Proof.Machine
open Sys2Proof

/-- The meaning of an instruction: a word issued by the current context, or an event of another agent. -/
def exec (i : Instr) (s : State) : Host.Outcome State Fault Refusal :=
  match i with
  | .nop f => Sys2Proof.Machine.execNop f s
  | .movi f => Sys2Proof.Machine.execMovi f s
  | .movhi f => Sys2Proof.Machine.execMovhi f s
  | .mov f => Sys2Proof.Machine.execMov f s
  | .add f => Sys2Proof.Machine.execAdd f s
  | .sub f => Sys2Proof.Machine.execSub f s
  | .mul f => Sys2Proof.Machine.execMul f s
  | .mulh f => Sys2Proof.Machine.execMulh f s
  | .div f => Sys2Proof.Machine.execDiv f s
  | .rem f => Sys2Proof.Machine.execRem f s
  | .and f => Sys2Proof.Machine.execAnd f s
  | .or f => Sys2Proof.Machine.execOr f s
  | .xor f => Sys2Proof.Machine.execXor f s
  | .andn f => Sys2Proof.Machine.execAndn f s
  | .shl f => Sys2Proof.Machine.execShl f s
  | .shr f => Sys2Proof.Machine.execShr f s
  | .sar f => Sys2Proof.Machine.execSar f s
  | .rot f => Sys2Proof.Machine.execRot f s
  | .min f => Sys2Proof.Machine.execMin f s
  | .max f => Sys2Proof.Machine.execMax f s
  | .abs f => Sys2Proof.Machine.execAbs f s
  | .clz f => Sys2Proof.Machine.execClz f s
  | .ctz f => Sys2Proof.Machine.execCtz f s
  | .popc f => Sys2Proof.Machine.execPopc f s
  | .sext f => Sys2Proof.Machine.execSext f s
  | .zext f => Sys2Proof.Machine.execZext f s
  | .bfx f => Sys2Proof.Machine.execBfx f s
  | .bfi f => Sys2Proof.Machine.execBfi f s
  | .lea f => Sys2Proof.Machine.execLea f s
  | .mada f => Sys2Proof.Machine.execMada f s
  | .sel f => Sys2Proof.Machine.execSel f s
  | .cmp f => Sys2Proof.Machine.execCmp f s
  | .plog f => Sys2Proof.Machine.execPlog f s
  | .pmov f => Sys2Proof.Machine.execPmov f s
  | .fadd f => Sys2Proof.Machine.execFadd f s
  | .fmul f => Sys2Proof.Machine.execFmul f s
  | .ffma f => Sys2Proof.Machine.execFfma f s
  | .fcmp f => Sys2Proof.Machine.execFcmp f s
  | .fcvt f => Sys2Proof.Machine.execFcvt f s
  | .br f => Sys2Proof.Machine.execBr f s
  | .bri f => Sys2Proof.Machine.execBri f s
  | .call f => Sys2Proof.Machine.execCall f s
  | .ret f => Sys2Proof.Machine.execRet f s
  | .loop f => Sys2Proof.Machine.execLoop f s
  | .exit f => Sys2Proof.Machine.execExit f s
  | .yield f => Sys2Proof.Machine.execYield f s
  | .popq f => Sys2Proof.Machine.execPopq f s
  | .qstat f => Sys2Proof.Machine.execQstat f s
  | .drainq f => Sys2Proof.Machine.execDrainq f s
  | .trap f => Sys2Proof.Machine.execTrap f s
  | .tret f => Sys2Proof.Machine.execTret f s
  | .brk f => Sys2Proof.Machine.execBrk f s
  | .sysrd f => Sys2Proof.Machine.execSysrd f s
  | .syswr f => Sys2Proof.Machine.execSyswr f s
  | .gtsrd f => Sys2Proof.Machine.execGtsrd f s
  | .ccyrd f => Sys2Proof.Machine.execCcyrd f s
  | .waitg f => Sys2Proof.Machine.execWaitg f s
  | .prio f => Sys2Proof.Machine.execPrio f s
  | .ctxsv f => Sys2Proof.Machine.execCtxsv f s
  | .ctxrs f => Sys2Proof.Machine.execCtxrs f s
  | .tlbinvAll f => Sys2Proof.Machine.execTlbinvAll f s
  | .tlbinvPage f => Sys2Proof.Machine.execTlbinvPage f s
  | .trace f => Sys2Proof.Machine.execTrace f s
  | .quiesce f => Sys2Proof.Machine.execQuiesce f s
  | .quiesceEnd f => Sys2Proof.Machine.execQuiesceEnd f s
  | .launch f => Sys2Proof.Machine.execLaunch f s
  | .nwait f => Sys2Proof.Machine.execNwait f s
  | .nstat f => Sys2Proof.Machine.execNstat f s
  | .rgnmk f => Sys2Proof.Machine.execRgnmk f s
  | .rgntd f => Sys2Proof.Machine.execRgntd f s
  | .rgnset f => Sys2Proof.Machine.execRgnset f s
  | .ld f => Sys2Proof.Machine.execLd f s
  | .st f => Sys2Proof.Machine.execSt f s
  | .ldp f => Sys2Proof.Machine.execLdp f s
  | .stp f => Sys2Proof.Machine.execStp f s
  | .ldv f => Sys2Proof.Machine.execLdv f s
  | .stv f => Sys2Proof.Machine.execStv f s
  | .ldvg f => Sys2Proof.Machine.execLdvg f s
  | .stvs f => Sys2Proof.Machine.execStvs f s
  | .amo f => Sys2Proof.Machine.execAmo f s
  | .cas f => Sys2Proof.Machine.execCas f s
  | .cas2 f => Sys2Proof.Machine.execCas2 f s
  | .fence f => Sys2Proof.Machine.execFence f s
  | .tclr f => Sys2Proof.Machine.execTclr f s
  | .tadd f => Sys2Proof.Machine.execTadd f s
  | .trd f => Sys2Proof.Machine.execTrd f s
  | .tfold f => Sys2Proof.Machine.execTfold f s
  | .spillm f => Sys2Proof.Machine.execSpillm f s
  | .fillm f => Sys2Proof.Machine.execFillm f s
  | .pref f => Sys2Proof.Machine.execPref f s
  | .xlate f => Sys2Proof.Machine.execXlate f s
  | .flushl f => Sys2Proof.Machine.execFlushl f s
  | .vadd f => Sys2Proof.Machine.execVadd f s
  | .vsub f => Sys2Proof.Machine.execVsub f s
  | .vmul f => Sys2Proof.Machine.execVmul f s
  | .vfma f => Sys2Proof.Machine.execVfma f s
  | .vfms f => Sys2Proof.Machine.execVfms f s
  | .vneg f => Sys2Proof.Machine.execVneg f s
  | .vabs f => Sys2Proof.Machine.execVabs f s
  | .vmin f => Sys2Proof.Machine.execVmin f s
  | .vmax f => Sys2Proof.Machine.execVmax f s
  | .vmulh f => Sys2Proof.Machine.execVmulh f s
  | .vand f => Sys2Proof.Machine.execVand f s
  | .vor f => Sys2Proof.Machine.execVor f s
  | .vxor f => Sys2Proof.Machine.execVxor f s
  | .vshl f => Sys2Proof.Machine.execVshl f s
  | .vshr f => Sys2Proof.Machine.execVshr f s
  | .vsar f => Sys2Proof.Machine.execVsar f s
  | .vclz f => Sys2Proof.Machine.execVclz f s
  | .vpopc f => Sys2Proof.Machine.execVpopc f s
  | .vcmp f => Sys2Proof.Machine.execVcmp f s
  | .vsel f => Sys2Proof.Machine.execVsel f s
  | .vmlog f => Sys2Proof.Machine.execVmlog f s
  | .vmpop f => Sys2Proof.Machine.execVmpop f s
  | .vmfst f => Sys2Proof.Machine.execVmfst f s
  | .vmov f => Sys2Proof.Machine.execVmov f s
  | .vexp2 f => Sys2Proof.Machine.execVexp2 f s
  | .vlog2 f => Sys2Proof.Machine.execVlog2 f s
  | .vrcp f => Sys2Proof.Machine.execVrcp f s
  | .vrsq f => Sys2Proof.Machine.execVrsq f s
  | .vsqrt f => Sys2Proof.Machine.execVsqrt f s
  | .vtanh f => Sys2Proof.Machine.execVtanh f s
  | .vcvt f => Sys2Proof.Machine.execVcvt f s
  | .vpack f => Sys2Proof.Machine.execVpack f s
  | .vunpk f => Sys2Proof.Machine.execVunpk f s
  | .vscale f => Sys2Proof.Machine.execVscale f s
  | .vqnt f => Sys2Proof.Machine.execVqnt f s
  | .vdeq f => Sys2Proof.Machine.execVdeq f s
  | .vbcst f => Sys2Proof.Machine.execVbcst f s
  | .vext f => Sys2Proof.Machine.execVext f s
  | .vins f => Sys2Proof.Machine.execVins f s
  | .vshuf f => Sys2Proof.Machine.execVshuf f s
  | .vrot f => Sys2Proof.Machine.execVrot f s
  | .vzip f => Sys2Proof.Machine.execVzip f s
  | .vuzp f => Sys2Proof.Machine.execVuzp f s
  | .vsld f => Sys2Proof.Machine.execVsld f s
  | .vredadd f => Sys2Proof.Machine.execVredadd f s
  | .vredmax f => Sys2Proof.Machine.execVredmax f s
  | .vredmin f => Sys2Proof.Machine.execVredmin f s
  | .vscan f => Sys2Proof.Machine.execVscan f s
  | .vdot f => Sys2Proof.Machine.execVdot f s
  | .mldw f => Sys2Proof.Machine.execMldw f s
  | .mswap f => Sys2Proof.Machine.execMswap f s
  | .mmul f => Sys2Proof.Machine.execMmul f s
  | .mdrain f => Sys2Proof.Machine.execMdrain f s
  | .mzero f => Sys2Proof.Machine.execMzero f s
  | .mcbt f => Sys2Proof.Machine.execMcbt f s
  | .mrda f => Sys2Proof.Machine.execMrda f s
  | .mwra f => Sys2Proof.Machine.execMwra f s
  | .msave f => Sys2Proof.Machine.execMsave f s
  | .msavePl f => Sys2Proof.Machine.execMsavePl f s
  | .mrest f => Sys2Proof.Machine.execMrest f s
  | .mrestPl f => Sys2Proof.Machine.execMrestPl f s
  | .acfg f => Sys2Proof.Machine.execAcfg f s
  | .aldq f => Sys2Proof.Machine.execAldq f s
  | .akv f => Sys2Proof.Machine.execAkv f s
  | .akvPl f => Sys2Proof.Machine.execAkvPl f s
  | .afin f => Sys2Proof.Machine.execAfin f s
  | .arst f => Sys2Proof.Machine.execArst f s
  | .cpy f => Sys2Proof.Machine.execCpy f s
  | .cpyg f => Sys2Proof.Machine.execCpyg f s
  | .cpys f => Sys2Proof.Machine.execCpys f s
  | .cfil f => Sys2Proof.Machine.execCfil f s
  | .ctrn f => Sys2Proof.Machine.execCtrn f s
  | .lcinit f => Sys2Proof.Machine.execLcinit f s
  | .lcwait f => Sys2Proof.Machine.execLcwait f s
  | .lcadd f => Sys2Proof.Machine.execLcadd f s
  | .carm f => Sys2Proof.Machine.execCarm f s
  | .bred f => Sys2Proof.Machine.execBred f s
  | .bredBlock f => Sys2Proof.Machine.execBredBlock f s
  | .bsum f => Sys2Proof.Machine.execBsum f s
  | .waita f => Sys2Proof.Machine.execWaita f s
  | .bfill f => Sys2Proof.Machine.execBfill f s
  | .bclr f => Sys2Proof.Machine.execBclr f s
  | .rld f => Sys2Proof.Machine.execRld f s
  | .rst f => Sys2Proof.Machine.execRst f s
  | .ramo f => Sys2Proof.Machine.execRamo f s
  | .ropCasw f => Sys2Proof.Machine.execRopCasw f s
  | .ropFxadd f => Sys2Proof.Machine.execRopFxadd f s
  | .ropEnq f => Sys2Proof.Machine.execRopEnq f s
  | .ropDeq f => Sys2Proof.Machine.execRopDeq f s
  | .ropChase f => Sys2Proof.Machine.execRopChase f s
  | .ropBadd f => Sys2Proof.Machine.execRopBadd f s
  | .ropMinloc f => Sys2Proof.Machine.execRopMinloc f s
  | .ropGath4 f => Sys2Proof.Machine.execRopGath4 f s
  | .ropScat4 f => Sys2Proof.Machine.execRopScat4 f s
  | .ropLcarr f => Sys2Proof.Machine.execRopLcarr f s
  | .ropHist f => Sys2Proof.Machine.execRopHist f s
  | .ropPutsig f => Sys2Proof.Machine.execRopPutsig f s
  | .rput f => Sys2Proof.Machine.execRput f s
  | .rget f => Sys2Proof.Machine.execRget f s
  | .mcast f => Sys2Proof.Machine.execMcast f s
  | .gsync f => Sys2Proof.Machine.execGsync f s
  | .gred f => Sys2Proof.Machine.execGred f s
  | .plcfgOpen f => Sys2Proof.Machine.execPlcfgOpen f s
  | .plcfgClose f => Sys2Proof.Machine.execPlcfgClose f s
  | .plsend f => Sys2Proof.Machine.execPlsend f s
  | .plrel f => Sys2Proof.Machine.execPlrel f s
  | .lnctlMode f => Sys2Proof.Machine.execLnctlMode f s
  | .lnctlRetrain f => Sys2Proof.Machine.execLnctlRetrain f s
  | .lnctlDisable f => Sys2Proof.Machine.execLnctlDisable f s
  | .lnctlEnable f => Sys2Proof.Machine.execLnctlEnable f s
  | .lnctlPark f => Sys2Proof.Machine.execLnctlPark f s
  | .lnstat f => Sys2Proof.Machine.execLnstat f s
  | .kcfg f => Sys2Proof.Machine.execKcfg f s
  | .kprot f => Sys2Proof.Machine.execKprot f s
  | .kunpr f => Sys2Proof.Machine.execKunpr f s
  | .kopen f => Sys2Proof.Machine.execKopen f s
  | .kprep f => Sys2Proof.Machine.execKprep f s
  | .kcomt f => Sys2Proof.Machine.execKcomt f s
  | .kabrt f => Sys2Proof.Machine.execKabrt f s
  | .kstat f => Sys2Proof.Machine.execKstat f s
  | .krbld f => Sys2Proof.Machine.execKrbld f s
  | .kscrb f => Sys2Proof.Machine.execKscrb f s
  | .deviceReset => Sys2Proof.Machine.execDeviceReset s
  | .bootRomVerify image trailer => Sys2Proof.Machine.execBootRomVerify image trailer s
  | .hbmTraining ok arr => Sys2Proof.Machine.execHbmTraining ok arr s
  | .firmwareVerify image trailer => Sys2Proof.Machine.execFirmwareVerify image trailer s
  | .linkTraining ok dark => Sys2Proof.Machine.execLinkTraining ok dark s
  | .setdev tag dev groups maxdev => Sys2Proof.Machine.execSetdev tag dev groups maxdev s
  | .route tag pa len peers modes gates alts => Sys2Proof.Machine.execRoute tag pa len peers modes gates alts s
  | .time tag root => Sys2Proof.Machine.execTime tag root s
  | .mkroot tag rcb table => Sys2Proof.Machine.execMkroot tag rcb table s
  | .teardown tag handle => Sys2Proof.Machine.execTeardown tag handle s
  | .attest tag nonce pa => Sys2Proof.Machine.execAttest tag nonce pa s
  | .crec tag pa => Sys2Proof.Machine.execCrec tag pa s
  | .cntirq tag slot pa => Sys2Proof.Machine.execCntirq tag slot pa s
  | .cntirqPendingRead => Sys2Proof.Machine.execCntirqPendingRead s
  | .hostLaunchWrite page off data => Sys2Proof.Machine.execHostLaunchWrite page off data s
  | .hostRegionStatusRead page => Sys2Proof.Machine.execHostRegionStatusRead page s
  | .bar4Write pa data => Sys2Proof.Machine.execBar4Write pa data s
  | .bar4Read pa n => Sys2Proof.Machine.execBar4Read pa n s
  | .gtsTick adj => Sys2Proof.Machine.execGtsTick adj s
  | .gtsSyncMeasure offset => Sys2Proof.Machine.execGtsSyncMeasure offset s
  | .launchRecordAccept region => Sys2Proof.Machine.execLaunchRecordAccept region s
  | .dispatch die => Sys2Proof.Machine.execDispatch die s
  | .nestCompletionUpdate nest => Sys2Proof.Machine.execNestCompletionUpdate nest s
  | .progressPreempt => Sys2Proof.Machine.execProgressPreempt s
  | .regionTeardownComplete region => Sys2Proof.Machine.execRegionTeardownComplete region s
  | .starvationPromotion core => Sys2Proof.Machine.execStarvationPromotion core s
  | .fixedResultLand ctx => Sys2Proof.Machine.execFixedResultLand ctx s
  | .tokenResultLand core n => Sys2Proof.Machine.execTokenResultLand core n s
  | .icacheFill core => Sys2Proof.Machine.execIcacheFill core s
  | .translationWalkComplete core victim => Sys2Proof.Machine.execTranslationWalkComplete core victim s
  | .trapEntry ctx => Sys2Proof.Machine.execTrapEntry ctx s
  | .checkPointMatch core => Sys2Proof.Machine.execCheckPointMatch core s
  | .checkerMismatch core => Sys2Proof.Machine.execCheckerMismatch core s
  | .exitDrainComplete ctx => Sys2Proof.Machine.execExitDrainComplete ctx s
  | .waitgWake ctx => Sys2Proof.Machine.execWaitgWake ctx s
  | .nwaitRecheck ctx => Sys2Proof.Machine.execNwaitRecheck ctx s
  | .nwaitDeadline ctx => Sys2Proof.Machine.execNwaitDeadline ctx s
  | .writeApply id => Sys2Proof.Machine.execWriteApply id s
  | .loadPerform id bad host => Sys2Proof.Machine.execLoadPerform id bad host s
  | .hostLoadTimeout id => Sys2Proof.Machine.execHostLoadTimeout id s
  | .mxshareWrite cluster x => Sys2Proof.Machine.execMxshareWrite cluster x s
  | .mxshareApply cluster => Sys2Proof.Machine.execMxshareApply cluster s
  | .cadenceWrite cluster x => Sys2Proof.Machine.execCadenceWrite cluster x s
  | .cadenceApply cluster => Sys2Proof.Machine.execCadenceApply cluster s
  | .arrshapeWrite cluster x => Sys2Proof.Machine.execArrshapeWrite cluster x s
  | .arrshapeApply cluster => Sys2Proof.Machine.execArrshapeApply cluster s
  | .mldwExec core => Sys2Proof.Machine.execMldwExec core s
  | .mcbtExec core => Sys2Proof.Machine.execMcbtExec core s
  | .mswapExchange core => Sys2Proof.Machine.execMswapExchange core s
  | .mmulExec core => Sys2Proof.Machine.execMmulExec core s
  | .mmulRowLand core => Sys2Proof.Machine.execMmulRowLand core s
  | .mmulComplete core => Sys2Proof.Machine.execMmulComplete core s
  | .rowCheckMismatch core n => Sys2Proof.Machine.execRowCheckMismatch core n s
  | .mdrainExec core bad => Sys2Proof.Machine.execMdrainExec core bad s
  | .mzeroExec core => Sys2Proof.Machine.execMzeroExec core s
  | .msaveExec core bad => Sys2Proof.Machine.execMsaveExec core bad s
  | .mrestExec core bad => Sys2Proof.Machine.execMrestExec core bad s
  | .acfgExec core => Sys2Proof.Machine.execAcfgExec core s
  | .aldqExec core bad => Sys2Proof.Machine.execAldqExec core bad s
  | .akvExec core bad => Sys2Proof.Machine.execAkvExec core bad s
  | .akvPlChosen core bad => Sys2Proof.Machine.execAkvPlChosen core bad s
  | .afinExec core bad => Sys2Proof.Machine.execAfinExec core bad s
  | .arstExec core => Sys2Proof.Machine.execArstExec core s
  | .copyCommandStart cluster => Sys2Proof.Machine.execCopyCommandStart cluster s
  | .copyBlock cluster bad late host => Sys2Proof.Machine.execCopyBlock cluster bad late host s
  | .missedPromise ctx seq => Sys2Proof.Machine.execMissedPromise ctx seq s
  | .gateHead ctx q => Sys2Proof.Machine.execGateHead ctx q s
  | .gateFiring ctx q => Sys2Proof.Machine.execGateFiring ctx q s
  | .cpholdResume ctx => Sys2Proof.Machine.execCpholdResume ctx s
  | .cpholdAbandon ctx => Sys2Proof.Machine.execCpholdAbandon ctx s
  | .lcwaitRecheck ctx => Sys2Proof.Machine.execLcwaitRecheck ctx s
  | .lcwaitDeadline ctx => Sys2Proof.Machine.execLcwaitDeadline ctx s
  | .cmncfgSizeWrite die x => Sys2Proof.Machine.execCmncfgSizeWrite die x s
  | .repartitionComplete die drop => Sys2Proof.Machine.execRepartitionComplete die drop s
  | .bredExec die bad => Sys2Proof.Machine.execBredExec die bad s
  | .bsumExec die bad => Sys2Proof.Machine.execBsumExec die bad s
  | .bfillExec die => Sys2Proof.Machine.execBfillExec die s
  | .bclrExec die => Sys2Proof.Machine.execBclrExec die s
  | .waitaResume ctx => Sys2Proof.Machine.execWaitaResume ctx s
  | .waitaDeadline ctx => Sys2Proof.Machine.execWaitaDeadline ctx s
  | .packetArrival p => Sys2Proof.Machine.execPacketArrival p s
  | .remoteRequestAtTarget n bad => Sys2Proof.Machine.execRemoteRequestAtTarget n bad s
  | .remoteReplyArrival n => Sys2Proof.Machine.execRemoteReplyArrival n s
  | .remoteTimeout tag => Sys2Proof.Machine.execRemoteTimeout tag s
  | .fabricFaultDelivery ctx => Sys2Proof.Machine.execFabricFaultDelivery ctx s
  | .rputExec ctx bad => Sys2Proof.Machine.execRputExec ctx bad s
  | .rgetExec ctx bad => Sys2Proof.Machine.execRgetExec ctx bad s
  | .mcastExec ctx bad => Sys2Proof.Machine.execMcastExec ctx bad s
  | .mcastFlitForward n port => Sys2Proof.Machine.execMcastFlitForward n port s
  | .gredExec ctx => Sys2Proof.Machine.execGredExec ctx s
  | .collectiveArrival n => Sys2Proof.Machine.execCollectiveArrival n s
  | .collectiveRelease n => Sys2Proof.Machine.execCollectiveRelease n s
  | .gsyncDeadline ctx => Sys2Proof.Machine.execGsyncDeadline ctx s
  | .plsendExec ctx bad => Sys2Proof.Machine.execPlsendExec ctx bad s
  | .pacelineLanding n => Sys2Proof.Machine.execPacelineLanding n s
  | .watermarkArrival n => Sys2Proof.Machine.execWatermarkArrival n s
  | .vlStop port vl => Sys2Proof.Machine.execVlStop port vl s
  | .vlGo port vl => Sys2Proof.Machine.execVlGo port vl s
  | .codewordReplay chan => Sys2Proof.Machine.execCodewordReplay chan s
  | .pceWindowClose chan count => Sys2Proof.Machine.execPceWindowClose chan count s
  | .wavelengthHandback chan => Sys2Proof.Machine.execWavelengthHandback chan s
  | .retrainComplete chan => Sys2Proof.Machine.execRetrainComplete chan s
  | .parkIdleTimeout group => Sys2Proof.Machine.execParkIdleTimeout group s
  | .parkWake group => Sys2Proof.Machine.execParkWake group s
  | .wavelengthRejoin chan => Sys2Proof.Machine.execWavelengthRejoin chan s
  | .routeChange peer lane alt => Sys2Proof.Machine.execRouteChange peer lane alt s
  | .modeChangeComplete fibre => Sys2Proof.Machine.execModeChangeComplete fibre s
  | .fxexpWrite x => Sys2Proof.Machine.execFxexpWrite x s
  | .fxsetWrite x => Sys2Proof.Machine.execFxsetWrite x s
  | .configConfirmed => Sys2Proof.Machine.execConfigConfirmed s
  | .deltaArrival n => Sys2Proof.Machine.execDeltaArrival n s
  | .markArrival n => Sys2Proof.Machine.execMarkArrival n s
  | .ackArrival n => Sys2Proof.Machine.execAckArrival n s
  | .preparedArrival n => Sys2Proof.Machine.execPreparedArrival n s
  | .stagedArrival n => Sys2Proof.Machine.execStagedArrival n s
  | .commitDecision => Sys2Proof.Machine.execCommitDecision s
  | .kabrtRequestArrival n => Sys2Proof.Machine.execKabrtRequestArrival n s
  | .overflowArrival n => Sys2Proof.Machine.execOverflowArrival n s
  | .commitArrival n => Sys2Proof.Machine.execCommitArrival n s
  | .abortArrival n => Sys2Proof.Machine.execAbortArrival n s
  | .rollbackComplete bad => Sys2Proof.Machine.execRollbackComplete bad s
  | .beatSend => Sys2Proof.Machine.execBeatSend s
  | .beatArrival n => Sys2Proof.Machine.execBeatArrival n s
  | .lostDeclaration i0 => Sys2Proof.Machine.execLostDeclaration i0 s
  | .lostArrival n => Sys2Proof.Machine.execLostArrival n s
  | .coordinatorSilence => Sys2Proof.Machine.execCoordinatorSilence s
  | .queryArrival n => Sys2Proof.Machine.execQueryArrival n s
  | .broomStreamBlock n => Sys2Proof.Machine.execBroomStreamBlock n s
  | .broomComplete => Sys2Proof.Machine.execBroomComplete s
  | .granuleRepair pa peers => Sys2Proof.Machine.execGranuleRepair pa peers s
  | .fcollRaise => Sys2Proof.Machine.execFcollRaise s
  | .abortTokenArrival n => Sys2Proof.Machine.execAbortTokenArrival n s
  | .statementArrival n => Sys2Proof.Machine.execStatementArrival n s
  | .statementCollectionExpiry => Sys2Proof.Machine.execStatementCollectionExpiry s
  | .haltLineRaise => Sys2Proof.Machine.execHaltLineRaise s
  | .fhaltRaise dom => Sys2Proof.Machine.execFhaltRaise dom s
  | .fhaltRelease dom => Sys2Proof.Machine.execFhaltRelease dom s
  | .flogWrite x => Sys2Proof.Machine.execFlogWrite x s
  | .trctlFrozenClear core => Sys2Proof.Machine.execTrctlFrozenClear core s
  | .tridxWrite core x => Sys2Proof.Machine.execTridxWrite core x s
  | .contextSave bad => Sys2Proof.Machine.execContextSave bad s
  | .lateAccessMark ctx => Sys2Proof.Machine.execLateAccessMark ctx s
  | .lateReplyArrival n => Sys2Proof.Machine.execLateReplyArrival n s
  | .lateAccessTimeout tag => Sys2Proof.Machine.execLateAccessTimeout tag s
  | .contextRestore bad => Sys2Proof.Machine.execContextRestore bad s
  | .powerSample draw causes => Sys2Proof.Machine.execPowerSample draw causes s
  | .cadenceFloorStep cluster slew => Sys2Proof.Machine.execCadenceFloorStep cluster slew s
  | .powerRelief cluster cause => Sys2Proof.Machine.execPowerRelief cluster cause s
  | .ageingMonitor cluster slack band => Sys2Proof.Machine.execAgeingMonitor cluster slack band s
  | .clockChangeRequest cluster => Sys2Proof.Machine.execClockChangeRequest cluster s
  | .clockChangeQuiesce cluster => Sys2Proof.Machine.execClockChangeQuiesce cluster s
  | .clockRestart cluster => Sys2Proof.Machine.execClockRestart cluster s
  | .codingCommandStart die corr peers => Sys2Proof.Machine.execCodingCommandStart die corr peers s
  | .rebuildRequestArrival n => Sys2Proof.Machine.execRebuildRequestArrival n s
  | .survivorStreamRequest n => Sys2Proof.Machine.execSurvivorStreamRequest n s
  | .queryReplyArrival n => Sys2Proof.Machine.execQueryReplyArrival n s
  | .flushlWritebackComplete ctx => Sys2Proof.Machine.execFlushlWritebackComplete ctx s

end Sys2Proof.Machine
end

