-- ==== Sys2Proof/Machine/Fetch.lean ====
section
/-!
DEFINITION. Machine/Fetch.lean: an instruction fetch: where a context's next word lies, whether it can issue from there, and
the trap a word that cannot be fetched or decoded takes (spec file 01, R21; 03, R70, R83; 06, R148, R152; 07, R182 to R189).
-/
namespace Sys2Proof.Machine
open Sys2Proof

/-- A line of the instruction cache is 256 bytes (06 R148). -/
def lineBytes : Nat := 256

/-- What a fetch gives: the word's instruction; nothing yet, with what the core has asked for; a trap of the word; or
uncorrectable bytes outside a protected region. -/
inductive Fetched where
  | word (i : Instr)
  | wait (s : State)
  | trap (s : State) (cause : Nat) (val : W64)
  | bad (pa : Nat)

/-- Ask for a line of the cache (06 R148). -/
def askLine (s : State) (c line : Nat) : State :=
  updCore s (coreOf c) fun k => { k with fetchWait := if k.fetchWait.contains line then k.fetchWait else k.fetchWait ++ [line] }

def wordBytes16 (pa : Nat) : List Nat := (upTo 16).map fun i => pa + i

/-- A fetch is answered (03 R70): it is a read of the context that carries B and no taint, after its own writes and atomics of the
same words (02 R39, R43). A strong load or a FENCE does not hold it: a word that makes no access issues meanwhile (07 R191, R197;
log entry 18). -/
def fetchReady (s : State) (c pa : Nat) : Bool :=
  let l := wordBytes16 pa
  stampCovers (appliedAll s) (getArch s c).base && forwards s c s.nextId l
    && !(s.accs.any fun y => y.ctx == c && y.eng.isNone && (match y.kind with | .rd | .wr => false | _ => true) && overlaps y.addrs l)

/-- The word at a physical address as a context reads it: its own latest store, else memory. -/
def wordAt (s : State) (c pa : Nat) : IWord := BitVec.ofNat 128 (leNat (readFor s c s.nextId (wordBytes16 pa)).1)

/-- A fetch outside Global memory: a translation fault whose REASON the spec does not give, a free value from 1 to 9 (log
entry 1). -/
def notCode (s : State) (va : Nat) : Fetched :=
  let (s1, fv) := takeFree s
  .trap s1 0x03 (xlateTval none .fetch (fv.toNat % 9 + 1) va)

/-- Fetch from a translated address. -/
def fetchAt (s : State) (c va pa : Nat) : Fetched :=
  if classOf pa != some .global then notCode s va
  else if !(getCore s (coreOf c)).lines.contains (pa / lineBytes) then .wait (askLine s c (pa / lineBytes))
  else
    let bytes := wordBytes16 pa
    if poisoned s bytes then (if bytes.any fun a => s.poison.contains a && repairable s a then .wait s else .bad pa)
    else if !fetchReady s c pa then .wait s
    else match decodeWord (wordAt s c pa) with
      | .ok i => .word i
      | .error (.illegal f d) => .trap s 0x01 (defectTval (f, d))
      | .error .short => .wait s

/-- The fetch of a context's next word: alignment, the address's form, the translation, the line, the word (03 R70, R83; 06
R152). -/
def fetch (s : State) (c : Nat) : Fetched :=
  let va := (getArch s c).pc.toNat
  if va % 16 ≠ 0 then .trap s 0x01 (defectTval (0, 9))
  else if 2 ^ 41 ≤ va then .trap s 0x04 (getArch s c).pc
  else if va < 0x200000 then notCode s va
  else match translate s c va .fetch with
    | .miss => .wait (askWalk s c va)
    | .fault r p => .trap s (if p then 0x0F else 0x03) (xlateTval none .fetch r va)
    | .hit pa => fetchAt s c va pa

end Sys2Proof.Machine
end

