-- ==== Sys2Proof/Machine/Issue.lean ====
section
/-!
DEFINITION. Machine/Issue.lean: a Hub core's issue slot: which context issues its next word, and the word's meaning (spec file 06,
R147 to R152, R174; 15, R384; 16, R402).
-/
namespace Sys2Proof.Machine
open Sys2Proof Host

/-- The core's issue slot of this cycle is used (06 R149). -/
def slotUsed (s : State) (k : Nat) : Bool := (getCore s k).lastIssue == some (ccyOf s (4 * k))

/-- The core issues nothing in this cycle: retired, stopped by a rewind, its clock stopped, or its slot used (06 R149, R176, R178;
16 R402). -/
def coreBusy (s : State) (k : Nat) : Bool :=
  let co := getCore s k
  co.retired || decide (ccyOf s (4 * k) < co.stopUntil) || frozenAt s (4 * k) || slotUsed s k

/-- The part of readiness that does not depend on the word (06 R147, R148; 07 R190; 15 R384). -/
def mayIssue (s : State) (c : Nat) : Bool :=
  let a := getArch s c
  a.phase == .running && !trapWaits s c && ((getCtx s c).late.isEmpty || a.tcause.getLsbD 63 || reExecuting s c) && decide (a.hold ≤ ccyOf s c)
    && a.block.isNone && (s.saveReqs.all fun q => q.ctx != c || decide (a.seq < q.upto)) &&
    !((getCore s (coreOf c)).held.any fun h => h.ctx == c && h.eff == .full)

/-- A context tries to issue its next word: the word's meaning, the trap of a fetch, or what it waits for. -/
def attempt (s : State) (c : Nat) : Outcome State Fault Refusal :=
  match fetch s c with
  | .word i => exec i { s with cur := c }
  | .wait t => .next t
  | .trap t cause val => .next (wordTrap { t with cur := c } c cause 0 val false [] 0)
  | .bad pa => .next (contextFatal s c 2 (w64 pa))

/-- The attempt of a context uses the issue slot. -/
def takesSlot (s : State) (k c : Nat) : Bool :=
  mayIssue s c && (match attempt s c with
    | .next t => slotUsed t k
    | _ => true)

/-- The core-local indices of the contexts ready in this cycle (06 R148). -/
def readyList (s : State) (k : Nat) : List Nat := (upTo 4).filter fun j => takesSlot s k (4 * k + j)

/-- A context whose previous word carried YLD and issued in the previous cycle (06 R149). -/
def setAside (s : State) (c : Nat) : Bool :=
  match (getArch s c).yldAt with
  | some t => t + 1 == ccyOf s c
  | none => false

/-- Of some contexts, the next in round robin after the last one chosen from their class: those of the highest class (06 R149). -/
def chooseAmong (s : State) (k : Nat) (cl : Map Nat) (l : List Nat) : Option Nat :=
  let top := l.foldl (fun m j => max m (issueClass s cl (4 * k + j))) 0
  let last := mapGet 3 (getCore s k).rr top
  ((upTo 4).map fun i => (last + 1 + i) % 4).find? fun j => l.contains j && issueClass s cl (4 * k + j) == top

/-- The context the core selects among the ready ones (06 R149). -/
def issuePick (s : State) (k : Nat) (cl : Map Nat) (l : List Nat) : Option Nat :=
  match l.find? fun j => (getCore s k).promoted == some j || decide (65536 ≤ (getCtx s (4 * k + j)).unsel) with
  | some j => some j
  | none => match chooseAmong s k cl (l.filter fun j => !setAside s (4 * k + j)) with
    | some j => some j
    | none => chooseAmong s k cl l

/-- What the contexts that do not issue ask for on the way: a line, a walk, a registration. -/
def askAll (s : State) (k : Nat) (l : List Nat) : State :=
  (upTo 4).foldl (fun t j =>
    let c := 4 * k + j
    if l.contains j || !mayIssue t c then t
    else match attempt t c with
      | .next u => if slotUsed u k then t else u
      | _ => t) s

/-- The counts and pointers after a selection (06 R149): pre is the ready list, j the context selected. -/
def afterIssue (s : State) (k : Nat) (cls : Nat) (pre : List Nat) (j : Nat) : State :=
  let s1 := (upTo 4).foldl (fun t i =>
    updCtx t (4 * k + i) fun x => { x with unsel := if i = j || !pre.contains i then 0 else x.unsel + 1 }) s
  updCore s1 k fun x => { x with rr := mapSet x.rr cls j, promoted := none }

/-- A cycle in which no context is ready: the counts restart. -/
def noneReady (s : State) (k : Nat) : State :=
  (upTo 4).foldl (fun t i => if (getCtx t (4 * k + i)).unsel = 0 then t else updCtx t (4 * k + i) fun x => { x with unsel := 0 }) s

/-- One issue slot of a core (06 R149). -/
def issueCore (s : State) (k : Nat) : Outcome State Fault Refusal :=
  if coreBusy s k then .next s
  else
    let l := readyList s k
    let s1 := askAll s k l
    let cl := classes s
    match issuePick s k cl l with
    | none => .next (noneReady s1 k)
    | some j =>
      match attempt s1 (4 * k + j) with
      | .next t => .next (afterIssue t k (issueClass s cl (4 * k + j)) l j)
      | .fault r => .fault r
      | .refused r => .refused r

end Sys2Proof.Machine
end

