-- ==== Sys2Proof/Machine/Cycle.lean ====
section
/-!
DEFINITION. Machine/Cycle.lean: what a step does around an activity: results land first; and the cycle of a package left to
itself, in which each agent that can move does so once, in a fixed order (log entry 19).
-/
namespace Sys2Proof.Machine
open Sys2Proof Host

/-- The fixed-latency results due in every context land (06 R151). -/
def landDue (s : State) : State := (s.ctxs.map (·.1)).foldl landFixed s

/-- An event in a cycle. -/
def moveOne (f : State → Outcome State Fault Refusal) (s : State) : State :=
  match f s with
  | .next t => t
  | _ => s

/-- Events of one kind, one for each unit of a list. -/
def moveEach (l : List Nat) (f : Nat → State → Outcome State Fault Refusal) (s : State) : State := l.foldl (fun t x => moveOne (f x) t) s

/-- The contexts that are bound. -/
def boundCtxs (s : State) : List Nat := (s.ctxs.filter fun p => p.2.arch.phase != .free).map (·.1)

/-- Units of the bound contexts, of this many contexts each. -/
def unitsOf (s : State) (n : Nat) : List Nat := ((boundCtxs s).map (· / n)).eraseDups

/-- A context's own events: a deadline, a gate, a transfer of the fabric port, a trap, the end of its drain. -/
def cycleCtx (c : Nat) (s : State) : State :=
  let s1 := moveOne (execGsyncDeadline c) (moveOne (execWaitaDeadline c) (moveOne (execLcwaitDeadline c) (moveOne (execNwaitDeadline c) (moveOne (execWaitgWake c) s))))
  let s2 := moveOne (execWaitaResume c) (moveOne (execLcwaitRecheck c) (moveOne (execNwaitRecheck c) s1))
  let s3 := moveEach (((getCtx s2 c).cmds.filter fun k => k.q = 2).map (·.seq)) (execMissedPromise c) s2
  let s4 := [2, 4].foldl (fun t q => moveOne (execGateFiring c q) (moveOne (execGateHead c q) t)) s3
  let s5 := moveOne (execFabricFaultDelivery c) (moveOne (execFlushlWritebackComplete c) s4)
  let s6 := moveOne (execGredExec c) (moveOne (execMcastExec c false) (moveOne (execRgetExec c false) (moveOne (execRputExec c false) s5)))
  moveOne (execExitDrainComplete c) (moveOne (execTrapEntry c) (moveOne (execPlsendExec c false) s6))

/-- A core's events: values and lines that arrive, check points that match, the engines at its side. -/
def cycleCore (k : Nat) (s : State) : State :=
  let s1 := (getCore s k).held.foldl (fun t _ => moveOne (execCheckPointMatch k) t) s
  let s2 := (getCore s1 k).landings.foldl (fun t _ => moveOne (execTokenResultLand k 0) t) s1
  let s3 := moveOne (execTranslationWalkComplete k 0) (moveOne (execIcacheFill k) s2)
  let s4 := moveOne (execMswapExchange k) (moveOne (execMcbtExec k) (moveOne (execMldwExec k) s3))
  let s5 := moveOne (execMmulComplete k) (moveOne (execMmulRowLand k) (moveOne (execMmulExec k) s4))
  let s6 := moveOne (execMrestExec k false) (moveOne (execMsaveExec k false) (moveOne (execMzeroExec k) (moveOne (execMdrainExec k false) s5)))
  let s7 := moveOne (execAkvExec k false) (moveOne (execAldqExec k false) (moveOne (execAcfgExec k) s6))
  moveOne (execArstExec k) (moveOne (execAfinExec k false) (moveOne (execAkvPlChosen k false) s7))

/-- A cluster's events: the array's registers and the copy engine. -/
def cycleCluster (k : Nat) (s : State) : State :=
  let s1 := moveOne (execArrshapeApply k) (moveOne (execCadenceApply k) (moveOne (execMxshareApply k) s))
  moveOne (execCopyBlock k false false []) (moveOne (execCopyCommandStart k) s1)

/-- A die's events: the Commons units, a repartition, the coding engine, the Derailleur's dispatch. -/
def cycleDie (d : Nat) (s : State) : State :=
  let s1 := moveOne (execBclrExec d) (moveOne (execBfillExec d) (moveOne (execBsumExec d false) (moveOne (execBredExec d false) s)))
  let s2 := if (getCommons s1 d).busy then moveOne (execRepartitionComplete d []) s1 else s1
  moveOne (execDispatch d) (moveOne (execCodingCommandStart d 0 []) s2)

/-- An access at its home: it performs or is applied if it can be. -/
def cycleAcc (id : Nat) (s : State) : State :=
  match getAcc s id with
  | none => s
  | some x => if x.kind == .rd then moveOne (execLoadPerform id false []) s else moveOne (execWriteApply id) s

/-- The Derailleur's and the device's own events. -/
def cycleDevice (s : State) : State :=
  let rs := s.regions.map (·.1)
  let s1 := moveEach rs execLaunchRecordAccept s
  let s2 := moveEach (s1.nests.map (·.1)) execNestCompletionUpdate s1
  let s3 := moveEach rs execRegionTeardownComplete s2
  let s4 := (s3.saveReqs.map (·.ctx)).foldl (fun t c => moveOne (execLateAccessMark c) t) s3
  let s5 := moveOne (execContextRestore false) (moveOne (execContextSave false) s4)
  moveOne execHaltLineRaise (if s5.nests.isEmpty then s5 else moveOne execProgressPreempt s5)

/-- Every core issues, the lowest first. -/
def issueAll : List Nat → State → Outcome State Fault Refusal
  | [], s => .next s
  | k :: t, s =>
    match issueCore s k with
    | .next s1 => issueAll t s1
    | .fault r => .fault r
    | .refused r => .refused r

/-- One nanosecond of a package left to itself: the clocks advance; results, accesses and events follow; every core issues. -/
def cycle (s : State) : Outcome State Fault Refusal :=
  let s1 := landDue (moveOne (execGtsTick 0) s)
  let s2 := (s1.accs.map (·.id)).foldl (fun t i => cycleAcc i t) s1
  let s3 := (unitsOf s2 4).foldl (fun t k => cycleCore k t) s2
  let s4 := (boundCtxs s3).foldl (fun t c => cycleCtx c t) s3
  let s5 := (unitsOf s4 8).foldl (fun t k => cycleCluster k t) s4
  let s6 := (upTo 4).foldl (fun t d => cycleDie d t) s5
  let s7 := cycleDevice s6
  issueAll (unitsOf s7 4) s7

end Sys2Proof.Machine
end

