-- ==== Sys2Proof/Machine/Place.lean ====
section
/-!
DEFINITION. Machine/Place.lean: how a word is placed where the next step fetches and runs it (log entry 20).
-/
namespace Sys2Proof.Machine
open Sys2Proof

/-- The virtual and physical address a placed word is fetched from. -/
def placeAt : Nat := 0x10000000

/-- The page that maps it, held by the core: fetches, reads and writes of both modes. -/
def placeTlb : TlbEnt := ⟨0, placeAt / 0x10000, 0, placeAt, true, true, true, 7⟩

/-- Context 0 stands ready at the word. -/
def placeArch (a : Arch) : Arch := { a with phase := .running, park := none, pc := BitVec.ofNat 64 placeAt, pend := none, hold := 0, block := none }

/-- A task of no region, so that its context is bound. -/
def placeBind : Bind := ⟨0, 0, [], 0, 0, 0x200000, true, 0⟩

/-- The word's bytes in memory, its line and page held by core 0, context 0 RUNNING at it, and core 0 issuing next. -/
def placeWord (s : State) (bytes : List Byte) : State :=
  let s1 := { s with mem := memPut s.mem (cellsAt placeAt bytes), agenda := [.issue 0] }
  let s2 := updCtx s1 0 fun x => { x with bind := some placeBind, apend := none, late := [], arch := placeArch x.arch }
  updCore s2 0 fun k => { k with
    lines := [placeAt / 256]
    tlb := [placeTlb]
    wfaults := []
    conf := (upTo 4).map fun j => getArch s2 j
    lastIssue := none
    stopUntil := 0
    retired := false
    held := k.held.filter fun h => h.eff != .full }

end Sys2Proof.Machine
end

