-- ==== Sys2Proof/Machine/Step.lean ====
section
/-!
DEFINITION. Machine/Step.lean: one step: the activity at the head of the agenda, or a cycle of the package left to itself.
-/
namespace Sys2Proof.Machine
open Sys2Proof Host

/-- One activity: an existing core's issue slot, or an event of existing units. -/
def act (x : Activity) (s : State) : Outcome State Fault Refusal :=
  match x with
  | .issue k => if k < 128 then issueCore (landDue s) k else .fault .illFormedActivity
  | .event i => if (wordOf i).isNone && wellFormed i then exec i (landDue s) else .fault .illFormedActivity

/-- One step. -/
def step (s : State) : Outcome State Fault Refusal :=
  match s.agenda with
  | [] => cycle s
  | x :: rest => act x { s with agenda := rest }

/-- The state in which the next step fetches and runs the instruction of these bits. -/
def State.withFetchWord (s : State) (nbits w : Nat) : State :=
  placeWord s (wordBytes (BitVec.ofNat 128 (w % 2 ^ nbits)))

end Sys2Proof.Machine
end

