-- ==== Sys2Proof/Safety.lean ====
section
/-!
DEFINITION. Safety.lean: what a safe run is: from states whose agenda names existing units, no step stops; the form memory
keeps; and the terms in which the statements say what an instruction word does.
-/
namespace Sys2Proof
open Machine

/-- An activity of existing units. -/
def goodActivity : Activity → Bool
  | .issue k => decide (k < 128)
  | .event i => (wordOf i).isNone && wellFormed i

/-- Every activity the agenda holds is one of existing units. -/
def goodAgenda (s : State) : Bool := s.agenda.all goodActivity

/-- Memory and the HBM image are in their canonical form. -/
def memoryWf (s : State) : Bool := memWf s.mem

/-- A step that does not stop. -/
def goesOn (s : State) : Prop := ∃ t, Machine.step s = .next t

/-! The terms of the statements. -/

/-- Arch of the issuing context. -/
abbrev me (s : State) : Arch := getArch s s.cur
/-- The issuing context's core. -/
abbrev myCore (s : State) : Nat := coreOf s.cur
/-- The issuing context's cycle counter. -/
abbrev now (s : State) : Nat := ccyOf s s.cur

/-- The issuing context may issue the word f, and its guard is true: it is RUNNING, no trap waits, and no token the word waits
for is pending (03 R74, R75; 06 R148). -/
def issues (s : State) (f : Fields) : Prop :=
  (me s).phase = .running ∧ trapWaits s s.cur = false ∧ tokensWait s s.cur f = false ∧ guardVal (me s) f = true

/-- A context's registers once a word f has left the issue slot: the pc is npc, the word is counted, the hold and YLD are set,
the resume latch is spent (06 R148, R149; 07 R201). -/
def passed (f : Fields) (npc : W64) (t hold : Nat) (a : Arch) : Arch :=
  { a with
    pc := npc
    seq := a.seq + 1
    hold := max a.hold (t + hold)
    yldAt := if f.yld = 1 then some t else none
    latch := none }

/-- The results us are on their way in a context and land at cycle due, each after those that land no later (06 R151). -/
def withResults (due : Nat) (us : List Upd) (a : Arch) : Arch :=
  { a with fx := us.foldl (fun l u => fxInsert ⟨due, a.seq, u⟩ l) a.fx }

/-- The effects a core holds for its checker, its own check points for a full journal apart. -/
def effects (s : State) (k : Nat) : List Eff := ((getCore s k).held.map (·.eff)).filter (· != .full)

/-- t is u with a word of s's issuing context gone from its issue slot: nothing but that context and its core's issue slot,
journal, held snapshots and pending trace entries changes; the context's registers are those of g. -/
def wordLeaves (s u t : State) (g : Arch → Arch) : Prop :=
  t = { u with ctxs := t.ctxs, cores := t.cores } ∧
  getCtx t s.cur = { getCtx u s.cur with unsel := 0, arch := g (getArch u s.cur) } ∧
  (∀ d, d ≠ s.cur → getCtx t d = getCtx u d) ∧
  (∀ k, k ≠ myCore s → getCore t k = getCore u k) ∧
  getCore t (myCore s) = { getCore u (myCore s) with
    lastIssue := some (now s)
    held := (getCore t (myCore s)).held
    jcount := (getCore t (myCore s)).jcount
    tpend := (getCore t (myCore s)).tpend
    tcount := (getCore t (myCore s)).tcount } ∧
  effects t (myCore s) = effects u (myCore s)

/-- A word that only computes: from s it gives t, in which its results us are on their way, to land lat cycles after the issue, and
the pc is at the next word. -/
def givesResults (s t : State) (f : Fields) (lat : Nat) (us : List Upd) : Prop :=
  wordLeaves s s t fun a => passed f (a.pc + 16) (now s) 1 (withResults (now s + lat) us a)

/-- The same after an operation that has changed the state to u. -/
def givesFrom (s u t : State) (f : Fields) (lat : Nat) (us : List Upd) : Prop :=
  wordLeaves s u t fun a => passed f (a.pc + 16) (now s) 1 (withResults (now s + lat) us a)

/-- s with the effect e of the issuing word held at its issue point, to leave in four cycles at the earliest (06 R175). -/
def holding (s : State) (e : Eff) : State :=
  updCore s (myCore s) fun k => { k with held := k.held ++ [⟨s.cur, (me s).seq, (me s).pc, now s + 4, e, [], 0, 0, 0⟩] }

/-- The effect buffer has room for one more effect (06 R175). -/
def roomForEffect (s : State) : Prop := ((getCore s (myCore s)).held.filter fun h => isEff h.eff).length < 8

/-- s with values from outside recorded for the issuing word (06 R174). -/
def recorded (s : State) (vals : List W64) : State :=
  updCore s (myCore s) fun k => { k with outs := k.outs ++ [⟨s.cur, (me s).seq, vals, none, k.outNext⟩], outNext := k.outNext + 1 }

/-- The word pushes the command k: held as an effect, with the next SEQ of its queue (01 R15, R17). -/
def pushes (s t : State) (f : Fields) (k : Cmd) : Prop :=
  k.seq = mapGet 0 (me s).qseq k.q % 2 ^ 16 ∧
  wordLeaves s (holding s (.push k)) t fun a =>
    passed f (a.pc + 16) (now s) 1 { a with qseq := mapSet a.qseq k.q (mapGet 0 a.qseq k.q + 1) }

/-- The issuing context can push to queue q now: no fence binds it, the queue has an entry free, and the effect buffer room. -/
def canPush (s : State) (q : Nat) : Prop := (me s).fence = none ∧ occupied s s.cur q < 16 ∧ roomForEffect s

/-- The word's request k to the Derailleur is held, with a qd entry reserved for its answer (05 R141). -/
def reservesQd (s t : State) (f : Fields) (k : Cmd) : Prop :=
  wordLeaves s (updCtx (holding s (.push k)) s.cur fun x => { x with qdRsv := x.qdRsv + 1 }) t fun a =>
    passed f (a.pc + 16) (now s) 1 { a with qseq := mapSet a.qseq 6 (mapGet 0 a.qseq 6 + 1) }

/-- Nothing keeps a trap of the issuing context from being taken at once: no result on its way, no effect held, the clock
running, and no waiting word in progress (06 R166). -/
def trapAtOnce (s : State) : Prop :=
  (me s).fx = [] ∧ (getCore s (myCore s)).held = [] ∧ frozenAt s s.cur = false ∧ (∀ x ∈ s.accs, x.ctx = s.cur → waitRead x = false)

/-- The issuing context may take a trap: IN is 0 and TBASE.ADDR is not 0 (06 R166). -/
def handlerReady (s : State) : Prop := (me s).tcause.getLsbD 63 = false ∧ (getCore s (myCore s)).tbase ≠ 0

/-- From s the issuing context has taken a trap of its word: TPC, TVAL and TCAUSE are written, it is in supervisor mode at the
handler's address, and its next word issues eight cycles on; no other context and no memory changes (06 R166). -/
def entersTrap (s t : State) (cause sub : BitVec 8) (val resume : W64) : Prop :=
  getCtx t s.cur = { getCtx s s.cur with arch := { me s with
    seq := (me s).seq + 1
    tpc := resume
    tval := val
    tcause := (1#64 <<< 63) ||| (if (me s).mode then 1#64 <<< 62 else 0) ||| (sub.zeroExtend 64 <<< 8) ||| cause.zeroExtend 64
    mode := true
    pc := (getCore s (myCore s)).tbase
    park := none
    latch := none
    hold := now s + 8 } } ∧
  (∀ d, d ≠ s.cur → getCtx t d = getCtx s d) ∧
  (∀ k, k ≠ myCore s → getCore t k = getCore s k) ∧
  t = { s with ctxs := t.ctxs, cores := t.cores, watches := s.watches.filter fun w => w.ctx != s.cur }

/-! Vector words (08 R207 to R211, R213). -/

/-- A lane-preserving word of f gives each sub-element of its active elements the result r (of the lane, the element and the
sub-element), packed under the type code; the flags of those results gather. Where one overflows under .OVTRAP, the word writes
nothing and traps with the lanes and sub-elements that did. -/
def givesLanes (s : State) (i : Instr) (f : Fields) (lat code : Nat) (rs ovtrap : Bool) (mask : Operand) (srcs : List Operand)
    (r : RsKey → Nat → Nat → Nat → FRes) : Prop :=
  let u := (rsFor s s.cur (if rs then modBits f 84 82 else 0)).1
  let act := activeOf (me s) f.o1 mask
  let w := tyBits (vecTy code)
  let on (e j : Nat) : Prop := e < elemCount f.o1 ∧ act.getLsbD (elemLane f.o1 e) = true ∧ j < subCount code
  let res (e j : Nat) : FRes := r (rsFor s s.cur (if rs then modBits f 84 82 else 0)).2 (elemLane f.o1 e) e j
  ((∀ e j, on e j → (res e j).trap = false) → ∃ t v fl, exec i s = .next t ∧
    (wordLeaves s u t fun a => passed f (a.pc + 16) (now s) (if ovtrap then lat else 1)
      (withResults (now s + lat) (lanesAtIssue (me s) (idxOf f.o1) act v (vecTaint (me s) f (srcs ++ [mask])) :: flagUpd fl) a)) ∧
    (∀ e j, on e j → subOf code j (lane v (elemLane f.o1 e)).toNat = (res e j).bits % 2 ^ w ∧
      (lane v (elemLane f.o1 e)).toNat < 2 ^ (w * subCount code)) ∧
    ∀ b, fl.getLsbD b = true ↔ ∃ e j, on e j ∧ (res e j).flags.getLsbD b = true) ∧
  ((∃ e j, on e j ∧ (res e j).trap = true) → ∃ tv ovm, exec i s = .next (wordTrap s s.cur 0x0B 0 tv false ovm lat) ∧
    ∀ l, l < 64 → (tv.getLsbD l = true ↔ ∃ e j, on e j ∧ elemLane f.o1 e = l ∧ (res e j).trap = true) ∧
      ∀ j, j < 8 → ((mapGet 0 ovm j).getLsbD l = true ↔ ∃ e, on e j ∧ elemLane f.o1 e = l ∧ (res e j).trap = true))

/-- Node low of level lvl of the fixed reduction tree: it combines its two halves, the lower lanes first (04 R117). -/
def treeAt {α : Type} (node : Nat → Nat → α → α → α × Flags) (leaf : Nat → α) : Nat → Nat → α × Flags
  | 0, low => (leaf low, 0)
  | lvl + 1, low =>
    let x := treeAt node leaf lvl low
    let y := treeAt node leaf lvl (low + 2 ^ lvl)
    let z := node (lvl + 1) low x.1 y.1
    (z.1, x.2 ||| y.2 ||| z.2)

/-! Pushed commands (01 R15, R17; 03 R85 to R87). -/

/-- The same as pushes after an operation that has changed the state to u. -/
def pushesFrom (s u t : State) (f : Fields) (k : Cmd) : Prop :=
  k.seq = mapGet 0 (me s).qseq k.q % 2 ^ 16 ∧
  wordLeaves s (holding u (.push k)) t fun a =>
    passed f (a.pc + 16) (now s) 1 { a with qseq := mapSet a.qseq k.q (mapGet 0 a.qseq k.q + 1) }

/-- A descriptor with no reserved bit set: the engine flags are among engs, and LCEN only where lcen allows it. -/
def plainDesc (d : Quarter) (engs : List Nat) (lcen : Bool) : Prop :=
  bitsOf (dField d 12) 31 22 = 0 ∧ bitsOf (dField d 12) 15 14 = 0 ∧ bitsOf (dField d 12) 7 4 = 0 ∧ dEsize d ≤ 6 ∧
  bitsOf (dField d 13) 31 8 = 0 ∧ bitsOf (dField d 13) 3 2 = 0 ∧ (dField d 13).testBit 1 = false ∧
  (lcen = true ∨ dLcen d = false) ∧ dEng d ∈ engs

/-- A descriptor of two dimensions, in elements of a format (09 R243; 13 R341). -/
def twoDims (d : Quarter) (code : Nat) : Prop :=
  dEsize d = esizeOf code ∧ dTrip d 2 = 1 ∧ dTrip d 3 = 1 ∧ dField d 6 = 0 ∧ dField d 7 = 0 ∧ dField d 10 = 0 ∧ dField d 11 = 0

/-- A scratchpad table of a command lies in the window, aligned (01 R13). -/
def tableFits (s : State) (off size align : Nat) : Prop := off % align = 0 ∧ off + size ≤ spLen s s.cur

/-- No nest record waits in an overflow area, so that a write at home moves none (05 R130, R134). -/
def noneSpilled (s : State) : Prop := ∀ p ∈ s.nests, ∀ k, p.2.place ≠ .spilled k

/-! Commands that engines execute (01 R15 to R18). -/

/-- From s, command k of context c has completed in t: its element, with status 0 or, where flags gathered, 1, is the last of those
present, and the command is gone from its queue (01 R17, R18; 04 R107). -/
def completes (s t : State) (c : Nat) (k : Cmd) (fl : Flags) (info : Nat) (val : W64) : Prop :=
  (∃ st, (getCtx t c).res = (getCtx s c).res ++
    [⟨k.q, statWord (if fl = 0 then 0 else 1) (if fl = 0 then 0 else 1) k.seq (fl.toNat + info), val, st, ccyOf s c⟩]) ∧
  (getCtx t c).cmds = (getCtx s c).cmds.filter fun y => !(y.q == k.q && y.seq == k.seq)

/-- From s, command k of context c has failed in t with a cause and INFO: its element comes first, and what the failure flags follows
(01 R17). -/
def fails (s t : State) (c : Nat) (k : Cmd) (cause info : Nat) : Prop :=
  ∃ st v l, (getCtx t c).res = (getCtx s c).res ++ ⟨k.q, statWord 3 cause k.seq info, v, st, ccyOf s c⟩ :: l

/-- s once core's array unit or loader has chosen a command of queue q of context c (01 R16). -/
def choosing (s : State) (core c q : Nat) : State := updMx s core fun m => { m with rr := 2 * c + q }

/-- From s the waiting word p of context c has ended in t with value x: the context runs again at the next word, and the result is on
its way (05 R143; 10 R277; 11 R296). -/
def waitEnds (s t : State) (c : Nat) (p : Park) (x : W64) : Prop :=
  (getArch t c).phase = .running ∧ (getArch t c).park = none ∧ (getArch t c).pc = (getArch s c).pc + 16 ∧ t.mem = s.mem ∧
  ∃ v acq, (getCore t (coreOf c)).landings = (getCore s (coreOf c)).landings ++ [⟨c, v, [.sreg p.dest x 0], none, none, acq⟩]

/-- The new elements of a block of a bank command: the bytes of each, and what g gives from its old bits (11 R291, R294). -/
def bankResults (s : State) (c : Nat) (k : Cmd) (size : Nat) (blk : List Nat) (g : Nat → Nat → Nat × Flags) : List (List Nat × Nat × Flags) :=
  blk.map fun j => let l := bankBytes s c (k.x1 + k.x2) (j * size) size; (l, g j (leNat (l.map (memGet s.mem))))

/-- The context has no direct access in its port, so that no event sends one (12 R313). -/
def noDirects (s : State) (c : Nat) : Prop := ∀ d ∈ s.fab.dirs, d.ctx ≠ c

/-- From s, the qf entry of a SEQ has ended in t with its element (12 R314, R319). -/
def endsQf (s t : State) (c seq status cause info : Nat) (val : W64) : Prop :=
  ∃ st, (getCtx t c).res = (getCtx s c).res ++ [⟨4, statWord status cause seq info, val, st, ccyOf s c⟩]

/-! Coding (14 R355 to R374). -/

/-- No context waits for the coding engine. -/
def noneWaits (s : State) : Prop := ∀ c, codHead s c = none

/-- Packets ps are added to those on their way out. -/
def sends (s t : State) (ps : List Packet) : Prop := t.fab.outbox = s.fab.outbox ++ ps

/-- One message of a kind, with these words, goes to every one of a list of members. -/
def sendsEach (s t : State) (l : List Nat) (kind : PKind) (args : List W64) : Prop :=
  ∃ ps, sends s t ps ∧ ps.map (·.dst) = l.map (memberDev s.cod) ∧ ∀ p ∈ ps, p.kind = kind ∧ p.args = args

/-! Frames over all instructions. -/

/-- The events that may write memory or drop what it held: writes at their homes, the engines' and the Derailleur's writes, what is
logged, saved, rebuilt or rolled back, a repartition, a reset. -/
def writesMemory : Instr → Bool
  | .attest .. | .launchRecordAccept .. | .dispatch .. | .nestCompletionUpdate ..
  | .fixedResultLand .. | .translationWalkComplete .. | .checkPointMatch .. | .checkerMismatch .. | .writeApply ..
  | .mdrainExec .. | .msaveExec .. | .afinExec .. | .copyBlock .. | .bredExec .. | .bfillExec .. | .bclrExec ..
  | .remoteRequestAtTarget .. | .rputExec .. | .rgetExec .. | .mcastExec .. | .deltaArrival .. | .commitDecision
  | .commitArrival .. | .rollbackComplete .. | .broomStreamBlock .. | .abortTokenArrival .. | .statementCollectionExpiry
  | .haltLineRaise | .fhaltRaise .. | .flogWrite .. | .contextSave .. | .lateReplyArrival .. | .lateAccessTimeout ..
  | .contextRestore .. | .clockRestart .. | .codingCommandStart .. | .queryReplyArrival .. | .repartitionComplete ..
  | .granuleRepair .. | .deviceReset => true
  | _ => false

/-- The words that store to the scratchpad at their issue, and the events that may write it. -/
def writesScratch : Instr → Bool
  | .st .. | .stp .. | .stv .. | .stvs .. | .spillm .. | .checkPointMatch .. | .mmulComplete .. | .mdrainExec ..
  | .msaveExec .. | .afinExec .. | .copyBlock .. | .remoteRequestAtTarget .. | .rputExec .. | .rgetExec .. | .mcastExec ..
  | .gredExec .. | .pacelineLanding .. | .contextRestore .. | .deviceReset => true
  | _ => false

end Sys2Proof
end

