-- ==== Sys2Proof/Certificates/Slice0/Obligations.lean ====
section
/-!
DEFINITION. Certificates/Slice0/Obligations.lean: the statements about the model, from the spec's numbered rules.
-/
open Sys2Proof Sys2Proof.Machine

/-! The whole machine (03 R69 to R84; 06 R147 to R149). -/

/-- 06 R148, R149; 03 R70, R82: a step runs what it decodes. When the agenda's head is the issue slot of core k, one context of
the core may issue, and the word at its pc, translated, held by the core's cache, not poisoned and ready to be read, decodes to
i, the step is exec of i by that context, after the results due have landed; the core's selection counts follow. An event at the
agenda's head runs as itself; with an empty agenda the package runs one cycle left to itself (the model's choice, log entry 19).
-/
def Obligations.StepRunsDecoded : Prop :=
  (∀ (s t : State) (rest : List Activity) (k j pa : Nat) (i : Instr),
    let u := landDue { s with agenda := rest }
    let c := 4 * k + j
    s.agenda = .issue k :: rest → k < 128 → j < 4 → coreBusy u k = false → mayIssue u c = true →
    (∀ d, d < 4 → d ≠ j → mayIssue u (4 * k + d) = false) →
    (getArch u c).pc.toNat % 16 = 0 → 0x200000 ≤ (getArch u c).pc.toNat → (getArch u c).pc.toNat < 2 ^ 41 →
    translate u c (getArch u c).pc.toNat .fetch = .hit pa → classOf pa = some .global →
    (getCore u k).lines.contains (pa / lineBytes) = true → poisoned u ((upTo 16).map fun n => pa + n) = false → fetchReady u c pa = true →
    decodeWord (wordAt u c pa) = .ok i → exec i { u with cur := c } = .next t →
    (slotUsed t k = true → Sys2Proof.Machine.step s = .next (afterIssue t k (issueClass u (classes u) c) [j] j)) ∧
    (slotUsed t k = false → (∀ d, d < 4 → d ≠ j → mayIssue t (4 * k + d) = false) →
      Sys2Proof.Machine.step s = .next (noneReady t k))) ∧
  (∀ (s : State) (rest : List Activity) (i : Instr), s.agenda = .event i :: rest → wordOf i = none → wellFormed i = true →
    Sys2Proof.Machine.step s = exec i (landDue { s with agenda := rest })) ∧
  (∀ s : State, s.agenda = [] → Sys2Proof.Machine.step s = cycle s)

/-- 03 R69 to R82: words of the spec's own examples and tables decode to the instructions they stand for. -/
def Obligations.DecodeWords : Prop :=
  let plain : Fields := ⟨0, 0, 0, 0, 0, 0, 0, 0, .none, .none, .none, .none, .none⟩
  decodeWord 0x0040000000002001_E000000400010000 = .ok (.movi { plain with o1 := .s 1, o2 := .long 0x400010000 }) ∧
  decodeWord 0x0380000000002006_200A800300000000 = .ok (.shl { plain with o1 := .s 6, o2 := .s 10, o3 := .imm 3 }) ∧
  decodeWord 0x2000000520002004_2007800000000000 =
    .ok (.ld { plain with setw := 0xA, hint := 1, o1 := .s 4, o2 := .s 7, o3 := .imm 0 }) ∧
  decodeWord 0x0100002000002005_2004200200000000 = .ok (.add { plain with await := 4, o1 := .s 5, o2 := .s 4, o3 := .s 2 }) ∧
  decodeWord 0x2040000000002007_8040200500000000 = .ok (.st { plain with o1 := .s 7, o2 := .imm 64, o3 := .s 5 }) ∧
  decodeWord 0x0D40000000000000_0000000000000000 = .ok (.exit plain)

/-- 03 R69 to R83: encoder and decoder agree. Every well-formed instruction word, with every operand at every value its fields
admit, decodes back to itself, alone and at the head of a byte sequence, and every word that decodes is the encoding of a well-
formed instruction. -/
def Obligations.EncodeDecode : Prop :=
  (∀ (i : Instr) (rest : List Byte), (wordOf i).isSome = true → wellFormed i = true →
    decodeWord (encode i) = .ok i ∧ decode (wordBytes (encode i) ++ rest) = .ok (i, rest)) ∧
  (∀ (w : IWord) (i : Instr), decodeWord w = .ok i → (wordOf i).isSome = true ∧ wellFormed i = true ∧ encode i = w)

/-- No step stops: from every state whose agenda names existing units, whatever its registers, queues and memory hold, a step
answers a next state. -/
def Obligations.StepsGoOn : Prop :=
  ∀ s : State, goodAgenda s = true → ∃ t, Sys2Proof.Machine.step s = .next t

/-- Memory and the scratchpads keep their canonical form in every step: strictly rising addresses, no entry equal to what an
unlisted address reads as; so equal contents are equal data. -/
def Obligations.MemoryForm : Prop :=
  ∀ (s t : State), memWf s.mem = true → memWf s.scratch = true → Sys2Proof.Machine.step s = .next t →
    memWf t.mem = true ∧ memWf t.scratch = true

/-- The values the spec gives for device reset (01 R27, R30; 02 R42, R53; 04 R103, R106, R108; 06 R147, R150, R164, R179; 09
R236, R239 to R242; 10 R273; 11 R283, R285; 12 R310; 13 R334; 15 R394; 16 R397, R400), and, the model's choice (log entry 2),
memory and scratchpads with nothing listed, in their canonical form. -/
def Obligations.ResetState : Prop :=
  let s := State.reset
  s.gts = 0 ∧ s.gtsstat = 0 ∧ s.devno = 0 ∧ (∀ d, mapGet 0 s.wseq d = 0) ∧
  (∀ c, let x := getCtx s c
    x.arch.phase = .free ∧ x.arch.mode = false ∧ x.cmds = [] ∧ x.res = [] ∧ x.arch.tok = 0 ∧
    x.arch.prio = 3 ∧ x.arch.actl = 0 ∧ x.arch.rseed = 0 ∧ x.arch.aflags = 0 ∧ (∀ j, mapGet 0 x.arch.ovm j = 0) ∧ x.arch.tsat = 0 ∧
    x.arch.tcause = 0 ∧ x.arch.tpc = 0 ∧ x.arch.tval = 0 ∧ x.arch.tsv0 = 0 ∧ x.arch.tsv1 = 0 ∧
    x.cpctl = 3 ∧ x.cpmiss = 0 ∧ x.cphold = 0 ∧ x.sess.phase = 0) ∧
  (∀ k, let x := getCore s k
    x.tbase = 0 ∧ x.rewinds = 0 ∧ x.lastj = 0 ∧ x.retired = false ∧ x.held = [] ∧ (∀ cls, mapGet 3 x.rr cls = 3)) ∧
  (∀ k, let x := getCluster s k
    x.ccy = 0 ∧ x.mode = 1 ∧ x.gap = 0 ∧ x.bands = x.bandok ∧ x.origin = 0 ∧ x.stepC = 1 ∧ x.replays = 0 ∧ x.maxRetry = 3 ∧
    x.maxChain = 0x10 ∧ x.mx0.active.tag = 0 ∧ x.mx0.shadow.tag = 0 ∧ x.mx1.active.tag = 0 ∧ x.mx1.shadow.tag = 0 ∧ x.mx0.ready = false ∧ x.mx1.ready = false ∧
    x.thrNow = 0 ∧ x.thrSticky = 0 ∧ x.cappct = 0x64 ∧ x.curPct = 0x64 ∧ x.vmarg = 0x32 ∧ x.gapflr = 0 ∧
    x.replans = 0 ∧ x.slack = 0 ∧ x.band = 0) ∧
  (∀ d, let x := getCommons s d
    x.cur = 2 ∧ x.size = 2 ∧ x.busy = false ∧ x.lost = false ∧ x.spurious = 0 ∧ ∀ b, mapGet 0 x.arrivals b = 0) ∧
  s.fab.ngrp = 0 ∧ s.fab.maxdev = 0 ∧ s.fab.fxexp = 0 ∧ s.fab.fxset = 0 ∧ s.fab.thr = 0x07D0 ∧ s.fab.win = 0x18 ∧
  s.fab.rtmax = 3 ∧ s.fab.pkhi = 0x20 ∧ s.fab.pklo = 4 ∧ s.fab.pkt = 0 ∧ s.fab.minw = 1 ∧ s.fab.pkcold = false ∧ s.fab.rings = [] ∧
  s.mgt.stage = 0 ∧ s.mgt.failed = false ∧ s.mgt.cap = 0x0E10 ∧ s.mgt.draw = 0 ∧ s.mgt.halted = [] ∧ s.mgt.collEn = false ∧
  s.mgt.flogBase = 0 ∧ s.mgt.flogSize = 0 ∧ s.mgt.svBase = 0 ∧ s.mgt.svSlots = 0 ∧ s.cod.st = .idle ∧
  s.mem = [] ∧ s.scratch = [] ∧ memWf s.mem = true

/-- 03 R74, R75, R84; 06 R147, R148: an instruction word issues nothing while its context is not RUNNING, has a trap to take or
waits for a token; with a false guard it only passes (TFOLD once the loads it would wait for have performed), and only a branch
word adds its guard's taint and that of its target or count register to the control taint; a privileged word in task mode takes
the privilege trap, with its opcode in TVAL, whatever its guard. -/
def Obligations.IdleAndGuardedWords : Prop :=
  ∀ (s : State) (i : Instr) (n v : Nat) (f : Fields), wordOf i = some (n, v, f) →
    let priv := n ∈ [0x041, 0x049, 0x04A, 0x04B, 0x04D, 0x064, 0x20C, 0x220]
    ((me s).phase ≠ .running ∨ trapWaits s s.cur = true ∨ tokensWait s s.cur f = true → exec i s = .next s) ∧
    ((me s).phase = .running → trapWaits s s.cur = false → tokensWait s s.cur f = false →
      (priv → (me s).mode = false → exec i s = .next (wordTrap s s.cur 0x02 0 (BitVec.ofNat 64 n) false [] 0)) ∧
      (n = 0x08F → guardVal (me s) f = false → slotsPend s s.cur = true → exec i s = .next s) ∧
      (¬priv ∨ (me s).mode = true → guardVal (me s) f = false → n ≠ 0x08F ∨ slotsPend s s.cur = false → ∃ t hold, exec i s = .next t ∧
        wordLeaves s s t fun a => passed f (a.pc + 16) (now s) hold
          { a with cT := if 0x030 ≤ n ∧ n ≤ 0x034 then a.cT ||| guardTaint (me s) f ||| branchTaint n (me s) f else a.cT }))

/-- 02 R42; 06 R173, R175; 01 R13: a word changes at its issue nothing that other contexts share: no byte of memory, no tile, no
register of another context, of a cluster or of the device, and no scratchpad byte outside its context's window. A slot that is
folded leaves the taint of the context's running matrix commands (02 R52). -/
def Obligations.WordsIsolate : Prop :=
  ∀ (i : Instr) (s t : State), (wordOf i).isSome = true → exec i s = .next t →
    let untaint (m : MxCore) : MxCore := { m with runs := m.runs.map fun r => { r with taint := 0 } }
    let shared (x : Cluster) : Cluster := { x with mx0 := untaint x.mx0, mx1 := untaint x.mx1 }
    t.mem = s.mem ∧ t.poison = s.poison ∧ t.tiles = s.tiles ∧ t.gts = s.gts ∧ (∀ k, shared (getCluster t k) = shared (getCluster s k)) ∧
    t.commons = s.commons ∧
    t.cod = s.cod ∧ t.mgt = s.mgt ∧ (∀ c, c ≠ s.cur → getCtx t c = getCtx s c) ∧ (∀ k, k ≠ myCore s → (getCore t k).held = (getCore s k).held) ∧
    (∀ a, (a < spAddr s s.cur 0 ∨ spAddr s s.cur 0 + spLen s s.cur ≤ a) → memGet t.scratch a = memGet s.scratch a)

/-- The memory frame of every instruction: all but the events that write at a home leave every byte of memory as it was, and all
but the stores to it and the events that write it leave the scratchpads. -/
def Obligations.MemoryWriters : Prop :=
  ∀ (i : Instr) (s t : State), exec i s = .next t →
    (writesMemory i = false → t.mem = s.mem) ∧ (writesScratch i = false → t.scratch = s.scratch)

/-- 03 R74: the guard value, from the two named predicates, each inverted when bit 4 of its field is 1; p0 reads as true; a
result still on its way is not read. -/
def Obligations.GuardValue : Prop :=
  ∀ (a : Arch) (f : Fields),
    let named (g : BitVec 5) : Bool := if g.toNat % 16 = 0 then true else mapGet false a.preg (g.toNat % 16)
    let x (g : BitVec 5) : Bool := if g.toNat / 16 = 1 then !named g else named g
    (f.gc = 0 → guardVal a f = (x f.ga && x f.gb)) ∧ (f.gc = 1 → guardVal a f = (x f.ga || x f.gb)) ∧
    (f.ga = 0 → f.gb = 0 → f.gc = 0 → guardVal a f = true) ∧ (f.ga = 0x10 → f.gc = 0 → guardVal a f = false) ∧
    (∀ l, guardVal { a with fx := l } f = guardVal a f)

/-- 01 R10: the electrical ports: port p joins the member of the device's group with index p below the device's own, and p + 1
from it on; each of the 31 other members is reached by exactly one port. -/
def Obligations.PortMap : Prop :=
  ∀ s : State,
    let own := s.devno % 32
    let member (x : Nat) : Nat := s.devno - own + x
    (∀ p, p < 31 → portOf s (member (if p < own then p else p + 1)) = p) ∧
    (∀ x, x < 32 → x ≠ own → ∃ p, p < 31 ∧ portOf s (member x) = p ∧ (if p < own then p else p + 1) = x ∧
      ∀ q, q < 31 → (if q < own then q else q + 1) = x → q = p)

/-! Scalar words, branches, queues and traps (06). -/

/-- 06 R153, R154: the two-source integer words, in every form and type. x and y are the sources as integers of the type, p and
q their n-bit patterns; the result is on its way to the destination with the latency of R180 and the taint of R46, and nothing
else changes. 04 R109, 06 R153: narrowing. For every scalar type the result read in the type is the exact value where it fits;
without SAT it is congruent to it modulo 2^n and sets nothing, with SAT it is the nearest value of the type and IO says it
clamped. -/
def Obligations.ScalarTwoSource : Prop :=
  (∀ (s : State) (f : Fields), issues s f →
    let sg := (scalarTy f).1
    let n := (scalarTy f).2
    let x := srcInt sg n (valOf (me s) f.o2)
    let y := srcInt sg n (valOf (me s) f.o3)
    let p := (valOf (me s) f.o2).toNat % 2 ^ n
    let q := (valOf (me s) f.o3).toNat % 2 ^ n
    let sat := modBit f 80
    let gives (i : Instr) (lat : Nat) (r : W64 × Flags) : Prop := ∃ t, exec i s = .next t ∧
      givesResults s t f lat (.sreg (idxOf f.o1) r.1 (srcTaint (me s) f [f.o2, f.o3]) :: flagUpd r.2)
    gives (.add f) 1 (narrowInt sat sg n (x + y)) ∧
    gives (.sub f) 1 (narrowInt sat sg n (x - y)) ∧
    gives (.mul f) 3 (narrowInt sat sg n (x * y)) ∧
    gives (.mulh f) 3 (extInt sg n (x * y / 2 ^ n), 0) ∧
    gives (.and f) 1 (extInt sg n ((p &&& q : Nat) : Int), 0) ∧
    gives (.or f) 1 (extInt sg n ((p ||| q : Nat) : Int), 0) ∧
    gives (.xor f) 1 (extInt sg n ((p ^^^ q : Nat) : Int), 0) ∧
    gives (.andn f) 1 (extInt sg n ((p &&& (2 ^ n - 1 - q) : Nat) : Int), 0) ∧
    gives (.shl f) 1 (narrowInt sat sg n (x * 2 ^ (q % n))) ∧
    gives (.shr f) 1 (extInt sg n ((p / 2 ^ (q % n) : Nat) : Int), 0) ∧
    gives (.sar f) 1 (extInt sg n (intOfBits true n p / 2 ^ (q % n)), 0) ∧
    gives (.rot f) 1 (extInt sg n ((p * 2 ^ (q % n) + p / 2 ^ (n - q % n) : Nat) : Int), 0) ∧
    gives (.min f) 1 (extInt sg n (min x y), 0) ∧
    gives (.max f) 1 (extInt sg n (max x y), 0)) ∧
  (∀ (sat sg : Bool) (n : Nat) (x : Int), n ∈ [8, 16, 32, 64] →
    let r := narrowInt sat sg n x
    let v := if sg then r.1.toInt else (r.1.toNat : Int)
    intMin sg n ≤ v ∧ v ≤ intMax sg n ∧
    (intMin sg n ≤ x → x ≤ intMax sg n → v = x ∧ r.2 = 0) ∧
    (sat = false → v % 2 ^ n = x % 2 ^ n ∧ r.2 = 0) ∧
    (sat = true → x < intMin sg n → v = intMin sg n ∧ r.2 = flIO) ∧
    (sat = true → intMax sg n < x → v = intMax sg n ∧ r.2 = flIO))

/-- 06 R154, R155: the divide words; the minimum over −1 gives the minimum, or the maximum and IO under SAT, and the remainder
0; a zero divisor gives all ones and the dividend, or the divide-by-zero trap under ACTL.DZTRAP with TVAL the dividend and the
destination not written. -/
def Obligations.ScalarDivide : Prop :=
  ∀ (s : State) (f : Fields), issues s f →
    let sg := (scalarTy f).1
    let n := (scalarTy f).2
    let x := srcInt sg n (valOf (me s) f.o2)
    let y := srcInt sg n (valOf (me s) f.o3)
    let gives (i : Instr) (r : W64 × Flags) : Prop := ∃ t, exec i s = .next t ∧
      givesResults s t f 18 (.sreg (idxOf f.o1) r.1 (srcTaint (me s) f [f.o2, f.o3]) :: flagUpd r.2)
    (y ≠ 0 → gives (.div f) (narrowInt (modBit f 80) sg n (x.tdiv y)) ∧ gives (.rem f) (extInt sg n (x - y * x.tdiv y), 0)) ∧
    (sg = true → x = intMin sg n → y = -1 → (modBit f 80 = false → gives (.div f) (extInt sg n (intMin sg n), 0)) ∧
      (modBit f 80 = true → gives (.div f) (extInt sg n (intMax sg n), flIO)) ∧ gives (.rem f) (0, 0)) ∧
    (y = 0 → (me s).actl.getLsbD 0 = false → gives (.div f) (extInt sg n (-1), 0) ∧ gives (.rem f) (extInt sg n x, 0)) ∧
    (y = 0 → (me s).actl.getLsbD 0 = true →
      exec (.div f) s = .next (wordTrap s s.cur 0x0A 0 (valOf (me s) f.o2) false [] 0) ∧
      exec (.rem f) s = .next (wordTrap s s.cur 0x0A 0 (valOf (me s) f.o2) false [] 0))

/-- 06 R156: the moves, counts, extensions, bit fields, LEA, MADA and SEL; NOP gives nothing. -/
def Obligations.ScalarMoves : Prop :=
  ∀ (s : State) (f : Fields), issues s f →
    let a := me s
    let sg := (scalarTy f).1
    let n := (scalarTy f).2
    let v2 := valOf a f.o2
    let v3 := valOf a f.o3
    let pos := v3.toNat % 64
    let wid := min ((valOf a f.o4).toNat % 128) (64 - pos)
    let gives (i : Instr) (lat : Nat) (us : List Upd) : Prop := ∃ t, exec i s = .next t ∧ givesResults s t f lat us
    let d := idxOf f.o1
    gives (.nop f) 1 [] ∧
    gives (.movi f) 1 [.sreg d v2 (guardTaint a f)] ∧
    gives (.movhi f) 1 [.sreg d (BitVec.ofNat 64 (v3.toNat % 2 ^ 16 * 2 ^ 48 + v2.toNat % 2 ^ 48)) (srcTaint a f [f.o2, f.o3])] ∧
    ((∀ m, f.o1 ≠ .m m) → gives (.mov f) 1 [.sreg d v2 (srcTaint a f [f.o2])]) ∧
    (∀ m, f.o1 = .m m → gives (.mov f) 1 [.mreg d v2 (srcTaint a f [f.o2])]) ∧
    gives (.abs f) 1 (let r := narrowInt (modBit f 80) sg n ((srcInt sg n v2).natAbs : Int)
      .sreg d r.1 (srcTaint a f [f.o2]) :: flagUpd r.2) ∧
    gives (.clz f) 1 [.sreg d (BitVec.ofNat 64 (leadZeros n (v2.toNat % 2 ^ n))) (srcTaint a f [f.o2])] ∧
    gives (.ctz f) 1 [.sreg d (BitVec.ofNat 64 (trailZeros n (v2.toNat % 2 ^ n))) (srcTaint a f [f.o2])] ∧
    gives (.popc f) 1 [.sreg d (BitVec.ofNat 64 (popCount n (v2.toNat % 2 ^ n))) (srcTaint a f [f.o2])] ∧
    gives (.sext f) 1 [.sreg d (BitVec.ofInt 64 (intOfBits true (extWidth v3) v2.toNat)) (srcTaint a f [f.o2, f.o3])] ∧
    gives (.zext f) 1 [.sreg d (BitVec.ofNat 64 (v2.toNat % 2 ^ extWidth v3)) (srcTaint a f [f.o2, f.o3])] ∧
    gives (.bfx f) 1 [.sreg d (if wid = 0 then 0 else BitVec.ofInt 64 (intOfBits (modBit f 80) wid (v2.toNat / 2 ^ pos % 2 ^ wid)))
      (srcTaint a f [f.o2, f.o3, f.o4])] ∧
    (∃ r, gives (.bfi f) 1 [.sreg d r (srcTaint a f [f.o2, f.o3, f.o4, f.o5])] ∧ ∀ k, k < 64 →
      let pos := (valOf a f.o4).toNat % 64
      let wid := min ((valOf a f.o5).toNat % 128) (64 - pos)
      r.getLsbD k = if pos ≤ k ∧ k < pos + wid then v3.getLsbD (k - pos) else v2.getLsbD k) ∧
    gives (.lea f) 1 [.sreg d (v2 + v3 * BitVec.ofNat 64 (2 ^ ((valOf a f.o4).toNat % 64))) (srcTaint a f [f.o2, f.o3, f.o4])] ∧
    gives (.mada f) 3 (let r := narrowInt (modBit f 80) sg n (srcInt sg n v2 * srcInt sg n v3 + srcInt sg n (valOf a f.o4))
      .sreg d r.1 (srcTaint a f [f.o2, f.o3, f.o4]) :: flagUpd r.2) ∧
    gives (.sel f) 1 [.sreg d (if rdP a (idxOf f.o2) then v3 else valOf a f.o4) (srcTaint a f [f.o2, f.o3, f.o4])]

/-- 06 R157, R158: the words that write a predicate: CMP's seven relations in the type's signedness, FCMP's relations, PLOG's
eight operations, and PMOV's three forms. -/
def Obligations.Predicates : Prop :=
  ∀ (s : State) (f : Fields), issues s f →
    let a := me s
    let sg := (scalarTy f).1
    let n := (scalarTy f).2
    let x := srcInt sg n (valOf a f.o2)
    let y := srcInt sg n (valOf a f.o3)
    let fm := scalarFmt f
    let gives (i : Instr) (lat : Nat) (b : Bool) (l : List Operand) : Prop := ∃ t, exec i s = .next t ∧
      givesResults s t f lat [.preg (idxOf f.o1) b (srcTaint a f l)]
    let cmp (cc : Nat) (b : Bool) : Prop := modBits f 83 80 = cc → gives (.cmp f) 1 b [f.o2, f.o3]
    let plog (op : Nat) (b : Bool) : Prop := modBits f 82 80 = op → gives (.plog f) 1 b [f.o2, f.o3]
    let p := rdP a (idxOf f.o2)
    let q := rdP a (idxOf f.o3)
    cmp 0 (decide (x = y)) ∧ cmp 1 (decide (x ≠ y)) ∧ cmp 2 (decide (x < y)) ∧ cmp 3 (decide (x ≤ y)) ∧
    cmp 4 (decide (x > y)) ∧ cmp 5 (decide (x ≥ y)) ∧
    cmp 6 (decide ((valOf a f.o2).toNat % 2 ^ n &&& (valOf a f.o3).toNat % 2 ^ n ≠ 0)) ∧
    gives (.fcmp f) 2 (fvRel (modBits f 83 80) (srcFlt a fm f.o2) (srcFlt a fm f.o3)) [f.o2, f.o3] ∧
    plog 0 (p && q) ∧ plog 1 (p || q) ∧ plog 2 (p ^^ q) ∧ plog 3 (p && !q) ∧
    plog 4 (!(p && q)) ∧ plog 5 (!(p || q)) ∧ plog 6 (!(p ^^ q)) ∧ plog 7 (p || !q) ∧
    (∀ d, f.o1 = .p d → gives (.pmov f) 1 (decide (valOf a f.o2 ≠ 0)) [f.o2]) ∧
    (∀ d, f.o1 = .s d → ∃ t, exec (.pmov f) s = .next t ∧ givesResults s t f 1 [.sreg d.toNat (valOf a f.o2) (srcTaint a f [f.o2])])

/-- 06 R158; 04 R97, R101, R104: the scalar floating words compute the exact value and round it once in the format and mode the
word names; the flags land with the result. Under stochastic rounding (code 100) the word also counts in RSCOUNT and its key is
captured: u is that state. A result the overflow policy traps writes nothing and takes the overflow trap with lane mask 1. -/
def Obligations.ScalarFloat : Prop :=
  ∀ (s : State) (f : Fields), issues s f →
    let a := me s
    let fm := scalarFmt f
    let code := modBits f 84 82
    let u := (rsFor s s.cur code).1
    let rm := rmOf code (rsFor s s.cur code).2 0 0
    let ov := ovOf (modBits f 81 80)
    let x := srcFlt a fm f.o2
    let y := srcFlt a fm f.o3
    let z := srcFlt a fm f.o4
    let gives (i : Instr) (r : FRes) (v : W64) (l : List Operand) : Prop :=
      (r.trap = false → ∃ t, exec i s = .next t ∧ givesFrom s u t f 4 (.sreg (idxOf f.o1) v (srcTaint a f l) :: flagUpd r.flags)) ∧
      (r.trap = true → exec i s = .next (wordTrap s s.cur 0x0B 0 1 false [(0, 1)] 0))
    let rounded (v : FV × Flags) : FRes := let r := fvToFmt fm rm ov v.1
      { r with flags := r.flags ||| v.2 }
    let cvt := tyConvert (cvtTy (valOf a f.o3).toNat) (cvtTy (modTy f)) rm ov ((valOf a f.o2).toNat % 2 ^ tyBits (cvtTy (valOf a f.o3).toNat))
    (code ≠ 4 → u = s) ∧
    gives (.fadd f) (rounded (fvAdd rm x y)) (BitVec.ofNat 64 (rounded (fvAdd rm x y)).bits) [f.o2, f.o3] ∧
    gives (.fmul f) (rounded (fvMul x y)) (BitVec.ofNat 64 (rounded (fvMul x y)).bits) [f.o2, f.o3] ∧
    gives (.ffma f) (rounded (fvFma rm x y z)) (BitVec.ofNat 64 (rounded (fvFma rm x y z)).bits) [f.o2, f.o3, f.o4] ∧
    gives (.fcvt f) cvt (cvtOut (cvtTy (modTy f)) cvt.bits) [f.o2]

/-- 06 R152, R159; 02 R48: the branch words with a true guard. A taken branch continues at its target with a hold of 2; taken or
not, the control taint takes the guard's taint and what the word names; CALL's link and LOOP's count land a cycle later. 06
R160, R161, R173: YIELD gives up the slot for max(n, 1) cycles; EXIT moves the context to EXITING and is a check point. -/
def Obligations.BranchesYieldExit : Prop :=
  (∀ (s : State) (f : Fields), issues s f →
    let a := me s
    let goes (i : Instr) (target : W64) (hold : Nat) (t : Taint) (us : List Upd) : Prop := ∃ u, exec i s = .next u ∧
      wordLeaves s s u fun b => passed f target (now s) hold { withResults (now s + 1) us b with cT := b.cT ||| guardTaint a f ||| t }
    let next := a.pc + 16
    goes (.br f) (a.pc + valOf a f.o1 * 16) 2 0 [] ∧
    goes (.bri f) (valOf a f.o1) 2 (taintOf a f.o1) [] ∧
    (∀ i, f.o2 = .s i → goes (.call f) (rdS a i.toNat) 2 (taintOf a f.o2) [.sreg (idxOf f.o1) next (guardTaint a f ||| taintOf a f.o2)]) ∧
    (∀ x, f.o2 = .imm x → goes (.call f) (a.pc + x.signExtend 64 * 16) 2 0 [.sreg (idxOf f.o1) next (guardTaint a f)]) ∧
    goes (.ret f) (valOf a f.o1) 2 (taintOf a f.o1) [] ∧
    (let n := valOf a f.o1 - 1
     goes (.loop f) (if n = 0 then next else a.pc + valOf a f.o2 * 16) (if n = 0 then 1 else 2) (taintOf a f.o1)
      [.sreg (idxOf f.o1) n (guardTaint a f ||| taintOf a f.o1)])) ∧
  (∀ (s : State) (f : Fields), issues s f →
    (∃ t, exec (.yield f) s = .next t ∧ wordLeaves s s t fun a =>
      passed f (a.pc + 16) (now s) (if f.o1 = .none then 1 else max (valOf (me s) f.o1).toNat 1) a) ∧
    (∃ t, exec (.exit f) s = .next t ∧ wordLeaves s (holding s .mark) t fun a =>
      passed f (a.pc + 16) (now s) 1 { a with phase := .exiting }))

/-- 06 R161, 01 R18: POPQ takes the oldest element written before this cycle off its queue: two scalars, or two lanes pairs of a
quarter with zeros above, pF true under .F, the AFLAGS of qm and qa elements, and the element's vector joins B. With none, .F
gives pF false and leaves D and V; without .F it stalls, or traps on an empty queue. 06 R161: QSTAT reads a queue's state
without changing it; DRAINQ discards the elements present, with .W only once nothing of the queue is outstanding, and reports
the largest STATUS and the count. -/
def Obligations.QueueWords : Prop :=
  (∀ (s : State) (f : Fields), issues s f → replaying s s.cur = false →
    let a := me s
    let q := idxOf f.o3
    let pf (b : Bool) : Upd := .preg (idxOf f.o4) b (guardTaint a f)
    (∀ e, readyElem s s.cur q = some e →
      let u := updArch (updCtx (recorded s [1, e.stat, e.val, e.vec.d0, e.vec.d1, e.vec.d2, e.vec.d3, BitVec.ofNat 64 e.q]) s.cur
        fun x => settle { x with res := x.res.erase e } q) s.cur fun b => { b with base := stampMax b.base e.vec }
      let us (l : List Upd) : List Upd := l ++ (if modBit f 80 then [pf true] else []) ++
        (if q = 0 ∨ q = 1 then flagUpd (e.stat.truncate 6) else [])
      ((∀ i w, f.o1 ≠ .vq i w) → ∃ t, exec (.popq f) s = .next t ∧
        givesFrom s u t f 2 (us [.sreg (idxOf f.o1) e.stat 0, .sreg (idxOf f.o2) e.val 0])) ∧
      (∀ i w, f.o1 = .vq i w → ∃ t v tt, exec (.popq f) s = .next t ∧
        givesFrom s u t f 2 (us [.lanes i.toNat (0xFFFF <<< (16 * w.toNat)) v tt]) ∧
        quarterOf v w.toNat = (0 : BitVec 384) ++ e.val ++ e.stat)) ∧
    (readyElem s s.cur q = none → modBit f 80 = true → ∃ t, exec (.popq f) s = .next t ∧ givesFrom s (recorded s [0]) t f 2 [pf false]) ∧
    (readyElem s s.cur q = none → modBit f 80 = false → resOf s s.cur q ≠ [] → exec (.popq f) s = .next s) ∧
    (modBit f 80 = false → resOf s s.cur q = [] → occupied s s.cur q = 0 → runsOf s s.cur q = [] → (q = 6 → (getCtx s s.cur).qdRsv = 0) →
      exec (.popq f) s = .next (wordTrap s s.cur 0x12 0 (BitVec.ofNat 64 q) false [] 0))) ∧
  (∀ (s : State) (f : Fields), issues s f → replaying s s.cur = false →
    let q := idxOf f.o2
    let l := resOf s s.cur q
    let worst := l.foldl (fun m e => max m (e.stat.toNat / 2 ^ 60)) 0
    (∃ t x, exec (.qstat f) s = .next t ∧ givesFrom s (recorded s [x]) t f 2 [.sreg (idxOf f.o1) x (guardTaint (me s) f)] ∧
      (l.length ≤ 16 → occupied s s.cur q ≤ 16 → (getCtx s s.cur).qdRsv ≤ 16 →
        bitsOf x.toNat 63 48 = mapGet 0 (me s).qseq q % 2 ^ 16 ∧ bitsOf x.toNat 39 36 = worst ∧
        bitsOf x.toNat 28 24 = (if q = 6 then (getCtx s s.cur).qdRsv else 0) ∧
        bitsOf x.toNat 12 8 = l.length ∧ bitsOf x.toNat 4 0 = (if q = 6 then 0 else occupied s s.cur q))) ∧
    (let x := BitVec.ofNat 64 (worst * 2 ^ 60 + l.length)
     let u := updCtx (recorded s (x :: l.flatMap elemVals)) s.cur fun c => settle { c with res := c.res.filter fun e => e.q != q } q
     (modBit f 80 = false ∨ (occupied s s.cur q = 0 ∧ (q = 6 → (getCtx s s.cur).qdRsv = 0)) → ∃ t, exec (.drainq f) s = .next t ∧
      givesFrom s u t f 2 [.sreg (idxOf f.o1) x (guardTaint (me s) f)]) ∧
     (modBit f 80 = true → occupied s s.cur q ≠ 0 ∨ (q = 6 ∧ (getCtx s s.cur).qdRsv ≠ 0) → exec (.drainq f) s = .next s)))

/-- 06 R165, R166: a word's trap that nothing holds back is entered at once: with IN 0 and a handler, TPC, TVAL and TCAUSE are
written, the mode becomes supervisor and the pc TBASE.ADDR × 16; otherwise the context halts. A trap held back waits in the
context. 06 R167: TRAP takes the trap 0x0D with TPC at the next word, BRK the trap 0x0E with TPC at its own; TVAL is the
operand. In supervisor mode TRET continues at TPC in the mode TCAUSE.PM, clears IN, and leaves the rest. -/
def Obligations.TrapsAndReturn : Prop :=
  (∀ (s : State) (cause sub : Nat) (val : W64) (next : Bool), (me s).phase = .running → trapWaits s s.cur = false → cause < 256 → cause ≠ 0x0B →
    (trapAtOnce s → handlerReady s →
      entersTrap s (wordTrap s s.cur cause sub val next [] 0) (BitVec.ofNat 8 cause) (BitVec.ofNat 8 sub) val
        (if next then (me s).pc + 16 else (me s).pc)) ∧
    (trapAtOnce s → ¬ handlerReady s →
      let t := wordTrap s s.cur cause sub val next [] 0
      (me t).phase = .halted ∧ t.fatals = s.fatals ++ [(s.cur, 1, s.gts, val)] ∧ t.mem = s.mem) ∧
    ((me s).fx ≠ [] ∨ (getCore s (myCore s)).held ≠ [] ∨ frozenAt s s.cur = true →
      let t := wordTrap s s.cur cause sub val next [] 0
      (me t).pc = (me s).pc ∧ (me t).pend = some ⟨BitVec.ofNat 8 cause, BitVec.ofNat 8 sub, val,
        if next then (me s).pc + 16 else (me s).pc, [], now s⟩ ∧ t.mem = s.mem)) ∧
  (∀ (s : State) (f : Fields), issues s f →
    (trapAtOnce s → handlerReady s →
      (∃ t, exec (.trap f) s = .next t ∧ entersTrap s t 0x0D 0 (valOf (me s) f.o1) ((me s).pc + 16)) ∧
      (∃ t, exec (.brk f) s = .next t ∧ entersTrap s t 0x0E 0 (valOf (me s) f.o1) (me s).pc)) ∧
    ((me s).mode = true → ∃ t, exec (.tret f) s = .next t ∧ wordLeaves s s t fun a =>
      { passed f a.tpc (now s) 2 a with
        hold := now s + 2
        mode := a.tcause.getLsbD 62
        tcause := a.tcause &&& 0x7FFFFFFFFFFFFFFF
        latch := if a.tval.getLsbD 63 then some (bitsOf a.tval.toNat 62 56) else none }) ∧
    ((me s).mode = false → exec (.tret f) s = .next (wordTrap s s.cur 0x02 0 0x041 false [] 0)))

/-! System registers, clocks and the Derailleur's words (05, 06). -/

/-- 06 R162, R168: SYSRD. A register the mode may not read takes the privilege trap with the opcode and the number in TVAL; the
context's own registers give what they hold; any other gives its value at the issue, recorded for re-execution. 06 R162, R168,
R173: SYSWR. Without write permission it takes the privilege trap; with it, it is a check point, its write is on its way for
issue + 2, and the next word is ready no earlier. 06 R162, R164, 04 R103, R106: what a write that lands does to the context's
registers and TBASE, by the access codes of 00 R5: AFLAGS clears by ones, reserved bits keep 0, CTXID, GTS, SPWIN and OVM are
read-only; every other register of the context stays. -/
def Obligations.SystemRegisters : Prop :=
  (∀ (s : State) (f : Fields), issues s f →
    let n := regNo f.o2
    let a := me s
    let reads (m : Nat) (x : W64) : Prop := n = m → ∃ t, exec (.sysrd f) s = .next t ∧ givesResults s t f 2 [.sreg (idxOf f.o1) x 0]
    (regPerm a.mode n = 0 → exec (.sysrd f) s = .next (wordTrap s s.cur 0x02 0 (w64 (n % 1024 * 2 ^ 16 + 0x043)) false [] 0)) ∧
    reads 0x000 (ctxidWord s s.cur) ∧ reads 0x005 (spwinWord s s.cur) ∧
    reads 0x008 (a.aflags.zeroExtend 64) ∧ reads 0x009 a.actl ∧ reads 0x00A a.rseed ∧ reads 0x00B (a.tsat.zeroExtend 64) ∧
    (∀ k, k < 8 → reads (0x010 + k) (mapGet 0 a.ovm k)) ∧
    (a.mode = true → reads 0x021 a.tcause ∧ reads 0x022 a.tpc ∧ reads 0x023 a.tval ∧ reads 0x024 a.tsv0 ∧ reads 0x025 a.tsv1) ∧
    (n = 1 → (getCtx s s.cur).gtsFloor = none → replaying s s.cur = false → ∃ t, exec (.sysrd f) s = .next t ∧
      givesFrom s (updCtx (recorded s [s.gts]) s.cur fun y => { y with gtsFloor := none, arch := { y.arch with lastGts := s.gts } }) t f 2
        [.sreg (idxOf f.o1) s.gts 0]) ∧
    (regPerm a.mode n ≠ 0 → n ≠ 1 → archReg s s.cur n = none → replaying s s.cur = false → ∃ t, exec (.sysrd f) s = .next t ∧
      givesFrom s (recorded s [sharedReg s s.cur n]) t f 2 [.sreg (idxOf f.o1) (sharedReg s s.cur n) 0])) ∧
  (∀ (s : State) (f : Fields), issues s f →
    let n := regNo f.o1
    (regPerm (me s).mode n < 2 →
      exec (.syswr f) s = .next (wordTrap s s.cur 0x02 0 (w64 (n % 1024 * 2 ^ 16 + 0x044)) false [] 0)) ∧
    (regPerm (me s).mode n = 2 → ∃ t, exec (.syswr f) s = .next t ∧ wordLeaves s (holding s .mark) t fun a =>
      passed f (a.pc + 16) (now s) 2 (withResults (now s + 2) [.sysreg n (valOf (me s) f.o2)] a))) ∧
  (∀ (s : State) (c : Nat) (x : W64),
    let a := getArch s c
    let writes (n : Nat) (b : Arch) : Prop := getArch (regWrite s c n x) c = b ∧ (regWrite s c n x).mem = s.mem ∧
      ∀ d, d ≠ c → getCtx (regWrite s c n x) d = getCtx s d
    writes 0x004 { a with prio := x.truncate 2 } ∧
    writes 0x008 { a with aflags := a.aflags &&& ~~~(x.truncate 6) } ∧
    writes 0x009 { a with actl := x &&& 0xFFFFFFFF00000003 } ∧
    writes 0x00A { a with rseed := x } ∧
    writes 0x00B { a with tsat := x.truncate 32 } ∧
    writes 0x021 { a with tcause := x &&& 0xC00000000000FFFF } ∧
    writes 0x022 { a with tpc := x } ∧ writes 0x023 { a with tval := x } ∧
    writes 0x024 { a with tsv0 := x } ∧ writes 0x025 { a with tsv1 := x } ∧
    (∀ n ∈ [0x000, 0x001, 0x002, 0x003, 0x005, 0x010, 0x017, 0x028], regWrite s c n x = s) ∧
    (getCore (regWrite s c 0x020 x) (coreOf c)).tbase = x &&& 0x1FFFFFFFFF0)

/-- 01 R28, R31; 06 R150, R168: the clocks and PRIO. GTSRD, CCYRD and a WAITG whose tick has come read at the issue; a WAITG
before its tick parks the context, which changes no register; PRIO returns the register and sets REQ. 06 R169 to R173: TRACE
holds a check point; in supervisor mode CTXSV and CTXRS reserve a qd entry and hold their request with the translated image
address, TLBINV drops the named translations once none of them is pinned, and QUIESCE withholds dispatch and answers 0 once the
scope is quiet, 1 at its limit. -/
def Obligations.ClockAndSystemWords : Prop :=
  (∀ (s : State) (f : Fields), issues s f → replaying s s.cur = false →
    let a := me s
    let gts (v : State) : State := updCtx v s.cur fun y => { y with gtsFloor := none, arch := { y.arch with lastGts := s.gts } }
    ((getCtx s s.cur).gtsFloor = none → ∃ t, exec (.gtsrd f) s = .next t ∧
      givesFrom s (gts (recorded s [s.gts])) t f 2 [.sreg (idxOf f.o1) s.gts 0]) ∧
    (∃ t, exec (.ccyrd f) s = .next t ∧
      givesFrom s (recorded s [(getCluster s (clusterOf s.cur)).ccy]) t f 1 [.sreg (idxOf f.o1) (getCluster s (clusterOf s.cur)).ccy 0]) ∧
    ((getCtx s s.cur).gtsFloor = none → replayWait s s.cur = none → (valOf a f.o2).toNat ≤ s.gts.toNat →
      ∃ t, exec (.waitg f) s = .next t ∧ givesFrom s (gts (recorded s [s.gts])) t f 2 [.sreg (idxOf f.o1) s.gts 0]) ∧
    (replayWait s s.cur = none → s.gts.toNat < (valOf a f.o2).toNat → ∃ t, exec (.waitg f) s = .next t ∧
      getArch t s.cur = { a with phase := .waiting, block := none, latch := none, park := some ⟨.waitg, idxOf f.o1, some (valOf a f.o2), 0, valOf a f.o2, 0⟩ } ∧
      (∀ d, d ≠ s.cur → getCtx t d = getCtx s d) ∧ t = { s with ctxs := t.ctxs, cores := t.cores }) ∧
    (∃ t, exec (.prio f) s = .next t ∧
      givesFrom s (recorded s [prioWord s s.cur]) t f 1 [.sreg (idxOf f.o1) (prioWord s s.cur) 0, .prio ((valOf a f.o2).truncate 2)])) ∧
  (∀ (s : State) (f : Fields), issues s f →
    let a := me s
    let c := s.cur
    (roomForEffect s → ∃ t, exec (.trace f) s = .next t ∧ wordLeaves s (holding s .trace) t fun b => passed f (b.pc + 16) (now s) 1 b) ∧
    (a.mode = true → roomForEffect s → qdRoom s c = true →
      let asks (i : Instr) (pa : Nat) : Prop :=
        ∃ t, exec i s = .next t ∧ reservesQd s t f { mkCmd s c f 6 i 0 with aux := [pa, serialOf s c] }
      (∀ pa, imageAddr s c f .write = .ok pa → asks (.ctxsv f) pa) ∧ (∀ pa, imageAddr s c f .read = .ok pa → asks (.ctxrs f) pa)) ∧
    (a.mode = true → modBit f 82 = false → pinnedPages s (coreOf c) = [] →
      (∃ t, exec (.tlbinvAll f) s = .next t ∧ wordLeaves s (updCore s (coreOf c) fun k => { k with tlb := [], wfaults := [] }) t
        fun b => passed f (b.pc + 16) (now s) 16 b) ∧
      (∃ t, exec (.tlbinvPage f) s = .next t ∧
        wordLeaves s (updCore s (coreOf c) fun k => { k with
          tlb := k.tlb.filter fun e => !(e.vpage == (valOf a f.o1).toNat / 2 ^ (16 + 10 * e.level))
          wfaults := k.wfaults.filter fun w => !(w.vpage == (valOf a f.o1).toNat / 2 ^ 16) }) t fun b => passed f (b.pc + 16) (now s) 16 b)) ∧
    (a.mode = true → modBit f 82 = true → (∀ k, pinnedPages s k = []) → ∃ t u, exec (.tlbinvAll f) s = .next t ∧
      wordLeaves s u t (fun b => passed f (b.pc + 16) (now s) 320 b) ∧ u.walker = [] ∧ ∀ k, (getCore u k).tlb = [] ∧ (getCore u k).wfaults = []) ∧
    (a.mode = true → replaying s c = false →
      let kind := modBits f 81 80
      let w := withholdSet s c kind
      let quiet := ((scopeOf c kind).filter (· != c)).all (quietCtx s)
      (quiet = true → ∃ t, exec (.quiesce f) s = .next t ∧ givesFrom s (recorded w [0]) t f 1 [.sreg (idxOf f.o1) 0 (srcTaint a f [f.o2])]) ∧
      (quiet = false → (valOf a f.o2).toNat ≤ s.gts.toNat → ∃ t, exec (.quiesce f) s = .next t ∧
        givesFrom s (recorded w [1]) t f 1 [.sreg (idxOf f.o1) 1 (srcTaint a f [f.o2])]) ∧
      (quiet = false → s.gts.toNat < (valOf a f.o2).toNat → exec (.quiesce f) s = .next w) ∧
      (∃ t u x, exec (.quiesceEnd f) s = .next t ∧ givesFrom s u t f 1 [.sreg (idxOf f.o1) x (guardTaint a f)] ∧
        u.withheld = s.withheld.filter (fun z => !(z.serial == serialOf s c && z.kind == kind)) ∧ u.ctxs = s.ctxs ∧ u.mem = s.mem)))

/-- 05 R142: LAUNCH. The record is read whole from its 64 scratchpad bytes; its code says what becomes of it. Accepted (code 0
or 1), the record is a new nest of the region with the region's next ticket, held until its check point, with a qd entry under
.NTFY; refused, no nest is made. The code, and the ticket of an accepted record, land 48 cycles after the issue. 05 R142:
LAUNCH's codes, in their order: 3 a handle that names no live region, 6 one the launcher may not launch into, 4 a malformed
record, 5 no qd entry for .NTFY, 0 a hardware entry free, 1 spilled to a free overflow slot, else 2. -/
def Obligations.LaunchWords : Prop :=
  (∀ (s : State) (f : Fields) (loc : Loc) (g : Nat), issues s f → replaying s s.cur = false → roomForEffect s →
    (me s).fence = none → earlierStrongRead s s.cur s.nextId = false → mapFind s.nests s.nextNest = none → s.nextNest < 2 ^ 64 →
    locate s s.cur .read (addrOf (me s) f.o3 f.o4) (upTo 64) 64 (· == .scratch) = .ok loc →
    spLocked s (myCore s) loc.addrs false = false → resolve s s.cur (valOf (me s) f.o2) = some g →
    let rcd : Quarter := BitVec.ofNat 512 (leNat (spRead s loc.addrs))
    let ntfy := modBit f 80
    let code := launchCode s s.cur (some g) rcd ntfy (modBit f 81)
    let tick := (getRegion s g).nextTicket
    let x := w64 (if code ≤ 1 then tick * 2 ^ 32 + code else code)
    ∃ t u, exec (.launch f) s = .next t ∧
      wordLeaves s u t (fun a => passed f (a.pc + 16) (now s) 48 (withResults (now s + 48) [.sreg (idxOf f.o1) x 0] a)) ∧
      u.mem = s.mem ∧ u.scratch = s.scratch ∧
      (code ≤ 1 → u.nextNest = s.nextNest + 1 ∧ effects u (myCore s) = effects s (myCore s) ++ [.launch s.nextNest] ∧
        (∃ n, mapFind u.nests s.nextNest = some n ∧ n.region = g ∧ n.ticket = tick % 2 ^ 32 ∧ n.recd = rcd ∧ n.launcher = some (s.cur, serialOf s s.cur)) ∧
        (getRegion u g).nextTicket = nextTicket tick ∧
        (getCtx u s.cur).qdRsv = (getCtx s s.cur).qdRsv + (if ntfy then 1 else 0)) ∧
      (1 < code → u.nests = s.nests ∧ u.nextNest = s.nextNest ∧ effects u (myCore s) = effects s (myCore s) ∧ u.ctxs = s.ctxs)) ∧
  (∀ (s : State) (c : Nat) (rcd : Quarter) (ntfy nospill : Bool) (g : Nat),
    let code := launchCode s c (some g) rcd ntfy nospill
    launchCode s c none rcd ntfy nospill = 3 ∧
    (live s g = false → code = 3) ∧
    (live s g = true → permitted s c g = false → code = 6) ∧
    (live s g = true → permitted s c g = true → malformed rcd = true → code = 4) ∧
    (live s g = true → permitted s c g = true → malformed rcd = false → ntfy = true → qdRoom s c = false → code = 5) ∧
    (live s g = true → permitted s c g = true → malformed rcd = false → (ntfy = true → qdRoom s c = true) →
      (hwHeld s g < (getRegion s g).lqmax → code = 0) ∧
      ((getRegion s g).lqmax ≤ hwHeld s g → nospill = true → code = 2) ∧
      ((getRegion s g).lqmax ≤ hwHeld s g → nospill = false →
        (overflowSlot s g = none → code = 2) ∧
        ∀ k, overflowSlot s g = some k → code = if (overflowAt s g k).isSome then 1 else 2)))

/-- 05 R143: NWAIT's first read. With the counter's address in Global or Commons it makes a strong read with every observer,
which carries the target and the deadline to the counter's home; its own context waits for it, and the pc stays at the word. 05
R144: NSTAT gives a nest's, a region's or a counter's word as it stands, zero (for a counter all ones) of a region the context
may not see, 32 cycles after the issue, and changes nothing. -/
def Obligations.NestWords : Prop :=
  (∀ (s : State) (f : Fields) (loc : Loc), issues s f → (me s).fence = none → replayWait s s.cur = none →
    locate s s.cur .read (addrOf (me s) f.o2 f.o3) (upTo 8) 8 (fun k => k == .global || k == .commons) = .ok loc →
    ∃ t x, exec (.nwait f) s = .next t ∧ t.accs = s.accs ++ [x] ∧
      x.kind = .rd ∧ x.ctx = s.cur ∧ x.addrs = loc.addrs ∧ x.strong = some 0x3F ∧
      x.dest = .nwait (idxOf f.o1) ((valOf (me s) f.o4).truncate 32) (if f.o5 = .none then none else some (valOf (me s) f.o5)) ∧
      (me t).block = some (me s).seq ∧ (me t).pc = (me s).pc ∧ (me t).sreg = (me s).sreg ∧ t.mem = s.mem ∧
      ∀ d, d ≠ s.cur → getCtx t d = getCtx s d) ∧
  (∀ (s : State) (f : Fields), issues s f → replaying s s.cur = false →
    let sel := modBits f 81 80
    let x := valOf (me s) f.o3
    let gives (v : W64) : Prop := ∃ t, exec (.nstat f) s = .next t ∧ wordLeaves s (recorded s [v]) t fun a =>
      passed f (a.pc + 16) (now s) 32 (withResults (now s + 32) [.sreg (idxOf f.o1) v 0] a)
    let r := resolve s s.cur (valOf (me s) f.o2)
    ((r = none ∨ ∃ g, r = some g ∧ permitted s s.cur g = false) → gives (if sel = 2 then BitVec.allOnes 64 else 0)) ∧
    (∀ g, r = some g → permitted s s.cur g = true →
      (sel = 0 → gives (nestWord s g (x.toNat % 2 ^ 32))) ∧
      (sel = 1 → gives (rgnWord s g)) ∧
      (1 < sel → gives (cntWord s g x.toNat))))

/-- 05 R145: RGNMK, RGNSET and, in supervisor mode, RGNTD hand their request to the Derailleur, with the mode they were issued
in and a qd entry for the answer. 05 R145, R119 to R123: the Derailleur's part of RGNSET on a live region that the requester may
set. A value out of range, or one its parent or children do not allow, changes neither the region nor memory; an allowed one is
the region's new field. -/
def Obligations.RegionRequests : Prop :=
  (∀ (s : State) (f : Fields), issues s f → roomForEffect s → qdRoom s s.cur = true →
    let req (i : Instr) (pa mode : Nat) : Cmd := { mkCmd s s.cur f 6 i 0 with aux := [pa, serialOf s s.cur, mode] }
    let sup := if (me s).mode then 1 else 0
    (∀ loc, locate s s.cur .read (addrOf (me s) f.o1 f.o2) (upTo 64) 64 (· == .global) = .ok loc →
      ∃ t, exec (.rgnmk f) s = .next t ∧ reservesQd s t f (req (.rgnmk f) (loc.addrs.headD 0) sup)) ∧
    (∃ t, exec (.rgnset f) s = .next t ∧ reservesQd s t f (req (.rgnset f) 0 sup)) ∧
    ((me s).mode = true → ∃ t, exec (.rgntd f) s = .next t ∧ reservesQd s t f (req (.rgntd f) 0 1))) ∧
  (∀ (s : State) (c : Nat) (k : Cmd) (r fld v : Nat), resolve s c k.x1 = some r → live s r = true → k.aux.getD 2 0 = 1 →
    fld < 5 → v = k.x2.toNat →
    let range := (rgnField s r fld v).2.1
    let fits := (rgnField s r fld v).2.2
    let t := doRgnset s c k fld
    ((range = false ∨ fits = false) → getRegion t r = getRegion s r ∧ t.mem = s.mem) ∧
    (range = true → fits = true →
      (fld = 0 → (getRegion t r).cmask = w64 v) ∧ (fld = 1 → (getRegion t r).ctx = v) ∧ (fld = 2 → (getRegion t r).cls = v) ∧
      (fld = 3 → (getRegion t r).fabsh = v) ∧ (fld = 4 → r ≠ (getRegion s r).parent → (getRegion t r).cquota = v)))

/-! The memory pipe (07). -/

/-- 07 R187, R191, R193, R194; 02 R45, R56: the loads LD, LDP, LDV and LDVG, once their bytes are located. From the scratchpad,
with no lock on the bytes and no strong load before them, the value is read now and is on its way, by token or by the context's
hold; from Commons and Global, with a slot to take, a read becomes a pending access with the taint the slot names; from a host
window the read is also held for the checker. A strong load takes the live slots' stamps into B. Nothing else changes. -/
def Obligations.Loads : Prop :=
  ∀ (s : State) (f : Fields) (loc : Loc), issues s f → (me s).fence = none → replayLoad s s.cur = none →
    let a := me s
    let c := s.cur
    let leaves (u t : State) : Prop := wordLeaves s u t fun b => passed f (b.pc + 16) (now s) 1 b
    let acquire (strong : Option (BitVec 6)) (v : State) : State := if strong.isSome then baseLive v c else v
    let loads (i : Instr) (strong : Option (BitVec 6)) (t : Taint) (mk : Taint → Dest) : Prop :=
      (loc.cls = .scratch → spLocked s (myCore s) loc.addrs false = false → earlierStrongRead s c s.nextId = false →
        (strong.isSome = true → earlierAcc s c s.nextId = false) →
        ∃ t', exec i s = .next t' ∧
          leaves (addLanding (markToken (acquire strong s) c f) ⟨c, a.seq, destUpds (mk 0) (spRead s loc.addrs), setwTok f, none, none⟩) t') ∧
      (loc.cls = .global ∨ loc.cls = .commons → ∀ s1 j, takeSlot s c none = .ok (s1, j) →
        let s2 := markToken (acquire strong s1) c f
        ∃ t', exec i s = .next t' ∧
          leaves (addAcc s2 (mkAcc s2 c .rd [] loc t strong (mk (slotBit (some j))) (setwTok f) (some j) f.hint)) t') ∧
      (loc.cls = .host → roomForEffect s →
        let s1 := acquire strong s
        let x := mkAcc s1 c .rd [] loc t strong (mk 0) (setwTok f) none f.hint
        ∃ t', exec i s = .next t' ∧ leaves (addAcc (markToken (holding s1 (.access [x.id])) c f) x) t')
    let wd (d : Nat) := (wdOf f d).1
    let sg (d : Nat) := (wdOf f d).2
    (let t := srcTaint a f [f.o2, f.o3]
     locate s c .read (addrOf a f.o2 f.o3) (upTo (wd 8)) (if modBit f 86 then wd 8 else 1) anyCls = .ok loc →
      loads (.ld f) (strongOf f) t (fun u => .scalar (idxOf f.o1) (wd 8) (sg 8) (t ||| u))) ∧
    (let t := srcTaint a f [f.o3, f.o4]
     locate s c .read (addrOf a f.o3 f.o4) (upTo (2 * wd 8)) (2 * wd 8) anyCls = .ok loc →
      loads (.ldp f) none t (fun u => .pair (idxOf f.o1) (idxOf f.o2) (wd 8) (sg 8) (t ||| u))) ∧
    (let m := activeMask (lanesOf f.o1) (maskOf a f.o4)
     let t := srcTaint a f [f.o2, f.o3, f.o4]
     locate s c .read (addrOf a f.o2 f.o3) (laneOffs (lanesOf f.o1) m 4) 4 anyCls = .ok loc →
      loads (.ldv f) (strongOf f) t (fun u => .lanes (idxOf f.o1) m 4 false (quarterTaints m fun _ => t ||| u))) ∧
    (let m := maskOf a f.o5
     let vas := ((upTo 64).filter fun i => m.getLsbD i).map (gatherAddr (addrOf a f.o2 f.o3) (rdV a (idxOf f.o4)) (modBits f 81 80))
     let t := srcTaint a f [f.o2, f.o3, f.o5]
     locateLanes s c .read (wd 4) none vas = .ok loc →
      loads (.ldvg f) none (t ||| vTaintAll a (idxOf f.o4)) (fun u => .lanes (idxOf f.o1) m (wd 4) (sg 4)
        (quarterTaints m fun q => u ||| t ||| vTaint a (idxOf f.o4) q)))

/-- 07 R187, R192 to R194; 02 R51, R56: the stores ST, STP, STV and STVS, once their bytes are located at loc. To the scratchpad
they write exactly loc's bytes, in order, and every other byte reads as before; to any other class they make one write of those
bytes, held for the checker, and memory is as before. No register changes. -/
def Obligations.Stores : Prop :=
  ∀ (s : State) (f : Fields) (loc : Loc), issues s f → (me s).fence = none →
    let a := me s
    let c := s.cur
    let leaves (u t : State) : Prop := wordLeaves s u t fun b => passed f (b.pc + 16) (now s) 1 b
    let stores (i : Instr) (strong : Option (BitVec 6)) (t : Taint) (bs : List Byte) : Prop :=
      let s1 := if strong.isSome then baseLive s c else s
      (loc.cls = .scratch → spLocked s (myCore s) loc.addrs true = false → earlierStrongRead s c s.nextId = false →
        (strong.isSome = true → earlierAcc s c s.nextId = false) →
        ∃ t', exec i s = .next t' ∧ leaves (spWrite s1 (loc.addrs.zip bs)) t' ∧
          (∀ x, x ∉ loc.addrs → mapGet 0 t'.scratch x = mapGet 0 s.scratch x) ∧ t'.mem = s.mem) ∧
      (loc.cls ≠ .scratch → roomForEffect s →
        let x := mkAcc s1 c .wr (loc.addrs.zip bs) loc t strong .none none none f.hint
        ∃ t', exec i s = .next t' ∧ leaves (addAcc (holding s1 (.access [x.id])) x) t' ∧
          (∀ x, memGet t'.mem x = memGet s.mem x) ∧ t'.scratch = s.scratch)
    let wd (d : Nat) := (wdOf f d).1
    (locate s c .write (addrOf a f.o1 f.o2) (upTo (wd 8)) (if modBit f 86 then wd 8 else 1) anyCls = .ok loc →
      stores (.st f) (strongOf f) (srcTaint a f [f.o1, f.o2, f.o3]) (leBytes (wd 8) (valOf a f.o3).toNat)) ∧
    (locate s c .write (addrOf a f.o1 f.o2) (upTo (2 * wd 8)) (2 * wd 8) anyCls = .ok loc →
      stores (.stp f) none (srcTaint a f [f.o1, f.o2, f.o3, f.o4])
        (leBytes (wd 8) (valOf a f.o3).toNat ++ leBytes (wd 8) (valOf a f.o4).toNat)) ∧
    (let m := activeMask (lanesOf f.o3) (maskOf a f.o4)
     locate s c .write (addrOf a f.o1 f.o2) (laneOffs (lanesOf f.o3) m 4) 4 anyCls = .ok loc →
      stores (.stv f) (strongOf f) (srcTaint a f [f.o1, f.o2, f.o4] ||| storeQTaint a (idxOf f.o3) m)
        (((lanesOf f.o3).filter fun i => m.getLsbD i).flatMap fun i => leBytes 4 (lane (rdV a (idxOf f.o3)) i).toNat)) ∧
    (let m := maskOf a f.o5
     let ls := (upTo 64).filter fun i => m.getLsbD i
     locateLanes s c .write (wd 4) none (ls.map (gatherAddr (addrOf a f.o1 f.o2) (rdV a (idxOf f.o3)) (modBits f 81 80))) = .ok loc →
      stores (.stvs f) none (srcTaint a f [f.o1, f.o2, f.o3, f.o4, f.o5])
        (ls.flatMap fun i => leBytes (wd 4) (lane (rdV a (idxOf f.o4)) i).toNat))

/-- 07 R195, R196; 06 R173; 02 R51: the atomics AMO, CAS and CAS2 make one strong access of their width, held for the checker,
with the live slots' stamps in B; with a destination it takes a load slot and its old value is awaited; memory and every
register are as before the atomic is applied. -/
def Obligations.Atomics : Prop :=
  ∀ (s : State) (f : Fields) (loc : Loc), issues s f → (me s).fence = none → replayLoad s s.cur = none → roomForEffect s →
    let a := me s
    let c := s.cur
    let w := if modBit f 86 then 4 else 8
    let leaves (u t : State) : Prop := wordLeaves s u t fun b => passed f (b.pc + 16) (now s) 1 b
    let silent (i : Instr) (k : AccKind) (t : Taint) : Prop :=
      let s1 := baseLive s c
      let x := mkAcc s1 c k [] loc t (some (obsOf f)) .none none none f.hint
      ∃ t', exec i s = .next t' ∧ leaves (addAcc (holding s1 (.access [x.id])) x) t' ∧ ∀ y, memGet t'.mem y = memGet s.mem y
    let returns (i : Instr) (k : AccKind) (t : Taint) (mk : Taint → Dest) : Prop := ∀ s1 j, takeSlot s c none = .ok (s1, j) →
      let s2 := baseLive s1 c
      let x := mkAcc s2 c k [] loc t (some (obsOf f)) (mk (t ||| slotBit (some j))) (setwTok f) (some j) f.hint
      ∃ t', exec i s = .next t' ∧ leaves (addAcc (markToken (holding s2 (.access [x.id])) c f) x) t' ∧
        ∀ y, memGet t'.mem y = memGet s.mem y
    (locate s c .atomic (addrOf a f.o2 f.o3) (upTo w) w atomicCls = .ok loc →
      let k : AccKind := .amo (modBits f 90 87) w (valOf a f.o4)
      let t := srcTaint a f [f.o2, f.o3, f.o4]
      (f.o1 = .none → silent (.amo f) k t) ∧ (f.o1 ≠ .none → returns (.amo f) k t (.scalar (idxOf f.o1) w false))) ∧
    (locate s c .atomic (addrOf a f.o2 f.o3) (upTo w) w atomicCls = .ok loc →
      returns (.cas f) (.cas w (valOf a f.o4) (valOf a f.o5)) (srcTaint a f [f.o2, f.o3, f.o4, f.o5]) (.scalar (idxOf f.o1) w false)) ∧
    (locate s c .atomic (addrOf a f.o2 f.o3) (upTo 16) 16 atomicCls = .ok loc →
      returns (.cas2 f) (.cas2 (valOf a f.o4) (rdS a (idxOf f.o4 + 1)) (valOf a f.o5) (rdS a (idxOf f.o5 + 1)))
        (srcTaint a f [f.o2, f.o3] ||| pairTaint a f.o4 ||| pairTaint a f.o5) (.pair (idxOf f.o1) (idxOf f.o1 + 1) 8 false))

/-- 07 R188: the checks of an access, in their order: form, alignment, a remote address, scratchpad bounds, and the class. 07
R202 to R204; 03 R77: PREF reads a Global line at its hint's retention, XLATE reports an address's translation, or the REASON
that refuses it, without an access, FLUSHL starts the write-back of a line that is present; an address that does not translate
to Global leaves PREF and FLUSHL without effect. -/
def Obligations.AccessChecks : Prop :=
  (∀ (s : State) (c : Nat) (acc : Acc) (va : W64) (w align : Nat) (allowed : Cls → Bool), 0 < w → w ≤ align → align ≤ 64 →
    let r := locate s c acc va (upTo w) align allowed
    (2 ^ 41 ≤ va.toNat → va.toNat < 2 ^ 63 → r = .error (.trap 0x04 0 va false [])) ∧
    (va.toNat < 2 ^ 41 - 64 ∨ 2 ^ 63 ≤ va.toNat → va.toNat < 2 ^ 64 - 64 → va.toNat % align ≠ 0 → r = .error (.trap 0x07 0 va false [])) ∧
    (2 ^ 63 ≤ va.toNat → va.toNat < 2 ^ 64 - 64 → va.toNat % align = 0 → r = .error (.trap 0x05 0 va false [])) ∧
    (va.toNat < 0x200000 → va.toNat % align = 0 → spLen s c < va.toNat + w → r = .error (.trap 0x06 0 va false [])) ∧
    (va.toNat < 0x200000 → va.toNat % align = 0 → va.toNat + w ≤ spLen s c → allowed .scratch = false → r = .error (.trap 0x05 0 va false [])) ∧
    (va.toNat < 0x200000 → va.toNat % align = 0 → va.toNat + w ≤ spLen s c → allowed .scratch = true →
      r = .ok ⟨.scratch, (upTo w).map fun i => spAddr s c (va.toNat + i), va⟩)) ∧
  (∀ (s : State) (f : Fields), issues s f → (me s).fence = none →
    let a := me s
    let c := s.cur
    let leaves (i : Instr) (u : State) : Prop := ∃ t, exec i s = .next t ∧ wordLeaves s u t fun b => passed f (b.pc + 16) (now s) 1 b
    let here := softLocate s c .read (addrOf a f.o1 f.o2)
    (here = .ok none → leaves (.pref f) (dropWalkFaults s c) ∧ leaves (.flushl f) (dropWalkFaults s c)) ∧
    (∀ pa, here = .ok (some pa) →
      leaves (.pref f) (llcRead s [pa] f.hint) ∧
      ((mapFind s.llc (pa / 1024)).isSome = true →
        leaves (.flushl f) (updCtx s c fun x => { x with flushes := x.flushes ++ [2 * (pa / 1024) + modBits f 81 80 % 2] })) ∧
      ((mapFind s.llc (pa / 1024)).isSome = false → (∀ x ∈ s.accs, x.ctx = c → ∀ q ∈ x.addrs, q / 1024 ≠ pa / 1024) →
        leaves (.flushl f) s)) ∧
    (let va := addrOf a f.o2 f.o3
     let n := va.toNat
     let reports (x : W64) : Prop := leaves (.xlate f) (addLanding (markToken s c f) ⟨c, a.seq, [.sreg (idxOf f.o1) x 0], setwTok f, none, none⟩)
     (2 ^ 41 ≤ n → n < 2 ^ 63 → exec (.xlate f) s = .next (wordTrap s c 0x04 0 va false [] 0)) ∧
     (2 ^ 63 ≤ n → exec (.xlate f) s = .next (wordTrap s c 0x05 0 va false [] 0)) ∧
     (replayLoad s c = none → n < 0x200000 → spLen s c ≤ n → reports (xlateWord (some 0) 3 0 0 0)) ∧
     (replayLoad s c = none → n < 0x200000 → n < spLen s c → reports (xlateWord none 3 0 0 (if a.mode then spAddr s c n % 0x200000 else 0))) ∧
     (∀ p e cl, replayLoad s c = none → 0x200000 ≤ n → n < 2 ^ 41 → translate s c n (if modBit f 80 then .write else .read) = .hit p →
       tlbFind (getCore s (myCore s)) (ctxRoot s c) n = some e → classOf p = some cl →
       reports (xlateWord none e.level (clsCode cl) e.leaf (if a.mode then p else 0))) ∧
     (∀ r p, replayLoad s c = none → 0x200000 ≤ n → n < 2 ^ 41 → translate s c n (if modBit f 80 then .write else .read) = .fault r p →
       r < 16 → (∀ e, tlbFind (getCore s (myCore s)) (ctxRoot s c) n = some e → e.level < 4) →
       ∃ x, x.getLsbD 63 = true ∧ bitsOf x.toNat 55 52 = r ∧ x.toNat % 2 ^ 44 = 0 ∧
         leaves (.xlate f) (addLanding (markToken { dropWalkFaults s c with freeCnt := s.freeCnt + 1 } c f)
           ⟨c, a.seq, [.sreg (idxOf f.o1) x 0], setwTok f, none, none⟩))))

/-- 07 R197, R198; 02 R52, R58: FENCE joins the live slots' stamps to B and stands before later memory words and pushes; TCLR
clears and TADD joins taint sets, a cycle later; TRD reads a set and the live slots; TFOLD folds every live slot once its load
has performed. 07 R199 to R201: SPILLM writes the slots' generations, the registers' taint words and their values at their
offsets; FILLM of such an image, once its reads may be made and hold no uncorrectable data, gives the registers their values,
and their taint but for slots whose generation has changed since. -/
def Obligations.FenceTaintSpill : Prop :=
  (∀ (s : State) (f : Fields), issues s f →
    let a := me s
    let gives (i : Instr) (us : List Upd) : Prop := ∃ t, exec i s = .next t ∧ givesResults s t f 1 us
    (a.fence = none → ∃ t, exec (.fence f) s = .next t ∧
      wordLeaves s (baseLive s s.cur) t fun b => passed f (b.pc + 16) (now s) 1 { b with fence := some (obsOf f, s.nextId) }) ∧
    (∀ i, f.o1 = .s i → gives (.tclr f) [.staint i.toNat 0] ∧ gives (.tadd f) [.staint i.toNat (taintOf a f.o1 ||| taintOf a f.o2)]) ∧
    (∀ i, f.o1 = .p i → i ≠ 0 → gives (.tclr f) [.ptaint i.toNat 0] ∧ gives (.tadd f) [.ptaint i.toNat (taintOf a f.o1 ||| taintOf a f.o2)]) ∧
    (∀ i, f.o1 = .m i → gives (.tclr f) [.mtaint i.toNat 0] ∧ gives (.tadd f) [.mtaint i.toNat (taintOf a f.o1 ||| taintOf a f.o2)]) ∧
    (f.o1 = .ctl → gives (.tclr f) [.ctaint 0] ∧ gives (.tadd f) [.ctaint (a.cT ||| taintOf a f.o2)]) ∧
    (∀ i q, f.o1 = .vq i q → gives (.tclr f) [.vtaint i.toNat q.toNat 0] ∧
      gives (.tadd f) [.vtaint i.toNat q.toNat (taintOf a f.o1 ||| taintOf a f.o2)]) ∧
    (∀ i, f.o1 = .v i → gives (.tclr f) ((upTo 4).map fun q => .vtaint i.toNat q 0)) ∧
    (f.o1 = .p 0 → gives (.tclr f) [] ∧ gives (.tadd f) []) ∧
    (∀ i, f.o1 = .v i → (∀ j, f.o2 ≠ .v j) →
      gives (.tadd f) ((upTo 4).map fun q => .vtaint i.toNat q (vTaint a i.toNat q ||| taintOf a f.o2))) ∧
    (∀ i j, f.o1 = .v i → f.o2 = .v j →
      gives (.tadd f) ((upTo 4).map fun q => .vtaint i.toNat q (vTaint a i.toNat q ||| vTaint a j.toNat q))) ∧
    gives (.trd f) [.sreg (idxOf f.o1) (BitVec.ofNat 64 ((taintOf a f.o2).toNat + (liveMask s s.cur).toNat * 2 ^ 16)) 0] ∧
    (let l := liveByAge s s.cur
     ((∀ j ∈ l, (slotOf a j).pend = none) → ∃ t, exec (.tfold f) s = .next t ∧
       wordLeaves s (l.foldl (fun v j => foldSlot v s.cur j) s) t fun b => passed f (b.pc + 16) (now s) 4 b) ∧
     ((∃ j ∈ l, (slotOf a j).pend ≠ none) → exec (.tfold f) s = .next s))) ∧
  (∀ (s : State) (f : Fields) (hd : Loc) (ls : List Loc), issues s f → (me s).fence = none → (me s).latch = none →
    let a := me s
    let c := s.cur
    (let n := idxOf f.o4 - idxOf f.o3 + 1
     let va := addrOf a f.o1 f.o2
     let hold := 4 + (spillBytes f.o3 n + 63) / 64
     let regs := (upTo n).map fun i => spillReg a f.o3 (idxOf f.o3 + i)
     let image := genBytes a ++ regs.flatMap (fun r => leBytes 8 r.2) ++ regs.flatMap (·.1)
     let cells := (hd.addrs ++ ls.flatMap (·.addrs)).zip image
     spillCheck s c .write va f.o3 n = .ok () → locate s c .write va (upTo (16 + 8 * n)) 1 spillCls (some 0) = .ok hd →
     spillLocs s c .write va (spillD f.o3 n) (spillSize f.o3) 0 n = (ls, none) →
     (hd.cls = .scratch → spLocked s (myCore s) (hd.addrs ++ ls.flatMap (·.addrs)) true = false → earlierStrongRead s c s.nextId = false →
       ∃ t, exec (.spillm f) s = .next t ∧ t.scratch = memPut s.scratch cells ∧ t.mem = s.mem ∧ t.accs = s.accs ∧
         (me t).pc = a.pc + 16 ∧ (me t).hold = max a.hold (now s + hold) ∧ (me t).sreg = a.sreg ∧ (me t).vreg = a.vreg) ∧
     (hd.cls ≠ .scratch → roomForEffect s →
       ∃ t x, exec (.spillm f) s = .next t ∧ t.accs = s.accs ++ [x] ∧ x.kind = .wr ∧ x.cells = cells ∧ x.hint = f.hint ∧
         effects t (myCore s) = effects s (myCore s) ++ [.access [x.id]] ∧ t.mem = s.mem ∧ t.scratch = s.scratch ∧
         (me t).pc = a.pc + 16 ∧ (me t).hold = max a.hold (now s + hold) ∧ (me t).sreg = a.sreg ∧ (me t).vreg = a.vreg)) ∧
    (let n := idxOf f.o4 - idxOf f.o1 + 1
     let va := addrOf a f.o2 f.o3
     let addrs := (hd :: ls).flatMap (·.addrs)
     let bs := (hd :: ls).flatMap (fillRead s c)
     let keep : Taint := BitVec.ofNat 16 ((upTo 16).foldl (fun t j => if bs.getD j 0 = (slotOf a j).gen then t + 2 ^ j else t) 0)
     let size := spillSize f.o1
     spillCheck s c .read va f.o1 n = .ok () → locate s c .read va (upTo (16 + 8 * n)) 1 spillCls (some 0) = .ok hd →
     spillLocs s c .read va (spillD f.o1 n) size 0 n = (ls, none) → replaying s c = false →
     fillReady s c f hd.cls addrs = true → (hd.cls = .scratch ∨ poisoned s addrs = false) →
     ∃ t, exec (.fillm f) s = .next t ∧
       (wordLeaves s (recorded (if hd.cls = .scratch then s else llcRead s addrs f.hint) (bs.map fun b => b.zeroExtend 64)) t fun b =>
         passed f (b.pc + 16) (now s) (fillHold s c f n) (applyUpds b ((upTo n).map fun i =>
           fillUpd f.o1 (idxOf f.o1 + i) ((bs.drop (16 + 8 * n + i * size)).take size) (leNat ((bs.drop (16 + 8 * i)).take 8)) keep)))))

/-! The vector unit (08). -/

/-- 08 R213, R214: the lane arithmetic words in both forms and every type: a floating result is the exact one rounded once, an
integer result wraps at the sub-element's width or is clamped with IO under SAT. -/
def Obligations.VectorArithmetic : Prop :=
  ∀ (s : State) (f : Fields), issues s f →
    let a := me s
    let code := tyCode f 0x10
    let ov := ovOf (modBits f 81 80)
    let flt (fm : Fmt) (o : Operand) (e j : Nat) : FV := fvOfBits fm (subOf code j (srcElem a o e))
    let floats (i : Instr) (lat : Nat) (fm : Fmt) (mask : Operand) (srcs : List Operand) (op : Rm → Nat → Nat → FV × Flags) : Prop :=
      givesLanes s i f lat code true (modBits f 81 80 == 3) mask srcs fun k l e j =>
        let rm := rmOf (modBits f 84 82) k l j
        let v := op rm e j
        let r := fvToFmt fm rm ov v.1
        { r with flags := r.flags ||| v.2 }
    let ints (i : Instr) (lat : Nat) (sg : Bool) (n : Nat) (mask : Operand) (srcs : List Operand) (op : Nat → Nat → Int) : Prop :=
      givesLanes s i f lat code false false mask srcs fun _ _ e j =>
        if modBit f 82 = true ∧ (op e j < intMin sg n ∨ intMax sg n < op e j) then ⟨intBits n (intClamp sg n (op e j)), flIO, false⟩
        else ⟨intBits n (op e j), 0, false⟩
    let two := [f.o2, f.o3]
    let three := [f.o2, f.o3, f.o4]
    (∀ fm, vecTy code = .flt fm →
      let x := flt fm f.o2
      let y := flt fm f.o3
      let z := flt fm f.o4
      floats (.vadd f) 4 fm f.o4 two (fun rm e j => fvAdd rm (x e j) (y e j)) ∧
      floats (.vsub f) 4 fm f.o4 two (fun rm e j => fvAdd rm (x e j) (fvNeg (y e j))) ∧
      floats (.vmul f) 4 fm f.o4 two (fun _ e j => fvMul (x e j) (y e j)) ∧
      floats (.vfma f) 4 fm f.o5 three (fun rm e j => fvFma rm (x e j) (y e j) (z e j)) ∧
      floats (.vfms f) 4 fm f.o5 three (fun rm e j => fvFma rm (x e j) (y e j) (fvNeg (z e j))) ∧
      floats (.vmin f) 2 fm f.o4 two (fun _ e j => (fvMin (x e j) (y e j), 0)) ∧
      floats (.vmax f) 2 fm f.o4 two (fun _ e j => (fvMax (x e j) (y e j), 0)) ∧
      floats (.vneg f) 2 fm f.o3 [f.o2] (fun _ e j => (fvNeg (x e j), 0)) ∧
      floats (.vabs f) 2 fm f.o3 [f.o2] (fun _ e j => (fvAbs (x e j), 0))) ∧
    (∀ sg n, vecTy code = .int sg n →
      let x (e j : Nat) : Int := intOfBits sg n (subOf code j (srcElem a f.o2 e))
      let y (e j : Nat) : Int := intOfBits sg n (subOf code j (srcElem a f.o3 e))
      let z (e j : Nat) : Int := intOfBits sg n (subOf code j (srcElem a f.o4 e))
      ints (.vadd f) 2 sg n f.o4 two (fun e j => x e j + y e j) ∧
      ints (.vsub f) 2 sg n f.o4 two (fun e j => x e j - y e j) ∧
      ints (.vmul f) 4 sg n f.o4 two (fun e j => x e j * y e j) ∧
      ints (.vfma f) 4 sg n f.o5 three (fun e j => x e j * y e j + z e j) ∧
      ints (.vfms f) 4 sg n f.o5 three (fun e j => x e j * y e j - z e j) ∧
      ints (.vmin f) 2 sg n f.o4 two (fun e j => min (x e j) (y e j)) ∧
      ints (.vmax f) 2 sg n f.o4 two (fun e j => max (x e j) (y e j)) ∧
      ints (.vneg f) 2 sg n f.o3 [f.o2] (fun e j => 0 - x e j) ∧
      ints (.vabs f) 2 sg n f.o3 [f.o2] (fun e j => ((x e j).natAbs : Int)))

/-- 08 R213, R215, R216, R218, R220: the words on integer lanes and whole lanes: VMULH, the bitwise words, the shifts, the
counts, VSEL and VMOV. 08 R217, R219: VCMP writes a mask bit for each lane of its form, zero where the lane is inactive, and
keeps the other bits; the mask words compute on whole masks. -/
def Obligations.VectorBitsMasks : Prop :=
  (∀ (s : State) (f : Fields), issues s f →
    let a := me s
    let code := tyCode f 0x04
    let el (o : Operand) (e j : Nat) : Nat := subOf code j (srcElem a o e)
    let whole (i : Instr) (mask : Operand) (srcs : List Operand) (x : Nat → Nat → Nat) : Prop :=
      givesLanes s i f 2 0x0C false false mask srcs fun _ l e _ => ⟨x l e, 0, false⟩
    let two := [f.o2, f.o3]
    whole (.vand f) f.o4 two (fun _ e => srcElem a f.o2 e &&& srcElem a f.o3 e) ∧
    whole (.vor f) f.o4 two (fun _ e => srcElem a f.o2 e ||| srcElem a f.o3 e) ∧
    whole (.vxor f) f.o4 two (fun _ e => srcElem a f.o2 e ^^^ srcElem a f.o3 e) ∧
    whole (.vsel f) .none [f.o2, f.o3, f.o4] (fun l e => if (rdM a (idxOf f.o2)).getLsbD l then srcElem a f.o3 e else srcElem a f.o4 e) ∧
    whole (.vmov f) f.o3 [f.o2] (fun _ e => srcElem a f.o2 e) ∧
    (∀ sg n, vecTy code = .int sg n →
      let count (e j : Nat) : Nat := (match f.o3 with
        | .v _ | .vq _ _ => el f.o3 e j
        | _ => srcElem a f.o3 e) % n
      let gives (i : Instr) (lat : Nat) (mask : Operand) (srcs : List Operand) (sat : Bool) (x : Nat → Nat → Int) : Prop :=
        givesLanes s i f lat code false false mask srcs fun _ _ e j =>
          if sat = true ∧ (x e j < intMin sg n ∨ intMax sg n < x e j) then ⟨intBits n (intClamp sg n (x e j)), flIO, false⟩
          else ⟨intBits n (x e j), 0, false⟩
      (modBit f 82 = false → gives (.vmulh f) 4 f.o4 two false fun e j => intOfBits sg n (el f.o2 e j) * intOfBits sg n (el f.o3 e j) / 2 ^ n) ∧
      gives (.vshl f) 2 f.o4 two (modBit f 82) (fun e j => intOfBits sg n (el f.o2 e j) * 2 ^ count e j) ∧
      (modBit f 82 = false → gives (.vshr f) 2 f.o4 two false (fun e j => (el f.o2 e j / 2 ^ count e j : Nat)) ∧
        gives (.vsar f) 2 f.o4 two false (fun e j => intOfBits true n (el f.o2 e j) / 2 ^ count e j)) ∧
      gives (.vclz f) 2 f.o3 [f.o2] false (fun e j => leadZeros n (el f.o2 e j)) ∧
      gives (.vpopc f) 2 f.o3 [f.o2] false (fun e j => popCount n (el f.o2 e j)))) ∧
  (∀ (s : State) (f : Fields), issues s f →
    let a := me s
    let code := tyCode f 0x10
    let cc := modBits f 83 80
    let act := activeOf a f.o2 f.o4
    let both := (rdM a (idxOf f.o2) &&& maskOf a f.o3)
    let x (e : Nat) : Nat := subOf code 0 (srcElem a f.o2 e)
    let y (e : Nat) : Nat := subOf code 0 (srcElem a f.o3 e)
    let compare (rel : Nat → Prop) : Prop := ∃ t m, exec (.vcmp f) s = .next t ∧
      givesResults s t f 2 [.mreg (idxOf f.o1) m (if elemCount f.o2 = 64 then srcTaint a f [f.o2, f.o3, f.o4]
        else srcTaint a f [f.o2, f.o3, f.o4] ||| mapGet 0 a.mT (idxOf f.o1))] ∧
      (∀ e, e < elemCount f.o2 → (m.getLsbD (elemLane f.o2 e) = true ↔ act.getLsbD (elemLane f.o2 e) = true ∧ rel e)) ∧
      ∀ l, l < 64 → (∀ e, e < elemCount f.o2 → elemLane f.o2 e ≠ l) → m.getLsbD l = (rdM a (idxOf f.o1)).getLsbD l
    (∀ fm, vecTy code = .flt fm → compare fun e => fvRel cc (fvOfBits fm (x e)) (fvOfBits fm (y e)) = true) ∧
    (∀ sg n, vecTy code = .int sg n →
      let p (e : Nat) : Int := intOfBits sg n (x e)
      let q (e : Nat) : Int := intOfBits sg n (y e)
      (cc = 0 → compare fun e => p e = q e) ∧ (cc = 1 → compare fun e => p e ≠ q e) ∧
      (cc = 2 → compare fun e => p e < q e) ∧ (cc = 3 → compare fun e => p e ≤ q e) ∧
      (cc = 4 → compare fun e => p e > q e) ∧ (cc = 5 → compare fun e => p e ≥ q e) ∧
      (cc = 8 → compare fun e => x e &&& y e ≠ 0)) ∧
    (∃ t m, exec (.vmlog f) s = .next t ∧ givesResults s t f 2 [.mreg (idxOf f.o1) m (srcTaint a f [f.o2, f.o3])] ∧
      ∀ l, l < 64 → m.getLsbD l = logic8 (modBits f 82 80) ((rdM a (idxOf f.o2)).getLsbD l) ((rdM a (idxOf f.o3)).getLsbD l)) ∧
    (∃ t, exec (.vmpop f) s = .next t ∧
      givesResults s t f 2 [.sreg (idxOf f.o1) (BitVec.ofNat 64 ((List.range 64).filter fun l => both.getLsbD l).length) (srcTaint a f [f.o2, f.o3])]) ∧
    (∃ t n, exec (.vmfst f) s = .next t ∧ givesResults s t f 2 [.sreg (idxOf f.o1) (BitVec.ofNat 64 n) (srcTaint a f [f.o2, f.o3])] ∧
      n ≤ 64 ∧ (n < 64 → both.getLsbD n = true) ∧ ∀ l, l < n → both.getLsbD l = false))

/-- 08 R221 to R228: the special functions and the conversions: each sub-element on its own; VUNPK's registers land together,
its overflow traps for any of them. -/
def Obligations.VectorConvert : Prop :=
  ∀ (s : State) (f : Fields), issues s f →
    let a := me s
    let ovt := modBits f 81 80 == 3
    let ov := ovOf (modBits f 81 80)
    let rm (k : RsKey) (l j : Nat) : Rm := rmOf (modBits f 84 82) k l j
    let td := tyCode f 0x10
    let ts := if (valOf a f.o3).toNat = 0 then 0x10 else (valOf a f.o3).toNat
    let sp (i : Instr) (fn : SpFn) : Prop := ∀ fm, vecTy td = .flt fm →
      givesLanes s i f 8 td false false f.o3 [f.o2] fun _ _ e j => spApply fn fm (subOf td j (srcElem a f.o2 e))
    let conv (k : RsKey) (l e j x : Nat) : FRes :=
      tyRound (vecTy td) (rm k l j) ov (scaled (vecTy ts) (vecTy td) (scaleOf a f.o4 e) (tyVal (vecTy ts) x))
    sp (.vexp2 f) .exp2 ∧ sp (.vlog2 f) .log2 ∧ sp (.vrcp f) .rcp ∧ sp (.vrsq f) .rsq ∧ sp (.vsqrt f) .sqrt ∧ sp (.vtanh f) .tanh ∧
    (givesLanes s (.vcvt f) f 4 td true ovt f.o5 [f.o2, f.o4] fun k l e j => conv k l e j (subOf ts j (srcElem a f.o2 e))) ∧
    (∀ fm, vecTy td = .flt fm →
      (givesLanes s (.vscale f) f 4 td true ovt f.o4 [f.o2, f.o3] fun k l e j =>
        fvToFmt fm (rm k l j) ov (fvScale (fvOfBits fm (subOf td j (srcElem a f.o2 e))) (max (-4000) (min 4000 (srcI32 a f.o3 e))))) ∧
      (subCount td = 1 → givesLanes s (.vdeq f) f 4 td true ovt f.o5 [f.o2, f.o3, f.o4] fun k l e _ =>
        let v := fvMul (fvOfInt (srcI32 a f.o2 e - srcI32 a f.o4 e) 0) (fvOfBits .f32 (srcElem a f.o3 e))
        let r := fvToFmt fm (rm k l 0) ov v.1
        { r with flags := r.flags ||| v.2 })) ∧
    (∀ sg n, vecTy (tyCode f 0x02) = .int sg n →
      givesLanes s (.vqnt f) f 6 0x0C true ovt f.o5 [f.o2, f.o3, f.o4] fun k l e _ =>
        let x := srcElem a f.o4 e
        let r := requant (.int sg n) (rm k l 0) ov (srcI32 a f.o2 e) (srcI32 a f.o3 e) (x % 64) (intOfBits true 16 (x / 2 ^ 16))
        { r with bits := intBits 32 (intOfBits sg n r.bits) }) ∧
    (∀ i, f.o1 = .v i → f.o5 = .none ∨ (∃ m, f.o5 = .m m) →
      let act := activeOf a f.o1 f.o5
      let u := (rsFor s s.cur (modBits f 84 82)).1
      let k := (rsFor s s.cur (modBits f 84 82)).2
      let up (l j : Nat) : FRes := conv k l l j (subOf ts j (srcElem a f.o2 l))
      let pk (l j : Nat) : FRes := conv k l l j (subOf ts 0 (lane (rdV a (idxOf f.o2 + j)) l).toNat)
      let on (n l j : Nat) : Prop := l < 64 ∧ act.getLsbD l = true ∧ j < n
      let n := subCount td
      let tt (q : Nat) : Taint := (upTo n).foldl (fun t j => t ||| vTaint a (idxOf f.o2 + j) q) (vecTaint a f [f.o4, f.o5] q)
      ((∀ l j, on n l j → (pk l j).trap = false) → ∃ t v fl, exec (.vpack f) s = .next t ∧
        (wordLeaves s u t fun b => passed f (b.pc + 16) (now s) (if ovt then 4 else 1)
          (withResults (now s + 4) (lanesAtIssue a i.toNat act v tt :: flagUpd fl) b)) ∧
        (∀ l j, on n l j → subOf td j (lane v l).toNat = (pk l j).bits % 2 ^ tyBits (vecTy td)) ∧
        ∀ b, fl.getLsbD b = true ↔ ∃ l j, on n l j ∧ (pk l j).flags.getLsbD b = true) ∧
      ((∃ l j, on n l j ∧ (pk l j).trap = true) → ∃ tv ovm, exec (.vpack f) s = .next (wordTrap s s.cur 0x0B 0 tv false ovm 4)) ∧
      (let n := subCount ts
       ((valOf a f.o3).toNat ≠ 0 → (∀ l j, on n l j → (up l j).trap = false) → ∃ t, ∃ vs : Nat → VReg, ∃ fl, exec (.vunpk f) s = .next t ∧
        (wordLeaves s u t fun b => passed f (b.pc + 16) (now s) (if ovt then 4 else 1)
          (withResults (now s + 4) ((List.range n).map (fun j => lanesAtIssue a (i.toNat + j) act (vs j)
            (vecTaint a f [f.o2, f.o4, f.o5])) ++ flagUpd fl) b)) ∧
        (∀ l j, on n l j → (lane (vs j) l).toNat = (up l j).bits % 2 ^ 32) ∧
        ∀ b, fl.getLsbD b = true ↔ ∃ l j, on n l j ∧ (up l j).flags.getLsbD b = true) ∧
       ((valOf a f.o3).toNat ≠ 0 → (∃ l j, on n l j ∧ (up l j).trap = true) →
        ∃ tv ovm, exec (.vunpk f) s = .next (wordTrap s s.cur 0x0B 0 tv false ovm 4))))

/-- 08 R229, R230; 02 R49: the lane moves. An active lane of the destination holds what each word says, an inactive one keeps
the value read at issue, and every written quarter takes the union of the sources' taints. 04 R117; 08 R231 to R233: the
reductions. Every active lane enters the fixed tree in lane order, every other lane as the operation's identity; each node
rounds once in F32, or is computed in 32 bits. VSCAN's lane i also leaves out the lanes above it; VDOT's leaves are the exact
sums of a lane's products. -/
def Obligations.VectorMovesReductions : Prop :=
  (∀ (s : State) (f : Fields), issues s f →
    let a := me s
    let ln (o : Operand) (i : Nat) : BitVec 32 := lane (rdV a (idxOf o)) i
    let two (x y : Operand) (i : Nat) : BitVec 32 := if i < 64 then ln x i else ln y (i - 64)
    let index (o : Operand) (n : Nat) : Nat := (valOf a o).toNat % n
    let moves (i : Instr) (lat : Nat) (mask : Operand) (srcs : List Operand) (x : Nat → BitVec 32) : Prop :=
      let act := activeOf a f.o1 mask
      ∃ t v, exec i s = .next t ∧ givesResults s t f lat [lanesAtIssue a (idxOf f.o1) act v fun _ => srcTaint a f (srcs ++ [mask])] ∧
        ∀ l, l < 64 → act.getLsbD l = true → lane v l = x l
    (∀ i, f.o2 = .s i → moves (.vbcst f) 2 f.o4 [f.o2, f.o3] fun _ => (rdS a i.toNat).truncate 32) ∧
    (∀ i, f.o2 = .v i → moves (.vbcst f) 2 f.o4 [f.o2, f.o3] fun _ => ln f.o2 (index f.o3 64)) ∧
    (f.o3 = .none → moves (.vshuf f) 3 f.o5 [f.o2, f.o3, f.o4] fun l => ln f.o2 ((ln f.o4 l).toNat % 64)) ∧
    (∀ i, f.o3 = .v i → moves (.vshuf f) 3 f.o5 [f.o2, f.o3, f.o4] fun l => two f.o2 f.o3 ((ln f.o4 l).toNat % 128)) ∧
    (moves (.vrot f) 2 f.o4 [f.o2, f.o3] fun l => ln f.o2 ((l + 64 - index f.o3 64) % 64)) ∧
    (moves (.vzip f) 2 f.o4 [f.o2, f.o3] fun l => ln (if l % 2 = 0 then f.o2 else f.o3) ((if modBit f 80 then 32 else 0) + l / 2)) ∧
    (moves (.vuzp f) 2 f.o4 [f.o2, f.o3] fun l => two f.o2 f.o3 (2 * l + if modBit f 80 then 1 else 0)) ∧
    (moves (.vsld f) 2 f.o5 [f.o2, f.o3, f.o4] fun l => if l + index f.o4 128 < 128 then two f.o2 f.o3 (l + index f.o4 128) else 0) ∧
    (∃ t, exec (.vext f) s = .next t ∧ givesResults s t f 2 [.sreg (idxOf f.o1)
      (if modBit f 80 then (ln f.o2 (index f.o3 64)).signExtend 64 else (ln f.o2 (index f.o3 64)).zeroExtend 64) (srcTaint a f [f.o2, f.o3])]) ∧
    (let act : W64 := 1#64 <<< index f.o3 64
     ∃ t v, exec (.vins f) s = .next t ∧ givesResults s t f 2 [lanesAtIssue a (idxOf f.o1) act v fun _ => srcTaint a f [f.o2, f.o3]] ∧
      lane v (index f.o3 64) = (valOf a f.o2).truncate 32)) ∧
  (∀ (s : State) (f : Fields), issues s f →
    let a := me s
    let code := tyCode f 0x10
    let rc := modBits f 84 82
    let sat := modBit f 82
    let m := maskOf a f.o3
    let u := (rsFor s s.cur rc).1
    let k := (rsFor s s.cur rc).2
    let ftree (op : RedOp) (on : Nat → Prop) [DecidablePred on] (leaf : Nat → FV) : FV × Flags :=
      treeAt (fnode op rc k) (fun l => if on l then leaf l else fIdent op) 6 0
    let itree (op : RedOp) (sg : Bool) (on : Nat → Prop) [DecidablePred on] (leaf : Nat → Int) : Int × Flags :=
      treeAt (inode op sg sat) (fun l => if on l then leaf l else iIdent sg op) 6 0
    let fl (o : Operand) (l : Nat) : FV := fvOfBits .f32 (vl a o l)
    let red (i : Instr) (op : RedOp) : Prop :=
      (∀ fm, vecTy code = .flt fm → ∃ t, exec i s = .next t ∧
        let r := ftree op (fun l => m.getLsbD l = true) (fl f.o2)
        givesFrom s u t f 8 (.sreg (idxOf f.o1) (BitVec.ofNat 64 (f32Bits r.1)) (srcTaint a f [f.o2, f.o3]) :: flagUpd r.2)) ∧
      (∀ sg n, vecTy code = .int sg n → ∃ t, exec i s = .next t ∧
        let r := itree op sg (fun l => m.getLsbD l = true) (fun l => intOfBits sg 32 (vl a f.o2 l))
        givesResults s t f 8 (.sreg (idxOf f.o1) (extInt sg 32 r.1) (srcTaint a f [f.o2, f.o3]) :: flagUpd r.2))
    let scan (op : RedOp) : Prop :=
      (∀ fm, vecTy code = .flt fm → ∃ t v g, exec (.vscan f) s = .next t ∧
        givesFrom s u t f 10 ((lanesAtIssue a (idxOf f.o1) m v fun _ => srcTaint a f [f.o2, f.o3]) :: flagUpd g) ∧
        (∀ l, l < 64 → m.getLsbD l = true →
          (lane v l).toNat = f32Bits (ftree op (fun i => m.getLsbD i = true ∧ i ≤ l) (fl f.o2)).1 % 2 ^ 32) ∧
        ∀ b, g.getLsbD b = true ↔ ∃ l, l < 64 ∧ m.getLsbD l = true ∧
          (ftree op (fun i => m.getLsbD i = true ∧ i ≤ l) (fl f.o2)).2.getLsbD b = true) ∧
      (∀ sg n, vecTy code = .int sg n → ∃ t v g, exec (.vscan f) s = .next t ∧
        givesResults s t f 10 ((lanesAtIssue a (idxOf f.o1) m v fun _ => srcTaint a f [f.o2, f.o3]) :: flagUpd g) ∧
        (∀ l, l < 64 → m.getLsbD l = true →
          (lane v l).toNat = intBits 32 (itree op sg (fun i => m.getLsbD i = true ∧ i ≤ l) (fun i => intOfBits sg 32 (vl a f.o2 i))).1))
    red (.vredadd f) .add ∧ red (.vredmax f) .max ∧ red (.vredmin f) .min ∧
    (modBits f 81 80 = 0 → scan .add) ∧ (modBits f 81 80 = 1 → scan .max) ∧ (modBits f 81 80 = 2 → scan .min) ∧
    (let m := maskOf a f.o4
     let rm : Rm := if rc = 3 then .rd else .rne
     (∀ fm, vecTy code = .flt fm → ∃ t g, exec (.vdot f) s = .next t ∧
      let r := ftree .add (fun l => m.getLsbD l = true) (fun l => (dotLeafF rm code (vl a f.o2 l) (vl a f.o3 l)).1)
      givesFrom s u t f 10 (.sreg (idxOf f.o1) (BitVec.ofNat 64 (f32Bits r.1)) (srcTaint a f [f.o2, f.o3, f.o4]) :: flagUpd (r.2 ||| g)) ∧
      ∀ b, g.getLsbD b = true ↔ ∃ l, l < 64 ∧ m.getLsbD l = true ∧ (dotLeafF rm code (vl a f.o2 l) (vl a f.o3 l)).2.getLsbD b = true) ∧
     (∀ sg n, vecTy code = .int sg n → ∃ t, exec (.vdot f) s = .next t ∧
      let r := itree .add sg (fun l => m.getLsbD l = true) (fun l => dotLeafI code (vl a f.o2 l) (vl a f.o3 l))
      givesResults s t f 10 (.sreg (idxOf f.o1) (extInt sg 32 r.1) (srcTaint a f [f.o2, f.o3, f.o4]) :: flagUpd r.2))))

/-! Words that push commands, and the engines' other words (09 to 14). -/

/-- 09 R243 to R249: a matrix word whose descriptor obeys its rules, whose walk checks and whose tile is held pushes its command
with the pages it pins; MSWAP and MZERO need no descriptor. 09 R250, R257 to R260: MCBT, MSAVE and MREST, of a tile and of the
planes, push once their block checks; MRDA reads a tile row's columns with the context's own writes still held applied, on its
way by token or hold; MWRA is held for the checker. 13 R340 to R343: the attention words push their commands once their
descriptors obey R341 and their walks check; ARST and ACFG need no descriptor. -/
def Obligations.EnginePushes : Prop :=
  (∀ (s : State) (f : Fields) (cl : List WalkCls) (pg : List Nat) (tile : Nat), issues s f → canPush s 0 →
    let a := me s
    let c := s.cur
    let k (i : Instr) (d : Quarter) : Cmd := mkCmd s c f 0 i d
    let sent (i : Instr) (k : Cmd) : Prop := ∃ t, exec i s = .next t ∧ pushes s t f k
    sent (.mswap f) (k (.mswap f) 0) ∧
    (checkTile s c f.o1 = .ok tile → sent (.mzero f) (k (.mzero f) 0)) ∧
    (let d := descOf a f.o1
     let sf := dSfmt d
     let kb := (valOf a f.o4).toNat
     plainDesc d (if mxScaled sf then [0, 1] else [0]) false → twoDims d sf → mxE sf ≠ 0 → (dDfmt d = 0 ∨ dDfmt d = sf) →
     dTrip d 0 * perStep sf ≤ 256 → (dEng d = 1 → dTrip d 1 % 32 = 0 ∧ tableFits s (dField d 15) (dTrip d 0 * perStep sf * (dTrip d 1 / 32)) 1) →
     dField d 4 = 2 ^ dEsize d → dField d 8 = 0 → dField d 9 = 0 → dField d 14 = 0 → kb < 32 →
     32 * kb + dTrip d 1 ≤ depthOf s (myCore s) sf →
     checkWalk s c d (2 ^ dEsize d) [mxSide d (baseOf a f.o2 f.o3) 4 .pushRead scratchOnly] = .ok (cl, pg) →
     sent (.mldw f) { k (.mldw f) d with pins := pg }) ∧
    (let d := descOf a f.o2
     let sf := dSfmt d
     let p := (valOf a f.o5).toNat
     let ks := dTrip d 0 * perStep sf
     plainDesc d (if mxScaled sf then [0, 1] else [0]) false → twoDims d sf → mxAct sf = true → (dDfmt d = 0 ∨ dDfmt d = sf) →
     (mxInt sf = true ∨ modBits f 84 81 = 0) → 32 * bitsOf p 12 8 + ks ≤ depthOf s (myCore s) sf →
     dTrip d 1 ≠ 0 → p % 256 + dTrip d 1 ≤ 256 → dField d 4 = 2 ^ dEsize d → dField d 8 = 0 → dField d 9 = 0 →
     (if modBit f 84 then tableFits s (dField d 14) (4 * dTrip d 1) 4 else dField d 14 = 0) →
     (dEng d = 1 → tableFits s (dField d 15) (dTrip d 1 * ((ks + 31) / 32)) 1) →
     checkWalk s c d (2 ^ dEsize d) [mxSide d (baseOf a f.o3 f.o4) 4 .pushRead scratchOnly] = .ok (cl, pg) →
     checkTile s c f.o1 = .ok tile → sent (.mmul f) { k (.mmul f) d with pins := pg }) ∧
    (let d := descOf a f.o3
     let sf := dSfmt d
     let df := dDfmt d
     let e := dField d 14
     let nc := dTrip d 0 * perStep df
     let rq := modBit f 85
     let zp := modBit f 87
     let r := rsFor s c (modBits f 84 82)
     plainDesc d [0] false → twoDims d df → (sf = 0x10 ∨ sf = 0x04) → drainFmt df = true → (zp = true → sf = 0x04) →
     (rq = true → sf = 0x04 → drainInt df = true) → bitsOf e 15 8 + nc ≤ 256 → e % 256 + dTrip d 1 ≤ 256 → e < 65536 →
     dField d 4 = 0 → dField d 5 = 0 → dField d 8 = 2 ^ dEsize d → (rq = true ∨ zp = true → tableFits s (dField d 15) (16 * nc) 16) →
     (zp = true → tableFits s (valOf a f.o5).toNat (4 * dTrip d 1) 4) →
     checkWalk s c d (2 ^ dEsize d) [mxSide d (baseOf a f.o1 f.o2) 8 .pushWrite localOnly] = .ok (cl, pg) →
     checkTile s c f.o4 = .ok tile →
     ∃ t, exec (.mdrain f) s = .next t ∧ pushesFrom s r.1 t f { k (.mdrain f) d with pins := pg, rs := r.2 })) ∧
  (∀ (s : State) (f : Fields) (pg : List Nat) (tile : Nat), issues s f →
    let a := me s
    let c := s.cur
    let k (i : Instr) : Cmd := { mkCmd s c f 0 i 0 with pins := pg }
    let sent (i : Instr) (k : Cmd) : Prop := ∃ t, exec i s = .next t ∧ pushes s t f k
    let at12 := baseOf a f.o1 f.o2
    (canPush s 0 →
      (mxBlock s c at12 32 32 .pushRead scratchOnly = .ok pg → sent (.mcbt f) (mkCmd s c f 0 (.mcbt f) 0)) ∧
      (mxBlock s c at12 tileImage 64 .pushWrite imageCls = .ok pg → checkTile s c f.o3 = .ok tile → sent (.msave f) (k (.msave f))) ∧
      (mxBlock s c at12 planeImage 64 .pushWrite imageCls = .ok pg → sent (.msavePl f) (k (.msavePl f))) ∧
      (mxBlock s c (baseOf a f.o2 f.o3) tileImage 64 .pushRead imageCls = .ok pg → checkTile s c f.o1 = .ok tile → sent (.mrest f) (k (.mrest f))) ∧
      (mxBlock s c at12 planeImage 64 .pushRead imageCls = .ok pg → sent (.mrestPl f) (k (.mrestPl f)))) ∧
    (checkTile s c f.o2 = .ok tile → replayLoad s c = none →
      let p := (valOf a f.o3).toNat
      let m := maskOf a f.o4
      let act := activeMask (upTo 64) m
      ∃ t v, exec (.mrda f) s = .next t ∧
        (wordLeaves s (addLanding (markToken s c f) ⟨c, a.seq, [.lanes (idxOf f.o1) act v (quarterTaints act fun _ => srcTaint a f [f.o3, f.o4])],
          setwTok f, none, none⟩) t fun b => passed f (b.pc + 16) (now s) 1 b) ∧
        ∀ l, l < 64 → act.getLsbD l = true → lane v l = tileGet (tileView s c) (myCore s) tile (p % 256) (64 * bitsOf p 9 8 + l)) ∧
    (checkTile s c f.o1 = .ok tile → roomForEffect s →
      ∃ t, exec (.mwra f) s = .next t ∧ wordLeaves s (holding s (.push { mkCmd s c f 7 (.mwra f) 0 with
        vec := rdV a (idxOf f.o3), mask := maskOf a f.o4, aux := [tile] })) t (fun b => passed f (b.pc + 16) (now s) 1 b) ∧ t.tiles = s.tiles)) ∧
  (∀ (s : State) (f : Fields) (cl : List WalkCls) (pg pg2 : List Nat) (t1 t2 t3 : Nat), issues s f → canPush s 1 →
    let a := me s
    let c := s.cur
    let k (i : Instr) (d : Quarter) : Cmd := mkCmd s c f 1 i d
    let sent (i : Instr) (k : Cmd) : Prop := ∃ t, exec i s = .next t ∧ pushes s t f k
    let d := descOf a f.o3
    let size := dTrip d 0 = 64 ∨ dTrip d 0 = 128 ∨ dTrip d 0 = 256
    let rows := 0 < dTrip d 1 ∧ dTrip d 1 ≤ 256
    let fmt := dSfmt d ∈ [0x12, 0x13, 0x14, 0x15] ∧ (dDfmt d = 0 ∨ dDfmt d = dSfmt d)
    let base := addrOf a f.o1 f.o2
    sent (.arst f) (k (.arst f) 0) ∧
    (checkTile s c f.o1 = .ok t1 → checkTile s c f.o2 = .ok t2 → checkTile s c f.o3 = .ok t3 → sent (.acfg f) (k (.acfg f) 0)) ∧
    (plainDesc d [0] false → twoDims d (dSfmt d) → fmt → dField d 15 = 0 → size → rows → dField d 4 = 2 ^ dEsize d → dField d 8 = 0 →
      dField d 9 = 0 → dField d 14 = 0 → checkWalk s c d (2 ^ dEsize d) [mxSide d base 4 .pushRead localOnly] = .ok (cl, pg) →
      sent (.aldq f) { k (.aldq f) d with pins := pg }) ∧
    (akvForm d = .ok () →
      sent (.akvPl f) (k (.akvPl f) d) ∧
      (checkWalk s c d (2 ^ dEsize d) [mxSide d base 4 .pushRead localOnly, ⟨base, 8, .pushRead, localOnly, false, walkAddr (base + w64 (dField d 14)) d 8⟩] = .ok (cl, pg) →
        sent (.akv f) { k (.akv f) d with pins := pg })) ∧
    (plainDesc d [0] false → twoDims d (dDfmt d) → (dSfmt d = 0 ∨ dSfmt d = 0x10) → dDfmt d ∈ [0x10, 0x12, 0x13] → dField d 15 = 0 →
      size → rows → dField d 4 = 0 → dField d 5 = 0 → dField d 8 = 2 ^ dEsize d → dField d 14 = 0 →
      checkWalk s c d (2 ^ dEsize d) [mxSide d base 8 .pushWrite localOnly] = .ok (cl, pg) →
      (if f.o4 = .none then pg2 = [] else mxBlock s c (valOf a f.o4) (4 * dTrip d 1) 4 .pushWrite localOnly = .ok pg2) →
      let r := rsFor s c (modBits f 84 82)
      ∃ t, exec (.afin f) s = .next t ∧ pushesFrom s r.1 t f { k (.afin f) d with pins := pg ++ pg2, rs := r.2 }))

/-- 10 R263 to R269: a copy word whose descriptor obeys its rules and whose two sides check pushes its command with its index
list and pages; the words that read a list hold the context for it. 10 R267: the index list a command takes with it: its
entries' words as they stand in the context's window at the push, unless an earlier store of the context to them is still under
way or a strong load of it has not performed; more than 1,024 entries, a misaligned table and a table beyond the window are
refused. -/
def Obligations.CopyPushes : Prop :=
  (∀ (s : State) (f : Fields) (cl : List WalkCls) (pg : List Nat) (l : List W64), issues s f → canPush s 2 →
    let a := me s
    let c := s.cur
    let d := descOf a f.o5
    let form (d : Quarter) : Prop := plainDesc d [0] true ∧ codeReserved (dSfmt d) = false ∧ codeReserved (dDfmt d) = false ∧
      (dLcen d = true → tableFits s (dField d 14) 8 8)
    let sides (i : Instr) (l : List W64) : Prop :=
      checkWalk s c d (2 ^ dEsize d) (copySides i (addrOf a f.o3 f.o4) (addrOf a f.o1 f.o2) d l) = .ok (cl, pg)
    let sent (i : Instr) (hold : Nat) (k : Cmd) : Prop := ∃ t, exec i s = .next t ∧ k.seq = mapGet 0 a.qseq 2 % 2 ^ 16 ∧
      wordLeaves s (holding s (.push k)) t fun b => passed f (b.pc + 16) (now s) hold { b with qseq := mapSet b.qseq 2 (mapGet 0 b.qseq 2 + 1) }
    let k (i : Instr) (l : List W64) : Cmd := { mkCmd s c f 2 i d with list := l, pins := pg }
    let entries := dTrip d 1 * dTrip d 2 * dTrip d 3
    (form d → dField d 15 = 0 → sides (.cpy f) [] → sent (.cpy f) 1 (k (.cpy f) [])) ∧
    (form d → dField d 6 = 0 → dField d 7 = 0 → readList s c d = .ok l → sides (.cpyg f) l → sent (.cpyg f) (4 + (entries + 15) / 16) (k (.cpyg f) l)) ∧
    (form d → dField d 10 = 0 → dField d 11 = 0 → readList s c d = .ok l → sides (.cpys f) l → sent (.cpys f) (4 + (entries + 15) / 16) (k (.cpys f) l)) ∧
    (form d → dTrip d 0 ≤ 64 → dTrip d 1 ≤ 64 → dEsize d ≤ 3 → dField d 15 = 0 → sides (.ctrn f) [] → sent (.ctrn f) 1 (k (.ctrn f) [])) ∧
    (let d := descOf a f.o4
     form d → dField d 4 = 0 → dField d 5 = 0 → dField d 6 = 0 → dField d 7 = 0 → dField d 15 = 0 →
     checkWalk s c d (2 ^ dEsize d) [⟨addrOf a f.o1 f.o2, 8, .pushWrite, anyCls, true, walkAddr (addrOf a f.o1 f.o2) d 8⟩] = .ok (cl, pg) →
     sent (.cfil f) 1 { mkCmd s c f 2 (.cfil f) d with pins := pg })) ∧
  (∀ (s : State) (c : Nat) (d : Quarter),
    let n := dTrip d 1 * dTrip d 2 * dTrip d 3
    let e := dField d 15
    let bytes := (upTo (4 * n)).map fun i => spAddr s c (e + i)
    (1024 < n → readList s c d = .error (.trap 0x09 0 (w64 1) false [])) ∧
    (n ≤ 1024 → e % 4 ≠ 0 → readList s c d = .error (.trap 0x09 0 (w64 15) false [])) ∧
    (n ≤ 1024 → e % 4 = 0 → spLen s c < e + 4 * n → readList s c d = .error (.trap 0x06 0 (w64 e) false [])) ∧
    (n ≤ 1024 → e % 4 = 0 → e + 4 * n ≤ spLen s c → spLocked s (coreOf c) bytes false = true ∨ earlierStrongRead s c s.nextId = true →
      readList s c d = .error .stall) ∧
    (n ≤ 1024 → e % 4 = 0 → e + 4 * n ≤ spLen s c → spLocked s (coreOf c) bytes false = false → earlierStrongRead s c s.nextId = false →
      ∃ l, readList s c d = .ok l ∧ l.length = n ∧ ∀ j, j < n → (l.getD j 0).toNat = spNat s (spAddr s c (e + 4 * j)) 4))

/-- 10 R274 to R278: the landing counter words. LCINIT and LCADD wait for the context's earlier accesses and are held for the
checker; CARM pushes its gate; LCWAIT ends at once where its test is met, and otherwise parks the context at the word. 10 R274
to R276: the arrival at a landing counter and the words that set one: with EXP 0 an arrival only sets ERR; one that completes
EXP flips PHASE and reloads REM, with ERR where more came than was left; otherwise REM falls. -/
def Obligations.LandingCounters : Prop :=
  (∀ (s : State) (f : Fields) (x : Nat), issues s f → (me s).fence = none →
    let a := me s
    let c := s.cur
    let k (i : Instr) : Cmd := { mkCmd s c f 7 i 0 with aux := [x] }
    let heldWord (i : Instr) : Prop := ∃ t, exec i s = .next t ∧
      wordLeaves s (holding s (.push (k i))) t (fun b => passed f (b.pc + 16) (now s) 1 b) ∧ t.scratch = s.scratch
    (counterArg s c .write (addrOf a f.o1 f.o2) = .ok x →
      (quietAcc s c = true → roomForEffect s → heldWord (.lcinit f) ∧ heldWord (.lcadd f)) ∧
      (quietAcc s c = false → exec (.lcinit f) s = .next s ∧ exec (.lcadd f) s = .next s)) ∧
    (counterArg s c .write (addrOf a f.o2 f.o3) = .ok x → canPush s (idxOf f.o1) →
      ∃ t, exec (.carm f) s = .next t ∧ pushes s t f { mkCmd s c f (idxOf f.o1) (.carm f) 0 with aux := [x] }) ∧
    (counterArg s c .read (addrOf a f.o2 f.o3) = .ok x → replayWait s c = none →
      let dl := if f.o5 = .none then none else some (valOf a f.o5)
      let p := valOf a f.o4
      let met := lcPhase (spNat s x 8) ≠ p.getLsbD 0 ∨ ∃ d, dl = some d ∧ d.toNat ≤ s.gts.toNat
      (spLocked s (myCore s) ((upTo 8).map fun i => x + i) false = true → exec (.lcwait f) s = .next s) ∧
      (spLocked s (myCore s) ((upTo 8).map fun i => x + i) false = false →
        (met → exec (.lcwait f) s = .next (waitIssued s (finishWait s c (idxOf f.o1) (w64 (spNat s x 8)) (some (appliedAll s))) c)) ∧
        (¬ met → exec (.lcwait f) s = .next (waitIssued s (parkAt s c .lcwait (idxOf f.o1) dl x p 0) c))))) ∧
  (∀ (w b : Nat), w < 2 ^ 64 →
    let r := lcArrival w b
    (lcExp w = 0 → lcErr r = true ∧ lcPhase r = lcPhase w ∧ lcExp r = 0 ∧ lcRem r = lcRem w) ∧
    (lcExp w ≠ 0 → lcRem w ≤ b → lcPhase r = !lcPhase w ∧ lcRem r = lcExp w ∧ lcExp r = lcExp w ∧
      (lcErr r = true ↔ lcErr w = true ∨ lcRem w < b)) ∧
    (lcExp w ≠ 0 → b < lcRem w → lcPhase r = lcPhase w ∧ lcRem r = lcRem w - b ∧ lcExp r = lcExp w ∧ lcErr r = lcErr w) ∧
    (∀ n, lcExp (lcInit w 0 n) = n % 2 ^ 24 ∧ lcRem (lcInit w 0 n) = n % 2 ^ 24 ∧ lcErr (lcInit w 0 n) = false ∧
      lcPhase (lcInit w 0 n) = lcPhase w ∧ lcPhase (lcInit w 1 n) = false ∧ lcPhase (lcInit w 2 n) = true) ∧
    lcAdd w 0 = w ∧
    (∀ n : Nat, 0 < n → lcAdd w n = lcArrival w n) ∧
    (∀ n : Nat, 0 < n → lcRem w + n < 2 ^ 24 → lcRem (lcAdd w (-n)) = lcRem w + n ∧ lcErr (lcAdd w (-n)) = lcErr w) ∧
    (∀ n : Nat, 0 < n → 2 ^ 24 ≤ lcRem w + n → lcRem (lcAdd w (-n)) = 2 ^ 24 - 1 ∧ lcErr (lcAdd w (-n)) = true))

/-- 11 R291 to R293, R296: a bank command whose range checks is pushed, marked where its length is none it accepts; WAITA makes
one strong read, on which the context waits at the word. -/
def Obligations.CommonsWords : Prop :=
  ∀ (s : State) (f : Fields) (pg : List Nat) (loc : Loc), issues s f →
    let a := me s
    let c := s.cur
    let size := redBytes (bankTy f)
    let dst := addrOf a f.o1 f.o2
    let sent (i : Instr) (k : Cmd) : Prop := ∃ t, exec i s = .next t ∧ pushes s t f k
    let k (i : Instr) : Cmd := { mkCmd s c f 3 i 0 with pins := pg }
    let block (i : Instr) (acc : Acc) (n size limit : Nat) : Prop :=
      (n % size = 0 → n ≤ limit → commonsRange s c acc dst (upTo n) size = .ok pg → sent i (k i)) ∧
      (n % size ≠ 0 ∨ limit < n → commonsRange s c acc dst [] size = .ok pg → sent i { k i with aux := [1] })
    (canPush s 3 →
      (let m := maskOf a f.o4
       commonsRange s c .pushWrite dst ((bredActive size m).flatMap fun e => (upTo size).map fun b => e * size + b) size = .ok pg →
        sent (.bred f) { k (.bred f) with vec := rdV a (idxOf f.o3), mask := m }) ∧
      (let src := (addrOf a f.o3 f.o4).toNat
       let n := (valOf a f.o5).toNat
       src % size = 0 → src < 0x200000 → (n % size = 0 → 0 < n → n ≤ 2 ^ 21 → src + n ≤ spLen s c) → block (.bredBlock f) .pushWrite n size (2 ^ 21)) ∧
      block (.bsum f) .pushRead (valOf a f.o3).toNat size (2 ^ 24) ∧
      block (.bfill f) .pushWrite (valOf a f.o4).toNat 8 (2 ^ 24) ∧
      block (.bclr f) .pushWrite (valOf a f.o3).toNat size (2 ^ 24)) ∧
    (let w := if modBit f 86 then 4 else 8
     locate s c .read (addrOf a f.o2 f.o3) (upTo w) w commonsOnly = .ok loc → a.fence = none → replayWait s c = none →
      let u := updArch (baseLive s c) c fun b => { b with block := some a.seq }
      let x := mkAcc u c .rd [] loc (srcTaint a f [f.o2, f.o3]) (some 0x3F)
        (.waita (idxOf f.o1) (valOf a f.o4) w (if f.o5 = .none then none else some (valOf a f.o5))) none none
      exec (.waita f) s = .next (waitIssued s (addAcc u x) c))

/-- 12 R313 to R316; 02 R68: a direct remote word to a well-formed remote address enters the port behind the checker, with its
SEQ, its tag and the vector of the slots filled from its peer; with a destination it takes a load slot and is awaited; nothing
is sent yet. -/
def Obligations.DirectRemote : Prop :=
  ∀ (s : State) (f : Fields), issues s f → (me s).fence = none →
    (s.fab.dirs.filter fun d => d.ctx == s.cur && d.late.isNone).length < 64 →
    let a := me s
    let c := s.cur
    let enters (i : Instr) (op : Nat) (va : W64) (align : Nat) (kind : PKind) (args : List W64) (data : List Byte) (t : Taint)
        (strong : Bool) (dest : Option (Taint → Dest)) : Prop :=
      2 ^ 63 ≤ va.toNat → va.toNat % align = 0 → ∀ s1 slot,
        (dest = none ∧ s1 = s ∧ slot = none ∨ dest.isSome = true ∧ ∃ j, slot = some j ∧ takeSlot s c (some (peerOf va)) = .ok (s1, j)) →
        roomForEffect s1 →
        let b := me s1
        let d : Direct :=
          { id := s1.nextId, ctx := c, seq := a.seq, xf := mapGet 0 a.qseq 4, op := op, peer := peerOf va, lane := modBits f 82 81, tag := s1.fab.nextTag,
            strong := strong, vec := remoteVec s1 c (peerOf va) (t ||| b.cT), kind := kind, args := args, data := data, st := .port, sent := 0, cyc := 0,
            dest := match dest with | none => .none | some g => g (t ||| slotBit slot)
            token := if dest.isSome then setwTok f else none, slot := slot
            deps := (depsOf b c (t ||| b.cT)).filter fun x => x.2 != a.seq, late := none }
        let s2 := if strong then baseLive (holding s1 (.remote d.id)) c else holding s1 (.remote d.id)
        let u := { s2 with nextId := s2.nextId + 1, fab := { s2.fab with nextTag := s2.fab.nextTag + 1, dirs := s2.fab.dirs ++ [d] } }
        ∃ t', exec i s = .next t' ∧
          (wordLeaves s (if dest.isSome then markToken u c f else u) t' fun b =>
            passed f (b.pc + 16) (now s) 1 { b with qseq := mapSet b.qseq 4 (mapGet 0 b.qseq 4 + 1) }) ∧
          t'.fab.outbox = s.fab.outbox
    let n := remoteWidth f
    let va := addrOf a f.o2 f.o3
    let off := w64 (va.toNat % 2 ^ 41)
    enters (.rld f) 1 va n .rld [w64 (reqHead 0 f.hint), off, w64 n] [] (srcTaint a f [f.o2, f.o3]) (modBit f 85) (some fun t =>
      if n = 8 then .scalar (idxOf f.o1) 8 false t
      else if n = 16 then .pair (idxOf f.o1) (idxOf f.o1 + 1) 8 false t
      else .lanes (idxOf f.o1) (lowLanes n) 4 false (quarterTaints (lowLanes n) fun _ => t)) ∧
    (let dst := addrOf a f.o1 f.o2
     let r := idxOf f.o3
     let out := enters (.rst f) 2 dst n .rst [w64 (reqHead 0 f.hint), w64 (dst.toNat % 2 ^ 41), w64 n]
     (n = 8 → out (leBytes 8 (rdS a r).toNat) (srcTaint a f [f.o1, f.o2] ||| taintOf a f.o3) (modBit f 85) none) ∧
     (n = 16 → out (leBytes 8 (rdS a r).toNat ++ leBytes 8 (rdS a (r + 1)).toNat) (srcTaint a f [f.o1, f.o2] ||| pairTaint a f.o3) (modBit f 85) none) ∧
     (16 < n → out (leBytes n (rdV a r).toNat)
       (srcTaint a f [f.o1, f.o2] ||| (upTo ((n + 63) / 64)).foldl (fun t q => t ||| vTaint a r q) 0) (modBit f 85) none)) ∧
    (let w := if modBit f 86 then 4 else 8
     enters (.ramo f) 3 va w .ramo [w64 (reqHead (if f.o1 = .none then 1 else 0) f.hint), off, w64 w, w64 (modBits f 90 87), valOf a f.o4] [] (srcTaint a f [f.o2, f.o3, f.o4]) true
      (if f.o1 = .none then none else some (.scalar (idxOf f.o1) w false))) ∧
    (let rop (i : Instr) (code : Nat) : Prop :=
      enters i 4 va 8 .rop [0, off, 0, w64 code, valOf a f.o5] (leBytes 64 (quarterOf (rdV a (idxOf f.o4)) (qOf f.o4)).toNat)
        (srcTaint a f [f.o2, f.o3, f.o4, f.o5]) true (if f.o1 = .none then none else
          some fun t => .lanes (idxOf f.o1) (BitVec.ofNat 64 (0xFFFF * 2 ^ (16 * qOf f.o1))) 4 false
            ((upTo 4).map fun q => if q = qOf f.o1 then some (t, false) else none))
     rop (.ropCasw f) 0 ∧ rop (.ropFxadd f) 1 ∧ rop (.ropEnq f) 2 ∧ rop (.ropDeq f) 3 ∧ rop (.ropChase f) 4 ∧ rop (.ropBadd f) 5 ∧
     rop (.ropMinloc f) 6 ∧ rop (.ropGath4 f) 7 ∧ rop (.ropScat4 f) 8 ∧ rop (.ropLcarr f) 9 ∧ rop (.ropHist f) 10 ∧ rop (.ropPutsig f) 11)

/-- 12 R319, R320, R325, R328: RPUT, RGET, MCAST, GRED and PLSEND push their commands to qf once their descriptors and ranges
check. 12 R323: GSYNC on an entry that is not usable returns status 4; with a release owed to its task it returns that; with an
arrival already recorded it waits; otherwise, once the context's accesses have performed and its remote writes are acknowledged,
it waits with its arrival held for the checker, and until then stalls. -/
def Obligations.FabricWords : Prop :=
  (∀ (s : State) (f : Fields) (cl : List WalkCls) (pg : List Nat) (loc : Loc), issues s f → canPush s 4 →
    let a := me s
    let c := s.cur
    let sent (i : Instr) (k : Cmd) : Prop := ∃ t, exec i s = .next t ∧ pushes s t f k
    let d := descOf a f.o5
    let form := plainDesc d [0] true ∧ codeReserved (dSfmt d) = false ∧ codeReserved (dDfmt d) = false
    let src := addrOf a f.o3 f.o4
    let dst := addrOf a f.o1 f.o2
    let k (i : Instr) : Cmd := { mkCmd s c f 4 i d with pins := pg }
    let walks (l : List Side) : Prop := checkWalk s c d (2 ^ dEsize d) l = .ok (cl, pg)
    (form → dField d 15 = 0 → walks [srcSide (.rput f) src d false, dstSide (.rput f) dst d true] → sent (.rput f) (k (.rput f))) ∧
    (form → dField d 15 = 0 → (dLcen d = true → tableFits s (dField d 14) 8 8) →
      walks [srcSide (.rget f) src d true, dstSide (.rget f) dst d false] → sent (.rget f) (k (.rget f))) ∧
    (form → dField d 15 < 256 → dst.toNat < 2 ^ 41 → walks [srcSide (.mcast f) src d false, dstSide (.mcast f) (dst ||| (1#64 <<< 63)) d true] →
      sent (.mcast f) (k (.mcast f))) ∧
    (let n := 8 * (bitsOf (valOf a f.o5).toNat 18 16 + 1)
     let fits (x : Nat) : Prop := x % 8 = 0 ∧ x < 0x200000 ∧ x + n ≤ spLen s c
     fits src.toNat → fits dst.toNat → sent (.gred f) (mkCmd s c f 4 (.gred f) 0)) ∧
    (plHeld s c = false →
      let k := mkCmd s c f 4 (.plsend f) 0
      let va := addrOf a f.o2 f.o3
      (modBit f 80 = true → sent (.plsend f) { k with pins := [] }) ∧
      (modBit f 80 = false →
        let l := (valOf a f.o5).toNat % 2 ^ 18
        let n := match ownRing s c (valOf a f.o1).toNat with
          | some r => if l = 0 then r.blk else l
          | none => l
        locate s c .pushRead va (upTo n) 1 notHost = .ok loc →
        sent (.plsend f) { k with pins := if loc.cls = .scratch then [] else ((upTo n).map fun i => (va.toNat + i) / 0x10000).eraseDups }))) ∧
  (∀ (s : State) (f : Fields), issues s f → replayWait s s.cur = none →
    let a := me s
    let c := s.cur
    let r := idxOf f.o1
    let e := (valOf a f.o2).toNat % 256
    let dl := if f.o3 = .none then none else some (valOf a f.o3)
    let s0 := cacheSet s
    let b := getBar s0 e
    let me' := serialOf s0 c
    let gives (t : State) : Prop := exec (.gsync f) s = .next (waitIssued s t c)
    let usable := ∃ w, setEntry s0 e = some w ∧ setHas w s.devno = true
    (¬ usable → gives (finishWait s0 c r (w64 (4 * 2 ^ 60)) none)) ∧
    (usable →
      (∀ o, b.owed.find? (fun o => o.1 == me') = some o →
        gives (finishWait (setBar s0 e { b with owed := b.owed.erase o }) c r (w64 (o.2.2 * 2 ^ 60 + o.2.1 % 2 ^ 32))
          (if o.2.2 = 0 then some (appliedAll s) else none))) ∧
      (b.owed.find? (fun o => o.1 == me') = none →
        ((arrivalOf b me').isSome = true → gives (parkAt (setBar s0 e { b with arr := b.arr.map fun x => if x.1 = me' then (x.1, x.2.1, false) else x })
          c .gsync r dl e 0 0)) ∧
        (arrivalOf b me' = none →
          (quietAcc s c = false ∨ awaitsBefore s c s.nextId = true → exec (.gsync f) s = .next s) ∧
          (quietAcc s c = true → awaitsBefore s c s.nextId = false → roomForEffect s → ∀ s1,
            holdEff (baseLive s0 c) c (.push { mkCmd s0 c f 7 (.gsync f) 0 with aux := [e, me'] }) = .ok s1 →
            gives (sealHeld s0 (parkAt s1 c .gsync r dl e 0 0) c))))))

/-- 12 R326, R329: PLCFG.OPEN, PLCFG.CLOSE and PLREL return their status words after their latencies, and are held for the
checker when the status is no refusal; the lowest-numbered refusal that applies is the one returned. 12 R331, R332: in
supervisor mode LNCTL returns 0 and is held for the checker where its selector is in range; DISABLE returns 2 where the
wavelength alone keeps a lane group up that has no alternate; in task mode it traps. LNSTAT reads the states, counts and widths.
14 R371 to R373, R375: the coding words push their commands to qk; KCFG, in supervisor mode, with its record's bytes, KPROT with
its region's pages; KSTAT reads the member table, the regions, the rounds and the rebuild, or all ones before a configuration.
-/
def Obligations.RingLinkCodingWords : Prop :=
  (∀ (s : State) (f : Fields), issues s f → plHeld s s.cur = false → replaying s s.cur = false →
    let a := me s
    let c := s.cur
    let returns (i : Instr) (u : State) (lat hold : Nat) (x : W64) (y : Taint) : Prop := ∃ t, exec i s = .next t ∧
      wordLeaves s u t fun b => passed f (b.pc + 16) (now s) hold (withResults (now s + lat) [.sreg (idxOf f.o1) x y] b)
    (let d := descOf a f.o2
     let ns := dField d 3 % 16
     let fits := dField d 4 + ns * dField d 5 ≤ spLen s c ∧ dField d 6 + 8 * ns ≤ spLen s c
     let opens (u : State) (x : Nat) : Prop := returns (.plcfgOpen f) u 24 24 (w64 x) (srcTaint a f [f.o2])
     (freeRing s = none → opens s (2 ^ 60)) ∧
     (∀ g, freeRing s = some g →
       (∀ i, openField d = some i → opens s (2 * 2 ^ 60 + i * 2 ^ 8)) ∧
       (openField d = none → ¬ fits → opens s (3 * 2 ^ 60)) ∧
       (openField d = none → fits → roomForEffect s →
         opens (holding s (.push { mkCmd s c f 7 (.plcfgOpen f) d with
           aux := g :: (upTo ns).map fun k => spAddr s c (dField d 6 + 8 * k) })) g))) ∧
    (let g := (valOf a f.o2).toNat
     let t1 := srcTaint a f [f.o2]
     let t2 := srcTaint a f [f.o2, f.o3]
     ((ownRing s c g).isSome = true → roomForEffect s →
       returns (.plcfgClose f) (holding s (.push { mkCmd s c f 7 (.plcfgClose f) 0 with aux := [g] })) 24 24 0 t1) ∧
     (ownRing s c g = none → returns (.plcfgClose f) s 24 24 (w64 (6 * 2 ^ 60)) t1) ∧
     (quietAcc s c = true →
       let st := (valOf a f.o3).toNat % 2 ^ 32
       (ownRing s c g = none → returns (.plrel f) (recorded s [6]) 8 1 6 t2) ∧
       (∀ r, ownRing s c g = some r → r.land ≤ st → returns (.plrel f) (recorded s [1]) 8 1 1 t2) ∧
       (∀ r, ownRing s c g = some r → st < r.land → roomForEffect s →
         let u := recorded s [0]
         returns (.plrel f) (holding u (.push { mkCmd u c f 7 (.plrel f) 0 with aux := [g, st] })) 8 1 0 t2)) ∧
     (quietAcc s c = false → exec (.plrel f) s = .next s))) ∧
  (∀ (s : State) (f : Fields), issues s f → replaying s s.cur = false →
    let a := me s
    let c := s.cur
    let sel := (valOf a f.o2).toNat
    let v := valOf a f.o3
    let returns (i : Instr) (u : State) (lat : Nat) (x : W64) (y : Taint) : Prop := ∃ t, exec i s = .next t ∧
      wordLeaves s u t fun b => passed f (b.pc + 16) (now s) lat (withResults (now s + lat) [.sreg (idxOf f.o1) x y] b)
    let t1 := srcTaint a f [f.o2, f.o3]
    (a.mode = false → ∀ i, i = .lnctlMode f ∨ i = .lnctlRetrain f ∨ i = .lnctlDisable f ∨ i = .lnctlEnable f ∨ i = .lnctlPark f →
      exec i s = .next (wordTrap s c 0x02 0 (w64 0x20C) false [] 0)) ∧
    (a.mode = true →
      let takes (i : Instr) : Prop :=
        let u := recorded s [0]
        returns i (holding u (.push { mkCmd u c f 7 i 0 with aux := [sel, v.toNat % 4] })) 8 0 t1
      let refuses (i : Instr) (n : W64) : Prop := returns i (recorded s [n]) 8 n t1
      let alone := inStripe (getWave s (v.getLsbD 0) sel) = true ∧ activeWidth s (v.getLsbD 0) sel = 1 ∧ hasAlt s sel = false
      (roomForEffect s →
        (sel < 512 → takes (.lnctlMode f)) ∧
        (sel < 4096 → takes (.lnctlRetrain f) ∧ takes (.lnctlEnable f)) ∧
        (sel < 4096 → ¬ alone → takes (.lnctlDisable f)) ∧
        (sel < 4096 → groupBase s sel = sel → takes (.lnctlPark f))) ∧
      (512 ≤ sel → refuses (.lnctlMode f) 1) ∧
      (4096 ≤ sel → refuses (.lnctlRetrain f) 1 ∧ refuses (.lnctlEnable f) 1 ∧ refuses (.lnctlDisable f) 1 ∧ refuses (.lnctlPark f) 1) ∧
      (sel < 4096 → groupBase s sel ≠ sel → refuses (.lnctlPark f) 1) ∧
      (sel < 4096 → alone → refuses (.lnctlDisable f) 2)) ∧
    (let item := modBits f 83 80
     let tx := modBit f 84
     let reads (x : W64) : Prop := returns (.lnstat f) (recorded s [x]) 24 x 0
     let w := getWave s tx sel
     let state (w : Wave) : W64 := if tx then w64 (w.st * 2 ^ 61) else w64 (w.st * 2 ^ 61 + w.retr * 2 ^ 48 + w.pce)
     (item = 0 → sel < 4096 → reads (state w)) ∧
     (item = 4 → sel < 496 → reads (state (getWave s tx (4096 + sel)))) ∧
     (item = 1 → sel < 4096 → reads (w64 (w.werr.toNat * 2 ^ 32 + w.wchg.toNat))) ∧
     (item = 2 → sel < 4096 → groupBase s sel = sel →
       reads (w64 (modeOf s (sel / 8) * 2 ^ 62 + groupWidth s sel * 2 ^ 56 + activeWidth s tx sel * 2 ^ 52 + lgLow s tx sel))) ∧
     (item = 3 → sel < 31 → activeWidth s tx (4096 + 16 * sel) ≠ 0 →
       reads (w64 (15 * 2 ^ 56 + (activeWidth s tx (4096 + 16 * sel) - 1) * 2 ^ 52 + lgLow s tx (4096 + 16 * sel)))) ∧
     (item = 3 → sel < 31 → activeWidth s tx (4096 + 16 * sel) = 0 → ∃ x y, x < 16 ∧
       y = w64 (15 * 2 ^ 56 + x * 2 ^ 52 + lgLow s tx (4096 + 16 * sel)) ∧
       returns (.lnstat f) (recorded { s with freeCnt := s.freeCnt + 1 } [y]) 24 y 0) ∧
     ((item = 0 ∨ item = 1) ∧ 4096 ≤ sel ∨ item = 2 ∧ ¬ (sel < 4096 ∧ groupBase s sel = sel) ∨ item = 3 ∧ 31 ≤ sel ∨ item = 4 ∧ 496 ≤ sel → reads 0xFFFFFFFFFFFFFFFF))) ∧
  (∀ (s : State) (f : Fields) (loc : Loc) (l : List Nat), issues s f →
    let a := me s
    let c := s.cur
    let sent (i : Instr) (k : Cmd) : Prop := ∃ t, exec i s = .next t ∧ pushes s t f k
    let plain (i : Instr) : Prop := sent i (mkCmd s c f 5 i 0)
    (canPush s 5 → plain (.kunpr f) ∧ plain (.kopen f) ∧ plain (.kprep f) ∧ plain (.kcomt f) ∧ plain (.kabrt f) ∧ plain (.krbld f) ∧ plain (.kscrb f)) ∧
    (canPush s 5 → a.mode = true →
      let va := addrOf a f.o1 f.o2
      locate s c .pushRead va (upTo 512) 64 (· == .global) = .ok loc →
      sent (.kcfg f) { mkCmd s c f 5 (.kcfg f) 0 with aux := loc.addrs, pins := ((upTo 512).map fun i => (va.toNat + i) / 0x10000).eraseDups }) ∧
    (canPush s 5 →
      let va := (addrOf a f.o2 f.o3).toNat
      let z := (valOf a f.o4).toNat
      let n := if z ≠ 0 ∧ z % 0x10000 = 0 then min (z / 0x10000) (2 ^ 25 + 1) else 1
      let vas := (upTo n).map fun i => va + 0x10000 * i
      va % 0x10000 = 0 → 0x200000 ≤ va → va + 0x10000 * n ≤ 2 ^ 41 → pageLimit s c (vas.map fun v => (v, .pushWrite)) = .ok () →
      pushPages s c (vas.map fun v => (v, .pushWrite)) = .ok l → (∀ p ∈ l, classOf p = some .global ∧ parityPage s p = false) →
      sent (.kprot f) { mkCmd s c f 5 (.kprot f) 0 with aux := l, pins := vas.map (· / 0x10000) }) ∧
    (replaying s c = false →
      let n := (valOf a f.o2).toNat
      let k := s.cod
      let reads (x : W64) : Prop := ∃ t, exec (.kstat f) s = .next t ∧
        wordLeaves s (recorded s [x]) t fun b => passed f (b.pc + 16) (now s) 24 (withResults (now s + 24) [.sreg (idxOf f.o1) x 0] b)
      (k.cfg = false → reads 0xFFFFFFFFFFFFFFFF) ∧
      (k.cfg = true →
        (modBits f 83 80 = 0 → 32 ≤ n → reads 0xFFFFFFFFFFFFFFFF) ∧
        (modBits f 83 80 = 0 → n < 32 → (mapGet 0 k.entries n).getLsbD 63 = true → reads (mapGet 0 k.entries n ||| w64 (memberState k n * 2 ^ 60))) ∧
        (modBits f 83 80 = 1 → 64 ≤ n → reads 0xFFFFFFFFFFFFFFFF) ∧
        (modBits f 83 80 = 1 → n < 64 → ∀ r, mapFind k.regions n = some r → reads (w64 (2 ^ 63 + r.pages.length * 2 ^ 32))) ∧
        (modBits f 83 80 = 1 → n < 64 → mapFind k.regions n = none → reads 0) ∧
        (modBits f 83 80 = 2 → reads (roundWord s n)) ∧
        (modBits f 83 80 = 0 → n < 32 → (mapGet 0 k.entries n).getLsbD 63 = false → reads (mapGet 0 k.entries n)) ∧
        (modBits f 83 80 = 3 → k.rbld = none → reads 0) ∧
        (∀ l y, modBits f 83 80 = 3 → k.rbld = some (l, y) → reads (w64 (2 ^ 63 + l * 2 ^ 40 + rebuiltGrans k))))))

/-! Host, power, dispatch, faults (05, 15, 16). -/

/-- 16 R398, R404: device reset and the stages of bring-up: an image that passes moves its stage on and is recorded; a failure
leaves the stage, marks it failed and raises vector 3. An event of another stage changes nothing. 16 R397: the mailbox. While a
command is busy another is ignored; before stage 3 it is refused with reason 5, and before SETDEV every other with 2; a command
that finishes leaves its status and result and raises vector 0; TIME stays busy, and TEARDOWN until the region is TORN. ATTEST's
bytes are stated where no region is protected, no record waits in an overflow area and no home is busy. 16 R396, R397; 05 R126,
R131; 01 R33, R34: the host's windows: a read of the pending counter word clears it; a launch page counts what is no record for
a LIVE root region, and a record arrives at its launch queue at this GTS, to be accepted in its turn; a status read returns the
region's word; a BAR 4 write is one pending write, a read the bytes. -/
def Obligations.BringUpAndHost : Prop :=
  (∀ (s : State) (image tr : List Byte) (arr : List (Nat × Nat)) (dark : List Nat),
    let m := s.mgt
    let stage (n : Nat) : Prop := m.stage = n ∧ m.failed = false
    let fails (i : Instr) : Prop := exec i s = .next { s with mgt := { m with failed := true, irqs := m.irqs ++ [3] } }
    let idle (i : Instr) : Prop := exec i s = .next s
    let digest := (tr.drop 0x10).take 64
    let version := leNat ((tr.drop 8).take 4)
    exec .deviceReset s = .next { State.reset with agenda := s.agenda, freeCnt := s.freeCnt, mgt := { Mgt.reset with fuse0 := m.fuse0, fuse2 := m.fuse2 } } ∧
    (stage 0 → imagePasses 0 m.fuse0 image tr = true → exec (.bootRomVerify image tr) s =
      .next { s with mgt := { m with stage := 1, digest0 := digest, ver0 := version, fuse0 := version } }) ∧
    (stage 0 → imagePasses 0 m.fuse0 image tr = false → fails (.bootRomVerify image tr)) ∧
    (¬ stage 0 → idle (.bootRomVerify image tr)) ∧
    (stage 1 → ∃ t, exec (.hbmTraining true arr) s = .next t ∧ t.mgt = { m with stage := 2 } ∧
      (∀ k p, arr[k]? = some p → k < 64 → (getCluster t k).bandok = BitVec.ofNat 4 p.1 ∧ (getCluster t k).spused = BitVec.ofNat 4 p.2) ∧
      t = { s with mgt := t.mgt, clusters := t.clusters }) ∧
    (stage 1 → fails (.hbmTraining false arr)) ∧ (¬ stage 1 → ∀ b, idle (.hbmTraining b arr)) ∧
    (stage 2 → imagePasses 2 m.fuse2 image tr = true → ∃ id key, exec (.firmwareVerify image tr) s =
      .next { s with mgt := { m with stage := 3, digest2 := digest, ver2 := version, fuse2 := version, idSeed := id, atSeed := key } }) ∧
    (stage 2 → imagePasses 2 m.fuse2 image tr = false → fails (.firmwareVerify image tr)) ∧
    (¬ stage 2 → idle (.firmwareVerify image tr)) ∧
    (stage 3 → ∃ t, exec (.linkTraining true dark) s = .next t ∧ t = { s with fab := { s.fab with rx := t.fab.rx, tx := t.fab.tx } } ∧
      (∀ c, c ∈ dark → (getWave t true c).st = 7 ∧ (getWave t false c).st = 7) ∧
      ∀ c b, c ∉ dark → getWave t b c = getWave s b c) ∧
    (stage 3 → fails (.linkTraining false dark)) ∧ (¬ stage 3 → ∀ b, idle (.linkTraining b dark)) ∧
    (imagePasses 0 m.fuse0 image tr = true → tr.length = 256 ∧ leNat (tr.take 4) = 0x53494731 ∧ m.fuse0 ≤ version ∧
      shake256 image 64 = digest ∧ edVerify ((tr.drop 0x50).take 57) ((tr.drop 0x8C).take 114) (tr.take 0x8C) = true)) ∧
  (∀ (s : State) (tag dev groups maxdev pa len root rcb table handle slot : Nat) (peers : List Nat) (modes alts : List (Nat × Nat))
      (gates : List Gate) (nonce : List Byte),
    let m := s.mgt
    let done (t : State) (code : Nat) (res : List W64) : Prop :=
      t.mgt.mbStat = w64 (tag % 2 ^ 32 * 2 ^ 16 + code) ∧ t.mgt.mbRes = res ∧ t.mgt.irqs = m.irqs ++ [0] ∧ t.mgt.mbWait = none
    let refused (i : Instr) (code reason : Nat) : Prop := exec i s = .next { s with mgt := { m with
      mbStat := w64 (2 * 2 ^ 60 + reason * 2 ^ 48 + tag % 2 ^ 32 * 2 ^ 16 + code), mbRes := [], irqs := m.irqs ++ [0], mbWait := none } }
    let setdev : Instr := .setdev tag dev groups maxdev
    let rest : List (Instr × Nat) := [(.route tag pa len peers modes gates alts, 2), (.time tag root, 3), (.mkroot tag rcb table, 4),
      (.teardown tag handle, 5), (.attest tag nonce pa, 6), (.crec tag pa, 7), (.cntirq tag slot pa, 8)]
    (m.mbWait.isSome = true → ∀ p ∈ (setdev, 1) :: rest, exec p.1 s = .next s) ∧
    (m.mbWait = none →
      (m.stage < 3 → ∀ p ∈ (setdev, 1) :: rest, refused p.1 p.2 5) ∧
      (3 ≤ m.stage → m.setdev = false →
        (∀ p ∈ rest, refused p.1 p.2 2) ∧
        (dev < 2 ^ 22 → 0 < groups → groups ≤ 131072 → maxdev < 2 ^ 22 → ∃ t, exec setdev s = .next t ∧ done t 1 [] ∧
          t.devno = dev ∧ t.fab = { s.fab with ngrp := groups - 1, maxdev := maxdev } ∧ t.mgt.setdev = true ∧ t.mem = s.mem)) ∧
      (3 ≤ m.stage → m.setdev = true →
        refused setdev 1 3 ∧
        (pa + len ≤ 0x8000000000 → ∃ t, exec (.route tag pa len peers modes gates alts) s = .next t ∧ done t 2 [] ∧ t.mgt.routed = true ∧
          t.fab.routed = peers ∧ t.fab.gates = gates ∧ t.fab.alts = alts ∧ t.fab.onAlt = [] ∧ t.mem = s.mem) ∧
        (root < 2 ^ 22 → exec (.time tag root) s = .next { s with mgt := { m with
          timeRoot := some root, mbStat := w64 (2 ^ 60 + tag % 2 ^ 32 * 2 ^ 16 + 3), mbWait := some (3, tag, root) } }) ∧
        (let w := (upTo 8).map fun i => memNat s.mem (rcb + 8 * i) 8
         let r := rcbOf w none
         rcb + 64 ≤ 0x8000000000 → rcb % 64 = 0 → table + 256 ≤ 0x8000000000 → table % 256 = 0 → busyHome s [rcb] = false → r.inh = 0 → rcbZeros w = true →
         rcbRange r = true → ∀ i, freeIndex s = some i →
         ∃ t, exec (.mkroot tag rcb table) s = .next t ∧ done t 4 [w64 (handleOf (createRegion s i 0 r rcb table) i)] ∧
           getRegion t i = getRegion (createRegion s i 0 r rcb table) i ∧ ∀ j, j ≠ i → getRegion t j = getRegion s j) ∧
        (∀ r, hostRoot s handle = some r → (getRegion s r).state = .torn → ∃ t, exec (.teardown tag handle) s = .next t ∧
          done t 5 [w64 (getRegion s r).tdCount] ∧ t.regions = s.regions) ∧
        (∀ r, hostRoot s handle = some r → (getRegion s r).state ≠ .torn → ∃ t, exec (.teardown tag handle) s = .next t ∧ (getRegion t r).hostTd = true ∧
          t.mgt.mbWait = some (5, tag, r) ∧ t.mgt.mbStat = w64 (2 ^ 60 + tag % 2 ^ 32 * 2 ^ 16 + 5)) ∧
        (hostRoot s handle = none → refused (.teardown tag handle) 5 4) ∧
        (nonce ≠ [] → nonce.length ≤ 64 → pa + 626 ≤ 0x8000000000 → s.cod.regions = [] → noneSpilled s →
          (∀ d, d < 4 → (getCommons s d).busy = false) → (∀ x ∈ s.accs, x.ctx ≠ unitCtx) → ∃ t, exec (.attest tag nonce pa) s = .next t ∧ done t 6 [] ∧
          (report s nonce).length = 626 ∧ (∀ i, i < 626 → memGet t.mem (pa + i) = (report s nonce).getD i 0) ∧
          ∀ a, a < pa ∨ pa + 626 ≤ a → memGet t.mem a = memGet s.mem a) ∧
        (pa + 64 ≤ 0x8000000000 → busyHome s [pa, pa + 63] = false → ∃ t, exec (.crec tag pa) s = .next t ∧
          done t 7 ((upTo 8).map fun i => w64 (memNat s.mem (pa + 8 * i) 8)) ∧ t.mem = s.mem) ∧
        (slot < 16 → pa % 8 = 0 → classOf pa = some .global ∨ classOf pa = some .commons →
          ∃ t, exec (.cntirq tag slot pa) s = .next t ∧ done t 8 [w64 (mapGet 0 m.slots slot)] ∧ t.mgt.slots = mapSet m.slots slot pa)))) ∧
  (∀ (s : State) (page off pa n : Nat) (data : List Byte),
    let m := s.mgt
    let g := getRegion s page
    let rcd : Quarter := BitVec.ofNat 512 (leNat data)
    exec .cntirqPendingRead s = .next { s with mgt := { m with hostRd := leBytes 8 m.pending.toNat, pending := 0 } } ∧
    (0 < page → page < 4096 → g.state ≠ .free →
      (off ≠ 0 ∨ data.length ≠ 64 ∨ live s page = false ∨ g.parent ≠ 0 → exec (.hostLaunchWrite page off data) s = .next (bumpCnt s page 0)) ∧
      (off = 0 → data.length = 64 → live s page = true → g.parent = 0 → exec (.hostLaunchWrite page off data) s = .next { s with
        nests := mapSet s.nests s.nextNest { newNest page 0 rcd none false 0 with relId := s.nextId, arr := s.gts }, nextNest := s.nextNest + 1 })) ∧
    (exec (.hostRegionStatusRead page) s = .next { s with mgt := { m with
      hostRd := leBytes 8 (if page = 0 ∨ 4096 ≤ page then 0 else (rgnWord s page).toNat) } }) ∧
    (data ≠ [] → pa + data.length ≤ 0x8000000000 → ∃ t x, exec (.bar4Write pa data) s = .next t ∧ t.accs = s.accs ++ [x] ∧ x.kind = .wr ∧
      x.cells = cellsAt pa data ∧ x.ctx = 512 ∧ t = { s with accs := t.accs, nextId := s.nextId + 1, wseq := t.wseq }) ∧
    (let l := (upTo n).map (pa + ·)
     pa + n ≤ 0x8000000000 → holdsRead s l = false → (∀ a ∈ l, a ∉ s.poison) → (s.accs.any fun x => x.ctx == 512 && overlaps x.addrs l) = false →
     ∃ t, exec (.bar4Read pa n) s = .next t ∧ t.mgt.hostRd = l.map (memGet s.mem) ∧ t.mem = s.mem))

/-- 01 R27 to R30: a nanosecond adds one to GTS, or two, or none where the rule for adding or omitting a tick allows it; every
running cluster's counter moves at its rate, and the outputs of the fabric port send. A measurement sets GTSSTAT once TIME has
completed, and completes TIME when it locks. 16 R399 to R401: the power controller's events: a sample records the draw and
lowers the clusters it names by a step; excess at a window boundary raises the cadence floor; a cause absent for a millisecond
gives its step back; a slack below 20 ps makes a re-plan. 16 R402, R403: a clock change: the request withholds, no more often
than every 100 µs; the quiesce stops the clock at a boundary once the cores are quiet; the restart, 1,500 ns later at the
earliest, runs at the new rate. 09 R236, R239, R240: MXSHARE, CADENCE and ARRSHAPE: a write is kept and comes into force at a
window boundary, ARRSHAPE's only once neither half's array executes a command and with both halves' planes empty; bands the
array does not have are ignored. -/
def Obligations.ClocksAndPower : Prop :=
  (∀ (s : State) (adj : Nat) (offset : Int),
    (∃ t, exec (.gtsTick adj) s = .next t ∧ (t.gts = s.gts ∨ t.gts = s.gts + 1 ∨ t.gts = s.gts + 2) ∧
      (adj = 0 → s.gtsstat.getLsbD 30 = false → t.gts = s.gts + 1) ∧
      (t.gts = s.gts → adj = 2 ∧ 1023 ≤ s.gtsFrac) ∧ (t.gts = s.gts + 2 → 63 ≤ s.gtsFrac) ∧
      (∀ k, k < 64 → (getCluster s k).stopped = false →
        ((getCluster t k).ccy.toNat * 100 + (getCluster t k).frac) % (2 ^ 64 * 100) =
          ((getCluster s k).ccy.toNat * 100 + (getCluster s k).frac + (getCluster s k).curPct.toNat) % (2 ^ 64 * 100)) ∧
      (∀ k, k < 64 → (getCluster s k).stopped = true → getCluster t k = getCluster s k) ∧
      t = { s with gts := t.gts, gtsFrac := t.gtsFrac, clusters := t.clusters, fab := { s.fab with
        outbox := t.fab.outbox, wire := t.fab.wire, served := t.fab.served, lgs := t.fab.lgs } }) ∧
    (s.mgt.timeRoot = none → exec (.gtsSyncMeasure offset) s = .next s) ∧
    (∀ root, s.mgt.timeRoot = some root →
      let off : Int := if root = s.devno then 0 else offset
      let locked := decide (off.natAbs ≤ 32)
      ∃ t, exec (.gtsSyncMeasure offset) s = .next t ∧
        (s.mgt.timed = true → s.mgt.mbWait = none →
          t.gtsstat = gtsWord locked (decide (off < -32)) (s.gtsstat.getLsbD 29 || (s.gtsstat.getLsbD 31 && !locked)) off) ∧
        (∀ tag x, s.mgt.mbWait = some (3, tag, x) → locked = true → t.mgt.timed = true ∧ t.mgt.mbWait = none ∧
          t.mgt.mbStat = w64 (tag % 2 ^ 32 * 2 ^ 16 + 3)) ∧ t.mem = s.mem)) ∧
  (∀ (s : State) (k cause : Nat) (draw slack : BitVec 16) (band : BitVec 4) (slew : Bool),
    let c := getCluster s k
    (∃ t, exec (.powerSample draw []) s = .next t ∧ t.mgt = { s.mgt with draw := draw } ∧
      (∀ j, j < 64 → getCluster t j = { getCluster s j with thrNow := (getCluster s j).thrNow &&& 0b10110 }) ∧ t.mem = s.mem) ∧
    (k < 64 → ∃ t, exec (.powerSample draw [(k, 0)]) s = .next t ∧
      (getCluster t k).lowered = (if 1 < planOf c then c.lowered + 1 else c.lowered) ∧
      (getCluster t k).thrNow.getLsbD 0 = true ∧ (getCluster t k).thrSticky.getLsbD 0 = true) ∧
    (atBoundary c = true → ∃ t, exec (.cadenceFloorStep k slew) s = .next t ∧
      (getCluster t k).gapflr = (if c.gapflr = 15 then 15 else c.gapflr + 1) ∧
      (getCluster t k).thrNow.getLsbD (if slew then 2 else 1) = true ∧ t.mem = s.mem) ∧
    (atBoundary c = false → exec (.cadenceFloorStep k slew) s = .next s) ∧
    (∀ at_, mapFind c.thrAt cause = some at_ → at_.toNat + 1000000 ≤ s.gts.toNat → ∃ t, exec (.powerRelief k cause) s = .next t ∧
      (getCluster t k).thrNow.getLsbD cause = false ∧
      (cause = 0 ∨ cause = 3 → (getCluster t k).lowered = c.lowered - 1) ∧
      (cause = 1 ∨ cause = 2 → (getCluster t k).gapflr = if c.lowered = 0 ∧ c.gapflr ≠ 0 then c.gapflr - 1 else c.gapflr)) ∧
    (∃ t, exec (.ageingMonitor k slack band) s = .next t ∧ (getCluster t k).slack = slack ∧ (getCluster t k).band = band ∧
      (20 ≤ slack.toInt → getCluster t k = { c with slack := slack, band := band }) ∧
      (slack.toInt < 20 → (getCluster t k).replans = (if c.replans = 255 then 255 else c.replans + 1)) ∧
      (slack.toInt < 20 → c.vmarg.toNat < 100 → (getCluster t k).vmarg.toNat = min 100 (c.vmarg.toNat + 5)) ∧
      (slack.toInt < 20 → 100 ≤ c.vmarg.toNat → (getCluster t k).aged = c.aged + 1) ∧
      ∀ j, j ≠ k → getCluster t j = getCluster s j)) ∧
  (∀ (s : State) (k : Nat),
    let c := getCluster s k
    let put (c : Cluster) : State := { s with clusters := mapSet s.clusters k c }
    (c.clkReq = none → c.stopped = false → c.curPct.toNat ≠ planOf c → (∀ t, c.clkLast = some t → t.toNat + 100000 ≤ s.gts.toNat) →
      exec (.clockChangeRequest k) s = .next (put { c with clkReq := some (planOf c, 0) })) ∧
    (∀ t, c.clkLast = some t → s.gts.toNat < t.toNat + 100000 → exec (.clockChangeRequest k) s = .next s) ∧
    (∀ p, c.clkReq = some (p, 0) → atBoundary c = false → exec (.clockChangeQuiesce k) s = .next s) ∧
    (∀ p, c.clkReq = some (p, 0) → c.stopped = false → atBoundary c = true →
      let u := put { c with clkReq := some (p, 1) }
      (coresQuiet u k = false → exec (.clockChangeQuiesce k) s = .next u) ∧
      (coresQuiet u k = true → ∃ t, exec (.clockChangeQuiesce k) s = .next t ∧
        (getCluster t k).stopped = true ∧ (getCluster t k).clkStop = some s.gts ∧ frozen (getCluster t k) = true)) ∧
    (∀ p ph t0, c.clkReq = some (p, ph) → c.clkStop = some t0 → c.stopped = true →
      (s.gts.toNat < t0.toNat + 1500 → exec (.clockRestart k) s = .next s) ∧
      (t0.toNat + 1500 ≤ s.gts.toNat → c.heldEv = [] → ∃ t, exec (.clockRestart k) s = .next t ∧
        getCluster t k = { c with stopped := false, curPct := BitVec.ofNat 8 p, clkReq := none, clkStop := none, clkLast := some s.gts, heldEv := [] } ∧
        t.mem = s.mem))) ∧
  (∀ (s : State) (k : Nat) (x : W64),
    let c := getCluster s k
    let put (c : Cluster) : State := { s with clusters := mapSet s.clusters k c }
    exec (.mxshareWrite k x) s = .next (put { c with modeNext := some (x.truncate 2) }) ∧
    exec (.cadenceWrite k x) s = .next (put { c with gapNext := some (x.truncate 4) }) ∧
    (let b : BitVec 4 := x.truncate 4 &&& c.bandok
     (b ≠ 0 → exec (.arrshapeWrite k x) s = .next (put { c with bandsNext := some b })) ∧
     (b = 0 → ∃ t, exec (.arrshapeWrite k x) s = .next t ∧ getCluster t k = c)) ∧
    (c.modeNext = none ∨ atBoundary c = false → exec (.mxshareApply k) s = .next s) ∧
    (c.gapNext = none ∨ atBoundary c = false → exec (.cadenceApply k) s = .next s) ∧
    (c.bandsNext = none ∨ atBoundary c = false ∨ arrayIdle s k = false → exec (.arrshapeApply k) s = .next s) ∧
    (∀ m, c.modeNext = some m → atBoundary c = true → ∃ t, exec (.mxshareApply k) s = .next t ∧ (getCluster t k).mode = m ∧
      (getCluster t k).modeNext = none ∧ t = { s with clusters := t.clusters }) ∧
    (∀ g, c.gapNext = some g → atBoundary c = true → ∃ t, exec (.cadenceApply k) s = .next t ∧ (getCluster t k).gap = g ∧
      (getCluster t k).gapNext = none ∧ t = { s with clusters := t.clusters }) ∧
    (∀ b, c.bandsNext = some b → atBoundary c = true → arrayIdle s k = true → exec (.arrshapeApply k) s = .next (put { c with
      bands := b, bandsNext := none, mx0 := emptyPlanes c.mx0, mx1 := emptyPlanes c.mx1 })))

/-- 05 R127 to R130, R135: a region's oldest record on its way is accepted, a malformed one of the host's is counted and
dropped, and one whose region is no longer LIVE is dead; a die dispatches the record the rule chooses, and the context it binds
starts at the record's entry address, in the region's mode, with its preset registers, and runs. 05 R132, R133, R142, R144: a
nest whose tasks have all ended and whose writes are applied is marked complete with its status; where its record names a
counter, that word is advanced, or, where it does not translate, the status is FAIL; LAUNCH.NTFY's element follows. -/
def Obligations.DispatchAndNests : Prop :=
  (∀ (s : State) (region die n c w : Nat) (x : Nest),
    (∀ k, flyingOf s region = some k → exec (.launchRecordAccept region) s = .next (landRecord s k)) ∧
    (flyingOf s region = none → exec (.launchRecordAccept region) s = .next s) ∧
    (∀ k y, mapFind s.nests k = some y →
      let taken := ∃ z, mapFind (landRecord s k).nests k = some z ∧ z.order = s.accepts ∧ z.recd = y.recd
      (live s y.region = false → mapFind (landRecord s k).nests k = none) ∧
      (live s y.region = true →
        (y.place = .flying none → (landRecord s k).accepts = s.accepts + 1 ∧ taken) ∧
        (∀ i pa, y.place = .flying (some (i, pa)) →
          (holdsWrite s ((upTo 64).map (pa + ·)) = true → landRecord s k = s) ∧
          (holdsWrite s ((upTo 64).map (pa + ·)) = false → (landRecord s k).accepts = s.accepts + 1 ∧ taken)) ∧
        (y.place = .arriving → malformed y.recd = true →
          mapFind (landRecord s k).nests k = none ∧ mapGet 0 (getRegion (landRecord s k) y.region).cnt 1 = mapGet 0 (getRegion s y.region).cnt 1 + 1) ∧
        (y.place = .arriving → malformed y.recd = false → hwHeld s y.region < (getRegion s y.region).lqmax →
          (∃ z, mapFind (landRecord s k).nests k = some z ∧ z.ticket = (getRegion s y.region).nextTicket) ∧
          (getRegion (landRecord s k) y.region).nextTicket = nextTicket (getRegion s y.region).nextTicket))) ∧
    (choose (classes s) (ready s die) = none → exec (.dispatch die) s = .next s) ∧
    (choose (classes s) (ready s die) = some (n, x) → s.mgt.stage = 4 → pickCtx s x.region = some (c, w) →
      (1024 ≤ x.passed ∨ savedFirst s (classes s) (mapGet 0 (classes s) n) = false ∧ starvedAt s c = false) →
      ∃ t, exec (.dispatch die) s = .next t ∧
        (getArch t c).phase = .running ∧ (getArch t c).pc = w64 (word x.recd 0 % 2 ^ 41) ∧ (getArch t c).mode = (getRegion s x.region).supv ∧
        rdS (getArch t c) 63 = w64 (word x.recd 1) ∧ (getArch t c).base = stampMax x.rel x.depVec ∧
        (∀ r, r < 63 → (∀ d, d < 4 → preOf x.recd d ≠ some r) → rdS (getArch t c) r = 0) ∧
        (∀ r d, r < 63 → d < 4 → preOf x.recd d = some r → (∀ e, e < 4 → e ≠ d → preOf x.recd e ≠ some r) →
          rdS (getArch t c) r = w64 ((iterIdx x.recd x.next).getD d 0)) ∧
        (getCtx t c).bind = some ⟨x.region, n, iterIdx x.recd x.next, s.serial + 1, w, (getRegion s x.region).spb, (getRegion s x.region).supv,
          (getRegion s x.region).root⟩ ∧
        ∀ d, d ≠ c → getCtx t d = getCtx s d)) ∧
  (∀ (s : State) (n : Nat) (x : Nest), mapFind s.nests n = some x →
    let finished := nestDone x = true ∧ tasksQuiet s x = true
    let told (t : State) (st : Nat) := ∀ c sr d, x.launcher = some (c, sr) → x.ntfy = true → ctxOfSerial s sr = some d → (getArch s d).phase ≠ .exiting →
      ∃ e, (getCtx t d).res = (getCtx s d).res ++ [e] ∧ e.q = 6 ∧ e.stat = statWord st 0 x.seq x.ticket
    (¬ finished → exec (.nestCompletionUpdate n) s = .next s) ∧
    (finished → doneWord s x = .none → ∃ t, exec (.nestCompletionUpdate n) s = .next t ∧
      (∀ y, mapFind t.nests n = some y → y.complete = true ∧ y.updated = true ∧ y.stat = nestStat s x) ∧ told t (nestStat s x) ∧ t.mem = s.mem) ∧
    (finished → doneWord s x = .bad → ∃ t, exec (.nestCompletionUpdate n) s = .next t ∧
      (∀ y, mapFind t.nests n = some y → y.complete = true ∧ y.updated = true ∧ y.stat = 3) ∧ told t 3) ∧
    (finished → ∀ pa, doneWord s x = .at pa →
      (holdsWrite s ((upTo 8).map (pa + ·)) = true → exec (.nestCompletionUpdate n) s = .next s) ∧
      (holdsWrite s ((upTo 8).map (pa + ·)) = false → s.cod.regions = [] → noneSpilled s → ∃ t, exec (.nestCompletionUpdate n) s = .next t ∧
        memNat t.mem pa 8 = counterAfter (memNat s.mem pa 8) (nestStat s x) x.errs ∧ told t (nestStat s x) ∧
        (∀ a, a < pa ∨ pa + 8 ≤ a → memGet t.mem a = memGet s.mem a))) ∧
    (let v := counterAfter
     ∀ w st e, w < 2 ^ 64 → st < 16 → v w st e % 2 ^ 32 = (w + 1) % 2 ^ 32 ∧ v w st e / 2 ^ 60 = max (w / 2 ^ 60) st ∧
      bitsOf (v w st e) 59 32 = min (bitsOf w 59 32 + e) (2 ^ 28 - 1)))

/-- 05 R138 to R140; 06 R160, R161, R178: pre-emption for progress asks for the save of the victim the rule names; a teardown
ends once everything of its subtree has, its regions TORN and then, a child before its parent, free; starvation promotes the
lowest-numbered context left out for 65,536 cycles; an EXITING context that has drained becomes FREE. 05 R143; 06 R168: a
waiting word of a running cluster ends when its condition holds: WAITG at its time, NWAIT when its counter has reached the
target or at its deadline; the context runs again at the next word, and its result is on its way. -/
def Obligations.EndsAndWaits : Prop :=
  (∀ (s : State) (n c k core region : Nat) (u : List Nat),
    (stuck s = none ∨ freeSlot s = none → exec .progressPreempt s = .next s) ∧
    (stuck s = some (n, u) → freeSlot s = some k → victim s (classes s) u = some c → (∀ q ∈ s.saveReqs, q.ctx ≠ c) →
      (getRegion s (regionOfCtx s c)).domain ∉ s.mgt.halted →
      ∃ t, exec .progressPreempt s = .next t ∧
        t.saveReqs = s.saveReqs ++ [⟨c, byProgress, n, w64 (s.mgt.svBase + k * 2 ^ 24), s.gts, ccyOf s c, some k, (getArch s c).seq⟩] ∧
        t.mgt.svUsed = s.mgt.svUsed ++ [k] ∧ t.ctxs = s.ctxs) ∧
    ((getRegion s region).state = .free ∨ (getRegion s region).state = .live → exec (.regionTeardownComplete region) s = .next s) ∧
    ((getRegion s region).state = .tearing →
      let first := (getRegion s region).parent = 0 ∨ (getRegion s (getRegion s region).parent).state ≠ .tearing
      (¬ first ∨ tornDown s (subtree s region) = false → exec (.regionTeardownComplete region) s = .next s) ∧
      (first → tornDown s (subtree s region) = true → ∃ t, exec (.regionTeardownComplete region) s = .next t ∧ t.mem = s.mem ∧
        ∀ r, r ∈ subtree s region → (getRegion s r).state = .tearing → (getRegion t r).state = .torn)) ∧
    ((getRegion s region).state = .torn →
      let child := ∃ p ∈ s.regions, p.2.parent = region ∧ p.2.state ≠ .free
      (child → exec (.regionTeardownComplete region) s = .next s) ∧
      (¬ child → ∃ t, exec (.regionTeardownComplete region) s = .next t ∧ t.mem = s.mem ∧ (getRegion t region).state = .free ∧
        (getRegion t region).gen = (getRegion s region).gen + 1 ∧ ∀ r, r ≠ region → getRegion t r = getRegion s r)) ∧
    (∃ t, exec (.starvationPromotion core) s = .next t ∧
      (∀ j, (getCore t core).promoted = some j → j < 4 ∧ 65536 ≤ (getCtx s (4 * core + j)).unsel) ∧
      ((getCore t core).promoted = none → ∀ j, j < 4 → (getCtx s (4 * core + j)).unsel < 65536) ∧
      (∀ i, i ≠ core → getCore t i = getCore s i) ∧ t.ctxs = s.ctxs) ∧
    ((getArch s c).phase = .exiting → drained s c = true →
      ∃ t, exec (.exitDrainComplete c) s = .next t ∧ (getArch t c).phase = .free ∧ (getCtx t c).bind = none ∧ t.mem = s.mem ∧
        ∀ b x, (getCtx s c).bind = some b → mapFind s.nests b.nest = some x → ∃ y, mapFind t.nests b.nest = some y ∧ y.ended = x.ended + 1) ∧
    ((getArch s c).phase ≠ .exiting → (getCtx s c).cut = false → exec (.exitDrainComplete c) s = .next (updCtx s c id))) ∧
  (∀ (s : State) (c : Nat) (p : Park), frozenAt s c = false → (getArch s c).park = some p →
    let l := (upTo 8).map fun i => p.addr + i
    let past := ∃ d, p.deadline = some d ∧ d.toNat ≤ s.gts.toNat
    (p.kind = .waitg → past → (∀ v, (getCtx s c).gtsFloor = some v → v.toNat < s.gts.toNat) →
      ∃ t, exec (.waitgWake c) s = .next t ∧ waitEnds s t c p s.gts ∧ (getArch t c).lastGts = s.gts) ∧
    (p.kind = .waitg → ¬ past → exec (.waitgWake c) s = .next s) ∧
    (p.kind = .nwait → holdsRead s l = true → exec (.nwaitRecheck c) s = .next s ∧ exec (.nwaitDeadline c) s = .next s) ∧
    (p.kind = .nwait → holdsRead s l = false → poisoned s l = false →
      let w := memNat s.mem p.addr 8
      (p.target.toNat % 2 ^ 32 ≤ w % 2 ^ 32 → ∃ t, exec (.nwaitRecheck c) s = .next t ∧ waitEnds s t c p (w64 w)) ∧
      (w % 2 ^ 32 < p.target.toNat % 2 ^ 32 → exec (.nwaitRecheck c) s = .next s) ∧
      (past → ∃ t, exec (.nwaitDeadline c) s = .next t ∧ waitEnds s t c p (w64 w)) ∧
      (¬ past → exec (.nwaitDeadline c) s = .next s)))

/-- 15 R377 to R394: the halt lines, the fault log's, the trace's and the collective abort's events. A halt of a domain with no
context only marks it; a context-fatal fault halts its raiser; a release of a domain not halted does nothing; the register
events write what the spec says they write. 15 R390, R391: a token reaches a member once: one for another protection element, or
acted on before, is dropped; a new one without an agreed round is forwarded to every other device and starts the collection of
statements, which keeps one of each device; when the window has passed and every live member has spoken, or after twice that,
the device acts on the highest committed round it was told of. -/
def Obligations.FaultsAndAborts : Prop :=
  (∀ (s : State) (dom core : Nat) (x : W64),
    (s.fatals = [] → exec .haltLineRaise s = .next s) ∧
    (∀ c cause g v rest, s.fatals = (c, cause, g, v) :: rest → (getCtx s c).bind.isSome = true → frozenAt s c = false →
      ∃ t, exec .haltLineRaise s = .next t ∧ t.fatals = rest ∧ (getArch t c).phase = .halted ∧ (getArch t c).tok = 0 ∧
        domainOf s c ∈ t.mgt.halted) ∧
    (dom ∈ s.mgt.halted → exec (.fhaltRaise dom) s = .next s) ∧
    (dom ∉ s.mgt.halted → (∀ p ∈ s.ctxs, p.2.bind = none) → exec (.fhaltRaise dom) s = .next { s with mgt := { s.mgt with halted := s.mgt.halted ++ [dom] } }) ∧
    (dom ∉ s.mgt.halted → exec (.fhaltRelease dom) s = .next s) ∧
    (dom ∈ s.mgt.halted → (∀ p ∈ s.ctxs, p.2.bind = none) → s.saved = [] →
      exec (.fhaltRelease dom) s = .next { s with mgt := { s.mgt with halted := s.mgt.halted.filter (· != dom) } }) ∧
    (let size := x.toNat % 32
     (∃ t, exec (.flogWrite x) s = .next t ∧ t.mgt.flogBase = bitsOf x.toNat 39 12 * 0x1000 ∧ t.mgt.flogHead = 0 ∧ t.mgt.flogDrop = 0 ∧
       t.mgt.flogSize = (if size = 0 ∨ 4 ≤ size ∧ size ≤ 20 then size else s.mgt.flogSize)) ∧
     (size = 0 → ∀ t, exec (.flogWrite x) s = .next t → t.mem = s.mem)) ∧
    (∃ t, exec (.trctlFrozenClear core) s = .next t ∧
      (getCore t core).trace = { (getCore s core).trace with frozen := false, left := none } ∧ ∀ k, k ≠ core → getCore t k = getCore s k) ∧
    (∃ t, exec (.tridxWrite core x) s = .next t ∧ (getCore t core).trace = { (getCore s core).trace with
      idx := x.truncate 12, lat := mapGet [0, 0, 0, 0] (getCore s core).trace.ents (x.toNat % 4096) } ∧ ∀ k, k ≠ core → getCore t k = getCore s k) ∧
    (s.cod.cfg = false → exec .fcollRaise s = .next s) ∧
    (s.cod.cfg = true → exec .fcollRaise s = .next (if coordGone s = true then sendToken s 2 false
      else updCod (sendCoord s .fcoll [w64 s.cod.pelid]) fun k => { k with asked := true }))) ∧
  (∀ (s : State) (n : Nat) (p : Packet), s.fab.inbox[n]? = some p →
    let a (i : Nat) : Nat := (p.args.getD i 0).toNat
    let gts := p.args.getD 3 0
    let drop : State := { s with fab := { s.fab with inbox := s.fab.inbox.eraseIdx n } }
    (p.kind = .token →
      (s.cod.cfg = false ∨ a 0 ≠ s.cod.pelid ∨ (a 0, a 2, gts) ∈ s.cod.tokens → exec (.abortTokenArrival n) s = .next drop) ∧
      (s.cod.cfg = true → a 0 = s.cod.pelid → (a 0, a 2, gts) ∉ s.cod.tokens →
        (s.cod.collect.isSome = true → exec (.abortTokenArrival n) s = .next s) ∧
        (s.cod.collect = none → a 5 ≠ 1 → ∃ t, exec (.abortTokenArrival n) s = .next t ∧
          (s.cod.pelid, a 2, gts) ∈ t.cod.tokens ∧ t.cod.asked = false ∧ t.cod.collect = some (a 2 * 16 + a 4 % 16, gts, s.gts, [(s.devno, s.cod.c)]) ∧ t.mem = s.mem))) ∧
    (p.kind = .fcoll →
      (s.cod.cfg = false ∨ s.cod.coord = false ∨ a 0 ≠ s.cod.pelid → exec (.abortTokenArrival n) s = .next drop) ∧
      (s.cod.cfg = true → s.cod.coord = true → a 0 = s.cod.pelid → exec (.abortTokenArrival n) s = .next (sendToken drop 2 true))) ∧
    (p.kind = .statement →
      (s.cod.cfg = false ∨ a 0 ≠ s.cod.pelid → exec (.statementArrival n) s = .next drop) ∧
      (s.cod.cfg = true → a 0 = s.cod.pelid → ∀ sr g t0 l, s.cod.collect = some (sr, g, t0, l) →
        (a 1 ≠ sr / 16 ∨ p.args.getD 2 0 ≠ g → exec (.statementArrival n) s = .next s) ∧
        (a 1 = sr / 16 → p.args.getD 2 0 = g → (l.any fun e => e.1 == a 4) = true → exec (.statementArrival n) s = .next drop) ∧
        (a 1 = sr / 16 → p.args.getD 2 0 = g → (l.any fun e => e.1 == a 4) = false → ∃ t, exec (.statementArrival n) s = .next t ∧
          t.cod.collect = some (sr, g, t0, l ++ [(a 4, a 3)]) ∧ t.mem = s.mem))) ∧
    (s.cod.collect = none → exec .statementCollectionExpiry s = .next s) ∧
    (∀ sr g t0 l, s.cod.collect = some (sr, g, t0, l) →
      let all := ∀ i ∈ s.cod.live, ∃ e ∈ l, e.1 = memberDev s.cod i
      let age := s.gts.toNat - t0.toNat
      (age < 100000 ∨ ¬ all ∧ age < 200000 → exec .statementCollectionExpiry s = .next s) ∧
      (200000 ≤ age ∨ all ∧ 100000 ≤ age →
        exec .statementCollectionExpiry s = .next (actOn s ((l.map (·.2)).foldl max 0) (sr / 16) (sr % 16)))))

/-! Landings, the checker and memory's events (06, 07). -/

/-- 01 R20; 06 R151: every fixed-latency result whose cycle has come lands, in its order, and no other; a result for p0 goes
nowhere; a result writes its own register and no other. A value awaited lands with its token, or its hold, and its slot. 06
R148, R166; 07 R182 to R185: an instruction line arrives; the oldest walk ends with its translation, or with the fault its word
takes; a trap that waits is taken once it can be. -/
def Obligations.LandingsAndFetch : Prop :=
  (∀ (s : State) (c : Nat),
    let a := getArch s c
    let due := a.fx.filter fun x => decide (x.due ≤ ccyOf s c)
    let rest := a.fx.filter fun x => !decide (x.due ≤ ccyOf s c)
    (due = [] → exec (.fixedResultLand c) s = .next s) ∧
    ((∀ x ∈ due, ∀ n v, x.upd ≠ .sysreg n v) → ∃ t, exec (.fixedResultLand c) s = .next t ∧
      getArch t c = due.foldl (fun b x => applyUpd b x.upd) { a with fx := rest } ∧
      (∀ d, d ≠ c → getCtx t d = getCtx s d) ∧ t = { s with ctxs := t.ctxs }) ∧
    (∀ (b : Arch) i j x tt, rdS (applyUpd b (.sreg i x tt)) j = if j = i then x else rdS b j) ∧
    (∀ (b : Arch) i j x tt, rdP (applyUpd b (.preg i x tt)) j = if j = i ∧ i ≠ 0 then x else rdP b j) ∧
    (∀ (b : Arch) x tt, applyUpd b (.preg 0 x tt) = b) ∧
    (∀ (b : Arch) i j m x tt l, l < 64 → lane (rdV (applyUpd b (.lanes i m x tt)) j) l = if j = i ∧ m.getLsbD l = true then lane x l else lane (rdV b j) l) ∧
    (∀ (b : Arch) f, (applyUpd b (.flags f)).aflags = b.aflags ||| f) ∧
    (∀ k n l, (getCore s k).landings[n]? = some l → frozenAt s (4 * k) = false → coreOf l.ctx = k → l.seq < (getArch s l.ctx).seq → l.slot = none →
      ∃ t, exec (.tokenResultLand k n) s = .next t ∧ (getCore t k).landings = (getCore s k).landings.eraseIdx n ∧
        (let b := applyUpds (getArch s l.ctx) l.upds
         getArch t l.ctx = { b with
           tok := match l.token with | some j => b.tok &&& ~~~(1#8 <<< j) | none => b.tok
           tokAt := match l.token with | some j => mapSet b.tokAt j (ccyOf s l.ctx + 1) | none => b.tokAt
           block := if b.block = some l.seq then none else b.block
           base := match l.acq with | some st => stampMax b.base st | none => b.base }) ∧ t.mem = s.mem) ∧
    (∀ k n, (getCore s k).landings[n]? = none ∨ frozenAt s (4 * k) = true → exec (.tokenResultLand k n) s = .next s)) ∧
  (∀ (s : State) (k victim c : Nat),
    ((getCore s k).fetchWait = [] → exec (.icacheFill k) s = .next s) ∧
    (∀ l rest, (getCore s k).fetchWait = l :: rest → ∃ t, exec (.icacheFill k) s = .next t ∧ (getCore t k).fetchWait = rest ∧
      l ∈ (getCore t k).lines ∧ (256 < (getCore s k).lines.length ∨ (getCore t k).lines.length ≤ 256) ∧ t = { s with cores := t.cores }) ∧
    ((getCore s k).walks = [] → exec (.translationWalkComplete k victim) s = .next s) ∧
    (∀ root vp rest, (getCore s k).walks = (root, vp) :: rest → s.walker = [] → s.poison = [] → s.poisonTab = [] →
      (∀ r p, walk s root (vp * 0x10000) = .error (r, p) → ∃ t, exec (.translationWalkComplete k victim) s = .next t ∧
        (getCore t k).walks = rest ∧ (getCore t k).wfaults = (getCore s k).wfaults ++ [⟨root, vp, r, p⟩] ∧ t.mem = s.mem) ∧
      (∀ e, walk s root (vp * 0x10000) = .ok e → (getCore s k).tlb.length < 128 → ∃ t, exec (.translationWalkComplete k victim) s = .next t ∧
        (getCore t k).walks = rest ∧ (getCore t k).tlb = (getCore s k).tlb ++ [e] ∧ t.mem = s.mem)) ∧
    (trapWaits s c = false → (getCtx s c).late = [] → exec (.trapEntry c) s = .next s) ∧
    (∀ p, (getArch s c).pend = some p → (getCtx s c).apend = none → (getCtx s c).late = [] → p.cyc ≤ ccyOf s c → (getArch s c).fx = [] →
      (getCore s (coreOf c)).held = [] → frozenAt s c = false → (getArch s c).tcause.getLsbD 63 = false → (getCore s (coreOf c)).tbase ≠ 0 →
      (∀ x ∈ s.accs, x.ctx = c → waitRead x = false) →
      ∃ t, exec (.trapEntry c) s = .next t ∧ (getArch t c).pend = none ∧ (getArch t c).tpc = p.resume ∧ (getArch t c).tval = p.val ∧
        (getArch t c).mode = true ∧ (getArch t c).pc = (getCore s (coreOf c)).tbase ∧
        (getArch t c).tcause = (1#64 <<< 63) ||| (if (getArch s c).mode then 1#64 <<< 62 else 0) ||| (p.sub.zeroExtend 64 <<< 8) ||| p.cause.zeroExtend 64))

/-- 06 R173 to R179: a matched check point confirms its word and lets its effect leave; a mismatched one takes the core back:
nothing stays held, the rewind is counted, and nothing issues for twelve cycles. Neither happens before the checker's four
cycles. -/
def Obligations.CheckerEvents : Prop :=
  ∀ (s : State) (k : Nat),
    ((getCore s k).held = [] → exec (.checkPointMatch k) s = .next s ∧ exec (.checkerMismatch k) s = .next s) ∧
    (∀ h rest, (getCore s k).held = h :: rest →
      (ccyOf s (4 * k) < h.due → exec (.checkPointMatch k) s = .next s ∧ exec (.checkerMismatch k) s = .next s) ∧
      (h.due ≤ ccyOf s (4 * k) →
        (h.eff = .mark → noDirects s h.ctx → nextStamped s h.ctx = none → ∃ t, exec (.checkPointMatch k) s = .next t ∧
          (getCore t k).held.map (·.eff) = rest.map (·.eff) ∧ (getCore t k).conf = h.snap ∧ t.ctxs = s.ctxs ∧ t.mem = s.mem) ∧
        (rcbHeld s h = true → exec (.checkPointMatch k) s = .next s) ∧
        (∀ c, h.eff = .push c → c.q ≤ 5 → rcbHeld s h = false → (getCtx s h.ctx).cut = false → noDirects s h.ctx → nextStamped s h.ctx = none → ∃ t, exec (.checkPointMatch k) s = .next t ∧
          (getCore t k).held.map (·.eff) = rest.map (·.eff) ∧
          (getCtx t h.ctx).cmds = (getCtx s h.ctx).cmds ++ [{ c with base := stampMax c.base (getCtx s h.ctx).lastWrite }] ∧ t.mem = s.mem) ∧
        ((h.ctx, h.pc) ∉ (getCore s k).misses → ∃ t, exec (.checkerMismatch k) s = .next t ∧ (getCore t k).held = [] ∧
          (getCore t k).rewinds = (getCore s k).rewinds + 1 ∧ (getCore t k).stopUntil = ccyOf s (4 * k) + 12 ∧
          (getCore t k).misses = (getCore s k).misses ++ [(h.ctx, h.pc)] ∧ t.mem = s.mem) ∧
        ((h.ctx, h.pc) ∈ (getCore s k).misses → ∃ t, exec (.checkerMismatch k) s = .next t ∧ (getCore t k).retired = true)))

/-- 02 R42, R43; 07 R189, R190, R195, R205: at the home. A plain write is applied to exactly its bytes and leaves; a held one
waits and is counted once; an atomic writes what its operation makes of the old bytes; a read takes the bytes its context sees;
uncorrectable bytes are context-fatal. 07 R204, R205: a host load without a completion for 50,000 cycles is a data-poison fault;
the write-back of a flushed line completes once the context's earlier writes to it are applied, and with .INV the line leaves
the cache. -/
def Obligations.MemoryEvents : Prop :=
  (∀ (s : State) (id : Nat) (x : Access), getAcc s id = some x → x.host = false → beyondCommons s x.addrs = false →
    let quiet := s.cod.regions = [] ∧ noneSpilled s
    let fatal (t : State) : Prop := (getArch t x.ctx).phase = .halted ∧ t.fatals = s.fatals ++ [(x.ctx, 2, s.gts, w64 (x.addrs.headD 0))]
    let mayFail := x.ctx < 512 ∧ (getArch s x.ctx).phase ≠ .halted ∧ (∀ a ∈ x.addrs, repairable s a = false) ∧ x.addrs ≠ []
    let gone (t : State) : Prop := t.accs.all (fun y => y.id != id) = true
    (canApply s x = false → exec (.writeApply id) s = .next s) ∧
    (canApply s x = true → holdsWrite s x.addrs = true → ∃ t, exec (.writeApply id) s = .next t ∧ t.mem = s.mem ∧
      (x.deferred = true → t = s) ∧ (x.deferred = false → s.cod.deferCnt ≠ 0xFFFFFFFF → t.cod.deferCnt = s.cod.deferCnt + 1)) ∧
    (canApply s x = true → holdsWrite s x.addrs = false → quiet →
      (x.kind = .wr → ∃ t, exec (.writeApply id) s = .next t ∧ t.mem = memPut s.mem x.cells ∧ gone t ∧ t.scratch = s.scratch) ∧
      (x.kind ≠ .wr → poisoned s x.addrs = false →
        let old := x.addrs.map (memGet s.mem)
        ∃ t, exec (.writeApply id) s = .next t ∧ gone t ∧
          t.mem = match atomicNew x.kind old with | some bs => memPut s.mem (x.addrs.zip bs) | none => s.mem) ∧
      (atomicReads x = true → mayFail → ∀ host, ∃ t, exec (.loadPerform id true host) s = .next t ∧ fatal t ∧ t.mem = s.mem)) ∧
    (∀ bad host, canRead s x = false → (bad = false ∨ canApply s x = false) → exec (.loadPerform id bad host) s = .next s) ∧
    (canRead s x = true → poisoned s x.addrs = false → (∀ r t d, x.dest ≠ .nwait r t d) →
      (∀ r e w d, x.dest ≠ .waita r e w d) → x.dest ≠ .none →
      let bs := (readFor s x.ctx id x.addrs).1
      ∃ t l, exec (.loadPerform id false []) s = .next t ∧ gone t ∧ t.mem = s.mem ∧
        (getCore t (coreOf x.ctx)).landings = (getCore s (coreOf x.ctx)).landings ++ [l] ∧ l.ctx = x.ctx ∧ l.seq = x.seq ∧
        l.upds = destUpds x.dest bs ∧ l.token = x.token) ∧
    ((∀ y ∈ s.accs, y.ctx = x.ctx → y.id < id → y.cells = []) → (readFor s x.ctx id x.addrs).1 = x.addrs.map (memGet s.mem)) ∧
    (canRead s x = true → mayFail → ∃ t, exec (.loadPerform id true []) s = .next t ∧ fatal t ∧ t.mem = s.mem)) ∧
  (∀ (s : State) (id c : Nat),
    (∀ x t0, getAcc s id = some x → x.host = true → x.kind = .rd → x.wseq = some t0 →
      (ccyOf s x.ctx < t0.toNat + 50000 → exec (.hostLoadTimeout id) s = .next s) ∧
      (t0.toNat + 50000 ≤ ccyOf s x.ctx → x.ctx < 512 → (getArch s x.ctx).phase ≠ .halted → ∃ t, exec (.hostLoadTimeout id) s = .next t ∧
        (getArch t x.ctx).phase = .halted ∧ t.fatals = s.fatals ++ [(x.ctx, 2, s.gts, w64 (x.addrs.headD 0))])) ∧
    ((getCtx s c).flushes = [] → exec (.flushlWritebackComplete c) s = .next s) ∧
    (∀ e rest, (getCtx s c).flushes = e :: rest → (∀ x ∈ s.accs, x.ctx = c → x.kind ≠ .rd → ∀ a ∈ x.addrs, a / 1024 ≠ e / 2) →
      ∃ t, exec (.flushlWritebackComplete c) s = .next t ∧ (getCtx t c).flushes = rest ∧ t.mem = s.mem ∧
        (∀ p ∈ t.hbm, p.1 / 1024 ≠ e / 2) ∧ (e % 2 = 1 → mapFind t.llc (e / 2) = none) ∧ (e % 2 = 0 → ∀ l, mapFind t.llc (e / 2) = some l → l.dirty = false)))

/-! The engines' events (09 to 11, 13). -/

/-- 01 R16; 09 R245 to R247, R240: with no command to choose nothing happens. MLDW writes its rows to the shadow plane, over
what was there or over an empty plane under Z, and fails where another tag stands there; an empty walk loads nothing. MCBT
writes the codebook. MSWAP takes the array unit, and exchanges the planes at the first window boundary. 09 R249 to R251, R258 to
R261: MDRAIN writes the converted elements out, and none where one overflows under .OVTRAP, and zeroes them under Z; MZERO
zeroes the rows it names; an image is saved as it stands and installed only with its head and bands right. A side that cannot be
read or written fails. -/
def Obligations.MatrixLoadsDrains : Prop :=
  (∀ (s : State) (core c q : Nat) (k : Cmd),
    let a := mxAsk s core
    let u := choosing a core c q
    let p := (mxOf s core).shadow
    let cl := getCluster s (core / 2)
    let alone := (getArch s c).phase ≠ .exiting ∧ ∀ r ∈ (mxOf s core).runs, r.ctx ≠ c
    (pickMx a core true = none → exec (.mldwExec core) s = .next a ∧ exec (.mcbtExec core) s = .next a) ∧
    (pickMx a core true = some (c, q, k) → alone →
      (∀ f, k.instr = .mldw f →
        let d := k.desc
        let sf := dSfmt d
        let kb := k.x4.toNat
        let rows := (walkRows (k.x2 + k.x3) d 4).map fun r => elemsOf sf (engRead u c r.1 r.2).1
        (modBit f 80 = false → p.tag ≠ 0 → p.tag ≠ sf →
          (dTotal d ≠ 0 → ∃ t, exec (.mldwExec core) s = .next t ∧ fails s t c k 5 p.tag ∧ t.mem = s.mem) ∧
          (dTotal d = 0 → ∃ t, exec (.mldwExec core) s = .next t ∧ completes s t c k 0 0 0 ∧ (mxOf t core).shadow = p ∧ t.mem = s.mem)) ∧
        (modBit f 80 = true ∨ p.tag = 0 ∨ p.tag = sf → dEng d = 0 → stepElems d ≤ 256 → ∃ t, exec (.mldwExec core) s = .next t ∧
          completes s t c k 0 0 (w64 (dTotal d * 2 ^ dEsize d)) ∧ t.mem = s.mem ∧ t.scratch = s.scratch ∧ t.tiles = s.tiles ∧
          (mxOf t core).active = (mxOf s core).active ∧ (mxOf t core).shadow.tag = sf ∧
          (∀ r n, r < dTrip d 1 → n < stepElems d → planeCell (mxOf t core).shadow (32 * kb + r) n = (rows.getD r []).getD n 0) ∧
          (mxScaled sf = true → ∀ b n, b < (dTrip d 1 + 31) / 32 → n < stepElems d → planeScale (mxOf t core).shadow (kb + b) n = 127) ∧
          (∀ r n, n < 256 → r < 32 * kb ∨ 32 * kb + dTrip d 1 ≤ r ∨ stepElems d ≤ n →
            planeCell (mxOf t core).shadow r n = if modBit f 80 = true then 0 else planeCell p r n))) ∧
      (∀ f, k.instr = .mcbt f → ∃ t, exec (.mcbtExec core) s = .next t ∧ completes s t c k 0 0 32 ∧ t.mem = s.mem ∧
        (mxOf t core).shadow.cells = p.cells ∧
        ∀ i, i < 16 → mapGet 0 (mxOf t core).shadow.book i = (elemsOf 0x12 (engRead u c (k.x1 + k.x2) 32).1).getD i 0)) ∧
    (let swapped (t : State) (k : Cmd) := completes s t c k 0 0 (w64 (p.tag + p.depth * 2 ^ 24)) ∧ (mxOf t core).active = p ∧
      (mxOf t core).shadow = (mxOf s core).active ∧ (mxOf t core).ready = false ∧ (mxOf t core).swap = none ∧ t.mem = s.mem ∧
      (getCluster t (core / 2)).origin = cl.origin + cl.stepC
     ((mxOf s core).swap = none → pickMx a core false = none → exec (.mswapExchange core) s = .next a) ∧
     (pickMx a core false = some (c, 0, k) → alone → ∀ f, k.instr = .mswap f →
      (atBoundary cl = true → ∃ t, exec (.mswapExchange core) s = .next t ∧ swapped t k) ∧
      (atBoundary cl = false → ∃ t, exec (.mswapExchange core) s = .next t ∧ (mxOf t core).swap = some (c, k.seq) ∧ t.mem = s.mem ∧
        (mxOf t core).active = (mxOf s core).active ∧ (mxOf t core).shadow = p ∧ (getCtx t c).res = (getCtx s c).res)) ∧
     (∀ seq, (mxOf s core).swap = some (c, seq) → (cmdsOf s c 0).find? (fun y => y.seq == seq && y.started) = some k →
      (cl.stopped = true ∨ atBoundary cl = false → exec (.mswapExchange core) s = .next a) ∧
      (cl.stopped = false → atBoundary cl = true → alone → (resOf s c 0).length < 16 → ∃ t, exec (.mswapExchange core) s = .next t ∧ swapped t k)))) ∧
  (∀ (s : State) (core c q : Nat) (k : Cmd) (bad : Bool),
    let a := mxAsk s core
    let u := choosing a core c q
    let v := retire u core c
    let bands := (getCluster s (core / 2)).bands.toNat
    (pickMx a core false = none → exec (.mdrainExec core bad) s = .next a ∧ exec (.mzeroExec core) s = .next a ∧
      exec (.msaveExec core bad) s = .next a ∧ exec (.mrestExec core bad) s = .next a) ∧
    (pickMx a core false = some (c, q, k) → (getArch s c).phase ≠ .exiting → (∀ r ∈ (mxOf s core).runs, r.ctx ≠ c) →
      (∀ f, k.instr = .mdrain f →
        let l := drainElems u core c f k ((tileOf s c (idxOf f.o4)).getD 0)
        let u1 := if modBit f 86 = true then tilePut u (l.map fun p => (tileKey core ((tileOf s c (idxOf f.o4)).getD 0) p.1 p.2.1, 0)) else u
        let w := writeRows u1 c k (walkRows (k.x1 + k.x2) k.desc 8) (dDfmt k.desc) (dTrip k.desc 0 * perStep (dDfmt k.desc)) (l.map fun p => p.2.2.bits)
        (∃ t, exec (.mdrainExec core true) s = .next t ∧ fails s t c k 8 0 ∧ t.mem = s.mem) ∧
        ((∃ p ∈ l, p.2.2.trap = true) → ∃ t info, exec (.mdrainExec core false) s = .next t ∧ fails s t c k 6 info ∧ t.mem = s.mem ∧
          t.scratch = s.scratch ∧ t.tiles = s.tiles) ∧
        ((∀ p ∈ l, p.2.2.trap = false) → ∃ t, exec (.mdrainExec core false) s = .next t ∧ t.mem = w.1.mem ∧
          t.scratch = w.1.scratch ∧ t.tiles = u1.tiles ∧ completes s t c k (l.foldl (fun (x : Flags) p => x ||| p.2.2.flags) 0) 0 (w64 l.length))) ∧
      (∀ f, k.instr = .mzero f →
        let tile := (tileOf s c (idxOf f.o1)).getD 0
        let row0 := if f.o2 = .none then 0 else k.x2.toNat % 256
        let n := if f.o2 = .none then 256 else min (bitsOf k.x2.toNat 15 8 + 1) (256 - row0)
        ∃ t, exec (.mzeroExec core) s = .next t ∧ completes s t c k 0 0 (w64 n) ∧ t.mem = s.mem ∧
          (∀ r j, row0 ≤ r → r < row0 + n → j < 256 → tileGet t core tile r j = 0) ∧
          (∀ a, a < tileKey core tile row0 0 ∨ tileKey core tile (row0 + n) 0 ≤ a → mapGet 0 t.tiles a = mapGet 0 s.tiles a)) ∧
      ((∃ f, k.instr = .msave f) ∨ (∃ f, k.instr = .msavePl f) →
        let bs := match k.instr with | .msave f => tileBytes u core ((tileOf u c (idxOf f.o3)).getD 0) | _ => planesBytes u core
        let w := (engWrite u c k [(k.x1 + k.x2, bs)]).1
        (∃ t, exec (.msaveExec core true) s = .next t ∧ fails s t c k 8 0 ∧ t.mem = s.mem) ∧
        (∃ t, exec (.msaveExec core false) s = .next t ∧ completes s t c k 0 0 (w64 bs.length) ∧ t.mem = w.mem ∧ t.scratch = w.scratch ∧ t.tiles = s.tiles)) ∧
      (∀ f, k.instr = .mrest f →
        let bs := (engRead v c (k.x2 + k.x3) tileImage).1
        (bad = true ∨ engBad v c [(k.x2 + k.x3, tileImage)] = true →
          ∃ t, exec (.mrestExec core bad) s = .next t ∧ fails s t c k 8 0 ∧ t.tiles = s.tiles) ∧
        (engBad v c [(k.x2 + k.x3, tileImage)] = false → imageOk 1 bs = false → ∃ t, exec (.mrestExec core false) s = .next t ∧
          fails s t c k 7 ((bs.getD 5 0).toNat % 16 + (bs.getD 6 0).toNat % 16 * 16 + bands * 256) ∧ t.tiles = s.tiles) ∧
        (engBad v c [(k.x2 + k.x3, tileImage)] = false → imageOk 1 bs = true → ∃ t, exec (.mrestExec core false) s = .next t ∧
          completes s t c k 0 0 (w64 tileImage) ∧ t.tiles = (installTile s core ((tileOf s c (idxOf f.o1)).getD 0) bs).tiles ∧ t.mem = s.mem)) ∧
      (∀ f, k.instr = .mrestPl f →
        let bs := (engRead v c (k.x1 + k.x2) planeImage).1
        engBad v c [(k.x1 + k.x2, planeImage)] = false →
        (imageOk 2 bs = false ∨ nbOf s core < (bs.getD 6 0).toNat → ∃ t, exec (.mrestExec core false) s = .next t ∧
          fails s t c k 7 ((bs.getD 5 0).toNat % 16 + (bs.getD 6 0).toNat % 16 * 16 + bands * 256) ∧ (mxOf t core).active = (mxOf s core).active) ∧
        (imageOk 2 bs = true → (bs.getD 6 0).toNat ≤ nbOf s core → ∃ t, exec (.mrestExec core false) s = .next t ∧
          completes s t c k 0 0 (w64 planeImage) ∧ (mxOf t core).ready = (bs.getD 12 0).getLsbD 0 ∧ (mxOf t core).active.tag = (bs.getD 8 0).toNat ∧
          (mxOf t core).shadow.tag = (bs.getD 9 0).toNat ∧ t.mem = s.mem ∧ t.tiles = s.tiles))))

/-- 09 R242, R248, R253: an MMUL fails where the active plane's tag is not its formats' or its depth is exceeded; else it leaves
its queue with its rows injected in order. A row lands its fill latency after its injection: the 256 elements of its tile row
accumulate, and nothing else of the tiles changes. At its completion its row sums are written; its element follows once every
row has landed, with the count of rows and whether it retired. 09 R256, R257: a row that fails its check, and every row after
it, is injected again and counted; once it has been replayed as often as MAXRETRY allows, its command fails and its context's
rows from there on are gone. -/
def Obligations.MatrixMultiply : Prop :=
  (∀ (s : State) (core c q : Nat) (k : Cmd),
    let a := mxAsk s core
    let m := mxOf s core
    let cl := getCluster s (core / 2)
    let alone := (getArch s c).phase ≠ .exiting ∧ ∀ r ∈ m.runs, r.ctx ≠ c
    (pickMx a core false = none → exec (.mmulExec core) s = .next a) ∧
    (pickMx a core false = some (c, q, k) → ∀ f, k.instr = .mmul f →
      let d := k.desc
      let p := k.x5.toNat
      let empty := dTotal d = 0
      let deep := 32 * bitsOf p 12 8 + stepElems d ≤ depthOf s core m.active.tag
      (¬ empty → mxAccepts m.active.tag (dSfmt d) = false → alone →
        ∃ t, exec (.mmulExec core) s = .next t ∧ fails s t c k 4 m.active.tag ∧ t.tiles = s.tiles) ∧
      (¬ empty → mxAccepts m.active.tag (dSfmt d) = true → ¬ deep → alone →
        ∃ t, exec (.mmulExec core) s = .next t ∧ fails s t c k 2 0 ∧ t.tiles = s.tiles) ∧
      (empty ∨ mxAccepts m.active.tag (dSfmt d) = true ∧ deep →
        let n := if empty then 0 else dTrip d 1
        ∃ (t : State) (rows : List MxRow), exec (.mmulExec core) s = .next t ∧ (mxOf t core).rows = m.rows ++ rows ∧
        rows.length = n ∧ (∀ i x, rows[i]? = some x → x.ctx = c ∧ x.seq = k.seq ∧ x.m = i ∧ x.row = p % 256 + i ∧ x.plane = m.active ∧
          x.ovw = modBit f 80 ∧ x.fmt = dSfmt d ∧ x.kb = bitsOf p 12 8 ∧ x.lf = fillLat s core) ∧
        (getCtx t c).cmds = (getCtx s c).cmds.filter (fun y => !(y.q == k.q && y.seq == k.seq)) ∧ (getCtx t c).res = (getCtx s c).res ∧
        t.tiles = s.tiles ∧ t.mem = s.mem ∧ t.scratch = s.scratch ∧ ∃ x, (mxOf t core).runs = m.runs ++ [x] ∧ x.ctx = c ∧ x.seq = k.seq ∧ x.rows = n ∧
          x.landed = 0 ∧ x.comp = false ∧ (x.ret = true ↔ modBit f 85 = true ∨ cl.maxChain.toNat ≤ mapGet 0 m.plain c + 1))) ∧
    (m.rows = [] → exec (.mmulRowLand core) s = .next s) ∧
    (∀ r rest, m.rows = r :: rest →
      (cl.ccy.toNat < r.inj + r.lf → exec (.mmulRowLand core) s = .next s) ∧
      (r.inj + r.lf ≤ cl.ccy.toNat → ∃ t, exec (.mmulRowLand core) s = .next t ∧ (mxOf t core).rows = rest ∧
        (∀ n, n < 256 → tileGet t core r.tile r.row n = (rowElem r n (tileGet s core r.tile r.row n)).1) ∧
        (∀ a, a < tileKey core r.tile r.row 0 ∨ tileKey core r.tile r.row 0 + 256 ≤ a → mapGet 0 t.tiles a = mapGet 0 s.tiles a) ∧
        t = { s with tiles := t.tiles, clusters := t.clusters })) ∧
    (runsDue s core = [] → failDue s core = none →
      (m.runs.find? (runReady s core) = none → exec (.mmulComplete core) s = .next s) ∧
      (∀ r, m.runs.find? (runReady s core) = some r → (getArch s r.ctx).phase ≠ .exiting → ∃ t, exec (.mmulComplete core) s = .next t ∧
        (getCtx t r.ctx).res = (getCtx s r.ctx).res ++ [match r.elem with
          | some e => { e with at_ := ccyOf s r.ctx }
          | none => ⟨0, statWord (if r.flags = 0 then 0 else 1) (if r.flags = 0 then 0 else 1) r.seq (r.flags.toNat + r.replays % 256 * 256),
              w64 (r.rows + (if r.ret then 2 ^ 16 else 0) + (if r.forced then 2 ^ 17 else 0)), zeroStamp, ccyOf s r.ctx⟩] ∧
        (∀ x ∈ (mxOf t core).runs, x.ctx ≠ r.ctx ∨ x.seq ≠ r.seq) ∧ t.mem = s.mem ∧ t.tiles = s.tiles ∧ t.scratch = s.scratch)) ∧
    (∀ r, runsDue s core = [r] → ∃ t, exec (.mmulComplete core) s = .next t ∧ t.scratch = memPut s.scratch r.sums ∧ t.mem = s.mem ∧ t.tiles = s.tiles ∧
      ∀ x ∈ (mxOf t core).runs, x.ctx = r.ctx → x.seq = r.seq → x.comp = true)) ∧
  (∀ (s : State) (core n : Nat),
    let m := mxOf s core
    let cl := getCluster s (core / 2)
    (m.rows = [] → pickMx s core false = none → exec (.rowCheckMismatch core n) s = .next s) ∧
    (m.rows ≠ [] → m.rows[n]? = none → exec (.rowCheckMismatch core n) s = .next s) ∧
    (∀ r, m.rows[n]? = some r →
      (cl.ccy.toNat + 8 < r.inj + r.lf → exec (.rowCheckMismatch core n) s = .next s) ∧
      (r.inj + r.lf ≤ cl.ccy.toNat + 8 → r.replays < cl.maxRetry.toNat → ∃ (t : State) (rows : List MxRow), exec (.rowCheckMismatch core n) s = .next t ∧
        (mxOf t core).rows = m.rows.take n ++ rows ∧ rows.length = (m.rows.drop n).length ∧
        (∀ (i : Nat) (x y : MxRow), rows[i]? = some x → (m.rows.drop n)[i]? = some y → ∃ j, cl.ccy.toNat ≤ j ∧
          x = { y with inj := j, replays := if y.inj < cl.ccy.toNat then y.replays + 1 else y.replays }) ∧
        (getCluster t (core / 2)).replays = cl.replays + BitVec.ofNat 32 ((m.rows.drop n).filter fun y => decide (y.inj < cl.ccy.toNat)).length ∧
        t = { s with clusters := t.clusters }) ∧
      (r.inj + r.lf ≤ cl.ccy.toNat + 8 → cl.maxRetry.toNat ≤ r.replays → ∃ (t : State) (rows : List MxRow), exec (.rowCheckMismatch core n) s = .next t ∧
        (mxOf t core).rows = m.rows.take n ++ rows ∧ rows.length = ((m.rows.drop n).filter fun x => x.ctx != r.ctx).length ∧ (∀ x ∈ rows, x.ctx ≠ r.ctx) ∧
        (∀ x ∈ (mxOf t core).runs, x.ctx = r.ctx → x.seq = r.seq → x.fail = some r.m ∧ x.rows = r.m ∧ x.comp = true) ∧
        t.ctxs = s.ctxs ∧ t.mem = s.mem ∧ t.tiles = s.tiles)))

/-- 13 R334, R335, R344: ACFG opens a session, ARST closes it or starts its rows again, ALDQ loads the queries and starts the
outputs at 0, the maxima at minus infinity and the sums at 0. 13 R337 to R339, R345, R347 to R349: AKV, of either form, updates
every row of the session by its block and fails in each case the rules name; AFIN writes the quotients, and the log-sum-exps
where asked. A key is masked as the mode says, and a row that sees no key keeps its state. -/
def Obligations.AttentionEvents : Prop :=
  (∀ (s : State) (core c q : Nat) (k : Cmd) (bad : Bool),
    let a := mxAsk s core
    let u := choosing a core c q
    let x := sessOf s c
    (pickMx a core false = none → exec (.acfgExec core) s = .next a ∧ exec (.arstExec core) s = .next a ∧ exec (.aldqExec core bad) s = .next a) ∧
    (pickMx a core false = some (c, q, k) → (getArch s c).phase ≠ .exiting →
      (∀ f, k.instr = .acfg f → ∃ t, exec (.acfgExec core) s = .next t ∧ completes s t c k 0 0 0 ∧ t.mem = s.mem ∧ t.tiles = s.tiles ∧
        sessOf t c = { x with
          phase := 1, last := [], tq := idxOf f.o1, tOut := idxOf f.o2, ts := idxOf f.o3, scale := k.x4 &&& 0xFFFFFFFF, w := k.x5.toNat % 2 ^ 32 }) ∧
      (∀ f, k.instr = .arst f →
        (modBit f 80 = false → ∃ t, exec (.arstExec core) s = .next t ∧ completes s t c k 0 0 0 ∧ sessOf t c = .reset ∧ t.tiles = s.tiles) ∧
        (modBit f 80 = true → x.phase ≠ 2 → ∃ t, exec (.arstExec core) s = .next t ∧ fails s t c k 1 0 ∧ t.tiles = s.tiles) ∧
        (modBit f 80 = true → x.phase = 2 → ∃ t, exec (.arstExec core) s = .next t ∧ completes s t c k 0 0 0 ∧ sessOf t c = x ∧
          t.tiles = (tilePut s (freshRows core (sessTile s c x.tOut) (sessTile s c x.ts) x.m x.d)).tiles)) ∧
      (∀ f, k.instr = .aldq f →
        let d := k.desc
        let rows := walkRows (k.x1 + k.x2) d 4
        let fine := bad = false ∧ engBad u c rows = false
        (x.phase = 0 → ∃ t, exec (.aldqExec core bad) s = .next t ∧ fails s t c k 1 0 ∧ t.tiles = s.tiles) ∧
        (x.phase ≠ 0 → ¬ fine → ∃ t, exec (.aldqExec core bad) s = .next t ∧ fails s t c k 7 0 ∧ t.tiles = s.tiles) ∧
        (x.phase ≠ 0 → fine → dTrip d 0 ≤ 256 → dTrip d 1 ≤ 256 → sessTile s c x.tq ≠ sessTile s c x.tOut → sessTile s c x.tq ≠ sessTile s c x.ts →
          sessTile s c x.tOut ≠ sessTile s c x.ts → ∃ t, exec (.aldqExec core bad) s = .next t ∧ completes s t c k 0 0 (w64 (dTrip d 1)) ∧ t.mem = s.mem ∧
          sessOf t c = { x with phase := 2, d := dTrip d 0, m := dTrip d 1, qfmt := dSfmt d, qp0 := k.x4.toNat % 2 ^ 32 } ∧
          ∀ r, r < dTrip d 1 → tileGet t core (sessTile s c x.ts) r 0 = 0xFF800000#32 ∧ tileGet t core (sessTile s c x.ts) r 1 = 0 ∧
            ∀ j, j < dTrip d 0 → tileGet t core (sessTile s c x.tOut) r j = 0 ∧
              tileGet t core (sessTile s c x.tq) r j = BitVec.ofNat 32 (f32Bits (actVal (dSfmt d)
                ((elemsOf (dSfmt d) (engRead u c (rows.getD r (0, 0)).1 (rows.getD r (0, 0)).2).1).getD j 0))))))) ∧
  ((∀ (s : State) (core c q : Nat) (k : Cmd) (bad : Bool),
    let a := mxAsk s core
    let u := choosing a core c q
    let x := sessOf s c
    let d := k.desc
    let st := k.x2.toNat % 2 ^ 32
    let val (rows st : Nat) : W64 := w64 (dTrip d 1 + rows * 2 ^ 16 + st * 2 ^ 32)
    let replays := k.aux.length % 256 * 256
    let failing (i : Instr) (cause : Nat) : Prop := ∃ t, exec i s = .next t ∧ fails s t c k cause 0 ∧ t.tiles = s.tiles ∧ t.mem = s.mem
    (pickMx a core false = none → exec (.akvExec core bad) s = .next a ∧ exec (.akvPlChosen core bad) s = .next a ∧ exec (.afinExec core bad) s = .next a) ∧
    (pickMx a core false = some (c, q, k) → q = 1 → (getArch s c).phase ≠ .exiting →
      (∀ f, k.instr = .akv f →
        let kr := walkRows (k.x1 + k.x2) d 4
        let vr := walkRows (k.x1 + k.x2 + w64 (dField d 14)) d 8
        let fine := bad = false ∧ engBad u c (kr ++ vr) = false
        let up := attUpdate u core c (attBlock x d (modBits f 81 80) (k.x4.toNat % 2 ^ 32)
          (kr.map fun r => (engRead u c r.1 r.2).1) (vr.map fun r => (engRead u c r.1 r.2).1))
        (x.phase ≠ 2 → failing (.akvExec core bad) 1) ∧ (x.phase = 2 → dTrip d 0 ≠ x.d → failing (.akvExec core bad) 2) ∧
        (x.phase = 2 → dTrip d 0 = x.d → ¬ fine → failing (.akvExec core bad) 7) ∧
        (x.phase = 2 → dTrip d 0 = x.d → fine → ∃ t, exec (.akvExec core bad) s = .next t ∧ completes s t c k up.2.1 replays (val up.2.2 0) ∧
          t.tiles = up.1.tiles ∧ t.mem = s.mem ∧ sessOf t c = x)) ∧
      (∀ f, k.instr = .akvPl f →
        let ring := k.x1.toNat % 2 ^ 32
        let seen := ∃ l, mapFind x.last ring = some l ∧ st ≤ l
        (x.phase ≠ 2 → failing (.akvPlChosen core bad) 1) ∧ (x.phase = 2 → dTrip d 0 ≠ x.d → failing (.akvPlChosen core bad) 2) ∧
        (x.phase = 2 → dTrip d 0 = x.d → ownRing u c ring = none → failing (.akvPlChosen core bad) 4) ∧
        (∀ r, x.phase = 2 → dTrip d 0 = x.d → ownRing u c ring = some r →
          let reach := ∀ p ∈ slotRows d, 0 ≤ p.1 ∧ p.1 + p.2 ≤ (r.blk : Int)
          let rd := (slotRows d).map fun p => winBytes s c (slotAt r st + p.1.toNat) p.2
          let up := attUpdate u core c (attBlock x d (modBits f 81 80) (k.x4.toNat % 2 ^ 32) (rd.take (dTrip d 1)) (rd.drop (dTrip d 1)))
          (seen ∨ st < r.wm → failing (.akvPlChosen core bad) 4) ∧
          (¬ seen → r.wm ≤ st → ¬ reach → failing (.akvPlChosen core bad) 5) ∧
          (¬ seen → r.wm ≤ st → reach → bad = true → failing (.akvPlChosen core bad) 7) ∧
          (¬ seen → r.wm ≤ st → reach → bad = false → modBit f 83 = false → ∃ t, exec (.akvPlChosen core bad) s = .next t ∧
            completes s t c k up.2.1 replays (val up.2.2 st) ∧ t.tiles = up.1.tiles ∧ sessOf t c = { x with last := mapSet x.last ring st }))) ∧
      (∀ f, k.instr = .afin f →
        let v (t r j : Nat) : FV := f32v (tileGet s core (sessTile s c t) r j).toNat
        let e (r j : Nat) : FRes := if v x.ts r 0 = .inf true then ⟨0, 0, false⟩
          else quotElem (outFmt (dDfmt d)) (rmOf (modBits f 84 82) k.rs j r) (ovOf (modBits f 81 80)) (v x.tOut r j) (v x.ts r 1)
        let l := (upTo x.m).flatMap fun r => (upTo x.d).map fun j => e r j
        let w := writeRows u c k (walkRows (k.x1 + k.x2) d 8) (dDfmt d) x.d (l.map fun p => p.bits)
        (x.phase ≠ 2 → failing (.afinExec core bad) 1) ∧ (x.phase = 2 → dTrip d 0 ≠ x.d ∨ dTrip d 1 ≠ x.m → failing (.afinExec core bad) 2) ∧
        (x.phase = 2 → dTrip d 0 = x.d → dTrip d 1 = x.m → bad = true → failing (.afinExec core bad) 7) ∧
        (x.phase = 2 → dTrip d 0 = x.d → dTrip d 1 = x.m → bad = false →
          ((∃ p ∈ l, p.trap = true) → ∃ t info, exec (.afinExec core bad) s = .next t ∧ fails s t c k 6 info ∧ t.mem = s.mem ∧ t.scratch = s.scratch) ∧
          ((∀ p ∈ l, p.trap = false) → f.o4 = .none → ∃ t, exec (.afinExec core bad) s = .next t ∧ t.mem = w.1.mem ∧ t.scratch = w.1.scratch ∧
            t.tiles = s.tiles ∧ completes s t c k (l.foldl (fun (y : Flags) p => y ||| p.flags) 0) 0 (w64 (x.m * x.d))))))) ∧
  (∀ mode w qp kp, mode < 3 → (maskedKey mode w qp kp = true ↔ (0 < mode ∧ qp < kp) ∨ (mode = 2 ∧ kp + w ≤ qp))) ∧
  (∀ (b : Block) qp qv lo os, (∀ i, i < b.n → maskedKey b.mode b.w qp (b.kp0 + i) = true) → (attRow b qp qv (.inf true) lo os).1 = none))

/-- 10 R264, R268, R271, R275: the engine starts the command the arbitration chooses, which then has its promise and, unless NP
is given, its promise element; a block of local bytes, or of the pattern, is written at its destinations and counted; a source
that cannot be read fails; once every element has been moved the command completes with the time. 10 R272, R273, R277 to R280: a
missed promise traps or is counted; a gate at its head opens with F from the counter's phase, and fires its entry while F is not
0; CPHOLD's release resumes the held entry or abandons it with its queue; a parked LCWAIT ends once the phase differs or its
deadline has come. -/
def Obligations.CopyEngine : Prop :=
  (∀ (s : State) (cluster c : Nat) (k : Cmd) (late bad : Bool) (host : List Byte),
    let a := copyAsk s cluster
    let l := (ctxsOf cluster).filter fun c => (copyStartable a c).isSome
    let blk := blockOf k k.prog
    let rd := blk.map fun i => (srcOf k i, elemSize k)
    let bytes := if isFill k then blk.flatMap fun _ => fillBytes k else rd.flatMap fun p => (engRead s c p.1 p.2).1
    let cells := blockCells k blk bytes
    let w := (engWrite (blockSeen s c k blk false) c k cells).1
    let count := spAddr s c (dField k.desc 14)
    ((executing a cluster).isSome = true → exec (.copyCommandStart cluster) s = .next s) ∧
    (executing a cluster = none → l = [] → exec (.copyCommandStart cluster) s = .next a) ∧
    (executing a cluster = none → rrPick a (classes a) (getCluster a cluster).rrCopy l = some c → copyStartable a c = some k → isGate k = false →
      k.promise = 0 → (getArch s c).phase ≠ .exiting → ∃ t, exec (.copyCommandStart cluster) s = .next t ∧ t.mem = s.mem ∧ t.scratch = s.scratch ∧
        (∃ y ∈ (getCtx t c).cmds, y = { k with started := true, promise := w64 (promiseAt s c k) }) ∧
        (∀ f, k.instr = .cpy f ∨ k.instr = .cpyg f ∨ k.instr = .cpys f ∨ k.instr = .cfil f ∨ k.instr = .ctrn f → (getCtx t c).res =
          (getCtx s c).res ++ if modBit f 80 then [] else [⟨2, statWord 0 0 k.seq (copyInfo k true false), w64 (promiseAt s c k), zeroStamp, ccyOf s c⟩])) ∧
    ((getCluster s cluster).stopped = true ∨ executing s cluster = none → exec (.copyBlock cluster bad late host) s = .next s) ∧
    ((getCluster s cluster).stopped = false → executing s cluster = some (c, k) → (getCtx s c).skid = none →
      (dTotal k.desc ≤ k.prog → missDue s k = false → (cmdsOf s c 2).find? (fun y => y.seq == k.seq) = some k → headGate s c 2 = none →
        (getArch s c).phase ≠ .exiting → (resOf s c 2).length < 16 →
        let note := if k.flags.getLsbD 0 then 1 else if k.flags.getLsbD 1 then 2 else 0
        ∃ t, exec (.copyBlock cluster bad late host) s = .next t ∧ t.mem = s.mem ∧ t.scratch = s.scratch ∧ (getCtx t c).res = (getCtx s c).res ++
          [⟨2, statWord (if note = 0 then 0 else 1) note k.seq (copyInfo k false k.missed), s.gts, k.stamp, ccyOf s c⟩]) ∧
      (k.prog < dTotal k.desc → k.aux = [] → placeOf s c (dstBase k) ≠ .remote →
        engHeld s c [] (cells.map fun p => (p.1, p.2.length)) = false →
        (isFill k = true ∨ placeOf s c (srcBase k) ≠ .remote ∧ placeOf s c (srcBase k) ≠ .host ∧ engHeld s c rd [] = false ∧ engBad s c rd = false) → ∃ t, exec (.copyBlock cluster false late host) s = .next t ∧ t.mem = w.mem ∧
          (∃ y ∈ (getCtx t c).cmds, y.q = 2 ∧ y.seq = k.seq ∧ y.prog = k.prog + blk.length) ∧
          (dLcen k.desc = false → t.scratch = w.scratch) ∧
          (dLcen k.desc = true → spNat t count 8 = lcArrival (spNat w count 8) (elemSize k * blk.length) ∧
            ∀ a, a < count ∨ count + 8 ≤ a → mapGet 0 t.scratch a = mapGet 0 w.scratch a)) ∧
      (k.prog < dTotal k.desc → k.aux = [] → isFill k = false → placeOf s c (srcBase k) ≠ .remote → placeOf s c (srcBase k) ≠ .host →
        engHeld s c rd [] = false → engBad s c rd = true → s.cod.regions = [] → headGate s c 2 = none → missDue s k = false →
        ((getCtx s c).cpctl.getLsbD 1 = false → (getArch s c).phase ≠ .exiting → (getArch s c).phase ≠ .halted → (resOf s c 2).length < 16 →
          ∃ t, exec (.copyBlock cluster bad late host) s = .next t ∧ fails s t c k 1 (copyInfo k false k.missed) ∧ t.mem = s.mem) ∧
        ((getCtx s c).cpctl.getLsbD 1 = true → (getArch s c).phase = .running →
          ∃ t, exec (.copyBlock cluster bad late host) s = .next t ∧ (getCtx t c).cphold.getLsbD 0 = true ∧
            bitsOf (getCtx t c).cphold.toNat 47 32 = k.seq % 2 ^ 16 ∧ t.mem = s.mem)))) ∧
  (∀ (s : State) (c q seq : Nat) (k : Cmd),
    let hold := (getCtx s c).cphold
    (frozenAt s c = false → (cmdsOf s c 2).find? (fun k => k.seq == seq) = some k →
      (missDue s k = false → exec (.missedPromise c seq) s = .next s) ∧
      (missDue s k = true → (getArch s c).phase = .running → engineMay s c k = true →
        ((getCtx s c).cpctl.getLsbD 0 = true → exec (.missedPromise c seq) s = .next (asyncTrap (setCmd s c { k with missed := true }) c 0x0C 0
          (w64 (k.promise.toNat % 2 ^ 32 * 2 ^ 32 + k.seq % 2 ^ 16 * 2 ^ 16 + k.fired % 2 ^ 16)))) ∧
        ((getCtx s c).cpctl.getLsbD 0 = false → ∃ t, exec (.missedPromise c seq) s = .next t ∧ (getCtx t c).cpmiss = (getCtx s c).cpmiss + 1 ∧
          (∃ y ∈ (getCtx t c).cmds, y = { k with missed := true, flags := k.flags ||| 1 }) ∧ (getArch t c) = getArch s c ∧ t.mem = s.mem))) ∧
    (headGate s c q = none → exec (.gateHead c q) s = .next s) ∧
    (headGate s c q = some k → k.gateOpen = false → engineMay s c k = true → (∀ e rest, cmdsOf s c q = k :: e :: rest → e.seq ≠ k.seq) → ∃ t, exec (.gateHead c q) s = .next t ∧
      (∃ y ∈ (getCtx t c).cmds, y = { k with gateOpen := true, gateF := if lcPhase (spNat s (gateAddr k) 8) = k.x4.getLsbD 0 then 0 else 1 }) ∧
      (getCtx t c).res = (getCtx s c).res ∧ t.scratch = s.scratch ∧ t.mem = s.mem) ∧
    (∀ e rest, cmdsOf s c q = k :: e :: rest →
      (isGate k = true → k.gateOpen = true → 0 < k.gateF → e.gateOpen = false → e.held = none → engineMay s c e = true →
        exec (.gateFiring c q) s = .next (setCmd s c { e with gateOpen := true })) ∧
      (isGate k = false ∨ k.gateOpen = false ∨ k.gateF = 0 → exec (.gateFiring c q) s = .next s)) ∧
    (hold.getLsbD 0 = false → exec (.cpholdResume c) s = .next s ∧ exec (.cpholdAbandon c) s = .next s) ∧
    (hold.getLsbD 0 = true → exec (.cpholdResume c) s = .next (updCtx s c fun x => { x with cphold := 0 }) ∧
      ∃ t, exec (.cpholdAbandon c) s = .next t ∧ (getCtx t c).cphold = 0 ∧ t.mem = s.mem ∧ t.scratch = s.scratch ∧
        ∀ y ∈ (getCtx t c).cmds, y.q = 2 → y.seq ≠ bitsOf hold.toNat 47 32 ∨ y.held.isSome = true ∨ ∃ z ∈ ((cmdsOf s c 2).dropWhile fun k => k.seq != bitsOf hold.toNat 47 32).drop 1,
          z.seq = y.seq) ∧
    (∀ p, frozenAt s c = false → (getArch s c).park = some p → p.kind = .lcwait →
      let word := spNat s p.addr 8
      let met := lcPhase word ≠ p.target.getLsbD 0
      let past := ∃ d, p.deadline = some d ∧ d.toNat ≤ s.gts.toNat
      spLocked s (coreOf c) ((upTo 8).map fun i => p.addr + i) false = false →
      (met → ∃ t, exec (.lcwaitRecheck c) s = .next t ∧ waitEnds s t c p (w64 word)) ∧ (¬ met → exec (.lcwaitRecheck c) s = .next s) ∧
      (past → ∃ t, exec (.lcwaitDeadline c) s = .next t ∧ waitEnds s t c p (w64 word)) ∧ (¬ past → exec (.lcwaitDeadline c) s = .next s)))

/-- 11 R291, R294, R295: the bank units take the command their order chooses. A writing command applies its updates a block at a
time, one combined value for each element, then ends with the count; BSUM ends with the fixed tree's value. A length that does
not fit, a range outside the Commons and a byte that cannot be read fail, with no write. 11 R285, R286, R296 to R299: a size in
range is kept, and one that differs starts a repartition, which ends with the die's Commons zero, its watches woken and the new
size in force. A woken watch ends its WAITA with the value it woke with, after those its bank woke earlier; a deadline ends it
with the word's value. -/
def Obligations.CommonsUnits : Prop :=
  (∀ (s u : State) (die c : Nat) (k : Cmd) (bad : Bool), (getArch s c).phase ≠ .exiting → (resOf s c 3).length < 16 →
    let a := bankAsk s die
    let pick := bankTake a die
    let pas (size j : Nat) := bankBytes u c (k.x1 + k.x2) (j * size) size
    let failing (e : Instr) (cause : Nat) : Prop := ∃ t, exec e s = .next t ∧ fails s t c k cause k.flags.toNat ∧ t.mem = s.mem
    let runs (e : Instr) (size : Nat) (elems : List Nat) (reads bad : Bool) (g : Nat → Nat → Nat × Flags) (val : W64) : Prop :=
      let blk := bankBlock (k.x1 + k.x2) size (elems.drop k.prog)
      let inside := ∀ j ∈ blk, ∀ a ∈ pas size j, commonsOk u a = true
      let busy := ∃ j ∈ blk, busyHome u (pas size j) = true
      let unread := reads = true ∧ (bad = true ∨ ∃ j ∈ blk, poisoned u (pas size j) = true)
      let res := bankResults u c k size blk g
      (k.aux = [1] → failing e 3) ∧
      (k.aux ≠ [1] → elems.length ≤ k.prog → ∃ t, exec e s = .next t ∧ completes s t c k k.flags 0 val ∧ t.mem = s.mem) ∧
      (k.aux ≠ [1] → k.prog < elems.length →
        (¬ inside → failing e 2) ∧ (inside → busy → exec e s = .next u) ∧ (inside → ¬ busy → unread → failing e 1) ∧
        (inside → ¬ busy → ¬ unread → ∃ t, exec e s = .next t ∧
          t.mem = (res.foldl (fun v r => (unitWrite v (dieOf c) (r.1.zip (leBytes size r.2.1)) k.base).1) u).mem ∧
          (∃ y ∈ (getCtx t c).cmds, y.q = k.q ∧ y.seq = k.seq ∧ y.prog = k.prog + blk.length ∧ y.flags = res.foldl (fun x r => x ||| r.2.2) k.flags) ∧
          (getCtx t c).res = (getCtx s c).res))
    (pick bredKind = none → exec (.bredExec die bad) s = .next a) ∧ (pick bsumKind = none → exec (.bsumExec die bad) s = .next a) ∧
    (pick bfillKind = none → exec (.bfillExec die) s = .next a) ∧ (pick bclrKind = none → exec (.bclrExec die) s = .next a) ∧
    (pick bredKind = some (u, c, k) →
      (∀ f, k.instr = .bred f →
        let size := redBytes (bankTy f)
        runs (.bredExec die bad) size (bredActive size k.mask) true bad (fun j old => combine (bankTy f) (bankOp f) (modBit f 82) old
          (k.vec.toNat / 2 ^ (8 * size * j) % 2 ^ (8 * size))) (w64 k.prog)) ∧
      (∀ f, k.instr = .bredBlock f →
        let size := redBytes (bankTy f)
        let base := (k.x3 + k.x4).toNat
        runs (.bredExec die bad) size (upTo (k.x5.toNat / size)) true bad (fun j old => combine (bankTy f) (bankOp f) (modBit f 82) old
          (leNat (spRead u ((upTo size).map fun i => spAddr u c (base + j * size + i))))) (w64 k.prog))) ∧
    (pick bsumKind = some (u, c, k) → ∀ f, k.instr = .bsum f →
      let t := bankTy f
      let size := redBytes t
      let l := (upTo (k.x3.toNat / size)).map (pas size)
      let inside := ∀ x ∈ l, ∀ a ∈ x, commonsOk u a = true
      let busy := ∃ x ∈ l, busyHome u x = true
      let unread := bad = true ∨ ∃ x ∈ l, poisoned u x = true
      let r := pairTree t (bankOp f) (modBit f 82) (l.map fun x => leNat (x.map (memGet u.mem)))
      (k.aux = [1] → failing (.bsumExec die bad) 3) ∧ (k.aux ≠ [1] → ¬ inside → failing (.bsumExec die bad) 2) ∧
      (k.aux ≠ [1] → inside → busy → exec (.bsumExec die bad) s = .next u) ∧ (k.aux ≠ [1] → inside → ¬ busy → unread → failing (.bsumExec die bad) 1) ∧
      (k.aux ≠ [1] → inside → ¬ busy → ¬ unread → ∃ v, exec (.bsumExec die bad) s = .next v ∧ v.mem = s.mem ∧ completes s v c k r.2 0
        (match t with | .int sg n => extInt sg n (intOfBits sg n r.1) | _ => w64 r.1))) ∧
    (pick bfillKind = some (u, c, k) → runs (.bfillExec die) 8 (upTo (k.x4.toNat / 8)) false false (fun _ _ => (k.x3.toNat, 0)) (w64 (8 * k.prog))) ∧
    (pick bclrKind = some (u, c, k) → ∀ f, k.instr = .bclr f →
      let size := redBytes (bankTy f)
      runs (.bclrExec die) size (upTo (k.x3.toNat / size)) false false (fun _ _ => (identBits (bankTy f) (bankOp f), 0)) (w64 (size * k.prog)))) ∧
  (∀ (s : State) (die c : Nat) (x : W64) (drop : List Nat),
    let m := getCommons s die
    let lo := 0x8000000000 + die * 0x10000000
    (4 ≤ die → exec (.cmncfgSizeWrite die x) s = .next s) ∧
    (die < 4 → ∃ t, exec (.cmncfgSizeWrite die x) s = .next t ∧ t = { s with commons := t.commons } ∧
      (getCommons t die).size = (if 2 ≤ x.toNat % 256 ∧ x.toNat % 256 ≤ 11 then BitVec.ofNat 8 (x.toNat % 256) else m.size) ∧
      (getCommons t die).cur = m.cur ∧ (getCommons t die).busy = (m.busy || (getCommons t die).size != m.cur)) ∧
    (m.busy = false → exec (.repartitionComplete die drop) s = .next s) ∧
    (m.busy = true → ∃ t, exec (.repartitionComplete die drop) s = .next t ∧ (getCommons t die).cur = m.target ∧
      (getCommons t die).busy = (m.size != m.target) ∧ (∀ a, lo ≤ a → a < lo + 0x10000000 → memGet t.mem a = 0) ∧
      (m.target.toNat ≤ m.cur.toNat → ∀ a, a < lo ∨ lo + 0x10000000 ≤ a → memGet t.mem a = memGet s.mem a) ∧
      (∀ w ∈ t.watches, w.die = die → w.woke.isSome = true) ∧ t.ctxs = s.ctxs) ∧
    (∀ w p, frozenAt s c = false → s.watches.find? (fun w => w.ctx == c) = some w → (getArch s c).park = some p → p.kind = .waita →
      let past := ∃ d, p.deadline = some d ∧ d.toNat ≤ s.gts.toNat
      (w.woke = none → exec (.waitaResume c) s = .next s) ∧
      (∀ y, w.woke = some y →
        (ccyOf s c < y.due ∨ watchBefore s w y = true → exec (.waitaResume c) s = .next s) ∧
        (y.due ≤ ccyOf s c → watchBefore s w y = false → ∃ t, exec (.waitaResume c) s = .next t ∧ waitEnds s t c p y.val ∧ ∀ y ∈ t.watches, y.ctx ≠ c)) ∧
      (w.woke = none → past → busyHome s ((upTo w.w).map (w.addr + ·)) = false →
        ∃ t, exec (.waitaDeadline c) s = .next t ∧ waitEnds s t c p (w64 (memNat s.mem w.addr w.w)) ∧ ∀ y ∈ t.watches, y.ctx ≠ c) ∧
      (¬ past → exec (.waitaDeadline c) s = .next s)))

/-! The fabric, coding, saving and restoring (12, 14, 15). -/

/-- 01 R29; 12 R303, R311 to R314: a packet for this device is delivered and any other goes on, and the clock steps past the
sender's; a request whose turn it is is done or refused with a reply; an answer ends its access or its command's transfer, a
refusal or 100,000 cycles without one fails it; a failure is taken as the trap, or as an element, discarded into the nest's
status, where the context is EXITING. -/
def Obligations.FabricArrivals : Prop :=
  ∀ (s : State) (p : Packet) (n tag c : Nat) (bad : Bool),
    (p.src = s.devno → p ∉ s.fab.outbox → exec (.packetArrival p) s = .next s) ∧
    (p.src ≠ s.devno → p.dst ≠ s.devno → ∃ t, exec (.packetArrival p) s = .next t ∧ t.fab.outbox = s.fab.outbox ++ [p] ∧ t.fab.inbox = s.fab.inbox ∧
      t.gts = maxW s.gts (w64 (senderGts s p + 1)) ∧ t.mem = s.mem) ∧
    (p.src ≠ s.devno → p.dst = s.devno → mcEntering p = false → s.fab.inbox.find? mcEntering = none → ∃ t, exec (.packetArrival p) s = .next t ∧
      t.fab.inbox = s.fab.inbox ++ [p] ∧ t.fab.outbox = s.fab.outbox ∧ t.gts = maxW s.gts (w64 (senderGts s p + 1)) ∧ t.mem = s.mem) ∧
    (2 ^ 23 ≤ s.gts.toNat → senderGts s p % 2 ^ 24 = p.gts.toNat ∧ senderGts s p ≤ s.gts.toNat + 2 ^ 23 ∧ s.gts.toNat ≤ senderGts s p + 2 ^ 23) ∧
    (s.fab.inbox[n]? = none → exec (.remoteRequestAtTarget n bad) s = .next s ∧ exec (.remoteReplyArrival n) s = .next s) ∧
    (s.fab.inbox[n]? = some p →
      let u := dropInbox (cacheExp s) n
      let turn := isRequest p = true ∧ reqFirst s n p = true ∧ stampCovers (appliedAll s) (stampFrom (reqWords s p)) = true
      (¬ turn → exec (.remoteRequestAtTarget n bad) s = .next s) ∧
      (turn →
        (runRequest u bad p = .wait → exec (.remoteRequestAtTarget n bad) s = .next s) ∧
        (∀ cause, runRequest u bad p = .refuse cause → exec (.remoteRequestAtTarget n bad) s = .next (sendPkt u p.src 4 p.lane .refuse p.tag [w64 cause] [])) ∧
        (∀ v args data, runRequest u bad p = .done v args data →
          exec (.remoteRequestAtTarget n bad) s = .next (sendPkt v p.src 4 p.lane .reply p.tag args data)) ∧
        (∀ w o b, p.kind = .rld → reqPieces p.args = [(o, w)] →
          (targetBytes u o w 63 .read = none → runRequest u bad p = .refuse 3) ∧
          (targetBytes u o w 63 .read = some b → holdsRead u (if b.1 then [] else b.2) = false → poisoned u (if b.1 then [] else b.2) = false →
            spStopped u (if b.1 then b.2 else []) = false →
            ∃ v args, runRequest u false p = .done v args (tRead u b) ∧ v.mem = s.mem ∧ v.scratch = s.scratch ∧ v.accs = s.accs))) ∧
      (∀ d, s.fab.dirs.find? (fun d => d.tag == p.tag && d.peer == p.src && d.st == .sent) = some d → d.late = none → d.ctx < 512 →
        (p.kind = .reply → ∃ t, exec (.remoteReplyArrival n) s = .next t ∧ t.fab.inbox = s.fab.inbox.eraseIdx n ∧ (∀ e ∈ t.fab.dirs, e.id ≠ d.id) ∧
          (d.dest ≠ .none → ∃ x, (getCore t (coreOf d.ctx)).landings = (getCore s (coreOf d.ctx)).landings ++
            [⟨d.ctx, d.seq, destUpds d.dest p.data, d.token, x, none⟩]) ∧ t.mem = s.mem) ∧
        (p.kind = .refuse → ∃ t, exec (.remoteReplyArrival n) s = .next t ∧ t.fab.inbox = s.fab.inbox.eraseIdx n ∧ t.mem = s.mem ∧
          ∀ e ∈ t.fab.dirs, e.id = d.id → e.st = .failed (p.args.headD 0).toNat)) ∧
      (∀ a, p.kind = .reply ∨ p.kind = .refuse ∨ p.kind = .landAck →
        s.fab.dirs.find? (fun d => d.tag == p.tag && d.peer == p.src && d.st == .sent) = none →
        s.fab.awaits.find? (fun a => a.tag == p.tag && a.peer == p.src) = some a →
        exec (.remoteReplyArrival n) s = .next (portPump
          (answerAwait (dropInbox s n) a (if p.kind = .refuse then .error (p.args.headD 0).toNat else .ok p)) a.ctx))) ∧
    (let due (d : Direct) : Bool := d.tag == tag && d.st == .sent && d.late.isNone && overdue s d.ctx d.cyc
     let waits (a : Await) : Bool := a.tag == tag && overdue s a.ctx a.sent
     (∀ d, s.fab.dirs.find? due = some d → d.ctx < 512 → exec (.remoteTimeout tag) s = .next (portPump (failDirect s d.id 2) d.ctx)) ∧
     (s.fab.dirs.find? due = none →
       (∀ a, s.fab.awaits.find? waits = some a → exec (.remoteTimeout tag) s = .next (portPump (answerAwait s a (.error 2)) a.ctx)) ∧
       (s.fab.awaits.find? waits = none →
         (redAwaiting s tag = none → exec (.remoteTimeout tag) s = .next s) ∧
         (∀ e r a, redAwaiting s tag = some (e, r) → r.await = some a →
           exec (.remoteTimeout tag) s = .next (if overdue s a.2.1 a.2.2 = true then redFail s e 2 else s))))) ∧
    (nextFailure s c = none → exec (.fabricFaultDelivery c) s = .next s) ∧
    (∀ d cause, nextFailure s c = some (d, cause) →
      ((getArch s c).phase = .running → (getArch s c).tcause.getLsbD 63 = false → trapWaits s c = false → (getCtx s c).late = [] → frozenAt s c = false →
        saving s c = false → exec (.fabricFaultDelivery c) s = .next (asyncTrap (endFailed s d) c 0x11 cause (w64 (4 + d.xf % 2 ^ 16 * 2 ^ 16)))) ∧
      ((getArch s c).phase = .exiting → ∃ t, exec (.fabricFaultDelivery c) s = .next t ∧ t.mem = s.mem ∧ (∀ e ∈ t.fab.dirs, e.id ≠ d.id) ∧
        ((getCtx s c).cancelled = false → (getCtx t c).discFail = true)))

/-- 12 R313, R319, R320: a bulk transfer sends or fetches block by block, each after the last is acknowledged; a multicast's
block enters the shared buffer once for each member and entry device, and the switch sends a copy on each port owed while its
lane is at GO; each ends with the time or with its cause. -/
def Obligations.BulkTransfers : Prop :=
  ∀ (s : State) (c n port : Nat) (k : Cmd) (bad : Bool), noDirects s c →
    let head (kind : Instr → Bool) := fabHead s c kind
    let blk := blockOf k k.prog
    let rd := blk.map fun i => (srcOf k i, elemSize k)
    let bytes := rd.flatMap fun p => (engRead s c p.1 p.2).1
    let pieces := (blockCells k blk bytes).map fun p => (offOf p.1, p.2.length)
    let plain := headGate s c 4 = none ∧ (getArch s c).phase ≠ .exiting ∧ (resOf s c 4).length < 16
    let aux (t : State) (l : List Nat) : Prop := ∃ y ∈ (getCtx t c).cmds, y.q = 4 ∧ y.seq = k.seq ∧ y.aux = l ∧ y.prog = k.prog
    let lane := laneOf k
    let gts24 : BitVec 24 := s.gts.truncate 24
    let tag := s.fab.nextTag
    let e := setEntry s (dField k.desc 15 % 256)
    let goes (i : Instr) : Prop :=
      (k.aux = [4] → dLcen k.desc = false ∨ isGet k = false → ∃ t, exec i s = .next t ∧ t.mem = s.mem ∧ t.scratch = s.scratch ∧
        ∃ y ∈ (getCtx t c).cmds, y.q = 4 ∧ y.seq = k.seq ∧ y.prog = k.prog + blk.length ∧ y.aux = []) ∧
      (∀ cause, k.aux = [5, cause] → plain → ∃ t, exec i s = .next t ∧ t.mem = s.mem ∧ endsQf s t c k.seq 3 cause (k.fired % 2 ^ 16) (w64 (k.prog % 2 ^ 32)))
    let ends (i : Instr) : Prop := dTotal k.desc ≤ k.prog → plain → k.flags = 0 → ∃ t, exec i s = .next t ∧ t.mem = s.mem ∧
      endsQf s t c k.seq 0 0 (k.fired % 2 ^ 16) s.gts
    let local_ := placeOf s c (srcBase k) ≠ .remote ∧ placeOf s c (srcBase k) ≠ .host ∧ engHeld s c rd [] = false ∧ engBad s c rd = false
    (head rputKind = none → exec (.rputExec c bad) s = .next (fabAsk s c)) ∧ (head rgetKind = none → exec (.rgetExec c bad) s = .next (fabAsk s c)) ∧
    (head mcastKind = none → exec (.mcastExec c bad) s = .next (fabAsk s c)) ∧
    (∀ f, head rputKind = some k → k.instr = .rput f → k.started = true →
      let peer := peerOf (dstBase k)
      (k.prog < dTotal k.desc → goes (.rputExec c bad)) ∧ ends (.rputExec c bad) ∧
      (k.prog < dTotal k.desc → k.aux = [] → local_ → placeOf s c (dstBase k) = .remote →
        (reachable s peer = false → plain → ∃ t, exec (.rputExec c false) s = .next t ∧ endsQf s t c k.seq 3 2 (k.fired % 2 ^ 16) (w64 (k.prog % 2 ^ 32))) ∧
        (reachable s peer = true → portClear s c lane k = true → ∃ t, exec (.rputExec c false) s = .next t ∧ t.mem = s.mem ∧ aux t [3, tag] ∧
          t.fab.outbox = s.fab.outbox ++ [⟨peer, s.devno, lane, lane, .put, tag,
            reqArgs (remoteVec s c peer k.taint) (remoteLc k) pieces f.hint, bytes, gts24, viaOf s peer lane, false, regionOfCtx s c, 0⟩]))) ∧
    (∀ f, head rgetKind = some k → k.instr = .rget f → k.started = true →
      let peer := peerOf (srcBase k)
      (k.prog < dTotal k.desc → goes (.rgetExec c bad)) ∧ ends (.rgetExec c bad) ∧
      (k.prog < dTotal k.desc → k.aux = [] → placeOf s c (srcBase k) = .remote → reachable s peer = true → portClear s c lane k = true →
        ∃ t, exec (.rgetExec c bad) s = .next t ∧ t.mem = s.mem ∧ aux t [1, tag] ∧ t.fab.outbox = s.fab.outbox ++
          [⟨peer, s.devno, lane, lane, .get, tag, reqArgs (remoteVec s c peer k.taint) 0 (rd.map fun p => (offOf p.1, p.2)) f.hint, [], gts24,
            viaOf s peer lane, false, regionOfCtx s c, 0⟩]) ∧
      (∀ data : List Byte, k.prog < dTotal k.desc → k.aux = 2 :: data.map (·.toNat) → placeOf s c (dstBase k) ≠ .remote → dLcen k.desc = false →
        let cells := blockCells k blk data
        engHeld s c [] (cells.map fun p => (p.1, p.2.length)) = false → ∃ t, exec (.rgetExec c bad) s = .next t ∧
          t.mem = (engWrite s c k cells).1.mem ∧ t.scratch = (engWrite s c k cells).1.scratch)) ∧
    (∀ f, head mcastKind = some k → k.instr = .mcast f → s.fab.setCache.isSome = true →
      (e = none → k.started = false → dTotal k.desc ≠ 0 → plain → ∃ t, exec (.mcastExec c bad) s = .next t ∧ endsQf s t c k.seq 3 4 (k.fired % 2 ^ 16) (w64 (k.prog % 2 ^ 32))) ∧
      (k.started = true → ends (.mcastExec c bad) ∧ (k.prog < dTotal k.desc → goes (.mcastExec c bad)) ∧
        (∀ w, k.prog < dTotal k.desc → k.aux = [] → local_ → portClear s c lane k = true → mcBytes s + bytes.length ≤ 0x100000 → e = some w →
          (∀ g x, g < setGroups w → x ∈ setXs w → reachable s (32 * setGroup w g + x) = true) →
          ∃ t p owed, exec (.mcastExec c false) s = .next t ∧ t.fab.mcbuf = s.fab.mcbuf ++ [(tag, p, owed)] ∧ p.data = bytes ∧ p.kind = .mcast ∧ t.mem = s.mem ∧
            (∀ x, x ∈ setXs w → (∃ g, g < setGroups w ∧ setGroup w g = groupOf s.devno) → 32 * groupOf s.devno + x ∈ owed) ∧
            (∀ g, g < setGroups w → setGroup w g ≠ groupOf s.devno → setXs w ≠ [] → entryDev s (setGroup w g) ∈ owed)))) ∧
    (s.fab.mcbuf.find? (fun e => e.1 == n) = none → exec (.mcastFlitForward n port) s = .next s) ∧
    (∀ p owed, s.fab.mcbuf.find? (fun e => e.1 == n) = some (n, p, owed) →
      (s.fab.stopped.contains (65536 + port, p.vl) = true → exec (.mcastFlitForward n port) s = .next s) ∧
      (s.fab.stopped.contains (65536 + port, p.vl) = false → s.fab.inbox.find? mcEntering = none → ∃ t l, exec (.mcastFlitForward n port) s = .next t ∧
        t.fab.outbox = s.fab.outbox ++ l ∧ l.map (·.dst) = owed.filter (fun d => portOf s d == port) ∧ (∀ q ∈ l, q.data = p.data ∧ q.kind = p.kind ∧ q.tag = p.tag) ∧
        (∀ q ow, (n, q, ow) ∈ t.fab.mcbuf → ∀ d ∈ ow, portOf s d ≠ port) ∧ t.mem = s.mem))

/-- 12 R321 to R325: a group's combiner passes its arrival to the root once every member's is in, and the root releases every
group; a release passes down the tree, ends the generation and wakes who waits; a GSYNC's deadline returns status 1; a
reduction's part is sent, its result written and reported, and a rank or an entry that does not fit fails it. -/
def Obligations.Collectives : Prop :=
  ∀ (s : State) (n c : Nat) (p : Packet),
    let u := dropInbox s n
    let e := (p.args.headD 0).toNat
    let gen := (p.args.getD 1 0).toNat
    let b := getBar s e
    (s.fab.inbox[n]? = none → exec (.collectiveArrival n) s = .next s ∧ exec (.collectiveRelease n) s = .next s) ∧
    (s.fab.inbox[n]? = some p → s.fab.setCache.isSome = true →
      (p.kind = .arrive →
        let w := p.args.drop 2
        let devs := b.devs ++ [(p.src, gen, setId w)]
        let mine := devs.filter fun d => d.2.1 == gen
        (mine.length < (setXs w).length → ∃ t, exec (.collectiveArrival n) s = .next t ∧ (getBar t e).devs = devs ∧ t.fab.outbox = s.fab.outbox ∧ t.mem = s.mem) ∧
        ((setXs w).length ≤ mine.length → ∃ t q, exec (.collectiveArrival n) s = .next t ∧ (getBar t e).devs = devs.filter (fun d => d.2.1 != gen) ∧
          t.fab.outbox = s.fab.outbox ++ [q] ∧ q.dst = setRoot w ∧ q.kind = .groupArrive ∧
          (q.args.getD 2 0 = 0 ↔ ∀ d ∈ mine, d.2.2 = (mine.headD (0, 0, 0)).2.2) ∧ t.mem = s.mem)) ∧
      (p.kind = .groupArrive → ∀ w, setEntry s e = some w →
        let groups := b.groups ++ [(p.src, gen, p.args.getD 2 0 != 0 || setId (p.args.drop 3) != setId w)]
        let mine := groups.filter fun d => d.2.1 == gen
        (mine.length < setGroups w → ∃ t, exec (.collectiveArrival n) s = .next t ∧ (getBar t e).groups = groups ∧ t.fab.outbox = s.fab.outbox) ∧
        (setGroups w ≤ mine.length → ∃ t l, exec (.collectiveArrival n) s = .next t ∧ t.fab.outbox = s.fab.outbox ++ l ∧ l.map (·.dst) = mine.map (·.1) ∧
          ∀ q ∈ l, q.kind = .release ∧ (q.args.getD 2 0 = 0 ↔ ∀ d ∈ mine, d.2.2 = false))) ∧
      (p.kind = .redArrive →
        let devs := (getRed s e).devs ++ [(p.src, gen, p.args)]
        let full := (setXs (redSet p.args)).length ≤ (devs.filter fun d => d.2.1 == gen).length
        ∃ t r, exec (.collectiveArrival n) s = .next t ∧ t.mem = s.mem ∧ r.dst = p.src ∧ r.kind = .reply ∧ r.tag = p.tag ∧
          (¬ full → (getRed t e).devs = devs ∧ t.fab.outbox = s.fab.outbox ++ [r]) ∧
          (full → ∃ q, t.fab.outbox = s.fab.outbox ++ [r, q] ∧ q.dst = setRoot (redSet p.args) ∧ q.kind = .redGroup)) ∧
      (p.kind = .redGroup → ∀ w, setEntry s e = some w →
        let groups := (getRed s e).groups ++ [(p.src, gen, p.args)]
        let mine := groups.filter fun d => d.2.1 == gen
        ∃ t, exec (.collectiveArrival n) s = .next t ∧ t.mem = s.mem ∧ (mine.length < setGroups w → (getRed t e).groups = groups ∧ t.fab.outbox = s.fab.outbox) ∧
          (setGroups w ≤ mine.length → ∃ l, t.fab.outbox = s.fab.outbox ++ l ∧ l.map (·.dst) = mine.map (·.1) ∧ ∀ q ∈ l, q.kind = .redResult))) ∧
    (s.fab.inbox[n]? = some p → p.kind = .release →
      (p.args.getD 3 0 = 1 → ∃ t l, exec (.collectiveRelease n) s = .next t ∧ t.fab.outbox = s.fab.outbox ++ l ∧ (getBar t e) = b ∧
        l.map (·.dst) = groupMembers (p.args.drop 4) (groupOf s.devno) ∧ ∀ q ∈ l, q.kind = .release ∧ q.args = p.args.set 3 0) ∧
      (p.args.getD 3 0 ≠ 1 → gen < b.gen → exec (.collectiveRelease n) s = .next u) ∧
      (p.args.getD 3 0 ≠ 1 → b.gen ≤ gen →
        (∃ t, exec (.collectiveRelease n) s = .next t ∧ (getBar t e).gen = gen + 1 ∧ (getBar t e).arr = b.arr.filter (fun a => a.2.1 != gen)) ∧
        (∀ k serial, b.arr.filter (fun a => a.2.1 == gen) = [(serial, gen, false)] → ctxOfSerial s serial = some c → gsyncParked s c e = some k →
          frozenAt s c = false → ∃ t, exec (.collectiveRelease n) s = .next t ∧ waitEnds s t c k (gsyncWord (if p.args.getD 2 0 = 0 then 0 else 3) gen)))) ∧
    (s.fab.inbox[n]? = some p → p.kind = .redResult →
      let len := p.args.length - 1
      let l := p.args.take len
      (p.args.getD len 0 = 1 → ∃ t q, exec (.collectiveRelease n) s = .next t ∧ t.fab.outbox = s.fab.outbox ++ q ∧
        q.map (·.dst) = groupMembers (redSet p.args) (groupOf s.devno)) ∧
      (p.args.getD len 0 ≠ 1 → 1 < len → gen = (getRed s e).gen → ∃ t, exec (.collectiveRelease n) s = .next t ∧ (getRed t e).gen = gen + 1 ∧
        (getRed t e).ranks = [] ∧ t.fab.redRes = s.fab.redRes ++ (getRed s e).ranks.map fun r =>
          (r.2.1, e, if l.getD 2 0 != 0 then 64 + 5 else (l.getD 4 0).toNat, redVals l))) ∧
    (∀ k, frozenAt s c = false → (getArch s c).park = some k → k.kind = .gsync →
      let past := ∃ d, k.deadline = some d ∧ d.toNat ≤ s.gts.toNat
      (¬ past → exec (.gsyncDeadline c) s = .next s) ∧
      (∀ g, past → arrivalOf (getBar s k.addr) (serialOf s c) = some g → ∃ t, exec (.gsyncDeadline c) s = .next t ∧ waitEnds s t c k (gsyncWord 1 g))) ∧
    (let head := fabHead s c gredKind
     (head = none → exec (.gredExec c) s = .next (fabAsk s c)) ∧
     (∀ k f, head = some k → k.instr = .gred f → s.fab.setCache.isSome = true → headGate s c 4 = none → (getArch s c).phase ≠ .exiting →
       (resOf s c 4).length < 16 →
       let en := gredSet s k
       (k.aux ≠ [6] → en = none → ∃ t, exec (.gredExec c) s = .next t ∧ endsQf s t c k.seq 3 4 (k.fired % 2 ^ 16) (w64 (k.prog % 2 ^ 32))) ∧
       (∀ w, k.aux ≠ [6] → en = some w →
         (setCnt w ≤ gredRank k → ∃ t, exec (.gredExec c) s = .next t ∧ endsQf s t c k.seq 3 3 (k.fired % 2 ^ 16) (w64 (k.prog % 2 ^ 32))) ∧
         (gredRank k < setCnt w → (getRed s (gredEntry k)).ranks.length + 1 < setCnt w →
           ∃ t v, exec (.gredExec c) s = .next t ∧ t.fab.outbox = s.fab.outbox ∧ t.mem = s.mem ∧ (getRed t (gredEntry k)).ranks =
             (getRed s (gredEntry k)).ranks ++ [(gredRank k, serialOf s c, gredShape f (gredN k), v)] ∧ v.length = gredN k ∧
             ∀ i, i < gredN k → v.getD i 0 = w64 (leNat (((spRead s (xfRd s c k)).drop (8 * i)).take 8)))) ∧
       (∀ r, k.aux = [6] → s.fab.redRes.find? (fun r => r.1 == serialOf s c && r.2.1 == gredEntry k) = some r →
         (64 ≤ r.2.2.1 → ∃ t, exec (.gredExec c) s = .next t ∧ endsQf s t c k.seq 3 (r.2.2.1 - 64) (k.fired % 2 ^ 16) (w64 (k.prog % 2 ^ 32)) ∧ t.scratch = s.scratch) ∧
         (r.2.2.1 < 64 → ∃ t v, exec (.gredExec c) s = .next t ∧ t.mem = s.mem ∧
           t.scratch = memPut s.scratch ((xfWr s c k).zip (r.2.2.2.flatMap fun x => leBytes 8 x.toNat)) ∧
           endsQf s t c k.seq (if r.2.2.1 = 0 then 0 else 1) (if r.2.2.1 = 0 then 0 else 1) r.2.2.1 v))))

/-- 12 R327 to R330: a send the port starts takes its step and sends its block, and fails where the ring is not the task's, its
step does not ascend or its block is too large; a landing is applied in its slot and counted, and its last piece advances LAND
and is acknowledged; a watermark updates SWM or waits for its ring. 12 R303 to R310, R331: what the links' events do to a
wavelength, a lane group, a lane's path and a fibre's mode; a write of FXEXP or FXSET discards every cached entry. Of the
receive buffers' constants the spec names no value (log entry 11). -/
def Obligations.RingAndLinkEvents : Prop :=
  (∀ (s : State) (n c : Nat) (bad : Bool) (p : Packet),
    (let head := fabHead s c plsendKind
     (head = none → exec (.plsendExec c bad) s = .next (fabAsk s c)) ∧
     (∀ k r, ownRing s c k.x1.toNat = some r → sendWrong s c k = false → reachable s r.succ = true → sendAllowed r (sendStep k) = false →
       (∃ f, k.instr = .plsend f) → execHead s c 4 = some k → k.started = false → exec (.plsendExec c bad) s = .next s) ∧
     (∀ k f, head = some k → k.instr = .plsend f → noDirects s c → headGate s c 4 = none → (getArch s c).phase ≠ .exiting → (resOf s c 4).length < 16 →
       let g := k.x1.toNat
       let fail (cause : Nat) : Prop := ∃ t, exec (.plsendExec c bad) s = .next t ∧ endsQf s t c k.seq 3 cause (k.fired % 2 ^ 16) (w64 (k.prog % 2 ^ 32))
       (k.aux = [4] → k.flags = 0 → ∃ t, exec (.plsendExec c bad) s = .next t ∧ endsQf s t c k.seq 0 0 (k.fired % 2 ^ 16) (w64 (sendStep k))) ∧
       (∀ cause, k.aux = [5, cause] → fail cause) ∧
       (k.aux = [] → sendWrong s c k = true → fail 6) ∧
       (∀ r, k.aux = [] → sendWrong s c k = false → ownRing s c g = some r →
         (reachable s r.succ = false → fail 2) ∧
         (reachable s r.succ = true → ∃ t, exec (.plsendExec c bad) s = .next t ∧ t.mem = s.mem ∧
           (∀ x, getRing t g = some x → x.last = some (sendStep k)) ∧
           (sendCt k = false → bad = false → engHeld s c [(k.x2 + k.x3, sendLen k.x5 r.blk)] [] = false →
             engBad s c [(k.x2 + k.x3, sendLen k.x5 r.blk)] = false → t.fab.outbox = (sendPieces s (regionOfCtx s c) r s.fab.nextTag (sendStep k) 0 (sendLen k.x5 r.blk)
               (engRead s c (k.x2 + k.x3) (sendLen k.x5 r.blk)).1).fab.outbox))))) ∧
    (inboxAt s n .landing = none → exec (.pacelineLanding n) s = .next s) ∧
    (inboxAt s n .landing = some p →
      let u := dropInbox s n
      let off := (p.args.getD 2 0).toNat
      let st := (p.args.getD 1 0).toNat
      let total := (p.args.getD 4 0).toNat
      let b1 := off + p.data.length
      (vl6First s n p = false ∨ reqFirst s n p = false → exec (.pacelineLanding n) s = .next s) ∧
      (vl6First s n p = true → reqFirst s n p = true →
        (ringFor s (p.args.headD 0) (fun r => r.pred == p.src) = none → exec (.pacelineLanding n) s = .next (sendPkt u p.src 4 p.lane .refuse p.tag [6] [])) ∧
        (∀ g r, ringFor s (p.args.headD 0) (fun r => r.pred == p.src) = some (g, r) →
          (ctxOfSerial s r.owner = none → exec (.pacelineLanding n) s = .next s) ∧
          (ctxOfSerial s r.owner = some c → (getCluster s (clusterOf c)).stopped = true → exec (.pacelineLanding n) s = .next s) ∧
          (ctxOfSerial s r.owner = some c → (getCluster s (clusterOf c)).stopped = false →
            (r.blk < total ∨ total < b1 → exec (.pacelineLanding n) s = .next (sendPkt u p.src 4 p.lane .refuse p.tag [6] [])) ∧
            (total ≤ r.blk → b1 ≤ total → getRing s g = some r →
              let w := spWrite s (cellsAt (spAddr s c (slotAt r st + off)) p.data)
              let ctr := spAddr s c (slotCtr r st)
              let m := landCount off b1 total r.blk
              ∃ t, exec (.pacelineLanding n) s = .next t ∧ t.mem = s.mem ∧
                (m = 0 → t.scratch = w.scratch) ∧ (0 < m → spNat t ctr 8 = lcArrival (spNat w ctr 8) m ∧
                  ∀ a, a < ctr ∨ ctr + 8 ≤ a → mapGet 0 t.scratch a = mapGet 0 w.scratch a) ∧
                (b1 < total → (∃ x, getRing t g = some x ∧ x.got = b1 ∧ x.land = r.land) ∧ t.fab.outbox = s.fab.outbox) ∧
                (b1 = total → (∃ x, getRing t g = some x ∧ x.got = 0 ∧ x.land = st + 1) ∧
                  ∃ q, t.fab.outbox = s.fab.outbox ++ [q] ∧ q.dst = p.src ∧ q.kind = .landAck ∧ q.tag = p.tag)))))) ∧
    (inboxAt s n .watermark = none → exec (.watermarkArrival n) s = .next s) ∧
    (inboxAt s n .watermark = some p →
      let key := p.args.headD 0
      let w := (p.args.getD 1 0).toNat
      let mine (h : W64 × Nat × Nat) : Bool := h.1 == key && h.2.1 == p.src
      (∀ g r, ringFor s key (fun r => r.succ == p.src) = some (g, r) → getRing s g = some r → ∃ t, exec (.watermarkArrival n) s = .next t ∧
        getRing t g = some { r with swm := some w } ∧ t.mem = s.mem ∧ t.fab.inbox = s.fab.inbox.eraseIdx n) ∧
      (ringFor s key (fun r => r.succ == p.src) = none →
        (s.fab.wmHeld.any mine = true → ∃ t, exec (.watermarkArrival n) s = .next t ∧ (key, p.src, w) ∈ t.fab.wmHeld ∧
          t.fab.wmHeld.length = s.fab.wmHeld.length) ∧
        (s.fab.wmHeld.any mine = false → s.fab.wmHeld.length < 16 → ∃ t, exec (.watermarkArrival n) s = .next t ∧
          t.fab.wmHeld = s.fab.wmHeld ++ [(key, p.src, w)]) ∧
        (s.fab.wmHeld.any mine = false → 16 ≤ s.fab.wmHeld.length → exec (.watermarkArrival n) s = .next s)))) ∧
  (∀ (s : State) (port vl ch count peer lane g fibre : Nat) (alt : Bool) (x : W64),
    let tx := decide (8192 ≤ ch)
    let c := ch % 8192
    let w := getWave s tx c
    let wave (i : Instr) (w1 : Wave) : Prop := ∃ t, exec i s = .next t ∧ getWave t tx c = w1 ∧ (∀ d, d ≠ c → getWave t tx d = getWave s tx d) ∧
      (∀ d, getWave t (!tx) d = getWave s (!tx) d) ∧ t.mem = s.mem
    let moved (i : Instr) (w1 : Wave) : Prop :=
      (inStripe w = inStripe w1 → wave i w1) ∧
      (inStripe w ≠ inStripe w1 → wave i { w1 with wchg := w1.wchg + 1 } ∧ ∀ t, exec i s = .next t →
        (getLg t tx (groupBase s c)).chg = (getLg s tx (groupBase s c)).chg + 1 ∧ (tx = true → (getLg t tx (groupBase s c)).beat = 0))
    let buf := groupBase s (port % 8192)
    ((port, vl) ∈ s.fab.stopped ∨ port < 65536 ∧ Config.rxStop buf ≤ freeFlits s buf vl → exec (.vlStop port vl) s = .next s) ∧
    ((port, vl) ∉ s.fab.stopped → 65536 ≤ port ∨ freeFlits s buf vl < Config.rxStop buf →
      ∃ t, exec (.vlStop port vl) s = .next t ∧ t.fab.stopped = s.fab.stopped ++ [(port, vl)] ∧
        (port < 65536 → (getLg t false buf).stops = (getLg s false buf).stops + 1)) ∧
    (port < 65536 → freeFlits s buf vl ≤ Config.rxGo buf → exec (.vlGo port vl) s = .next s) ∧
    (65536 ≤ port ∨ Config.rxGo buf < freeFlits s buf vl →
      exec (.vlGo port vl) s = .next { s with fab := { s.fab with stopped := s.fab.stopped.filter fun p => p != (port, vl) } }) ∧
    wave (.codewordReplay ch) { w with werr := w.werr + 1 } ∧
    (let v : Wave := { w with pce := min count (2 ^ 32 - 1), win := s.gts }
     let over' := windowOver s w = true
     let above := s.fab.thr.toNat < count
     (tx = true → w.st = 6 ∨ w.st = 7 → exec (.pceWindowClose ch count) s = .next s) ∧
     (tx = true → w.st ≠ 6 → w.st ≠ 7 → moved (.pceWindowClose ch count) { w with st := 6 }) ∧
     (tx = false → w.st = 7 ∨ ¬ over' → exec (.pceWindowClose ch count) s = .next s) ∧
     (tx = false → over' → w.st ≠ 7 →
       (w.st = 0 → wave (.pceWindowClose ch count) { v with st := if above then 1 else 0 }) ∧
       (w.st ≠ 0 → w.st ≠ 3 → wave (.pceWindowClose ch count) v) ∧
       (w.st = 3 →
         (¬ above → moved (.pceWindowClose ch count) { v with st := 0, att := 0 }) ∧
         (above → s.fab.rtmax ≤ w.att + 1 → wave (.pceWindowClose ch count) { v with st := 6, att := w.att + 1 }) ∧
         (above → w.att + 1 < s.fab.rtmax → wave (.pceWindowClose ch count) { v with st := 2, retr := min 255 (w.retr + 1), att := w.att + 1 })))) ∧
    (let hands := w.st = 1 ∨ tx = true ∧ w.st ≠ 2 ∧ w.st ≠ 7
     (hands → moved (.wavelengthHandback ch) { w with st := 2, retr := min 255 (w.retr + 1) }) ∧
     (¬ hands → exec (.wavelengthHandback ch) s = .next s)) ∧
    (w.st ≠ 2 → exec (.retrainComplete ch) s = .next s) ∧
    (w.st = 2 → wave (.retrainComplete ch) { w with st := if tx = false ∧ s.fab.rtmax ≤ w.att then 6 else 3, win := s.gts }) ∧
    (((w.st = 4 ∨ w.st = 5) ∧ w.woken = true) ∨ (tx = true ∧ w.st = 3) → moved (.wavelengthRejoin ch) { w with st := 0, woken := false }) ∧
    (w.st = 0 → exec (.wavelengthRejoin ch) s = .next s) ∧
    (let up := decide (g < 8192)
     let base := groupBase s (g % 8192)
     let active (t : State) := ((groupChans s (g % 8192)).filter fun d => (getWave t up d).st == 0).length
     let wakes := up = false ∨ s.fab.pkhi.toNat < queueFlits s (lanesPort base)
     let idles := s.fab.pkt ≠ 0 ∧ (getLg s up base).park = true ∧ (up = false ∨ idleLong s base = true)
     (¬ idles → exec (.parkIdleTimeout g) s = .next s) ∧
     (idles → ∃ t, exec (.parkIdleTimeout g) s = .next t ∧ t.mem = s.mem ∧ active t = min (active s) s.fab.minw ∧
       ∀ d, (getWave t up d).st = (getWave s up d).st ∨ (getWave s up d).st = 0 ∧ (getWave t up d).st = if s.fab.pkcold then 5 else 4) ∧
     (¬ wakes → exec (.parkWake g) s = .next s) ∧
     (wakes → ∃ t, exec (.parkWake g) s = .next t ∧ t.mem = s.mem ∧ ∀ d, (getWave t up d).st = (getWave s up d).st ∧
       (d ∈ groupChans s (g % 8192) → (getWave s up d).st = 4 ∨ (getWave s up d).st = 5 → (getWave t up d).woken = true))) ∧
    (let on := (peer, lane) ∈ s.fab.onAlt
     let may := if alt then routeDown s peer = true ∧ (∃ a ∈ s.fab.alts, a.1 = groupOf peer) else routeUp s peer = true
     let mine (p : Packet) : Prop := p.src = s.devno ∧ p.dst = peer ∧ p.lane = lane
     (laneBusy s peer lane = true ∨ ¬ may ∨ (on ↔ alt = true) → exec (.routeChange peer lane alt) s = .next s) ∧
     (laneBusy s peer lane = false → may → ¬ (on ↔ alt = true) → ∃ t, exec (.routeChange peer lane alt) s = .next t ∧ t.mem = s.mem ∧
       ((peer, lane) ∈ t.fab.onAlt ↔ alt = true) ∧ (∀ q, q ≠ (peer, lane) → (q ∈ t.fab.onAlt ↔ q ∈ s.fab.onAlt)) ∧
       (∀ p ∈ t.fab.outbox, mine p → p.via = viaOf t peer lane) ∧ (∀ p, ¬ mine p → (p ∈ t.fab.outbox ↔ p ∈ s.fab.outbox)))) ∧
    (s.fab.modeReq.find? (fun m => m.1 == fibre) = none → exec (.modeChangeComplete fibre) s = .next s) ∧
    (∀ m, s.fab.modeReq.find? (fun m => m.1 == fibre) = some m → ∃ t, exec (.modeChangeComplete fibre) s = .next t ∧ modeOf t fibre = m.2 ∧
      (∀ k, k ≠ fibre → modeOf t k = modeOf s k)) ∧
    exec (.fxexpWrite x) s = .next { s with fab := { s.fab with fxexp := x &&& 0xFF00007FFFFFFF00, expCache := none, setCache := none } } ∧
    exec (.fxsetWrite x) s = .next { s with fab := { s.fab with fxset := x &&& 0xFF00007FFFFFFF00, expCache := none, setCache := none } })

/-- 14 R359, R360, R363, R364, R366: what each message of a round, the coordinator's decision and the end of a rollback do to a
member; a message out of its place is dropped. 14 R355, R363 to R365: confirmation, beats and silence; what a member's loss
does; a new coordinator's query and its answers. -/
def Obligations.CodingProtocol : Prop :=
  (∀ (s : State) (n : Nat) (p : Packet) (bad : Bool),
    let u := dropInbox s n
    let k := s.cod
    let r := parg p 0
    let next := k.c + 1
    let leads := parityHere s = true ∧ k.coord = true
    let undecided := r = next ∧ decidedAs s next 1 = false
    let aborted (t : State) (reason : Nat) : Prop := decidedAs t next 2 = true ∧ sendsEach s t k.live .abort [w64 next, w64 reason] ∧ t.mem = s.mem ∧ t.cod.st = k.st
    (inboxAt s n .delta = none → exec (.deltaArrival n) s = .next s) ∧ (inboxAt s n .mark = none → exec (.markArrival n) s = .next s) ∧
    (inboxAt s n .ack = none → exec (.ackArrival n) s = .next s) ∧ (inboxAt s n .prepared = none → exec (.preparedArrival n) s = .next s) ∧
    (inboxAt s n .staged = none → exec (.stagedArrival n) s = .next s) ∧ (inboxAt s n .kabrt = none → exec (.kabrtRequestArrival n) s = .next s) ∧
    (inboxAt s n .overflow = none → exec (.overflowArrival n) s = .next s) ∧ (inboxAt s n .commit = none → exec (.commitArrival n) s = .next s) ∧
    (inboxAt s n .abort = none → exec (.abortArrival n) s = .next s) ∧
    (inboxAt s n .delta = some p →
      (parityHere s = false ∨ r ≠ next ∧ r ≠ next + 1 → exec (.deltaArrival n) s = .next u) ∧
      (parityHere s = true → r = next → mapFind k.regions (parg p 1) = none → ∃ t, exec (.deltaArrival n) s = .next t ∧ t.cod.waiting = k.waiting ++ [p] ∧
        t.cod.stages = k.stages ∧ t.mem = s.mem) ∧
      (∀ x, parityHere s = true → r = next → (mapFind k.regions (parg p 1)).isSome = true →
        k.stages.find? (fun x => x.round == r && x.region == parg p 1 && x.off == parg p 2) = some x → ∃ t, exec (.deltaArrival n) s = .next t ∧
        t.cod.stages = (k.stages.filter fun y => y.slot != x.slot) ++ [{ x with val := List.zipWith (· ^^^ ·) x.val p.data }] ∧
        gotFrom t.cod (parg p 3) (parg p 4) r = gotFrom k (parg p 3) (parg p 4) r + 1)) ∧
    (inboxAt s n .mark = some p →
      (parityHere s = false ∨ r ≠ next ∧ r ≠ next + 1 → exec (.markArrival n) s = .next u) ∧
      (parityHere s = true → r = next → ∃ t, exec (.markArrival n) s = .next t ∧ t.cod.marks = k.marks ++ [(parg p 3, parg p 1, r, parg p 2)] ∧
        t.cod.stages = k.stages ∧ t.mem = s.mem)) ∧
    (inboxAt s n .ack = some p → noneWaits s →
      let now := dataHere s = true ∧ k.st = .preparing ∧ r = next
      let acks := k.acks ++ [(parg p 2, parg p 1)]
      let all := ∀ j ∈ liveParity k, ∃ a ∈ acks, a.1 = j ∧ sentTo k j ≤ a.2
      (¬ now → exec (.ackArrival n) s = .next u) ∧
      (now → ∃ t, exec (.ackArrival n) s = .next t ∧ t.cod.acks = acks ∧ t.mem = s.mem ∧ (all → t.cod.st = .prepared) ∧ (¬ all → t.cod.st = .preparing))) ∧
    (inboxAt s n .prepared = some p → (leads → exec (.preparedArrival n) s = .next { u with cod := { k with prep := k.prep ++ [(parg p 1, r)] } }) ∧
      (¬ leads → exec (.preparedArrival n) s = .next u)) ∧
    (inboxAt s n .staged = some p → (leads → exec (.stagedArrival n) s = .next { u with cod := { k with stag := k.stag ++ [(parg p 1, r)] } }) ∧
      (¬ leads → exec (.stagedArrival n) s = .next u)) ∧
    (inboxAt s n .kabrt = some p → (leads ∧ undecided → ∃ t, exec (.kabrtRequestArrival n) s = .next t ∧ aborted t 2) ∧
      (¬ (leads ∧ undecided) → exec (.kabrtRequestArrival n) s = .next u)) ∧
    (inboxAt s n .overflow = some p → (leads ∧ undecided → ∃ t, exec (.overflowArrival n) s = .next t ∧ aborted t 3) ∧
      (¬ (leads ∧ undecided) → exec (.overflowArrival n) s = .next u)) ∧
    (let may := leads ∧ k.querying = false ∧ decidedAs s next 1 = false
     (¬ may → exec .commitDecision s = .next s) ∧
     (may → allIn s = true → noneSpilled s → ∃ t, exec .commitDecision s = .next t ∧ decidedAs t next 1 = true ∧
       sendsEach s t k.live .commit [w64 next] ∧ t.mem = memPut s.mem (cellsAt (recBase k 0x38) (commitBytes s next))) ∧
     (may → allIn s = false → lostEarly s = false → exec .commitDecision s = .next s) ∧
     (may → allIn s = false → lostEarly s = true → k.st ≠ .idle → ∃ t, exec .commitDecision s = .next t ∧ aborted t 1)) ∧
    (inboxAt s n .commit = some p →
      (r ≠ next → exec (.commitArrival n) s = .next u) ∧
      (r = next → dataHere s = true → k.st = .prepared → noneWaits s → ∃ t, exec (.commitArrival n) s = .next t ∧ t.cod.c = r ∧ t.cod.st = .idle ∧
        t.cod.journal = [] ∧ t.mem = s.mem) ∧
      (r = next → parityHere s = true → k.st = .staging ∨ k.st = .staged → noneWaits s → stageLost s r = false → ∃ t, exec (.commitArrival n) s = .next t ∧
        t.cod.c = r ∧ t.cod.stages = k.stages.filter (fun x => x.round != r) ∧ t.mem = (foldRound u r).mem)) ∧
    (inboxAt s n .abort = some p → r = next → noneWaits s →
      (dataHere s = true → k.st = .opened ∨ k.st = .preparing ∨ k.st = .prepared → ∃ t, exec (.abortArrival n) s = .next t ∧ t.cod.st = .rollback ∧
        t.cod.aborts = k.aborts + 1 ∧ (r, 2, parg p 1) ∈ t.cod.decided ∧ t.cod.journal = k.journal ∧ t.mem = s.mem) ∧
      (parityHere s = true → k.st = .staging ∨ k.st = .staged → ∃ t, exec (.abortArrival n) s = .next t ∧ t.cod.c = k.c ∧
        t.cod.stages = k.stages.filter (fun x => x.round != r) ∧ t.cod.aborts = k.aborts + 1 ∧ t.mem = s.mem)) ∧
    (k.st ≠ .rollback → exec (.rollbackComplete bad) s = .next s) ∧
    (k.st = .rollback → journalLost s = false → noneWaits s → noneSpilled s → ∃ t, exec (.rollbackComplete false) s = .next t ∧ t.cod.journal = [] ∧
      t.cod.st = (if k.fenceAfter then .fenced else .idle) ∧
      ∀ a, memGet t.mem a = memGet (k.journal.foldl (fun m e => memPut m (cellsAt e.1 e.2.2)) s.mem) a) ∧
    (k.st = .rollback → bad = true ∨ journalLost s = true → noneWaits s → ∃ t, exec (.rollbackComplete bad) s = .next t ∧ t.cod.st = .fenced ∧ t.mem = s.mem)) ∧
  (∀ (s : State) (n i : Nat) (p : Packet),
    let u := dropInbox s n
    let k := s.cod
    let leads := parityHere s = true ∧ k.coord = true
    let gone (c : Cod) (i : Nat) : Prop := i ∉ c.live ∧ i ∈ c.lost
    (let mine (p : Packet) : Bool := p.kind == .config && (p.args.headD 0 != 0 || k.have_)
     (s.fab.inbox.find? mine = none → exec .configConfirmed s = .next s) ∧
     (s.fab.inbox.find? mine = some p →
       (parg p 0 = 1 → k.have_ = true → k.cfg = false → noneWaits s → ∃ t, exec .configConfirmed s = .next t ∧ t.cod.cfg = true ∧
         t.cod.live = upTo (k.k + k.m) ∧ t.cod.lost = [] ∧ (t.cod.coord = true ↔ k.role = 2 ∧ k.self = k.k) ∧ t.mem = s.mem) ∧
       (2 ≤ parg p 0 → k.have_ = true → k.cfg = false → noneWaits s → ∃ t, exec .configConfirmed s = .next t ∧ t.cod.have_ = false ∧ t.cod.cfg = false) ∧
       (parg p 0 = 0 → k.cfg = true → p.data = k.rec_ → ∃ t q, exec .configConfirmed s = .next t ∧ sends s t [q] ∧ q.dst = p.src ∧ q.kind = .config ∧ q.args = [1]) ∧
       (parg p 0 = 0 → k.cfg = true → p.data ≠ k.rec_ → ∃ t q, exec .configConfirmed s = .next t ∧ sends s t [q] ∧ q.dst = p.src ∧ q.kind = .config ∧ q.args = [2]))) ∧
    (k.cfg = false ∨ k.role = 3 ∨ k.st = .fenced ∨ k.coord = true ∨ s.gts.toNat < k.ownBeat.toNat + 10000 → exec .beatSend s = .next s) ∧
    (k.cfg = true → k.role = 1 → k.st ≠ .fenced → k.coord = false → k.ownBeat.toNat + 10000 ≤ s.gts.toNat → ∃ t, exec .beatSend s = .next t ∧
      t.cod.ownBeat = s.gts ∧ t.mem = s.mem ∧
      sendsEach s t (if k.beatAns.toNat + 20000 ≤ s.gts.toNat then liveParity k else (coordOf k).toList) .beat [w64 k.pelid, w64 k.self]) ∧
    (s.fab.inbox[n]? = some p →
      (p.kind = .beat → parityHere s = true → parg p 0 = k.pelid → ∃ t q, exec (.beatArrival n) s = .next t ∧ sends s t [q] ∧ q.dst = p.src ∧ q.kind = .beatReply ∧
        mapGet 0 t.cod.lastBeat (parg p 1) = s.gts) ∧
      (p.kind = .beat → parityHere s = false ∨ parg p 0 ≠ k.pelid → exec (.beatArrival n) s = .next u) ∧
      (p.kind = .beatReply → exec (.beatArrival n) s = .next { u with cod := if parg p 0 = k.pelid then { k with beatAns := s.gts } else k })) ∧
    (let silent := (mapGet 0 k.lastBeat i).toNat + 100000 ≤ s.gts.toNat ∨ reachable s (memberDev k i) = false
     (leads → i ∈ k.live → i ≠ k.self → silent → ∃ t, exec (.lostDeclaration i) s = .next t ∧ gone t.cod i ∧ t.mem = s.mem ∧
       ∃ ps qs, sends s t (ps ++ qs) ∧ ps.map (·.dst) = (((k.live.filter fun j => j != i) ++ spares k).map (memberDev k)) ∧ ∀ q ∈ ps, q.kind = .lost ∧ q.args = [w64 i]) ∧
     (¬ leads ∨ i ∉ k.live ∨ i = k.self ∨ ¬ silent → exec (.lostDeclaration i) s = .next s)) ∧
    (inboxAt s n .lost = some p →
      (k.cfg = false ∨ k.st = .fenced ∨ parg p 0 = k.self ∧ ¬ leads → exec (.lostArrival n) s = .next u) ∧
      (leads → p.src = memberDev k (parg p 0) → parg p 0 ≠ k.self → (∀ d ∈ k.decided, d.1 ≠ k.c + 1) → ∃ t, exec (.lostArrival n) s = .next t ∧
        gone t.cod (parg p 0) ∧ decidedAs t (k.c + 1) 2 = true ∧ t.mem = s.mem) ∧
      (k.cfg = true → k.role = 1 → k.st = .idle ∨ k.st = .prepared ∨ k.st = .rollback → parg p 0 ≠ k.self →
        exec (.lostArrival n) s = .next { u with cod := strike k (parg p 0) }) ∧
      (k.cfg = true → k.role = 1 → k.st = .opened → parg p 0 ≠ k.self → noneWaits s → ∃ t, exec (.lostArrival n) s = .next t ∧ gone t.cod (parg p 0) ∧
        t.mem = s.mem ∧ t.cod.st = if ∃ j ∈ liveParity k, j ≠ parg p 0 then .opened else .rollback)) ∧
    (k.cfg = false ∨ k.coord = true ∨ s.gts.toNat < k.beatAns.toNat + 100000 → exec .coordinatorSilence s = .next s) ∧
    (k.cfg = true → k.coord = false → k.beatAns.toNat + 100000 ≤ s.gts.toNat → k.role = 1 → noneWaits s → ∃ t, exec .coordinatorSilence s = .next t ∧ t.mem = s.mem ∧
      (k.st = .idle ∨ k.st = .prepared → t.cod.st = .fenced) ∧ (k.st = .opened ∨ k.st = .preparing → t.cod.st = .rollback ∧ t.cod.fenceAfter = true) ∧
      (k.st = .rollback → t.cod.st = .rollback ∧ t.cod.fenceAfter = true)) ∧
    (k.cfg = true → k.coord = false → k.beatAns.toNat + 100000 ≤ s.gts.toNat → k.role = 2 → k.st ≠ .fenced → ∃ t, exec .coordinatorSilence s = .next t ∧ t.mem = s.mem ∧
      ∀ j ∈ parityBelow k k.self, gone t.cod j) ∧
    (inboxAt s n .query = some p →
      (k.cfg = false → exec (.queryArrival n) s = .next u) ∧
      (k.cfg = true → ∃ t q, exec (.queryArrival n) s = .next t ∧ sends s t [q] ∧ q.dst = p.src ∧ q.kind = .queryReply ∧ t.cod.beatAns = s.gts ∧ t.mem = s.mem ∧
        q.args = [w64 (parg p 0), w64 k.self, w64 (kCode k.st), if parg p 0 ≤ k.c then 1 else 0])) ∧
    (inboxAt s n .queryReply = some p →
      (¬ leads ∨ k.querying = false ∨ parg p 0 ≠ k.c + 1 → exec (.queryReplyArrival n) s = .next u) ∧
      (leads → k.querying = true → parg p 0 = k.c + 1 → parg p 3 = 1 → noneSpilled s → ∃ t, exec (.queryReplyArrival n) s = .next t ∧ t.cod.querying = false ∧
        decidedAs t (k.c + 1) 1 = true ∧ sendsEach s t k.live .commit [w64 (k.c + 1)]) ∧
      (leads → k.querying = true → parg p 0 = k.c + 1 → parg p 3 ≠ 1 → (∃ j ∈ k.live, j ≠ parg p 1 ∧ ∀ a ∈ k.queryAns, a.1 ≠ j) →
        ∃ t, exec (.queryReplyArrival n) s = .next t ∧ t.cod.querying = true ∧ t.cod.queryAns = k.queryAns ++ [(parg p 1, parg p 2, 0)] ∧
          t.fab.outbox = s.fab.outbox)))

/-- 14 R367, R368: the coordinator takes a spare's request, or refuses it with its cause; a survivor streams its regions,
weighted; each block is XORed into the spare's region, and the spare becomes the member once every stream has ended; an
uncorrectable granule takes the value its peers give, a parity member's without what is staged for it (log entry 36). 14 R355 to
R358, R364, R371 to R374: what the coding engine does with the command it takes, or looks at again: each ends with its value,
fails with its cause, or waits, by the state of its member. -/
def Obligations.CodingRebuildCommands : Prop :=
  (∀ (s : State) (n pa : Nat) (p : Packet) (peers : List (List Byte)),
    let u := dropInbox s n
    let k := s.cod
    let leads := parityHere s = true ∧ k.coord = true
    (inboxAt s n .rebuild = none → exec (.rebuildRequestArrival n) s = .next s) ∧
    (inboxAt s n .rebuild = some p → parg p 0 ≠ 1 →
      let l := parg p 1
      let e := p.args.getD 2 0
      let taken := l ∉ k.lost ∨ ∃ b ∈ k.building, b.1 = l
      let refused (cause : Nat) : Prop := ∃ t q, exec (.rebuildRequestArrival n) s = .next t ∧ sends s t [q] ∧ q.dst = p.src ∧ q.kind = .rebuild ∧
        q.args = [1, w64 cause] ∧ t.cod = k
      (¬ leads → exec (.rebuildRequestArrival n) s = .next u) ∧ (leads → taken → refused 10) ∧ (leads → ¬ taken → clashes s e = true → refused 9) ∧
      (leads → ¬ taken → clashes s e = false → k.live.length < k.k → refused 11) ∧
      (leads → ¬ taken → clashes s e = false → k.k ≤ k.live.length → roundOpen s = true → exec (.rebuildRequestArrival n) s = .next s) ∧
      (leads → ¬ taken → clashes s e = false → k.k ≤ k.live.length → roundOpen s = false → ∃ t ps, exec (.rebuildRequestArrival n) s = .next t ∧
        t.cod.building = k.building ++ [(l, p.src)] ∧ sends s t ps ∧ ps.map (·.dst) = k.live.map (memberDev k) ++ [p.src] ∧ ∀ q ∈ ps, q.kind = .streamReq)) ∧
    (inboxAt s n .streamReq = none → exec (.survivorStreamRequest n) s = .next s) ∧
    (inboxAt s n .streamReq = some p →
      let l := parg p 0
      (k.cfg = false ∨ k.st = .fenced → exec (.survivorStreamRequest n) s = .next u) ∧
      (k.cfg = true → k.st ≠ .fenced → ∃ t, exec (.survivorStreamRequest n) s = .next t ∧ t.mem = s.mem ∧ mapGet 0 t.cod.entries l = p.args.getD 1 0 ∧
        (parg p 2 = s.devno → t.cod.rbld = some (l, parg p 3) ∧ t.cod.rbSurv = maskList (parg p 4) ∧ t.fab.outbox = s.fab.outbox) ∧
        (parg p 2 ≠ s.devno → k.self ∉ maskList (parg p 4) → t.fab.outbox = s.fab.outbox) ∧
        (∀ j, parg p 2 ≠ s.devno → (maskList (parg p 4)).idxOf? k.self = some j → ∃ ps, sends s t ps ∧
          ps.length = (k.regions.flatMap fun r => upTo (16 * r.2.pages.length)).length + 1 ∧ ∀ q ∈ ps, q.kind = .stream ∧ q.dst = parg p 2))) ∧
    (inboxAt s n .stream = none ∨ k.rbld = none → exec (.broomStreamBlock n) s = .next s) ∧
    (∀ l c, inboxAt s n .stream = some p → k.rbld = some (l, c) →
      (parg p 0 ≠ l → exec (.broomStreamBlock n) s = .next s) ∧
      (parg p 0 = l → parg p 4 = 1 → exec (.broomStreamBlock n) s = .next { u with cod := { k with rbDone := k.rbDone ++ [parg p 3] } }) ∧
      (∀ r, parg p 0 = l → parg p 4 ≠ 1 → mapFind k.regions (parg p 1) = some r → noneSpilled s →
        let a (i : Nat) := protPa s (parg p 1) (parg p 2 + i)
        ∃ t, exec (.broomStreamBlock n) s = .next t ∧
          ∀ x, memGet t.mem x = memGet (memPut s.mem ((upTo p.data.length).map fun i => (a i, memGet s.mem (a i) ^^^ p.data.getD i 0))) x)) ∧
    (s.fab.inbox.find? (fun p => p.kind == .rebuilt) = none →
      (k.rbld = none → exec .broomComplete s = .next s) ∧
      (∀ l c, k.rbld = some (l, c) →
        ((∃ i ∈ k.rbSurv, i ∉ k.rbDone) → exec .broomComplete s = .next s) ∧
        ((∀ i ∈ k.rbSurv, i ∈ k.rbDone) → noneWaits s → ∃ t, exec .broomComplete s = .next t ∧ t.cod.self = l ∧ t.cod.c = c ∧ t.cod.st = .idle ∧ t.cod.rbld = none ∧
          t.cod.role = roleOf k.k k.m l ∧ l ∈ t.cod.live ∧ l ∉ t.cod.lost ∧ t.mem = s.mem))) ∧
    (let g := pa / 64 * 64
     let value := rebuildBytes k (survivors k k.self) k.self peers 64
     let staged := k.stages.filter fun x => protPa s x.region x.off == g
     let bs := if k.role = 2 then staged.foldl (fun b x => List.zipWith (· ^^^ ·) b x.val) value else value
     let unread := staged.any fun x => stageGone s x
     (granBad s g = false ∨ repairable s g = false → exec (.granuleRepair pa peers) s = .next s) ∧
     (granBad s g = true → repairable s g = true → unread = true → ∃ t, exec (.granuleRepair pa peers) s = .next t ∧ t.cod.st = .fenced ∧ t.mem = s.mem) ∧
     (granBad s g = true → repairable s g = true → unread = false → ∃ t, exec (.granuleRepair pa peers) s = .next t ∧ t.mem = memPut s.mem (cellsAt g bs) ∧
       (∀ a ∈ t.poison, a / 64 ≠ g / 64) ∧ t.cod = { k with repairs := k.repairs + 1 }))) ∧
  (∀ (s : State) (die corr c : Nat) (k : Cmd) (peers : List (List Byte)),
    let e : Instr := .codingCommandStart die corr peers
    let cs := (upTo 128).map (128 * die + ·)
    let pick := rrPick s (classes s) (mapGet 511 s.cod.rr die) (cs.filter fun c => (codAt s c false).isSome)
    let noneGoing := ∀ d ∈ cs, codAt s d true = none
    let takes := noneGoing ∧ pick = some c ∧ codAt s c false = some k
    let again := c ∈ cs ∧ codAt s c true = some k ∧ cmdsOf s c 5 = [k] ∧ ∀ d ∈ cs, d ≠ c → headCmd s d 5 = none
    let m := s.cod
    let n := k.x1.toNat
    let next := m.c + 1
    let fail (cause : Nat) : Prop := ∃ t, exec e s = .next t ∧ fails s t c k cause 0 ∧ t.mem = s.mem ∧ t.cod.st = m.st ∧ t.cod.c = m.c
    let done (t : State) (v : W64) : Prop := exec e s = .next t ∧ completes s t c k 0 0 v
    let waits : Prop := ∃ t, exec e s = .next t ∧ (getCtx t c).res = (getCtx s c).res ∧ t.mem = s.mem ∧ t.cod.c = m.c
    (noneGoing → pick = none → exec e s = .next s) ∧
    (takes ∨ again → (getArch s c).phase ≠ .exiting → (resOf s c 5).length < 16 → (cmdsOf s c 5).filter (fun y => y.seq == k.seq) = [k] →
      (∀ f, k.instr = .kcfg f → k.prog = 0 →
        let r := k.aux.map (memGet s.mem)
        let free := m.cfg = false ∨ m.st = .fenced
        (holdsRead s k.aux = true → waits) ∧ (holdsRead s k.aux = false →
        (¬ free → fail 3) ∧ (free → recOk r = false → fail 7) ∧ (free → recOk r = true → recClash r = true → modBit f 80 = false → fail 9) ∧
        (free → recOk r = true → recClash r = false ∨ modBit f 80 = true → recSelf s r = none → fail 10) ∧
        (∀ i, free → recOk r = true → recClash r = false ∨ modBit f 80 = true → recSelf s r = some i → ∃ t q, exec e s = .next t ∧
          (getCtx t c).res = (getCtx s c).res ∧ t.mem = s.mem ∧ sends s t [q] ∧ q.dst = entDev (recEntry r (recK r)) ∧ q.kind = .config ∧
          t.cod.have_ = true ∧ t.cod.cfg = false ∧ t.cod.self = i ∧ t.cod.k = recK r ∧ t.cod.m = recM r ∧ t.cod.role = roleOf (recK r) (recM r) i))) ∧
      (∀ f, k.instr = .kprot f →
        (63 < n ∨ kprotSize k.x4 = false → fail 7) ∧ (n ≤ 63 → kprotSize k.x4 = true → m.cfg = false → fail 5) ∧
        (n ≤ 63 → kprotSize k.x4 = true → m.cfg = true → (mapFind m.regions n).isSome = true ∨ m.st ≠ .idle → fail 8) ∧
        (n ≤ 63 → kprotSize k.x4 = true → m.cfg = true → mapFind m.regions n = none → m.st = .idle → busyHome s k.aux = true → waits) ∧
        (n ≤ 63 → kprotSize k.x4 = true → m.cfg = true → mapFind m.regions n = none → m.st = .idle → busyHome s k.aux = false → m.waiting = [] → noneSpilled s →
          ∃ t, done t k.x4 ∧ mapFind t.cod.regions n = some ⟨k.aux⟩ ∧ (∀ a ∈ k.aux, ∀ i, i < 0x10000 → memGet t.mem (a + i) = 0) ∧
            ∀ x, (∀ a ∈ k.aux, x < a ∨ a + 0x10000 ≤ x) → memGet t.mem x = memGet s.mem x)) ∧
      (∀ f, k.instr = .kunpr f →
        let ok := m.st = .idle ∧ (∀ y ∈ m.stages, y.region ≠ n) ∧ (mapFind m.regions n).isSome = true
        (63 < n → fail 7) ∧ (n ≤ 63 → ¬ ok → fail 8) ∧
        (n ≤ 63 → ok → ∃ t, done t (w64 (n % 64)) ∧ t.cod.regions = mapDel m.regions n ∧ t.mem = s.mem)) ∧
      (∀ f, k.instr = .kopen f →
        let member := m.cfg = true ∧ m.st ≠ .fenced
        let lostData := ∃ i, i ∈ m.lost ++ m.building.map (·.1) ∧ i < m.k
        (¬ member → fail 5) ∧ (member → m.role ≠ 1 → fail 4) ∧ (member → m.role = 1 → m.st = .rollback → waits) ∧
        (member → m.role = 1 → m.st = .idle → n ≠ next → fail 2) ∧ (member → m.role = 1 → m.st = .idle → n = next → lostData → fail 3) ∧
        (member → m.role = 1 → m.st = .idle → n = next → ¬ lostData → ∃ t, done t k.x1 ∧ t.cod.st = .opened ∧ t.cod.journal = [] ∧ t.mem = s.mem) ∧
        (member → m.role = 1 → m.st ≠ .idle → m.st ≠ .rollback → fail 3)) ∧
      (∀ f, k.instr = .kprep f →
        let member := m.cfg = true ∧ m.st ≠ .fenced
        (¬ member → fail 5) ∧ (member → m.role ≠ 1 → fail 4) ∧
        (member → m.role = 1 → m.st = .opened ∨ m.st = .preparing ∨ m.st = .prepared → n ≠ next → fail 2) ∧
        (member → m.role = 1 → m.st = .opened → n = next → ∃ t ps, exec e s = .next t ∧ t.cod.st = .preparing ∧ (getCtx t c).res = (getCtx s c).res ∧ t.mem = s.mem ∧
          sends s t ps ∧ ps.length = 4 * (liveParity m).length ∧ ∀ q ∈ ps, q.kind = .mark) ∧
        (member → m.role = 1 → m.st = .preparing → n = next → waits) ∧
        (member → m.role = 1 → m.st = .prepared → n = next → ∃ t, done t k.x1 ∧ t.cod.st = .prepared) ∧
        (member → m.role = 1 → m.st = .idle ∨ m.st = .rollback → fail 3)) ∧
      (∀ f, k.instr = .kcomt f →
        (m.cfg = false → fail 5) ∧ (m.cfg = true → n ≤ m.c → ∃ t, done t k.x1) ∧ (m.cfg = true → m.c < n → m.st = .fenced → fail 5) ∧
        (m.cfg = true → m.c < n → m.st ≠ .fenced → m.role = 2 → waits) ∧ (m.cfg = true → m.c < n → m.st ≠ .fenced → m.role ≠ 1 → m.role ≠ 2 → fail 4) ∧
        (m.cfg = true → m.role = 1 → n = next → m.st = .opened ∨ m.st = .preparing ∨ m.st = .prepared → waits) ∧
        (m.cfg = true → m.role = 1 → m.c < n → n ≠ next ∨ m.st = .idle ∨ m.st = .rollback → m.st ≠ .fenced → fail 3)) ∧
      (∀ f, k.instr = .kabrt f → k.prog = 0 →
        let member := m.cfg = true ∧ m.st ≠ .fenced
        (¬ member → fail 5) ∧ (member → m.role ≠ 1 → m.role ≠ 2 → fail 4) ∧ (member → m.role = 1 ∨ m.role = 2 → n ≤ m.c → fail 6) ∧
        (member → m.role = 1 ∨ m.role = 2 → next < n → fail 2) ∧ (member → m.role = 1 ∨ m.role = 2 → n = next → waits)) ∧
      (∀ f, k.instr = .krbld f → (m.cfg = false ∨ m.st = .fenced → fail 5) ∧ (m.cfg = true → m.st ≠ .fenced → m.role ≠ 3 → fail 4) ∧
        (m.cfg = true → m.st ≠ .fenced → m.role = 3 → k.x1.getLsbD 5 = true ∨ n % 32 < m.k + m.m → waits)) ∧
      (∀ f, k.instr = .kscrb f → m.cfg = true → m.st ≠ .fenced →
        let off := k.x2.toNat
        let len := k.x3.toNat
        let form := n ≤ 63 ∧ off % 64 = 0 ∧ len % 64 = 0
        (¬ form → fail 7) ∧ (form → mapFind m.regions n = none → fail 8) ∧
        (∀ r, form → mapFind m.regions n = some r →
          (r.pages.length * 0x10000 < off + len → fail 7) ∧
          (off + len ≤ r.pages.length * 0x10000 → holdsRead s (scrubGrans s n off len) = true → waits) ∧
          (off + len ≤ r.pages.length * 0x10000 → holdsRead s (scrubGrans s n off len) = false → (∀ g ∈ scrubGrans s n off len, granBad s g = false) → modBit f 80 = false → ∃ t,
            done t (w64 (len / 64 + (k.aux.headD 0 + min corr (len / 64)) % 2 ^ 32 * 2 ^ 32)) ∧ t.mem = s.mem)))))

/-- 15 R384, R385: a context that has come to rest is saved: its image is written where the request says, the task is SAVED and
the context FREE; one that cannot be written is context-fatal, and one whose task ended fails. A direct access outstanding 2,000
cycles on becomes a late one, and its answer, or the lack of one, is written into its entry. 15 R388, R389: the first restore
that can go is made: a CTXRS whose image does not fit, or cannot be read, fails with CAUSE 3; one that fits is installed and
answered with the image's length; a task of the Derailleur's that does not fit is context-fatal. The image gives the pc, the
mode and the registers. -/
def Obligations.SaveAndRestore : Prop :=
  (∀ (s : State) (n tag c : Nat) (bad : Bool) (p : Packet),
    let runs (c : Nat) := (getArch s c).phase = .running ∨ (getArch s c).phase = .waiting
    let next := s.saveReqs.find? fun q => !((getArch s q.ctx).phase == .running || (getArch s q.ctx).phase == .waiting) || saveQuiet s q.ctx
    let byte (t : State) (a x : Nat) : Prop := memGet t.mem a = BitVec.ofNat 8 x
    (next = none → exec (.contextSave bad) s = .next s) ∧
    (∀ q, next = some q →
      (∀ b, runs q.ctx → (getCtx s q.ctx).bind = some b → wordsConfirmed s q.ctx = false → exec (.contextSave bad) s = .next (markSave s q.ctx)) ∧
      (¬ runs q.ctx → ∃ t, exec (.contextSave bad) s = .next t ∧ t.saveReqs = s.saveReqs.erase q ∧ t.mem = s.mem ∧ t.saved = s.saved) ∧
      (∀ b, runs q.ctx → (getCtx s q.ctx).bind = some b → s.cod.regions = [] → (∀ d, (getCommons s d).busy = false) → noneSpilled s → wordsConfirmed s q.ctx = true →
        (q.who ≠ byProgress → ∃ t bs, exec (.contextSave false) s = .next t ∧ t.mem = memPut s.mem (cellsAt q.image.toNat bs) ∧ bs.take 4 = leBytes 4 0x43580001 ∧
          (getArch t q.ctx).phase = .free ∧ (∃ v ∈ t.saved, v.bind = b ∧ v.image = q.image.toNat ∧ v.park = (getArch s q.ctx).park) ∧
          t.saveReqs = s.saveReqs.erase q) ∧
        (∃ t, exec (.contextSave true) s = .next t ∧ (getArch t q.ctx).phase = .halted ∧ t.mem = s.mem ∧ ∃ x g v, t.fatals = s.fatals ++ [(q.ctx, x, g, v)] ∧ x = 3))) ∧
    (s.saveReqs.find? (fun q => q.ctx == c) = none → exec (.lateAccessMark c) s = .next s) ∧
    (∀ q, s.saveReqs.find? (fun q => q.ctx == c) = some q →
      (ccyOf s c < q.cyc + 2000 → exec (.lateAccessMark c) s = .next s) ∧
      (q.cyc + 2000 ≤ ccyOf s c → (∀ h ∈ (getCore s (coreOf c)).held, h.ctx ≠ c) → ∃ t, exec (.lateAccessMark c) s = .next t ∧ t.mem = s.mem ∧
        ∀ d ∈ t.fab.dirs, d.ctx = c → dirOpen d = false)) ∧
    (s.fab.inbox[n]? = none → exec (.lateReplyArrival n) s = .next s) ∧
    (s.fab.inbox[n]? = some p →
      let mine (d : Direct) : Bool := d.tag == p.tag && d.peer == p.src && d.st == .sent && (latePlace d).isSome
      (s.fab.dirs.find? mine = none → exec (.lateReplyArrival n) s = .next s) ∧
      (∀ d pa, s.fab.dirs.find? mine = some d → latePlace d = some pa → holdsWrite s ((upTo 192).map fun i => pa + i) = false → s.cod.regions = [] → noneSpilled s →
        (p.kind = .refuse → ∃ t, exec (.lateReplyArrival n) s = .next t ∧ byte t pa 3 ∧ byte t (pa + 1) (p.args.headD 0).toNat ∧
          (∀ e ∈ t.fab.dirs, e.id ≠ d.id) ∧ ∀ a, a < pa ∨ pa + 2 ≤ a → memGet t.mem a = memGet s.mem a) ∧
        (p.kind = .reply → ∃ t, exec (.lateReplyArrival n) s = .next t ∧ byte t pa 2 ∧ byte t (pa + 1) 0 ∧ (∀ e ∈ t.fab.dirs, e.id ≠ d.id) ∧
          (∀ i, i < 128 → i < p.data.length → memGet t.mem (pa + 0x40 + i) = p.data.getD i 0) ∧
          ∀ a, a < pa ∨ pa + 192 ≤ a → memGet t.mem a = memGet s.mem a))) ∧
    (let due (d : Direct) : Bool := d.tag == tag && d.st == .sent && (latePlace d).isSome && overdue s d.ctx d.cyc
     (s.fab.dirs.find? due = none → exec (.lateAccessTimeout tag) s = .next s) ∧
     (∀ d pa, s.fab.dirs.find? due = some d → latePlace d = some pa → holdsWrite s ((upTo 192).map fun i => pa + i) = false → s.cod.regions = [] → noneSpilled s →
       ∃ t, exec (.lateAccessTimeout tag) s = .next t ∧ byte t pa 3 ∧ byte t (pa + 1) 2 ∧ (∀ e ∈ t.fab.dirs, e.id ≠ d.id) ∧
         ∀ a, a < pa ∨ pa + 2 ≤ a → memGet t.mem a = memGet s.mem a))) ∧
  (∀ (s : State) (bad : Bool),
    (s.restoreReqs.findSome? (restoreAsked s bad) = none → (restoreOrder s).findSome? (restoreOwn s bad) = none → exec (.contextRestore bad) s = .next s) ∧
    (∀ c serial seq a rest, s.restoreReqs = (c, serial, seq, a) :: rest →
      let u : State := { s with restoreReqs := rest }
      let m := imageAt s a.toNat
      imageBusy s m = false →
      (bad = true ∨ imageFits s (coreOf c) m = none → exec (.contextRestore bad) s = .next (qdFree u serial seq 3 c)) ∧
      (∀ v r w t, imageFits s (coreOf c) m = some (v, r, w) → lateWaits s m = false → withheldAt s c = false →
        restoreInto u c m v r w = some t → exec (.contextRestore false) s = .next (qdElem t serial seq 0 0 c (w64 m.len)
          (readHome s ((upTo m.len).map fun i => m.at_ + i)).2))) ∧
    (∀ v rest c w, s.restoreReqs = [] → restoreOrder s = v :: rest → restoreCtx s v = some (c, w) →
      let m := imageAt s v.image
      imageBusy s m = false → starvedAt s c = false →
      (bad = true ∨ lateWaits s m = false ∧ imageFits s (coreOf c) m = none → exec (.contextRestore bad) s = .next (restoreFails s c w v) ∧
        (getArch (restoreFails s c w v) c).phase = .halted ∧ ∃ g x, (restoreFails s c w v).fatals = s.fatals ++ [(c, 4, g, x)]) ∧
      (∀ x r w t, lateWaits s m = false → imageFits s (coreOf c) m = some (some x, r, w) → x.bind.serial = v.bind.serial →
        restoreInto s c m (some x) r w = some t → exec (.contextRestore false) s = .next t)) ∧
    (∀ c v r w m, secLen m 6 = 0 →
      let a := getArch (installTask s c m v r w) c
      let regs := secOf s m 0
      a.pc = m.pc ∧ a.mode = m.flags.testBit 3 ∧ a.phase = .running ∧ (∀ i, i < 64 → rdS a i = w64 (leAt regs (8 * i) 8)) ∧
        (∀ i, i < 8 → rdM a i = w64 (leAt regs (8704 + 8 * i) 8)) ∧ (∀ i, i < 32 → rdV a i = BitVec.ofNat 2048 (leAt regs (512 + 256 * i) 256)) ∧
        (∀ i, 0 < i → i < 16 → rdP a i = (leAt regs 8768 8).testBit i)))
end

