-- ==== Sys2Proof/Laws/State.lean ====
section
/-!
SUPPORT. Laws/State.lean: what each named update of the state leaves as it was, field by field, and reading back what it
wrote; reads and writes of sparse data by key.
-/
namespace Sys2Proof.Machine
open Sys2Proof

/-! Sparse data. -/

@[simp] theorem mapGet_nil {α : Type} (d : α) (k : Nat) : mapGet d [] k = d := rfl

theorem mapGet_cons {α : Type} (d : α) (j : Nat) (x : α) (m : Map α) (k : Nat) :
    mapGet d ((j, x) :: m) k = if j = k then x else mapGet d m k := rfl

@[simp] theorem mapGet_mapSet_self {α : Type} (d : α) (m : Map α) (k : Nat) (v : α) : mapGet d (mapSet m k v) k = v := by
  induction m with
  | nil => simp [mapSet, mapGet]
  | cons p t ih => obtain ⟨j, x⟩ := p; simp only [mapSet]; split <;> simp_all [mapGet]; split <;> simp_all [mapGet]

theorem mapGet_mapSet_ne {α : Type} (d : α) (m : Map α) {k j : Nat} (v : α) (h : j ≠ k) :
    mapGet d (mapSet m k v) j = mapGet d m j := by
  induction m with
  | nil => simp [mapSet, mapGet, h.symm]
  | cons p t ih =>
    obtain ⟨i, x⟩ := p
    simp only [mapSet]
    split
    · simp [mapGet, h.symm]
    · split
      · subst_vars; simp [mapGet, h.symm]
      · simp only [mapGet, ih]

/-- A read after a write: the value written at its key, elsewhere what was there. -/
theorem mapGet_mapSet {α : Type} (d : α) (m : Map α) (k j : Nat) (v : α) :
    mapGet d (mapSet m k v) j = if j = k then v else mapGet d m j := by
  by_cases h : j = k
  · simp [h]
  · simp [h, mapGet_mapSet_ne]

theorem mapFind_mapSet_self {α : Type} (m : Map α) (k : Nat) (v : α) : mapFind (mapSet m k v) k = some v := by
  induction m with
  | nil => simp [mapSet, mapFind]
  | cons p t ih => obtain ⟨j, x⟩ := p; simp only [mapSet]; split <;> simp_all [mapFind]; split <;> simp_all [mapFind]

theorem mapFind_mapSet_ne {α : Type} (m : Map α) {k j : Nat} (v : α) (h : j ≠ k) : mapFind (mapSet m k v) j = mapFind m j := by
  induction m with
  | nil => simp [mapSet, mapFind, h.symm]
  | cons p t ih =>
    obtain ⟨i, x⟩ := p
    simp only [mapSet]
    split
    · simp [mapFind, h.symm]
    · split
      · subst_vars; simp [mapFind, h.symm]
      · simp only [mapFind, ih]

/-! updCtx. -/

section
variable (s : State) (c : Nat) (f : Ctx → Ctx)
@[simp] theorem updCtx_agenda : (updCtx s c f).agenda = s.agenda := rfl
@[simp] theorem updCtx_cur : (updCtx s c f).cur = s.cur := rfl
@[simp] theorem updCtx_gts : (updCtx s c f).gts = s.gts := rfl
@[simp] theorem updCtx_gtsstat : (updCtx s c f).gtsstat = s.gtsstat := rfl
@[simp] theorem updCtx_gtsFrac : (updCtx s c f).gtsFrac = s.gtsFrac := rfl
@[simp] theorem updCtx_devno : (updCtx s c f).devno = s.devno := rfl
@[simp] theorem updCtx_mem : (updCtx s c f).mem = s.mem := rfl
@[simp] theorem updCtx_memStamp : (updCtx s c f).memStamp = s.memStamp := rfl
@[simp] theorem updCtx_poison : (updCtx s c f).poison = s.poison := rfl
@[simp] theorem updCtx_poisonTab : (updCtx s c f).poisonTab = s.poisonTab := rfl
@[simp] theorem updCtx_scratch : (updCtx s c f).scratch = s.scratch := rfl
@[simp] theorem updCtx_tiles : (updCtx s c f).tiles = s.tiles := rfl
@[simp] theorem updCtx_cores : (updCtx s c f).cores = s.cores := rfl
@[simp] theorem updCtx_clusters : (updCtx s c f).clusters = s.clusters := rfl
@[simp] theorem updCtx_accs : (updCtx s c f).accs = s.accs := rfl
@[simp] theorem updCtx_nextId : (updCtx s c f).nextId = s.nextId := rfl
@[simp] theorem updCtx_wseq : (updCtx s c f).wseq = s.wseq := rfl
@[simp] theorem updCtx_llc : (updCtx s c f).llc = s.llc := rfl
@[simp] theorem updCtx_hbm : (updCtx s c f).hbm = s.hbm := rfl
@[simp] theorem updCtx_commons : (updCtx s c f).commons = s.commons := rfl
@[simp] theorem updCtx_watches : (updCtx s c f).watches = s.watches := rfl
@[simp] theorem updCtx_locks : (updCtx s c f).locks = s.locks := rfl
@[simp] theorem updCtx_asks : (updCtx s c f).asks = s.asks := rfl
@[simp] theorem updCtx_walker : (updCtx s c f).walker = s.walker := rfl
@[simp] theorem updCtx_regions : (updCtx s c f).regions = s.regions := rfl
@[simp] theorem updCtx_nests : (updCtx s c f).nests = s.nests := rfl
@[simp] theorem updCtx_nextNest : (updCtx s c f).nextNest = s.nextNest := rfl
@[simp] theorem updCtx_accepts : (updCtx s c f).accepts = s.accepts := rfl
@[simp] theorem updCtx_serial : (updCtx s c f).serial = s.serial := rfl
@[simp] theorem updCtx_saved : (updCtx s c f).saved = s.saved := rfl
@[simp] theorem updCtx_withheld : (updCtx s c f).withheld = s.withheld := rfl
@[simp] theorem updCtx_freeCnt : (updCtx s c f).freeCnt = s.freeCnt := rfl
@[simp] theorem updCtx_fatals : (updCtx s c f).fatals = s.fatals := rfl
@[simp] theorem updCtx_saveReqs : (updCtx s c f).saveReqs = s.saveReqs := rfl
@[simp] theorem updCtx_restoreReqs : (updCtx s c f).restoreReqs = s.restoreReqs := rfl
@[simp] theorem updCtx_qdOwed : (updCtx s c f).qdOwed = s.qdOwed := rfl
@[simp] theorem updCtx_fab : (updCtx s c f).fab = s.fab := rfl
@[simp] theorem updCtx_cod : (updCtx s c f).cod = s.cod := rfl
@[simp] theorem updCtx_mgt : (updCtx s c f).mgt = s.mgt := rfl
end

/-! updArch. -/

section
variable (s : State) (c : Nat) (f : Arch → Arch)
@[simp] theorem updArch_agenda : (updArch s c f).agenda = s.agenda := rfl
@[simp] theorem updArch_cur : (updArch s c f).cur = s.cur := rfl
@[simp] theorem updArch_gts : (updArch s c f).gts = s.gts := rfl
@[simp] theorem updArch_gtsstat : (updArch s c f).gtsstat = s.gtsstat := rfl
@[simp] theorem updArch_gtsFrac : (updArch s c f).gtsFrac = s.gtsFrac := rfl
@[simp] theorem updArch_devno : (updArch s c f).devno = s.devno := rfl
@[simp] theorem updArch_mem : (updArch s c f).mem = s.mem := rfl
@[simp] theorem updArch_memStamp : (updArch s c f).memStamp = s.memStamp := rfl
@[simp] theorem updArch_poison : (updArch s c f).poison = s.poison := rfl
@[simp] theorem updArch_poisonTab : (updArch s c f).poisonTab = s.poisonTab := rfl
@[simp] theorem updArch_scratch : (updArch s c f).scratch = s.scratch := rfl
@[simp] theorem updArch_tiles : (updArch s c f).tiles = s.tiles := rfl
@[simp] theorem updArch_cores : (updArch s c f).cores = s.cores := rfl
@[simp] theorem updArch_clusters : (updArch s c f).clusters = s.clusters := rfl
@[simp] theorem updArch_accs : (updArch s c f).accs = s.accs := rfl
@[simp] theorem updArch_nextId : (updArch s c f).nextId = s.nextId := rfl
@[simp] theorem updArch_wseq : (updArch s c f).wseq = s.wseq := rfl
@[simp] theorem updArch_llc : (updArch s c f).llc = s.llc := rfl
@[simp] theorem updArch_hbm : (updArch s c f).hbm = s.hbm := rfl
@[simp] theorem updArch_commons : (updArch s c f).commons = s.commons := rfl
@[simp] theorem updArch_watches : (updArch s c f).watches = s.watches := rfl
@[simp] theorem updArch_locks : (updArch s c f).locks = s.locks := rfl
@[simp] theorem updArch_asks : (updArch s c f).asks = s.asks := rfl
@[simp] theorem updArch_walker : (updArch s c f).walker = s.walker := rfl
@[simp] theorem updArch_regions : (updArch s c f).regions = s.regions := rfl
@[simp] theorem updArch_nests : (updArch s c f).nests = s.nests := rfl
@[simp] theorem updArch_nextNest : (updArch s c f).nextNest = s.nextNest := rfl
@[simp] theorem updArch_accepts : (updArch s c f).accepts = s.accepts := rfl
@[simp] theorem updArch_serial : (updArch s c f).serial = s.serial := rfl
@[simp] theorem updArch_saved : (updArch s c f).saved = s.saved := rfl
@[simp] theorem updArch_withheld : (updArch s c f).withheld = s.withheld := rfl
@[simp] theorem updArch_freeCnt : (updArch s c f).freeCnt = s.freeCnt := rfl
@[simp] theorem updArch_fatals : (updArch s c f).fatals = s.fatals := rfl
@[simp] theorem updArch_saveReqs : (updArch s c f).saveReqs = s.saveReqs := rfl
@[simp] theorem updArch_restoreReqs : (updArch s c f).restoreReqs = s.restoreReqs := rfl
@[simp] theorem updArch_qdOwed : (updArch s c f).qdOwed = s.qdOwed := rfl
@[simp] theorem updArch_fab : (updArch s c f).fab = s.fab := rfl
@[simp] theorem updArch_cod : (updArch s c f).cod = s.cod := rfl
@[simp] theorem updArch_mgt : (updArch s c f).mgt = s.mgt := rfl
end

/-! updCore. -/

section
variable (s : State) (k : Nat) (f : Core → Core)
@[simp] theorem updCore_agenda : (updCore s k f).agenda = s.agenda := rfl
@[simp] theorem updCore_cur : (updCore s k f).cur = s.cur := rfl
@[simp] theorem updCore_gts : (updCore s k f).gts = s.gts := rfl
@[simp] theorem updCore_gtsstat : (updCore s k f).gtsstat = s.gtsstat := rfl
@[simp] theorem updCore_gtsFrac : (updCore s k f).gtsFrac = s.gtsFrac := rfl
@[simp] theorem updCore_devno : (updCore s k f).devno = s.devno := rfl
@[simp] theorem updCore_mem : (updCore s k f).mem = s.mem := rfl
@[simp] theorem updCore_memStamp : (updCore s k f).memStamp = s.memStamp := rfl
@[simp] theorem updCore_poison : (updCore s k f).poison = s.poison := rfl
@[simp] theorem updCore_poisonTab : (updCore s k f).poisonTab = s.poisonTab := rfl
@[simp] theorem updCore_scratch : (updCore s k f).scratch = s.scratch := rfl
@[simp] theorem updCore_tiles : (updCore s k f).tiles = s.tiles := rfl
@[simp] theorem updCore_ctxs : (updCore s k f).ctxs = s.ctxs := rfl
@[simp] theorem updCore_clusters : (updCore s k f).clusters = s.clusters := rfl
@[simp] theorem updCore_accs : (updCore s k f).accs = s.accs := rfl
@[simp] theorem updCore_nextId : (updCore s k f).nextId = s.nextId := rfl
@[simp] theorem updCore_wseq : (updCore s k f).wseq = s.wseq := rfl
@[simp] theorem updCore_llc : (updCore s k f).llc = s.llc := rfl
@[simp] theorem updCore_hbm : (updCore s k f).hbm = s.hbm := rfl
@[simp] theorem updCore_commons : (updCore s k f).commons = s.commons := rfl
@[simp] theorem updCore_watches : (updCore s k f).watches = s.watches := rfl
@[simp] theorem updCore_locks : (updCore s k f).locks = s.locks := rfl
@[simp] theorem updCore_asks : (updCore s k f).asks = s.asks := rfl
@[simp] theorem updCore_walker : (updCore s k f).walker = s.walker := rfl
@[simp] theorem updCore_regions : (updCore s k f).regions = s.regions := rfl
@[simp] theorem updCore_nests : (updCore s k f).nests = s.nests := rfl
@[simp] theorem updCore_nextNest : (updCore s k f).nextNest = s.nextNest := rfl
@[simp] theorem updCore_accepts : (updCore s k f).accepts = s.accepts := rfl
@[simp] theorem updCore_serial : (updCore s k f).serial = s.serial := rfl
@[simp] theorem updCore_saved : (updCore s k f).saved = s.saved := rfl
@[simp] theorem updCore_withheld : (updCore s k f).withheld = s.withheld := rfl
@[simp] theorem updCore_freeCnt : (updCore s k f).freeCnt = s.freeCnt := rfl
@[simp] theorem updCore_fatals : (updCore s k f).fatals = s.fatals := rfl
@[simp] theorem updCore_saveReqs : (updCore s k f).saveReqs = s.saveReqs := rfl
@[simp] theorem updCore_restoreReqs : (updCore s k f).restoreReqs = s.restoreReqs := rfl
@[simp] theorem updCore_qdOwed : (updCore s k f).qdOwed = s.qdOwed := rfl
@[simp] theorem updCore_fab : (updCore s k f).fab = s.fab := rfl
@[simp] theorem updCore_cod : (updCore s k f).cod = s.cod := rfl
@[simp] theorem updCore_mgt : (updCore s k f).mgt = s.mgt := rfl
end

/-! updCluster. -/

section
variable (s : State) (k : Nat) (f : Cluster → Cluster)
@[simp] theorem updCluster_agenda : (updCluster s k f).agenda = s.agenda := rfl
@[simp] theorem updCluster_cur : (updCluster s k f).cur = s.cur := rfl
@[simp] theorem updCluster_gts : (updCluster s k f).gts = s.gts := rfl
@[simp] theorem updCluster_gtsstat : (updCluster s k f).gtsstat = s.gtsstat := rfl
@[simp] theorem updCluster_gtsFrac : (updCluster s k f).gtsFrac = s.gtsFrac := rfl
@[simp] theorem updCluster_devno : (updCluster s k f).devno = s.devno := rfl
@[simp] theorem updCluster_mem : (updCluster s k f).mem = s.mem := rfl
@[simp] theorem updCluster_memStamp : (updCluster s k f).memStamp = s.memStamp := rfl
@[simp] theorem updCluster_poison : (updCluster s k f).poison = s.poison := rfl
@[simp] theorem updCluster_poisonTab : (updCluster s k f).poisonTab = s.poisonTab := rfl
@[simp] theorem updCluster_scratch : (updCluster s k f).scratch = s.scratch := rfl
@[simp] theorem updCluster_tiles : (updCluster s k f).tiles = s.tiles := rfl
@[simp] theorem updCluster_ctxs : (updCluster s k f).ctxs = s.ctxs := rfl
@[simp] theorem updCluster_cores : (updCluster s k f).cores = s.cores := rfl
@[simp] theorem updCluster_accs : (updCluster s k f).accs = s.accs := rfl
@[simp] theorem updCluster_nextId : (updCluster s k f).nextId = s.nextId := rfl
@[simp] theorem updCluster_wseq : (updCluster s k f).wseq = s.wseq := rfl
@[simp] theorem updCluster_llc : (updCluster s k f).llc = s.llc := rfl
@[simp] theorem updCluster_hbm : (updCluster s k f).hbm = s.hbm := rfl
@[simp] theorem updCluster_commons : (updCluster s k f).commons = s.commons := rfl
@[simp] theorem updCluster_watches : (updCluster s k f).watches = s.watches := rfl
@[simp] theorem updCluster_locks : (updCluster s k f).locks = s.locks := rfl
@[simp] theorem updCluster_asks : (updCluster s k f).asks = s.asks := rfl
@[simp] theorem updCluster_walker : (updCluster s k f).walker = s.walker := rfl
@[simp] theorem updCluster_regions : (updCluster s k f).regions = s.regions := rfl
@[simp] theorem updCluster_nests : (updCluster s k f).nests = s.nests := rfl
@[simp] theorem updCluster_nextNest : (updCluster s k f).nextNest = s.nextNest := rfl
@[simp] theorem updCluster_accepts : (updCluster s k f).accepts = s.accepts := rfl
@[simp] theorem updCluster_serial : (updCluster s k f).serial = s.serial := rfl
@[simp] theorem updCluster_saved : (updCluster s k f).saved = s.saved := rfl
@[simp] theorem updCluster_withheld : (updCluster s k f).withheld = s.withheld := rfl
@[simp] theorem updCluster_freeCnt : (updCluster s k f).freeCnt = s.freeCnt := rfl
@[simp] theorem updCluster_fatals : (updCluster s k f).fatals = s.fatals := rfl
@[simp] theorem updCluster_saveReqs : (updCluster s k f).saveReqs = s.saveReqs := rfl
@[simp] theorem updCluster_restoreReqs : (updCluster s k f).restoreReqs = s.restoreReqs := rfl
@[simp] theorem updCluster_qdOwed : (updCluster s k f).qdOwed = s.qdOwed := rfl
@[simp] theorem updCluster_fab : (updCluster s k f).fab = s.fab := rfl
@[simp] theorem updCluster_cod : (updCluster s k f).cod = s.cod := rfl
@[simp] theorem updCluster_mgt : (updCluster s k f).mgt = s.mgt := rfl
end

/-! Reading back. -/

@[simp] theorem getCtx_updCtx (s : State) (c : Nat) (f : Ctx → Ctx) : getCtx (updCtx s c f) c = f (getCtx s c) := by
  simp [getCtx, updCtx]
theorem getCtx_updCtx_ne (s : State) {c d : Nat} (f : Ctx → Ctx) (h : d ≠ c) : getCtx (updCtx s c f) d = getCtx s d := by
  simp [getCtx, updCtx, mapGet_mapSet_ne _ _ _ h]
@[simp] theorem getArch_updArch (s : State) (c : Nat) (f : Arch → Arch) : getArch (updArch s c f) c = f (getArch s c) := by
  simp [getArch, updArch]
@[simp] theorem getCtx_updArch (s : State) (c : Nat) (f : Arch → Arch) :
    getCtx (updArch s c f) c = { getCtx s c with arch := f (getArch s c) } := by
  simp [getArch, updArch]
theorem getCtx_updArch_ne (s : State) {c d : Nat} (f : Arch → Arch) (h : d ≠ c) : getCtx (updArch s c f) d = getCtx s d := by
  simp [updArch, getCtx_updCtx_ne s _ h]
@[simp] theorem getArch_updCtx (s : State) (c : Nat) (f : Ctx → Ctx) : getArch (updCtx s c f) c = (f (getCtx s c)).arch := by
  simp [getArch]
@[simp] theorem getCtx_updCore (s : State) (k c : Nat) (f : Core → Core) : getCtx (updCore s k f) c = getCtx s c := rfl
@[simp] theorem getArch_updCore (s : State) (k c : Nat) (f : Core → Core) : getArch (updCore s k f) c = getArch s c := rfl
@[simp] theorem getCtx_updCluster (s : State) (k c : Nat) (f : Cluster → Cluster) : getCtx (updCluster s k f) c = getCtx s c := rfl
@[simp] theorem getArch_updCluster (s : State) (k c : Nat) (f : Cluster → Cluster) : getArch (updCluster s k f) c = getArch s c := rfl
@[simp] theorem getCore_updCore (s : State) (k : Nat) (f : Core → Core) : getCore (updCore s k f) k = f (getCore s k) := by
  simp [getCore, updCore]
theorem getCore_updCore_ne (s : State) {k j : Nat} (f : Core → Core) (h : j ≠ k) : getCore (updCore s k f) j = getCore s j := by
  simp [getCore, updCore, mapGet_mapSet_ne _ _ _ h]
@[simp] theorem getCore_updCtx (s : State) (c k : Nat) (f : Ctx → Ctx) : getCore (updCtx s c f) k = getCore s k := rfl
@[simp] theorem getCore_updArch (s : State) (c k : Nat) (f : Arch → Arch) : getCore (updArch s c f) k = getCore s k := rfl
@[simp] theorem getCore_updCluster (s : State) (c k : Nat) (f : Cluster → Cluster) : getCore (updCluster s c f) k = getCore s k := rfl
@[simp] theorem getCluster_updCluster (s : State) (k : Nat) (f : Cluster → Cluster) :
    getCluster (updCluster s k f) k = f (getCluster s k) := by
  simp [getCluster, updCluster]
theorem getCluster_updCluster_ne (s : State) {k j : Nat} (f : Cluster → Cluster) (h : j ≠ k) :
    getCluster (updCluster s k f) j = getCluster s j := by
  simp [getCluster, updCluster, mapGet_mapSet_ne _ _ _ h]
@[simp] theorem getCluster_updCtx (s : State) (c k : Nat) (f : Ctx → Ctx) : getCluster (updCtx s c f) k = getCluster s k := rfl
@[simp] theorem getCluster_updArch (s : State) (c k : Nat) (f : Arch → Arch) : getCluster (updArch s c f) k = getCluster s k := rfl
@[simp] theorem getCluster_updCore (s : State) (c k : Nat) (f : Core → Core) : getCluster (updCore s c f) k = getCluster s k := rfl
@[simp] theorem ccyOf_updCtx (s : State) (c d : Nat) (f : Ctx → Ctx) : ccyOf (updCtx s c f) d = ccyOf s d := rfl
@[simp] theorem ccyOf_updArch (s : State) (c d : Nat) (f : Arch → Arch) : ccyOf (updArch s c f) d = ccyOf s d := rfl
@[simp] theorem ccyOf_updCore (s : State) (c d : Nat) (f : Core → Core) : ccyOf (updCore s c f) d = ccyOf s d := rfl

end Sys2Proof.Machine
end

