-- ==== Sys2Proof/Laws/Memory.lean ====
section
/-!
SUPPORT. Laws/Memory.lean: reading memory after writing it, and the canonical form that every memory operation keeps.
-/
namespace Sys2Proof.Machine
open Sys2Proof

theorem mapGet_mapDel {α : Type} (d : α) (m : Map α) (k j : Nat) : mapGet d (mapDel m k) j = if j = k then d else mapGet d m j := by
  induction m with
  | nil => simp [mapDel, mapGet]
  | cons p t ih =>
    obtain ⟨i, x⟩ := p
    by_cases h : i = k
    · subst h
      have : mapDel ((i, x) :: t) i = mapDel t i := by simp [mapDel]
      rw [this, ih]
      by_cases hj : j = i
      · simp [hj]
      · simp [hj, mapGet_cons, Ne.symm hj]
    · have : mapDel ((i, x) :: t) k = (i, x) :: mapDel t k := by simp [mapDel, h]
      rw [this, mapGet_cons, mapGet_cons, ih]
      by_cases hj : i = j
      · subst hj; simp [h]
      · simp [hj]

/-- A byte read after a byte written: the byte at its address, elsewhere what was there. -/
theorem memGet_memSet (m : List Host.Cell) (a : Nat) (b : Byte) (x : Nat) :
    memGet (memSet m a b) x = if x = a then b else memGet m x := by
  unfold memGet memSet
  split
  · rename_i h; subst h; exact mapGet_mapDel ..
  · exact mapGet_mapSet ..

@[simp] theorem memGet_memSet_self (m : List Host.Cell) (a : Nat) (b : Byte) : memGet (memSet m a b) a = b := by
  simp [memGet_memSet]

theorem memGet_memSet_ne (m : List Host.Cell) {a x : Nat} (b : Byte) (h : x ≠ a) : memGet (memSet m a b) x = memGet m x := by
  simp [memGet_memSet, h]

/-- A store changes no byte outside the cells it writes. -/
theorem memGet_memPut_out (m : List Host.Cell) (cells : List (Nat × Byte)) {x : Nat} (h : ∀ p ∈ cells, p.1 ≠ x) :
    memGet (memPut m cells) x = memGet m x := by
  induction cells generalizing m with
  | nil => rfl
  | cons p t ih =>
    obtain ⟨a, b⟩ := p
    rw [memPut, ih _ (fun q hq => h q (List.mem_cons_of_mem _ hq)), memGet_memSet_ne]
    exact (h (a, b) List.mem_cons_self).symm

/-- The form by its neighbours: every listed byte is not zero, and each address lies below the next. -/
theorem memWf_cons (j : Nat) (x : Byte) (t : List Host.Cell) :
    memWf ((j, x) :: t) = (x != 0 && (t.head?.all fun p => decide (j < p.1)) && memWf t) := by
  cases t with
  | nil => simp [memWf]
  | cons p t => obtain ⟨k, y⟩ := p; simp [memWf]

theorem head_mapSet (m : List Host.Cell) (k i : Nat) (v : Byte) (hi : i < k) (h : (m.head?.all fun p => decide (i < p.1)) = true) :
    ((mapSet m k v).head?.all fun p => decide (i < p.1)) = true := by
  cases m with
  | nil => simpa [mapSet] using hi
  | cons p t =>
    obtain ⟨j, x⟩ := p
    simp only [mapSet]
    split
    · simpa using hi
    · split <;> simp_all

theorem mapSet_wf (m : List Host.Cell) (k : Nat) (v : Byte) (hv : v ≠ 0) (h : memWf m = true) : memWf (mapSet m k v) = true := by
  induction m with
  | nil => simpa [mapSet, memWf] using hv
  | cons p t ih =>
    obtain ⟨j, x⟩ := p
    rw [memWf_cons] at h
    simp only [Bool.and_eq_true] at h
    obtain ⟨⟨hx, hh⟩, ht⟩ := h
    simp only [mapSet]
    split
    · rename_i hk
      rw [memWf_cons, memWf_cons]
      simp_all
    · split
      · rename_i hk hj
        subst hj
        rw [memWf_cons]
        simp_all
      · rename_i hk hj
        rw [memWf_cons]
        simp only [Bool.and_eq_true]
        exact ⟨⟨hx, head_mapSet t k j v (by omega) hh⟩, ih ht⟩

theorem head_filter (m : List Host.Cell) (q : Host.Cell → Bool) (i : Nat) (hm : memWf m = true)
    (h : (m.head?.all fun p => decide (i < p.1)) = true) : ((m.filter q).head?.all fun p => decide (i < p.1)) = true := by
  induction m generalizing i with
  | nil => rfl
  | cons p t ih =>
    obtain ⟨j, x⟩ := p
    rw [memWf_cons] at hm
    simp only [Bool.and_eq_true] at hm
    obtain ⟨⟨_, hh⟩, ht⟩ := hm
    simp only [List.head?_cons, Option.all_some, decide_eq_true_eq] at h
    simp only [List.filter_cons]
    split
    · simpa using h
    · apply ih _ ht
      cases t with
      | nil => rfl
      | cons r u => simp at hh ⊢; omega

/-- Dropping cells keeps the canonical form. -/
theorem filter_wf (m : List Host.Cell) (q : Host.Cell → Bool) (h : memWf m = true) : memWf (m.filter q) = true := by
  induction m with
  | nil => rfl
  | cons p t ih =>
    obtain ⟨j, x⟩ := p
    rw [memWf_cons] at h
    simp only [Bool.and_eq_true] at h
    obtain ⟨⟨hx, hh⟩, ht⟩ := h
    simp only [List.filter_cons]
    split
    · rw [memWf_cons]
      simp only [Bool.and_eq_true]
      exact ⟨⟨hx, head_filter t q j ht hh⟩, ih ht⟩
    · exact ih ht

/-- Writing a byte keeps the canonical form. -/
theorem memSet_wf (m : List Host.Cell) (a : Nat) (b : Byte) (h : memWf m = true) : memWf (memSet m a b) = true := by
  unfold memSet
  split
  · exact filter_wf _ _ h
  · exact mapSet_wf _ _ _ ‹_› h

/-- Writing bytes keeps the canonical form. -/
theorem memPut_wf (m : List Host.Cell) (cells : List (Nat × Byte)) (h : memWf m = true) : memWf (memPut m cells) = true := by
  induction cells generalizing m with
  | nil => exact h
  | cons p t ih => obtain ⟨a, b⟩ := p; exact ih _ (memSet_wf _ _ _ h)

theorem memPutNat_wf (m : List Host.Cell) (a n x : Nat) (h : memWf m = true) : memWf (memPutNat m a n x) = true := memPut_wf _ _ h

theorem reset_mem_wf : memWf State.reset.mem = true := rfl

@[simp] theorem memRead_length (m : List Host.Cell) (a n : Nat) : (memRead m a n).length = n := by
  induction n generalizing a with
  | zero => rfl
  | succ n ih => simp [memRead, ih]

@[simp] theorem leBytes_length (n x : Nat) : (leBytes n x).length = n := by
  induction n generalizing x with
  | zero => rfl
  | succ n ih => simp [leBytes, ih]

/-- The number a little-endian spelling stands for. -/
theorem leNat_leBytes (n x : Nat) : leNat (leBytes n x) = x % 256 ^ n := by
  induction n generalizing x with
  | zero => simp [leBytes, leNat, Nat.mod_one]
  | succ n ih =>
    simp only [leBytes, leNat, ih, BitVec.toNat_ofNat]
    show x % 256 + 256 * (x / 256 % 256 ^ n) = _
    rw [Nat.pow_succ', Nat.mod_mul]

end Sys2Proof.Machine
end

