-- ==== Sys2Proof/Laws/Words.lean ====
section
/-!
SUPPORT. Laws/Words.lean: what the shared path of the instruction words does: which case it takes, and what a word that leaves
its issue slot changes beside its own effect.
-/
namespace Sys2Proof.Machine
open Sys2Proof

/-! The trace and the journal change the bookkeeping of one core only. -/

theorem foldl_inv {α β : Type} {P : α → Prop} (h : α → β → α) (l : List β) (a : α) (ha : P a) (hs : ∀ a b, P a → P (h a b)) :
    P (l.foldl h a) := by
  induction l generalizing a with
  | nil => exact ha
  | cons b t ih => exact ih _ (hs a b ha)

/-- y is x but for its pending trace entries. -/
def sameButTrace (x y : Core) : Prop := y = { x with tpend := y.tpend, tcount := y.tcount }

theorem traceWord_core (opc : Nat) (f : Fields) (s u : State) (c : Nat) (npc : Option W64) (g : Bool) :
    traceWord opc f s u c npc g = u ∨
      ∃ h : Core → Core, (∀ x, sameButTrace x (h x)) ∧ traceWord opc f s u c npc g = updCore u (coreOf c) h := by
  unfold traceWord
  dsimp only
  split
  · exact .inl rfl
  · refine .inr ⟨_, ?_, rfl⟩
    intro x
    split
    · split <;> rfl
    · apply foldl_inv
      · rfl
      · intro a b ha
        unfold sameButTrace at *
        rw [ha]

/-- What leaving the issue slot does to the context's registers. -/
def leaving (f : Fields) (npc : Option W64) (t hold : Nat) (latch : Option Nat) (a : Arch) : Arch :=
  { passed f (npc.getD (a.pc + 16)) t hold a with latch := latch }

theorem leaving_none (f : Fields) (npc : Option W64) (t hold : Nat) (a : Arch) :
    leaving f npc t hold none a = passed f (npc.getD (a.pc + 16)) t hold a := rfl

theorem advance_ctx (u : State) (c : Nat) (f : Fields) (npc : Option W64) (hold : Nat) (latch : Option Nat) :
    getCtx (advance u c f npc hold latch) c =
      { getCtx u c with unsel := 0, arch := leaving f npc (ccyOf u c) hold latch (getArch u c) } := by
  cases npc <;> simp [advance, leaving, passed, getArch]

theorem sealHeld_eq (s0 s : State) (c more : Nat) : ∃ h : Core → Core, sealHeld s0 s c more = updCore s (coreOf c) h ∧
    (∀ x, h x = { x with held := (h x).held, jcount := (h x).jcount }) ∧
    (((h (getCore s (coreOf c))).held.map (·.eff)).filter (· != .full) = effects s (coreOf c)) := by
  unfold sealHeld
  dsimp only
  refine ⟨_, rfl, fun x => rfl, ?_⟩
  have key : ∀ (l : List Held) (k : Held → Held), (∀ h, (k h).eff = h.eff) → (l.map k).map (·.eff) = l.map (·.eff) := by
    intro l k hk
    simp [List.map_map, Function.comp_def, hk]
  dsimp only
  rw [key _ _ (by intro h; split <;> rfl)]
  unfold effects
  split <;> simp

theorem sameHeld {h : Core → Core} (hk : ∀ x, h x = { x with held := (h x).held, jcount := (h x).jcount }) (x : Core) :
    h x = { x with held := (h x).held, jcount := (h x).jcount, tpend := (h x).tpend, tcount := (h x).tcount } := by
  have e1 : (h x).tpend = x.tpend := by have e := congrArg Core.tpend (hk x); exact e
  have e2 : (h x).tcount = x.tcount := by have e := congrArg Core.tcount (hk x); exact e
  rw [e1, e2]
  exact hk x

theorem sameBook {h g : Core → Core} (hg : ∀ x, sameButTrace x (g x))
    (hk : ∀ x, h x = { x with held := (h x).held, jcount := (h x).jcount }) (x : Core) :
    h (g x) = { x with held := (h (g x)).held, jcount := (h (g x)).jcount, tpend := (h (g x)).tpend, tcount := (h (g x)).tcount } := by
  have e1 : (h (g x)).tpend = (g x).tpend := by have e := congrArg Core.tpend (hk (g x)); exact e
  have e2 : (h (g x)).tcount = (g x).tcount := by have e := congrArg Core.tcount (hk (g x)); exact e
  have e3 := hk (g x)
  have e4 := hg x
  unfold sameButTrace at e4
  generalize hb : h (g x) = b at *
  generalize ha : g x = a at *
  rw [e1, e2, e3, e4]

/-- Everything a word that has its effect changes beside it. -/
theorem wordLeaves_of_ok (opc : Nat) (f : Fields) (s u : State) (npc : Option W64) (hold : Nat) (latch : Option Nat) (more : Nat)
    (hn : ccyOf u s.cur = now s) (nt : Option W64) (g : Bool) :
    wordLeaves s u (sealHeld s (traceWord opc f s (advance u s.cur f npc hold latch) s.cur nt g) s.cur more)
      (leaving f npc (now s) hold latch) := by
  have hadv := advance_ctx u s.cur f npc hold latch
  obtain ⟨h, hs, hk, he⟩ := sealHeld_eq s (traceWord opc f s (advance u s.cur f npc hold latch) s.cur nt g) s.cur more
  rw [hs]
  have hcore : getCore (advance u s.cur f npc hold latch) (coreOf s.cur) = { getCore u (coreOf s.cur) with lastIssue := some (now s) } := by
    simp [advance, hn]
  have hne : ∀ k, k ≠ coreOf s.cur → getCore (advance u s.cur f npc hold latch) k = getCore u k := by
    intro k hk
    simp [advance, getCore_updCore_ne _ _ hk]
  have hctx : ∀ d, d ≠ s.cur → getCtx (advance u s.cur f npc hold latch) d = getCtx u d := by
    intro d hd
    simp [advance, getCtx_updCtx_ne _ _ hd]
  have hfr : advance u s.cur f npc hold latch =
      { u with ctxs := (advance u s.cur f npc hold latch).ctxs, cores := (advance u s.cur f npc hold latch).cores } := rfl
  have hef : effects (advance u s.cur f npc hold latch) (coreOf s.cur) = effects u (coreOf s.cur) := by
    simp [effects, hcore]
  rw [hn] at hadv
  rcases traceWord_core opc f s (advance u s.cur f npc hold latch) s.cur nt g with ht | ⟨h2, ht2, ht⟩
  · rw [ht] at he ⊢
    refine ⟨?_, by rw [getCtx_updCore, hadv], fun d hd => by rw [getCtx_updCore, hctx d hd],
      fun k hk' => by rw [getCore_updCore_ne _ _ hk', hne k hk'], ?_, ?_⟩
    · rw [hfr]; rfl
    · simp only [myCore, getCore_updCore]
      rw [hcore]
      exact sameHeld hk _
    · rw [← hef, ← he]; simp [effects]
  · rw [ht] at he ⊢
    refine ⟨?_, by rw [getCtx_updCore, getCtx_updCore, hadv], fun d hd => by rw [getCtx_updCore, getCtx_updCore, hctx d hd],
      fun k hk' => by rw [getCore_updCore_ne _ _ hk', getCore_updCore_ne _ _ hk', hne k hk'], ?_, ?_⟩
    · rw [hfr]; rfl
    · simp only [myCore, getCore_updCore]
      rw [hcore]
      exact sameBook ht2 hk _
    · have : effects (updCore (updCore (advance u s.cur f npc hold latch) (coreOf s.cur) h2) (coreOf s.cur) h) (coreOf s.cur) =
        effects (updCore (advance u s.cur f npc hold latch) (coreOf s.cur) h2) (coreOf s.cur) := by
        rw [← he]; simp [effects]
      rw [this, ← hef]
      unfold effects
      rw [getCore_updCore, ht2]

/-! Which case a word takes. -/

section
variable (opc : Nat) (priv branch : Bool) (fh : Nat) (f : Fields) (s : State) (body : State → Nat → Body)

/-- The body's effect is the word's. -/
theorem runWord_ok {d : Done} (h : issues s f) (hp : priv = false ∨ (me s).mode = true) (hb : body s s.cur = .ok d)
    (hn : ccyOf d.st s.cur = now s) :
    wordLeaves s d.st (runWord opc priv branch fh f s body) (leaving f d.npc (now s) d.hold d.latch) := by
  obtain ⟨h1, h2, h3, h4⟩ := h
  have : runWord opc priv branch fh f s body =
      sealHeld s (traceWord opc f s (advance d.st s.cur f d.npc d.hold d.latch) s.cur d.npc true) s.cur d.entries := by
    unfold runWord
    rcases hp with hp | hp <;> simp_all
  rw [this]
  exact wordLeaves_of_ok opc f s d.st d.npc d.hold d.latch d.entries hn d.npc true

/-- A word that stalls changes nothing. -/
theorem runWord_stall (h : issues s f) (hp : priv = false ∨ (me s).mode = true) (hb : body s s.cur = .error .stall) :
    runWord opc priv branch fh f s body = s := by
  obtain ⟨h1, h2, h3, h4⟩ := h
  unfold runWord
  rcases hp with hp | hp <;> simp_all

/-- A word that traps. -/
theorem runWord_trap {cause sub val next ovm lat} (h : issues s f) (hp : priv = false ∨ (me s).mode = true)
    (hb : body s s.cur = .error (.trap cause sub val next ovm lat)) :
    runWord opc priv branch fh f s body = wordTrap s s.cur cause sub val next ovm lat := by
  obtain ⟨h1, h2, h3, h4⟩ := h
  unfold runWord
  rcases hp with hp | hp <;> simp_all

/-- A privileged word in task mode traps whatever its guard (03 R84). -/
theorem runWord_priv (h1 : (me s).phase = .running) (h2 : trapWaits s s.cur = false) (h3 : tokensWait s s.cur f = false)
    (hm : (me s).mode = false) :
    runWord opc true branch fh f s body = wordTrap s s.cur 0x02 0 (BitVec.ofNat 64 opc) false [] 0 := by
  unfold runWord
  simp_all

/-- A context that is not RUNNING, has a trap to take, or waits for a token issues nothing. -/
theorem runWord_idle (h : (me s).phase ≠ .running ∨ trapWaits s s.cur = true ∨ tokensWait s s.cur f = true) :
    runWord opc priv branch fh f s body = s := by
  unfold runWord
  rcases h with h | h | h <;> simp_all

/-- A word whose guard is false only passes (03 R75). -/
theorem runWord_false (h1 : (me s).phase = .running) (h2 : trapWaits s s.cur = false) (h3 : tokensWait s s.cur f = false)
    (hp : priv = false ∨ (me s).mode = true) (hg : guardVal (me s) f = false) :
    wordLeaves s (if branch then updArch s s.cur fun a => { a with cT := a.cT ||| guardTaint a f ||| branchTaint opc a f } else s)
      (runWord opc priv branch fh f s body) (leaving f none (now s) fh none) := by
  have : runWord opc priv branch fh f s body = guardFalse opc s s.cur f branch fh := by
    unfold runWord
    rcases hp with hp | hp <;> simp_all
  rw [this]
  unfold guardFalse
  cases branch
  · exact wordLeaves_of_ok opc f s s none fh none 0 rfl none false
  · exact wordLeaves_of_ok opc f s (updArch s s.cur fun a => { a with cT := a.cT ||| guardTaint (getArch s s.cur) f ||| branchTaint opc (getArch s s.cur) f }) none fh none 0 rfl none false

end

/-! Results. -/

@[simp] theorem ccyOf_addFx (s : State) (c d lat : Nat) (us : List Upd) : ccyOf (addFx s c lat us) d = ccyOf s d := rfl

/-- A word whose body only issues results gives them. -/
theorem givesFrom_of (opc : Nat) (priv branch : Bool) (fh lat : Nat) (us : List Upd) (f : Fields) (s u : State) (body : State → Nat → Body)
    (h : issues s f) (hp : priv = false ∨ (me s).mode = true) (hb : body s s.cur = ok (addFx u s.cur lat us))
    (hn : ccyOf u s.cur = now s) : givesFrom s u (runWord opc priv branch fh f s body) f lat us := by
  obtain ⟨h1, h2, h3, h4, h5, h6⟩ := runWord_ok opc priv branch fh f s body (d := ⟨addFx u s.cur lat us, none, 1, none, 0⟩) h hp hb
    (by simpa using hn)
  refine ⟨h1, ?_, fun d hd => ?_, fun k hk => ?_, h5, ?_⟩
  · rw [h2]
    simp [addFx, leaving, passed, withResults, hn]
  · rw [h3 d hd]; exact getCtx_updArch_ne _ _ hd
  · exact h4 k hk
  · exact h6

theorem givesResults_of (opc : Nat) (branch : Bool) (fh lat : Nat) (us : List Upd) (f : Fields) (s : State) (body : State → Nat → Body)
    (h : issues s f) (hb : body s s.cur = ok (addFx s s.cur lat us)) : givesResults s (runWord opc false branch fh f s body) f lat us :=
  givesFrom_of opc false branch fh lat us f s s body h (.inl rfl) hb rfl

/-- The bytes of an access in the context's window lie there, whatever their number. -/
theorem locate_scratch (s : State) (c : Nat) (acc : Acc) (va : W64) (n align : Nat) (allowed : Cls → Bool) (rs : Option Nat)
    (hn : va.toNat + n ≤ spLen s c) (hw : spLen s c ≤ 0x200000) (h0 : va.toNat < 0x200000) (ha : va.toNat % align = 0) (hc : allowed .scratch = true) :
    locate s c acc va (upTo n) align allowed rs = .ok ⟨.scratch, (upTo n).map fun i => spAddr s c (va.toNat + i), va⟩ := by
  have hb : (upTo n).map (fun o => (va.toNat + o) % 2 ^ 64) = (upTo n).map (va.toNat + ·) := by
    apply List.map_congr_left
    intro o ho
    have : o < n := List.mem_range.1 ho
    exact Nat.mod_eq_of_lt (by omega)
  have hany (p : Nat → Bool) (hp : ∀ a, a < spLen s c → p a = false) : ((upTo n).map (va.toNat + ·)).any p = false := by
    rw [List.any_eq_false]
    intro a h
    obtain ⟨o, ho, rfl⟩ := List.mem_map.1 h
    have : o < n := List.mem_range.1 ho
    rw [hp _ (by omega)]; decide
  unfold locate
  rw [hb]
  dsimp only
  rw [hany _ (fun a h => by simp; omega), hany _ (fun a h => by simp; omega)]
  have hh : ((upTo n).map (va.toNat + ·)).headD 0 < 0x200000 := by
    cases n with
    | zero => simp [upTo]
    | succ n => simp [upTo, List.range_succ_eq_map]; omega
  rw [if_pos hh, hany _ (fun a h => by simp; omega)]
  simp [ha, hc]

end Sys2Proof.Machine
end

