-- ==== Sys2Proof/Tests/Slice0.lean ====
section
/-!
SUPPORT. Tests/Slice0.lean: the model's own tests: words of the spec's encodings, ill-formed terms, single steps, and for every
statement with hypotheses a state and operands that meet them. Every expected value is computed by hand from the spec.
-/
open Sys2Proof Sys2Proof.Machine

section
set_option Elab.async false

/-- Unguarded fields with a MOD value and operands. -/
def tFields (m : BitVec 11) (a b c d e : Operand) : Fields := ⟨0, 0, 0, 0, 0, 0, 0, m, a, b, c, d, e⟩
/-- Context 0 RUNNING in task mode, with a window of 2 MiB and one page at 0x10000000, and core 0 to issue next. -/
def tBase : State := placeWord State.reset []
/-- The same with registers changed. -/
def tArch (g : Arch → Arch) : State := updArch tBase 0 g
/-- Supervisor mode. -/
def tSup : State := tArch fun a => { a with mode := true }
/-- What an instruction that answers a next state leaves; the state itself otherwise. -/
def tNext (i : Instr) (s : State) : State := match exec i s with | .next t => t | _ => s

/-- An operation's answer, compared where it is no stop. -/
def tIs {α : Type} [DecidableEq α] (r : Except Stop α) (x : α) : Bool := match r with | .ok y => decide (y = x) | .error _ => false
theorem ok_of {α : Type} [DecidableEq α] {r : Except Stop α} {x : α} (h : tIs r x = true) : r = .ok x := by
  unfold tIs at h
  split at h
  · rw [of_decide_eq_true h]
  · cases h
/-- A load slot that is free is the one taken. -/
theorem takeSlot_free {s : State} {c : Nat} (j : Nat) {dev : Option Nat} (h : (upTo 16).find? (fun j => !slotLive s c j) = some j) :
    takeSlot s c dev = .ok (fillSlot s c j dev, j) := by
  rw [takeSlot, h]


/-! Witnesses: for each statement a state and operands that meet its hypotheses, clause by clause. -/

/-- ScalarTwoSource, ScalarMoves, Predicates, VectorArithmetic, VectorBitsMasks: an unguarded word of a RUNNING context issues; so does one
whose guards are p0 and p0 joined by OR. -/
theorem test_witness_issues :
    issues tBase (tFields 0 (.s 1) (.imm 5) (.imm 7) .none .none) ∧
    issues tBase ⟨0, 0x10, 1, 0, 0, 0, 0, 0, .none, .none, .none, .none, .none⟩ := ⟨⟨rfl, rfl, rfl, rfl⟩, ⟨rfl, rfl, rfl, rfl⟩⟩

/-- ScalarDivide: a divisor that is not 0; the minimum over −1, with and without SAT; a zero divisor without and with DZTRAP. -/
theorem test_witness_ScalarDivide :
    let f (sat : BitVec 11) (x y : BitVec 61) : Fields := tFields (0x80 ||| sat) (.s 1) (.long x) (.long y) .none .none
    let s := tArch fun a => { a with actl := 1 }
    (issues tBase (f 0 7 2) ∧ srcInt (scalarTy (f 0 7 2)).1 (scalarTy (f 0 7 2)).2 (valOf (me tBase) (.long 2)) ≠ 0) ∧
    (scalarTy (f 1 0x80000000 0xFFFFFFFF) = (true, 32) ∧ srcInt true 32 (valOf (me tBase) (.long 0x80000000)) = intMin true 32 ∧
      srcInt true 32 (valOf (me tBase) (.long 0xFFFFFFFF)) = -1 ∧ modBit (f 0 1 1) 80 = false ∧ modBit (f 1 1 1) 80 = true) ∧
    (srcInt true 32 (valOf (me tBase) (.long 0)) = 0 ∧ (me tBase).actl.getLsbD 0 = false) ∧
    (issues s (f 0 7 0) ∧ (me s).actl.getLsbD 0 = true) := by
  exact ⟨⟨⟨rfl, rfl, rfl, rfl⟩, by decide⟩, by decide, by decide, ⟨rfl, rfl, rfl, rfl⟩, rfl⟩


/-- ScalarMoves, BranchesYieldExit: MOV to a scalar and to a mask; CALL through a register and by a distance; PMOV in its forms. -/
theorem test_witness_OperandForms :
    let f (o : Operand) : Fields := tFields 0 o (.s 9) .none .none .none
    (issues tBase (f (.s 3)) ∧ ∀ m, (f (.s 3)).o1 ≠ .m m) ∧ issues tBase (f (.m 3)) ∧ issues tBase (tFields 0 (.s 1) (.imm 20) .none .none .none) :=
  ⟨⟨⟨rfl, rfl, rfl, rfl⟩, fun _ h => by cases h⟩, ⟨rfl, rfl, rfl, rfl⟩, ⟨rfl, rfl, rfl, rfl⟩⟩

/-- ScalarFloat: 1 + 1 does not trap; the largest F32 added to itself under .OVTRAP does. -/
theorem test_witness_ScalarFloat :
    let f (m : BitVec 11) (x : BitVec 61) : Fields := tFields m (.s 1) (.long x) (.long x) .none .none
    let r (g : Fields) (v : FV × Flags) : FRes := fvToFmt .f32 (rmOf (modBits g 84 82) ⟨0, 0, 0⟩ 0 0) (ovOf (modBits g 81 80)) v.1
    issues tBase (f 0 0x3F800000) ∧
    (r (f 0 0x3F800000) (fvAdd .rne (srcFlt (me tBase) .f32 (.long 0x3F800000)) (srcFlt (me tBase) .f32 (.long 0x3F800000)))).trap = false ∧
    (r (f 3 0x7F7FFFFF) (fvAdd .rne (srcFlt (me tBase) .f32 (.long 0x7F7FFFFF)) (srcFlt (me tBase) .f32 (.long 0x7F7FFFFF)))).trap = true :=
  ⟨⟨rfl, rfl, rfl, rfl⟩, by decide, by decide⟩

/-- Core 0 at cycle 100, an element of queue 2 present since cycle 5. -/
def tElem : State := updCluster (updCtx tBase 0 fun x => { x with res := [⟨2, 0x3000000000000007, 9, zeroStamp, 5⟩] }) 0 fun k => { k with ccy := 100 }

/-- QueueWords: an element present; none present, with an element to come (written this cycle) and with an empty queue; DRAINQ with
nothing outstanding and with a command outstanding. -/
theorem test_witness_QueueWords :
    let f (m : BitVec 11) (q : BitVec 3) : Fields := tFields m (.s 4) (.s 5) (.queue false q) .none .none
    let late := updCluster tElem 0 fun k => { k with ccy := 5 }
    let busy := updCtx tElem 0 fun x => { x with cmds := [mkCmd tBase 0 (f 0 2) 2 (.nop (f 0 2)) 0] }
    (issues tElem (f 0 2) ∧ replaying tElem 0 = false ∧ readyElem tElem 0 2 = some ⟨2, 0x3000000000000007, 9, zeroStamp, 5⟩) ∧
    (issues late (f 1 2) ∧ replaying late 0 = false ∧ readyElem late 0 2 = none ∧ modBit (f 1 2) 80 = true ∧ modBit (f 0 2) 80 = false ∧
      resOf late 0 2 ≠ []) ∧
    (readyElem tBase 0 3 = none ∧ resOf tBase 0 3 = [] ∧ occupied tBase 0 3 = 0 ∧ runsOf tBase 0 3 = [] ∧ replaying tBase 0 = false) ∧
    ((resOf tElem 0 2).length ≤ 16 ∧ occupied tElem 0 2 ≤ 16 ∧ (getCtx tElem 0).qdRsv ≤ 16) ∧
    (issues busy (f 1 2) ∧ occupied busy 0 2 ≠ 0) :=
  ⟨⟨⟨rfl, rfl, rfl, rfl⟩, by decide, by decide⟩, ⟨⟨rfl, rfl, rfl, rfl⟩, by decide, by decide, by decide, by decide, by decide⟩,
    by decide, by decide, ⟨rfl, rfl, rfl, rfl⟩, by decide⟩

/-- TrapsAndReturn: a trap that is taken at once, with a handler and without one; one held back by an effect, by a result on its way and
by a stopped clock; TRET in both modes. -/
theorem test_witness_TrapsAndReturn :
    let f : Fields := tFields 0 (.imm 12) .none .none .none .none
    let h := updCore tBase 0 fun k => { k with tbase := 0x4000 }
    let held := holding tBase .mark
    let late := tArch fun a => { a with fx := [⟨9, 0, .sreg 1 0 0⟩] }
    let still := updCluster tBase 0 fun k => { k with stopped := true }
    (issues h f ∧ trapAtOnce h ∧ handlerReady h) ∧ (trapAtOnce tBase ∧ ¬ handlerReady tBase) ∧
    ((me held).phase = .running ∧ trapWaits held 0 = false ∧ (getCore held (myCore held)).held ≠ []) ∧
    ((me late).phase = .running ∧ trapWaits late 0 = false ∧ (me late).fx ≠ []) ∧
    ((me still).phase = .running ∧ trapWaits still 0 = false ∧ frozenAt still still.cur = true) ∧
    (issues tSup f ∧ (me tSup).mode = true ∧ (me tBase).mode = false) :=
  ⟨⟨⟨rfl, rfl, rfl, rfl⟩, ⟨rfl, by decide, rfl, fun _ h => nomatch h⟩, rfl, by decide⟩, ⟨⟨rfl, by decide, rfl, fun _ h => nomatch h⟩, fun h => h.2 rfl⟩,
    ⟨rfl, rfl, by decide⟩, ⟨rfl, rfl, by decide⟩, ⟨rfl, rfl, rfl⟩, ⟨rfl, rfl, rfl, rfl⟩, rfl, rfl⟩

/-- SystemRegisters: a register the mode may not read, the context's own registers, GTS, a shared register; a write with and without
permission. -/
theorem test_witness_SystemRegisters :
    let f (n : BitVec 13) : Fields := tFields 0 (.s 1) (.imm n) .none .none .none
    let g (n : BitVec 13) : Fields := tFields 0 (.imm n) (.s 1) .none .none .none
    issues tBase (f 0x021) ∧ regPerm (me tBase).mode (regNo (f 0x021).o2) = 0 ∧
    regNo (f 0).o2 = 0 ∧ regNo (f 5).o2 = 5 ∧ regNo (f 0x00B).o2 = 0x00B ∧ regNo (f 0x010).o2 = 0x010 ∧ regNo (f 0x017).o2 = 0x010 + 7 ∧
    ((me tSup).mode = true ∧ regNo (f 0x025).o2 = 0x025) ∧
    (regNo (f 1).o2 = 1 ∧ (getCtx tBase 0).gtsFloor = none ∧ replaying tBase 0 = false) ∧
    (regPerm (me tBase).mode (regNo (f 0x200).o2) ≠ 0 ∧ regNo (f 0x200).o2 ≠ 1 ∧ archReg tBase 0 0x041 = none) ∧
    (issues tBase (g 0x020) ∧ regPerm (me tBase).mode (regNo (g 0x020).o1) < 2) ∧ regPerm (me tBase).mode (regNo (g 9).o1) = 2 := by
  intro f g
  and_intros
  all_goals decide


/-- A page at 0x20000000 of a physical base, beside the page of the placed word; every access allowed in both modes. -/
def tMap (pa : Nat) : State := updCore tBase 0 fun k => { k with tlb := [placeTlb, ⟨0, 0x2000, 0, pa, true, true, true, 7⟩] }
/-- A region that can be named by the handle 5, and context 0 bound to a task of it. -/
def tRegion (g : Region) : State := updCtx { tBase with regions := [(5, g)] } 0 fun x => { x with bind := some { placeBind with region := 5 } }
/-- A live region with two hardware entries. -/
def tLive : Region := { Region.none with state := .live, lqmax := 2, ctx := 4, cls := 2, fabsh := 9, cmask := 3 }
/-- A record with its four dimensions in order, which is well-formed. -/
def tRecord : Quarter := 0xE4#512 <<< 284

/-- ClockAndSystemWords: a tick that has come and one that has not; TLBINV with nothing pinned; a scope that is quiet, one that is not,
and its limit passed; the image of CTXSV in Global. -/
theorem test_witness_ClockAndSystemWords :
    let f (m : BitVec 11) (x : BitVec 61) : Fields := tFields m (.s 1) (.long x) (.imm 0) .none .none
    let busy := updArch tSup 1 fun a => { a with phase := .running }
    issues tBase (f 0 0) ∧ replaying tBase 0 = false ∧ replayWait tBase 0 = none ∧ (getCtx tBase 0).gtsFloor = none ∧
    (valOf (me tBase) (.long 0)).toNat ≤ tBase.gts.toNat ∧ tBase.gts.toNat < (valOf (me tBase) (.long 1)).toNat ∧
    roomForEffect tBase ∧ issues tSup (f 4 0) ∧ (me tSup).mode = true ∧ qdRoom tSup 0 = true ∧
    imageAddr tSup 0 (f 0 0x10000000) .write = .ok 0x10000000 ∧ imageAddr tSup 0 (f 0 0x10000000) .read = .ok 0x10000000 ∧
    modBit (f 0 0) 82 = false ∧ modBit (f 4 0) 82 = true ∧ pinnedPages tSup 0 = [] ∧ (∀ k, k < 128 → pinnedPages tSup k = []) ∧
    ((scopeOf 0 0).filter (· != 0)).all (quietCtx tSup) = true ∧ ((scopeOf 0 0).filter (· != 0)).all (quietCtx busy) = false ∧
    issues busy (f 0 0) ∧ (valOf (me busy) (.long 0)).toNat ≤ busy.gts.toNat ∧ busy.gts.toNat < (valOf (me busy) (.long 9)).toNat := by
  and_intros
  all_goals first | decide +kernel | (refine ok_of ?_; decide +kernel) | (unfold roomForEffect; decide) | rfl

/-- LaunchWords: a record in the window's first 64 bytes, of the region's own handle: a malformed one and an accepted one; a region that
is not live, one that the launcher may not name, no qd entry, a full hardware queue with and without .NOSPILL and an overflow area. -/
theorem test_witness_LaunchWords :
    let f : Fields := tFields 0 (.s 3) (.s 20) (.s 0) (.imm 0) .none
    let loc : Loc := ⟨.scratch, upTo 64, 0⟩
    let s := tRegion tLive
    let good := { s with scratch := [(35, 0x40), (36, 0x0E)] }
    let full (g : Region) := { tRegion g with nests := [(0, { newNest 5 1 tRecord none false 0 with place := .hw }), (1, { newNest 5 2 tRecord none false 1 with place := .hw })] }
    issues s f ∧ replaying s 0 = false ∧ roomForEffect s ∧ locate s 0 .read (addrOf (me s) f.o3 f.o4) (upTo 64) 64 (· == .scratch) = .ok loc ∧
    spLocked s (myCore s) loc.addrs false = false ∧ resolve s 0 (valOf (me s) f.o2) = some 5 ∧
    launchCode s 0 (some 5) (BitVec.ofNat 512 (leNat (spRead s loc.addrs))) false false = 4 ∧
    launchCode good 0 (some 5) (BitVec.ofNat 512 (leNat (spRead good loc.addrs))) false false = 0 ∧
    live (tRegion { tLive with state := .tearing }) 5 = false ∧
    live s 5 = true ∧ permitted s 0 5 = true ∧ permitted (updCtx s 0 fun x => { x with bind := some placeBind }) 0 5 = false ∧
    malformed tRecord = false ∧ malformed 0 = true ∧ qdRoom s 0 = true ∧ qdRoom (updCtx s 0 fun x => { x with qdRsv := 16 }) 0 = false ∧
    hwHeld s 5 < tLive.lqmax ∧ tLive.lqmax ≤ hwHeld (full tLive) 5 ∧ overflowSlot (full tLive) 5 = none ∧
    overflowSlot (full { tLive with ovsize := 4 }) 5 = some 0 := by
  and_intros
  all_goals first | decide +kernel | (refine ok_of ?_; decide +kernel) | (unfold roomForEffect; decide) | rfl

/-- NestWords: NWAIT's counter in Global; NSTAT of a region the context may see, of one it may not, and of none. -/
theorem test_witness_NestWords :
    let f (m : BitVec 11) : Fields := tFields m (.s 1) (.long 0x10000000) (.imm 8) (.imm 1) .none
    let s := tRegion tLive
    issues tBase (f 0) ∧ (me tBase).fence = none ∧ replayWait tBase 0 = none ∧
    locate tBase 0 .read (addrOf (me tBase) (f 0).o2 (f 0).o3) (upTo 8) 8 (fun k => k == .global || k == .commons) =
      .ok ⟨.global, (upTo 8).map (0x10000008 + ·), 0x10000008⟩ ∧
    issues s (f 1) ∧ replaying s 0 = false ∧ resolve s 0 0 = some 5 ∧ permitted s 0 5 = true ∧ resolve s 0 6 = none ∧
    permitted (updCtx s 0 fun x => { x with bind := some placeBind }) 0 5 = false ∧
    modBits (f 0) 81 80 = 0 ∧ modBits (f 1) 81 80 = 1 ∧ 1 < modBits (f 2) 81 80 := by
  and_intros
  all_goals first | decide +kernel | (refine ok_of ?_; decide +kernel) | (unfold roomForEffect; decide) | rfl

/-- RegionRequests: RGNMK's block in Global, supervisor mode; RGNSET of each field at an allowed value, and values out of range or beyond
the parent's. -/
theorem test_witness_RegionRequests :
    let f : Fields := tFields 0 (.long 0x10000000) (.imm 0) .none .none .none
    let s := tRegion tLive
    let q := { s with regions := [(5, { tLive with parent := 6 }), (6, { tLive with quotaLeft := 0x10000 })] }
    let k : Cmd := { mkCmd s 0 f 6 (.rgnset f) 0 with x1 := 5, x2 := 3, aux := [0, 0, 1] }
    issues tSup f ∧ roomForEffect tSup ∧ qdRoom tSup 0 = true ∧ (me tSup).mode = true ∧
    locate tSup 0 .read (addrOf (me tSup) f.o1 f.o2) (upTo 64) 64 (· == .global) = .ok ⟨.global, (upTo 64).map (0x10000000 + ·), 0x10000000⟩ ∧
    resolve s 0 k.x1 = some 5 ∧ live s 5 = true ∧ k.aux.getD 2 0 = 1 ∧
    (rgnField s 5 0 3).2 = (true, true) ∧ (rgnField s 5 1 3).2 = (true, true) ∧ (rgnField s 5 2 3).2 = (true, true) ∧
    (rgnField s 5 3 3).2 = (true, true) ∧ (rgnField q 5 4 0x10000).2 = (true, true) ∧ 5 ≠ (getRegion q 5).parent ∧
    (rgnField s 5 1 513).2.1 = false ∧ (rgnField s 5 0 0).2.1 = false ∧
    (rgnField { s with regions := [(5, { tLive with parent := 6 }), (6, { tLive with ctx := 2 })] } 5 1 3).2 = (true, false) := by
  and_intros
  all_goals first | decide +kernel | (refine ok_of ?_; decide +kernel) | (unfold roomForEffect; decide) | rfl

/-- Loads, Stores: bytes in the scratchpad, in Global, in Commons and in a host window, with a load slot to take; the gather of one lane
and its strong form. -/
theorem test_witness_LoadsAndStores :
    let f (x : BitVec 61) : Fields := tFields 0 (.s 1) (.long x) (.imm 0) .none .none
    let at_ (s : State) (x : BitVec 61) (acc : Acc) := locate s 0 acc (addrOf (me s) (f x).o2 (f x).o3) (upTo 8) 1 anyCls
    let c := tMap 0x8000000000
    let h := tMap 0xC000000000
    issues tBase (f 0) ∧ (me tBase).fence = none ∧ replayLoad tBase 0 = none ∧ roomForEffect tBase ∧
    at_ tBase 0x40 .read = .ok ⟨.scratch, (upTo 8).map (0x40 + ·), 0x40⟩ ∧ spLocked tBase (myCore tBase) ((upTo 8).map (0x40 + ·)) true = false ∧
    earlierAcc tBase 0 tBase.nextId = false ∧
    at_ tBase 0x10000000 .write = .ok ⟨.global, (upTo 8).map (0x10000000 + ·), 0x10000000⟩ ∧
    issues c (f 0) ∧ at_ c 0x20000000 .read = .ok ⟨.commons, (upTo 8).map (0x8000000000 + ·), 0x20000000⟩ ∧
    issues h (f 0) ∧ at_ h 0x20000000 .write = .ok ⟨.host, (upTo 8).map (0xC000000000 + ·), 0x20000000⟩ ∧
    takeSlot tBase 0 none = .ok (fillSlot tBase 0 0 none, 0) ∧
    locateLanes tBase 0 .read 4 none [gatherAddr 0x10000000 0 0 0] = .ok ⟨.global, (upTo 4).map (0x10000000 + ·), 0x10000000⟩ := by
  and_intros
  all_goals first | decide +kernel | (with_reducible refine takeSlot_free 0 ?_; decide +kernel) | (refine ok_of ?_; decide +kernel) | (unfold roomForEffect; decide) | rfl

/-- Atomics: a counter in Global and one in Commons, with and without a destination. -/
theorem test_witness_Atomics :
    let f (d : Operand) : Fields := tFields 0x40 d (.long 0x20000000) (.imm 0) (.imm 1) .none
    let c := tMap 0x8000000000
    issues c (f .none) ∧ (me c).fence = none ∧ replayLoad c 0 = none ∧ roomForEffect c ∧ (f .none).o1 = .none ∧ (f (.s 1)).o1 ≠ .none ∧
    locate c 0 .atomic (addrOf (me c) (f .none).o2 (f .none).o3) (upTo 4) 4 atomicCls = .ok ⟨.commons, (upTo 4).map (0x8000000000 + ·), 0x20000000⟩ ∧
    locate tBase 0 .atomic 0x10000000 (upTo 16) 16 atomicCls = .ok ⟨.global, (upTo 16).map (0x10000000 + ·), 0x10000000⟩ ∧
    takeSlot c 0 none = .ok (fillSlot c 0 0 none, 0) ∧ roomForEffect (fillSlot c 0 0 none) := by
  and_intros
  all_goals first | decide +kernel | (with_reducible refine takeSlot_free 0 ?_; decide +kernel) | (refine ok_of ?_; decide +kernel) | (unfold roomForEffect; decide) | rfl

/-- AccessChecks: an address of each clause at the edge of its range; PREF and FLUSHL of a line present, of one absent and of no Global
address; XLATE beyond the space, remote, outside the window, inside it and of a page held. -/
theorem test_witness_AccessChecks :
    let f (x : BitVec 61) : Fields := tFields 0 (.long x) (.long x) (.imm 0) .none .none
    let held := { tBase with llc := [(0x10000000 / 1024, ⟨false, 0⟩)] }
    (0 < 8 ∧ 8 ≤ 8 ∧ 8 ≤ 64) ∧ 2 ^ 41 ≤ (0x20000000000#64).toNat ∧ (0x7FFFFFFFFFFFFFFF#64).toNat < 2 ^ 63 ∧
    (0x1FFFFFFFF01#64).toNat < 2 ^ 41 - 64 ∧ (0x1FFFFFFFF01#64).toNat % 8 ≠ 0 ∧ (0x8000000000000000#64).toNat % 8 = 0 ∧
    (0x8000000000000000#64).toNat < 2 ^ 64 - 64 ∧
    spLen (updCtx tBase 0 fun x => { x with bind := some { placeBind with supv := false, splen := 4096 } }) 0 < (0xFFC#64).toNat + 8 ∧
    (0x1FFFF8#64).toNat < 0x200000 ∧ (0x1FFFF8#64).toNat + 8 ≤ spLen tBase 0 ∧ commonsOnly .scratch = false ∧ anyCls .scratch = true ∧
    issues tBase (f 0x10000000) ∧ (me tBase).fence = none ∧ softLocate tBase 0 .read (addrOf (me tBase) (f 0x40).o1 (.imm 0)) = .ok none ∧
    softLocate held 0 .read (addrOf (me held) (f 0x10000000).o1 (.imm 0)) = .ok (some 0x10000000) ∧ (mapFind held.llc (0x10000000 / 1024)).isSome = true ∧
    (mapFind tBase.llc (0x10000000 / 1024)).isSome = false ∧
    (tBase.accs.all fun x => x.ctx != 0 || x.addrs.all (fun q => q / 1024 != 0x10000000 / 1024)) = true ∧
    replayLoad tBase 0 = none ∧ spLen (updCtx tBase 0 fun x => { x with bind := none }) 0 ≤ 0 ∧
    translate tBase 0 0x10000000 .read = .hit 0x10000000 ∧ tlbFind (getCore tBase 0) (ctxRoot tBase 0) 0x10000000 = some placeTlb ∧
    classOf 0x10000000 = some .global := by
  and_intros
  all_goals first | decide +kernel | (refine ok_of ?_; decide +kernel) | (unfold roomForEffect; decide) | rfl

/-- FenceTaintSpill: each operand kind of TCLR and TADD; TFOLD with no slot live, and with one whose load is pending; a spill of
two registers to the scratchpad and to Global. -/
theorem test_witness_FenceTaintSpill :
    let f (o : Operand) : Fields := tFields 0 o (.v 2) .none .none .none
    let g (x : BitVec 61) : Fields := tFields 0 (.long x) (.imm 0) (.s 4) (.s 5) .none
    let h (x : BitVec 61) : Fields := tFields 0 (.s 4) (.long x) (.imm 0) (.s 5) .none
    let wait := tArch fun a => { a with slots := [(0, ⟨none, zeroStamp, 0, false, 0, some 3⟩)] }
    issues tBase (f (.s 1)) ∧ (me tBase).fence = none ∧ issues tBase (f (.p 1)) ∧ (1#4 ≠ 0) ∧ issues tBase (f (.m 1)) ∧ issues tBase (f .ctl) ∧
    issues tBase (f (.vq 1 2)) ∧ issues tBase (f (.v 1)) ∧
    (liveByAge tBase 0).all (fun j => (slotOf (me tBase) j).pend.isNone) = true ∧ issues wait (f (.s 1)) ∧
    (liveByAge wait 0).any (fun j => (slotOf (me wait) j).pend.isSome) = true ∧
    issues tBase (g 0) ∧ (me tBase).latch = none ∧ idxOf (g 0).o4 - idxOf (g 0).o3 + 1 = 2 ∧ spillCheck tBase 0 .write 0 (.s 4) 2 = .ok () ∧
    locate tBase 0 .write 0 (upTo 32) 1 spillCls (some 0) = .ok ⟨.scratch, upTo 32, 0⟩ ∧
    spillLocs tBase 0 .write 0 (spillD (.s 4) 2) 8 0 2 = ([⟨.scratch, (upTo 8).map (32 + ·), 32⟩, ⟨.scratch, (upTo 8).map (40 + ·), 40⟩], none) ∧
    spLocked tBase (myCore tBase) (upTo 48) true = false ∧
    spillCheck tBase 0 .read 0x10000000 (.s 4) 2 = .ok () ∧
    locate tBase 0 .read 0x10000000 (upTo 32) 1 spillCls (some 0) = .ok ⟨.global, (upTo 32).map (0x10000000 + ·), 0x10000000⟩ ∧
    spillLocs tBase 0 .read 0x10000000 (spillD (.s 4) 2) 8 0 2 = ([⟨.global, (upTo 8).map (0x10000020 + ·), 0x10000020⟩,
      ⟨.global, (upTo 8).map (0x10000028 + ·), 0x10000028⟩], none) ∧
    replaying tBase 0 = false ∧ issues tBase (h 0x10000000) ∧
    stampCovers (appliedAll tBase) (accVec (me tBase) (srcTaint (me tBase) (h 0x10000000) [.long 0x10000000, .imm 0] ||| (me tBase).cT)) = true ∧
    depsOf (me tBase) 0 (srcTaint (me tBase) (h 0x10000000) [.long 0x10000000, .imm 0] ||| (me tBase).cT) = [] ∧ roomForEffect tBase := by
  and_intros
  all_goals first | decide +kernel | (refine ok_of ?_; decide +kernel) | (unfold roomForEffect; decide) | rfl


/-- A walk descriptor with these fields, the rest zero. -/
def tDesc (l : List (Nat × Nat)) : Quarter := BitVec.ofNat 512 (l.foldl (fun x p => x + p.2 * 2 ^ (32 * p.1)) 0)
/-- One row of 64 elements of a format code, of ESIZE 0, with further fields. -/
def tRow (sf df : Nat) (l : List (Nat × Nat)) : Quarter := tDesc ([(0, 64), (1, 1), (2, 1), (3, 1), (12, sf * 2 ^ 8 + df * 2 ^ 16)] ++ l)
/-- The state with v1's first quarter holding a descriptor. -/
def tWith (d : Quarter) : State := tArch fun a => { a with vreg := [(1, d.zeroExtend 2048)] }
/-- A context of a bare task with 2 MiB of window can push. -/
def tPush (s : State) (q : Nat) : Bool := decide ((me s).fence = none) && decide (occupied s 0 q < 16) && decide (((getCore s 0).held.filter fun h => isEff h.eff).length < 8)

/-- A block at the window's start checks, whatever its size. -/
theorem mxBlock_window (s : State) (c n align : Nat) (acc : Acc) (ok : Cls → Bool) (h : n ≤ spLen s c) (h2 : spLen s c ≤ 0x200000)
    (hok : ok .scratch = true) : mxBlock s c 0 n align acc ok = .ok [] := by
  unfold mxBlock
  rw [locate_scratch s c acc 0 n align ok none (by simpa using h) h2 (by decide) (by simp) hok]
  rfl

/-- EnginePushes: for each matrix and attention word a descriptor that obeys its rules, with a walk in the window; the tile and plane
blocks; a tile that the context holds. -/
theorem test_witness_EnginePushes :
    let f : Fields := tFields 0 (.vq 1 0) (.vq 1 0) (.vq 1 0) (.imm 0) (.imm 0)
    let ld := tRow 0x14 0 [(4, 1), (5, 64)]
    let mm := tRow 0x14 0 [(4, 1)]
    let dr := tDesc [(0, 64), (1, 1), (2, 1), (3, 1), (8, 4), (12, 2 + 0x10 * 2 ^ 8 + 0x10 * 2 ^ 16)]
    let q := tDesc [(0, 64), (1, 1), (2, 1), (3, 1), (4, 2), (12, 1 + 0x12 * 2 ^ 8)]
    let fin := tDesc [(0, 64), (1, 1), (2, 1), (3, 1), (8, 4), (12, 2 + 0x10 * 2 ^ 8 + 0x10 * 2 ^ 16)]
    let kv := tDesc [(0, 64), (1, 1), (2, 1), (3, 1), (4, 2), (8, 2), (12, 1 + 0x12 * 2 ^ 8 + 0x12 * 2 ^ 16)]
    let walk (d : Quarter) (field : Nat) (acc : Acc) (ok : Cls → Bool) := checkWalk (tWith d) 0 d (2 ^ dEsize d) [mxSide d 0 field acc ok] = .ok ([.loc .scratch], [])
    issues (tWith ld) f ∧ tPush (tWith ld) 0 = true ∧ tPush (tWith ld) 1 = true ∧ descOf (me (tWith ld)) (.vq 1 0) = ld ∧ checkTile tBase 0 (.tile 31) = .ok 31 ∧
    plainDesc ld [0, 1] false ∧ twoDims ld (dSfmt ld) ∧ mxE (dSfmt ld) ≠ 0 ∧ dTrip ld 0 * perStep (dSfmt ld) ≤ 256 ∧ dField ld 4 = 2 ^ dEsize ld ∧
    dTrip ld 1 ≤ depthOf tBase 0 (dSfmt ld) ∧ walk ld 4 .pushRead scratchOnly ∧
    plainDesc mm [0] false ∧ mxAct (dSfmt mm) = true ∧ walk mm 4 .pushRead scratchOnly ∧
    plainDesc dr [0] false ∧ twoDims dr (dDfmt dr) ∧ drainFmt (dDfmt dr) = true ∧ dField dr 8 = 2 ^ dEsize dr ∧ walk dr 8 .pushWrite localOnly ∧
    mxBlock tBase 0 0 32 32 .pushRead scratchOnly = .ok [] ∧
    mxBlock tBase 0 0 tileImage 64 .pushWrite imageCls = .ok [] ∧ mxBlock tBase 0 0 planeImage 64 .pushRead imageCls = .ok [] ∧
    replayLoad tBase 0 = none ∧ roomForEffect tBase ∧
    plainDesc q [0] false ∧ twoDims q (dSfmt q) ∧ dField q 4 = 2 ^ dEsize q ∧ walk q 4 .pushRead localOnly ∧
    akvForm kv = .ok () ∧ plainDesc fin [0] false ∧ twoDims fin (dDfmt fin) ∧ dField fin 8 = 2 ^ dEsize fin ∧ walk fin 8 .pushWrite localOnly := by
  and_intros
  all_goals first | (refine mxBlock_window _ _ _ _ _ _ ?_ ?_ rfl <;> decide) | decide +kernel | (refine ok_of ?_; decide +kernel) | (unfold roomForEffect; decide) | (unfold plainDesc; decide +kernel) | (unfold twoDims; decide +kernel) | rfl



/-- CopyPushes: a copy of one row of 64 bytes to itself in the window, an index list
of one entry, a fill; the index list's refusals, and a list read while a lock stands on it. -/
theorem test_witness_CopyPushes :
    let f : Fields := tFields 0 (.imm 0) (.imm 0) (.imm 0) (.vq 1 0) (.vq 1 0)
    let d := tDesc [(0, 64), (1, 1), (2, 1), (3, 1), (4, 1), (8, 1)]
    let fill := tDesc [(0, 64), (1, 1), (2, 1), (3, 1), (8, 1)]
    let s := tWith d
    let locked := { s with locks := [⟨0, 1, 2, 0, [0], true⟩] }
    issues s f ∧ tPush s 2 = true ∧ plainDesc d [0] true ∧ codeReserved (dSfmt d) = false ∧ dLcen d = false ∧ dField d 15 = 0 ∧
    dField fill 4 = 0 ∧ readList s 0 d = .ok [0] ∧
    checkWalk s 0 d 1 (copySides (.cpy f) 0 0 d []) = .ok ([.loc .scratch, .loc .scratch], []) ∧
    checkWalk s 0 d 1 (copySides (.cpyg f) 0 0 d [0]) = .ok ([.loc .scratch, .loc .scratch], []) ∧
    checkWalk s 0 d 1 (copySides (.cpys f) 0 0 d [0]) = .ok ([.loc .scratch, .loc .scratch], []) ∧
    checkWalk s 0 d 1 (copySides (.ctrn f) 0 0 d []) = .ok ([.loc .scratch, .loc .scratch], []) ∧
    checkWalk s 0 fill 1 [⟨0, 8, .pushWrite, anyCls, true, walkAddr 0 fill 8⟩] = .ok ([.loc .scratch], []) ∧
    1024 < dTrip (tDesc [(1, 1025), (2, 1), (3, 1)]) 1 ∧ dField (tDesc [(15, 2)]) 15 % 4 ≠ 0 ∧
    spLen s 0 < dField (tDesc [(15, 0x1FFFFC)]) 15 + 4 * 2 ∧ spLocked locked 0 ((upTo 4).map (spAddr locked 0 ·)) false = true ∧
    spLocked s 0 ((upTo 4).map (spAddr s 0 ·)) false = false ∧ earlierStrongRead s 0 s.nextId = false := by
  and_intros
  all_goals first | decide +kernel | (refine ok_of ?_; decide +kernel) | (unfold plainDesc; decide +kernel) | rfl

/-- LandingCounters: a counter in the window, with the context quiet and not; LCWAIT's test met and not; arrivals at the counter below, at
and above what is left. -/
theorem test_witness_LandingCounters :
    let f : Fields := tFields 0 (.imm 0x40) (.imm 0) (.imm 0) (.imm 1) .none
    let x := 0x40
    let busy := { tBase with accs := [mkAcc tBase 0 .rd [] ⟨.global, [0x10000000], 0x10000000⟩ 0 none .none none none] }
    issues tBase f ∧ (me tBase).fence = none ∧ counterArg tBase 0 .write (addrOf (me tBase) f.o1 f.o2) = .ok x ∧ quietAcc tBase 0 = true ∧ roomForEffect tBase ∧
    quietAcc busy 0 = false ∧ counterArg tBase 0 .write 0 = .ok 0 ∧ canPush tBase 2 ∧ counterArg tBase 0 .read 0 = .ok 0 ∧ replayWait tBase 0 = none ∧
    lcPhase (spNat tBase x 8) ≠ (1#64).getLsbD 0 ∧ ¬ lcPhase (spNat tBase x 8) ≠ (0#64).getLsbD 0 ∧
    spLocked tBase 0 ((upTo 8).map (x + ·)) false = false ∧ spLocked { tBase with locks := [⟨0, 1, 2, 0, [1], true⟩] } 0 ((upTo 8).map (x + ·)) false = true ∧
    (let w := lcInit 0 0 64
     w < 2 ^ 64 ∧ lcExp 0 = 0 ∧ lcExp w ≠ 0 ∧ lcRem w ≤ 64 ∧ 63 < lcRem w ∧ lcRem w < 65 ∧ lcRem w + (2 ^ 24 - 65) < 2 ^ 24 ∧ 2 ^ 24 ≤ lcRem w + (2 ^ 24 - 64)) := by
  and_intros
  all_goals first | decide +kernel | (refine ok_of ?_; decide +kernel) | (unfold canPush roomForEffect; decide) | (unfold roomForEffect; decide) | rfl

/-- CommonsWords: a page of the Commons; lengths that fit, are no multiple and are too large; WAITA's read. -/
theorem test_witness_CommonsWords :
    let f : Fields := tFields 0 (.long 0x20000000) (.imm 0) (.imm 0) (.imm 64) .none
    let s := tMap 0x8000000000
    let dst := addrOf (me s) f.o1 f.o2
    issues s f ∧ tPush s 3 = true ∧ redBytes (bankTy f) ∣ 64 ∧ commonsRange s 0 .pushWrite dst (upTo 64) 8 = .ok [0x2000] ∧
    commonsRange s 0 .pushWrite dst [] 8 = .ok [] ∧ commonsRange s 0 .pushRead dst (upTo 64) 8 = .ok [0x2000] ∧ 63 % 8 ≠ 0 ∧ 2 ^ 24 < 2 ^ 24 + 8 ∧
    commonsRange s 0 .pushWrite dst ((bredActive 8 1).flatMap fun e => (upTo 8).map fun b => e * 8 + b) 8 = .ok [0x2000] ∧ 0 + 64 ≤ spLen s 0 ∧
    (me s).fence = none ∧ replayWait s 0 = none ∧
    locate s 0 .read 0x20000000 (upTo 8) 8 commonsOnly = .ok ⟨.commons, (upTo 8).map (0x8000000000 + ·), 0x20000000⟩ := by
  and_intros
  all_goals first | decide +kernel | (refine ok_of ?_; decide +kernel) | rfl

/-- DirectRemote: a remote address of a peer, aligned, with a load slot to take; each width of RST. -/
theorem test_witness_DirectRemote :
    let f (m : BitVec 11) : Fields := tFields m (.s 2) (.s 4) (.imm 0) (.s 6) .none
    let s := tArch fun a => { a with sreg := [(4, 0x8000040000000000)] }
    issues s (f 0) ∧ (me s).fence = none ∧ (s.fab.dirs.filter fun d => d.ctx == s.cur && d.late.isNone).length < 64 ∧
    2 ^ 63 ≤ (addrOf (me s) (f 0).o2 (f 0).o3).toNat ∧ (addrOf (me s) (f 0).o2 (f 0).o3).toNat % 64 = 0 ∧ peerOf (addrOf (me s) (f 0).o2 (f 0).o3) = 2 ∧
    takeSlot s 0 (some 2) = .ok (fillSlot s 0 0 (some 2), 0) ∧ roomForEffect (fillSlot s 0 0 (some 2)) ∧
    remoteWidth (f 0) = 8 ∧ remoteWidth (f 0x100) = 16 ∧ 16 < remoteWidth (f 0x200) ∧ (f 0).o1 ≠ .none := by
  and_intros
  all_goals first | decide +kernel | (with_reducible refine takeSlot_free 0 ?_; decide +kernel) | (unfold roomForEffect; decide) | rfl

/-- A peer group 0, its set table with one entry of this device and device 1. -/
def tSet (s : State) : State := { s with fab := { s.fab with maxdev := 63, ngrp := 1, routed := [1, 2], setCache := some [[7, 3, 1#64 <<< 48, 0]] } }

/-- FabricWords: a transfer of one row each way; a ring owned; a barrier entry usable and none; a release owed, an arrival recorded, none
recorded with the context quiet and not. -/
theorem test_witness_FabricWords :
    let d := tDesc [(0, 64), (1, 1), (2, 1), (3, 1), (4, 1), (8, 1)]
    let f : Fields := tFields 0 (.s 4) (.imm 0) (.imm 0) (.imm 0) (.vq 1 0)
    let g (m : BitVec 11) : Fields := tFields m (.s 1) (.imm 0) .none .none (.imm 0)
    let s := updArch (tSet (tWith d)) 0 fun a => { a with sreg := [(4, 0x8000020000000000)] }
    let bar (b : Barrier) : State := { s with fab := { s.fab with bars := [(0, b)] } }
    let w := s.fab.setCache.getD [] |>.headD []
    issues s f ∧ tPush s 4 = true ∧ plainDesc d [0] true ∧ dField d 15 = 0 ∧
    checkWalk s 0 d 1 [srcSide (.rput f) 0 d false, dstSide (.rput f) 0x8000020000000000 d true] = .ok ([.loc .scratch, .remote], []) ∧
    checkWalk s 0 d 1 [srcSide (.rget f) 0x8000020000000000 d true, dstSide (.rget f) 0 d false] = .ok ([.remote, .loc .scratch], []) ∧
    checkWalk s 0 d 1 [srcSide (.mcast f) 0 d false, dstSide (.mcast f) (0 ||| (1#64 <<< 63)) d true] = .ok ([.loc .scratch, .remote], []) ∧
    0 + 64 ≤ spLen s 0 ∧ plHeld s 0 = false ∧ ownRing s 0 0 = none ∧ locate s 0 .pushRead 0 (upTo 64) 1 notHost = .ok ⟨.scratch, upTo 64, 0⟩ ∧
    replayWait s 0 = none ∧ setEntry (cacheSet s) 0 = some w ∧ setHas w s.devno = true ∧ setEntry (cacheSet s) 1 = none ∧
    issues s (g 0) ∧ (getBar (bar { Barrier.none with owed := [(0, 3, 0)] }) 0).owed.find? (fun o => o.1 == serialOf s 0) = some (0, 3, 0) ∧
    (arrivalOf (getBar (bar { Barrier.none with arr := [(0, 3, true)] }) 0) 0).isSome = true ∧ arrivalOf (getBar s 0) 0 = none ∧
    quietAcc s 0 = true ∧ awaitsBefore s 0 s.nextId = false ∧ roomForEffect s ∧
    quietAcc (updCtx s 0 fun x => { x with flushes := [5] }) 0 = false := by
  and_intros
  all_goals first | decide +kernel | (refine ok_of ?_; decide +kernel) | (unfold plainDesc; decide +kernel) | (unfold roomForEffect; decide) | rfl

/-- RingLinkCodingWords: OPEN with no ring free, with a wrong field, beyond the window and right; CLOSE and PLREL with and without a ring;
LNCTL's selectors at the ends of their ranges, the last wavelength of a group; the coding words' region and size; KSTAT before and after a
configuration. -/
theorem test_witness_RingLinkCodingWords :
    let d := tDesc [(0, 1), (1, 1), (2, 1), (3, 2), (4, 0x1000), (5, 64)]
    let f (x : BitVec 61) : Fields := tFields 0 (.s 1) (.vq 1 0) (.long x) .none .none
    let s := tWith d
    let ring : Ring := ⟨0, 0, 9, 1, 1, 2, 0, 0x1000, 64, 0, 3, 0, none, none, 0, 0, none⟩
    let r1 := { s with fab := { s.fab with rings := [(0, ring)] } }
    let full := { s with fab := { s.fab with rings := (upTo 16).map fun g => (g, ring) } }
    let off := { s with fab := { s.fab with rx := (upTo 8).drop 1 |>.map fun c => (c, { Wave.reset with st := 7 }) } }
    let cfg := { s with cod := { Cod.reset with cfg := true, k := 2, m := 1, entries := [(0, 1#64 <<< 63)], regions := [(1, ⟨[0x10000000]⟩)], rbld := some (1, 3) } }
    issues s (f 0) ∧ plHeld s 0 = false ∧ replaying s 0 = false ∧ freeRing full = none ∧ freeRing s = some 0 ∧ openField d = none ∧
    openField (tDesc [(3, 1)]) = some 3 ∧ dField d 4 + 2 * dField d 5 ≤ spLen s 0 ∧ ¬ dField (tDesc [(4, 0x1FF000), (5, 0x1000)]) 4 + 2 * 0x1000 ≤ spLen s 0 ∧
    (ownRing r1 0 0).isSome = true ∧ ownRing s 0 0 = none ∧ quietAcc r1 0 = true ∧ ring.land ≤ 3 ∧ 2 < ring.land ∧ roomForEffect s ∧
    (me tSup).mode = true ∧ issues tSup (f 0) ∧ (me s).mode = false ∧ 511 < 512 ∧ 4095 < 4096 ∧ groupBase s 4088 = 4088 ∧ groupBase s 4095 ≠ 4095 ∧
    (inStripe (getWave off false 0) = true ∧ activeWidth off false 0 = 1 ∧ hasAlt off 0 = false) ∧ activeWidth s false (4096 + 16 * 30) ≠ 0 ∧
    activeWidth { s with fab := { s.fab with rx := (upTo 16).map fun c => (4096 + c, { Wave.reset with st := 7 }) } } false 4096 = 0 ∧
    tPush s 5 = true ∧ locate tSup 0 .pushRead 0x10000000 (upTo 512) 64 (· == .global) = .ok ⟨.global, (upTo 512).map (0x10000000 + ·), 0x10000000⟩ ∧
    pageLimit s 0 [(0x10000000, .pushWrite)] = .ok () ∧ pushPages s 0 [(0x10000000, .pushWrite)] = .ok [0x10000000] ∧ classOf 0x10000000 = some .global ∧
    parityPage s 0x10000000 = false ∧ s.cod.cfg = false ∧ cfg.cod.cfg = true ∧ (mapGet 0 cfg.cod.entries 0).getLsbD 63 = true ∧
    (mapGet 0 cfg.cod.entries 31).getLsbD 63 = false ∧ mapFind cfg.cod.regions 1 = some ⟨[0x10000000]⟩ ∧ mapFind cfg.cod.regions 63 = none ∧
    cfg.cod.rbld = some (1, 3) ∧ s.cod.rbld = none := by
  and_intros
  all_goals first | decide +kernel | (refine ok_of ?_; decide +kernel) | (unfold roomForEffect; decide) | rfl


/-- An Ed448 key, RFC 8032 section 7.4 (blank). -/
def tKey : List Byte := leBytes 57 0x806125e8afbe1afad16c0fe5f13d78d61b06c7469b7624f1ed7867e9805da70e8a1f0ea7852434a11d6ad46a61ec87e72cfd61b4599b44d75f
/-- The trailer of an empty image of version 3 for that key, and its signature. -/
def tTrailer : List Byte :=
  leBytes 16 (0x53494731 + 3 * 2 ^ 64) ++
  leBytes 64 0xbec4b7b3ac2e294086b49a47491c82fcf692b5679d0105cb00f2c0d8ddc45dd72f76d56e64270cb5821bb862ea52cd3f24eb3e74eb3f3b23138da80b2bddb946 ++
  tKey ++ [0, 0, 0] ++
  leBytes 116 0x87b6f2e1e7ccca55b052666664a3bb3e7944e21171ca4d19259a98fd7aafffc5395a0b21542b48ae9858bbbb3dbedda9a3a679cf3221131005162b9b89f2efbe940d90e932edb28db7e6d943e2867d62e7e7df96291751c3b880af89fe700ad8acdd31032cf8de17dbd3bf325b10371ac

/-- Ed448 of the empty message: RFC 8032 section 7.4 (blank). -/
theorem test_ed448 : edVerify tKey ((leBytes 114 0x533a37f6bbe457251f023c0d88f976ae2dfb504a843e34d2074fd823d41a591f2b233f034f628281f2fd7a22ddd47d7828c59bd0a21bfd3980ff0d2028d4b18a9df63e006c5d1c2d345b925d8dc00b4104852db99ac5c7cdda8530a113a0f4dbb61149f05a7363268c71d95808ff2e652600).reverse) [] = true := by
  decide +kernel

/-- BringUpAndHost: an image that passes, where the part's fused digest is that of its key (the digest is the part's own, log entry 12); one
that does not. -/
theorem test_witness_imagePasses :
    (Config.fusedKeyDigest 0 = shake256 tKey 64 → imagePasses 0 3 [] tTrailer = true) ∧ imagePasses 0 0 [] [] = false := by
  refine ⟨fun h => ?_, rfl⟩
  have hk : trBytes tTrailer 0x50 57 = tKey := by decide +kernel
  have hv : edVerify tKey (trBytes tTrailer 0x8C 114) (tTrailer.take 0x8C) = true := by decide +kernel
  have hs : shake256 [] 64 = trBytes tTrailer 0x10 64 := by decide +kernel
  unfold imagePasses
  rw [hk, hv, h, hs]
  decide +kernel


/-- The device at stage 4, its number assigned. -/
def tHost : State := { tBase with mgt := { Mgt.reset with stage := 4, setdev := true } }
/-- A page table at 0x40000 that maps the first 64 GiB onto themselves. -/
def tTable : List Host.Cell := memPut [] (cellsAt 0x40000 (leBytes 8 0x1F))
/-- A control block in Global at 0x20000: context mask 1, four contexts, LQMAX 2, FABSH 1. -/
def tRcb : State := { tHost with mem := memPut [] (cellsAt 0x20000 (leBytes 64 (2 ^ 64 + (4 + 2 * 2 ^ 16 + 2 ^ 32) * 2 ^ 128 + 0x1000 * 2 ^ 192))) }

/-- BringUpAndHost: each stage; a busy mailbox and a free one, before and after stage 3 and SETDEV; a block that makes a root region, its
teardown's two cases; the windows' pages. -/
theorem test_witness_BringUpAndHost :
    let root : State := { tHost with regions := [(5, { tLive with parent := 0 })] }
    let torn : State := { tHost with regions := [(5, { tLive with state := .torn })] }
    let h := handleOf root 5
    let w := (upTo 8).map fun i => memNat tRcb.mem (0x20000 + 8 * i) 8
    let r := rcbOf w none
    (State.reset.mgt.stage = 0 ∧ State.reset.mgt.failed = false) ∧ tHost.mgt.mbWait = none ∧ ¬ 3 ≤ State.reset.mgt.stage ∧ 3 ≤ tHost.mgt.stage ∧
    ({ tHost with mgt := { tHost.mgt with mbWait := some (3, 1, 2) } } : State).mgt.mbWait.isSome = true ∧ tHost.mgt.setdev = true ∧
    0x20000 % 64 = 0 ∧ busyHome tRcb [0x20000] = false ∧ r.inh = 0 ∧ rcbZeros w = true ∧ rcbRange r = true ∧ freeIndex tRcb = some 1 ∧
    hostRoot root h = some 5 ∧ (getRegion root 5).state ≠ .torn ∧ hostRoot torn (handleOf torn 5) = some 5 ∧ (getRegion torn 5).state = .torn ∧
    hostRoot root 0 = none ∧ tHost.cod.regions = [] ∧ tHost.nests = [] ∧ (∀ d, d < 4 → (getCommons tHost d).busy = false) ∧
    (∀ x ∈ tHost.accs, x.ctx ≠ unitCtx) ∧ classOf 0x20000 = some .global ∧ (getRegion root 5).state ≠ .free ∧ live root 5 = true ∧ live root 4 = false ∧
    (getRegion root 5).parent = 0 ∧ holdsRead tHost [0, 1] = false ∧ (∀ a ∈ ([0, 1] : List Nat), a ∉ tHost.poison) ∧
    (tHost.accs.any fun x => x.ctx == 512 && overlaps x.addrs [0, 1]) = false := by
  and_intros
  all_goals first | decide +kernel | rfl

/-- ClocksAndPower: TIME in progress and none; window boundaries and other cycles; a cause present for a millisecond; a change requested,
stopping and stopped, a pending write of each array register. -/
theorem test_witness_ClocksAndPower :
    let k : Cluster := .reset
    let with_ (k : Cluster) : State := { tBase with clusters := [(0, k)] }
    let off := with_ { k with ccy := 1 }
    let slow := with_ { k with lowered := 1, clkLast := none }
    let req (p : Nat) (c : Cluster) := with_ { c with clkReq := some (95, p) }
    let stopped := { k with stopped := true, clkStop := some 0 }
    tBase.mgt.timeRoot = none ∧ ({ tHost with mgt := { tHost.mgt with timeRoot := some 0, timed := true } } : State).mgt.timed = true ∧
    (getCluster tBase 0).stopped = false ∧ (getCluster (with_ stopped) 0).stopped = true ∧ tBase.gtsstat.getLsbD 30 = false ∧
    atBoundary (getCluster tBase 0) = true ∧ atBoundary (getCluster off 0) = false ∧
    (mapFind ({ k with thrAt := [(3, 7)] } : Cluster).thrAt 3 = some 7 ∧ (7#64).toNat + 1000000 ≤ (1000007#64).toNat) ∧
    20 ≤ (20#16).toInt ∧ (19#16).toInt < 20 ∧ (getCluster tBase 0).vmarg.toNat < 100 ∧
    ((getCluster slow 0).clkReq = none ∧ (getCluster slow 0).curPct.toNat ≠ planOf (getCluster slow 0)) ∧
    (0#64).toNat < (1#64).toNat + 100000 ∧ (getCluster (req 0 k) 0).clkReq = some (95, 0) ∧ coresQuiet (req 1 k) 0 = true ∧
    ((getCluster (req 1 stopped) 0).clkStop = some 0 ∧ (1499#64).toNat < (0#64).toNat + 1500 ∧ (0#64).toNat + 1500 ≤ (1500#64).toNat ∧
      (getCluster (req 1 stopped) 0).heldEv = []) ∧
    arrayIdle tBase 0 = true ∧ (0xF#64).truncate 4 &&& k.bandok ≠ 0 ∧ (0#64).truncate 4 &&& k.bandok = 0 ∧
    (getCluster (with_ { k with modeNext := some 2, gapNext := some 3, bandsNext := some 1 }) 0).bandsNext = some 1 := by
  and_intros
  all_goals first | decide +kernel | rfl

/-- A nest of the region 5 with one iteration in each dimension, in its launch queue, ready. -/
def tNest : Nest := { newNest 5 1 tRecord none false 0 with place := .hw, ready := true, relId := 0 }
/-- The device at stage 4 with region 5 live, and its nest 0. -/
def tNests (g : Region) (x : Nest) : State := { tHost with regions := [(5, g)], nests := [(0, x)], nextNest := 1 }

/-- DispatchAndNests: a record on its way, of each kind; the die's choice, and none; a nest whose tasks have ended, with and without a
counter to advance. -/
theorem test_witness_DispatchAndNests :
    let g := { tLive with cmask := BitVec.allOnes 64, spb := 4096 }
    let fly (p : NPlace) : State := tNests g { tNest with place := p, left := true }
    let s := tNests g tNest
    let ended := { tNest with place := .gone, next := 1, ended := 1 }
    let cnt (v : Nat) : Nest := { ended with recd := tRecord ||| BitVec.ofNat 512 (v * 2 ^ 320) }
    let cls := classes s
    flyingOf (fly (.flying none)) 5 = some 0 ∧ flyingOf s 5 = none ∧ flyingOf (fly .arriving) 5 = some 0 ∧
    (tNest.place = .hw ∧ live s 5 = true ∧ live (tNests { g with state := .torn } tNest) 5 = false) ∧ malformed tRecord = false ∧ hwHeld (fly .arriving) 5 < g.lqmax ∧
    holdsWrite s ((upTo 64).map (0x30000 + ·)) = false ∧ choose cls (ready s 0) = some (0, tNest) ∧ choose cls (ready tHost 0) = none ∧ s.mgt.stage = 4 ∧
    (pickCtx s 5).isSome = true ∧ savedFirst s cls (mapGet 0 cls 0) = false ∧ (∀ c, (pickCtx s 5).map (·.1) = some c → starvedAt s c = false) ∧
    (nestDone ended = true ∧ tasksQuiet (tNests g ended) ended = true) ∧ nestDone tNest = false ∧ doneWord (tNests g ended) ended = .none ∧
    doneWord (tNests g ended) (cnt 0x10000001) = .bad ∧ doneWord { tNests { g with root := 0x40000 } ended with mem := tTable } (cnt 0x10000001) = .at 0x10000000 ∧ s.cod.regions = [] ∧
    holdsWrite s ((upTo 8).map (0x10000000 + ·)) = false := by
  and_intros
  all_goals first | decide +kernel | rfl | (intro c h; revert h; decide +kernel)

/-- EndsAndWaits: a region in each state, a teardown that has everything ended and one that has not; an EXITING context that has drained;
each wait past its deadline, with its counter at its target and below it. -/
theorem test_witness_EndsAndWaits :
    let tear : State := { tHost with regions := [(5, { tLive with state := .tearing, parent := 0 }), (6, { tLive with state := .torn, parent := 5 })] }
    let busy : State := { tear with nests := [(0, tNest)] }
    let out := tArch fun a => { a with phase := .exiting }
    let park (k : ParkKind) (t : W64) : State := updArch tBase 0 fun a => { a with phase := .waiting, park := some ⟨k, 1, some 0, 0x30000, t, 0⟩ }
    stuck tBase = none ∧ (getRegion tear 5).state = .tearing ∧ tornDown tear (subtree tear 5) = true ∧ tornDown busy (subtree busy 5) = false ∧
    (getRegion tear 6).state = .torn ∧ ¬ (∃ p ∈ tear.regions, p.2.parent = 6 ∧ p.2.state ≠ .free) ∧ (getArch out 0).phase = .exiting ∧ drained out 0 = true ∧
    (getArch tBase 0).phase ≠ .exiting ∧ (getCtx tBase 0).cut = false ∧ frozenAt (park .waitg 0) 0 = false ∧
    (getArch (park .waitg 0) 0).park = some ⟨.waitg, 1, some 0, 0x30000, 0, 0⟩ ∧ (0#64).toNat ≤ (park .waitg 0).gts.toNat ∧
    ¬ (1#64).toNat ≤ (park .waitg 0).gts.toNat ∧ holdsRead (park .nwait 0) ((upTo 8).map (0x30000 + ·)) = false ∧
    poisoned (park .nwait 0) ((upTo 8).map (0x30000 + ·)) = false ∧ (0#64).toNat % 2 ^ 32 ≤ memNat tBase.mem 0x30000 8 % 2 ^ 32 ∧
    memNat tBase.mem 0x30000 8 % 2 ^ 32 < (1#64).toNat % 2 ^ 32 := by
  and_intros
  all_goals first | decide +kernel | rfl

/-- FaultsAndAborts: a fault waiting; a domain halted and not; a token, a request and a statement that are taken and that are dropped; a
collection that has lasted long enough and one that has not. -/
theorem test_witness_FaultsAndAborts :
    let fatal : State := { tBase with fatals := [(0, 1, 0, 0)] }
    let halted : State := { State.reset with mgt := { Mgt.reset with halted := [3] } }
    let k : Cod := { Cod.reset with cfg := true, pelid := 7, coord := true, live := [0], entries := [(0, 0)] }
    let pkt (kind : PKind) (a : List W64) : Packet := ⟨0, 1, 0, 0, kind, 0, a, [], 0, none, false, 0, 0⟩
    let with_ (p : Packet) : State := { tBase with cod := k, fab := { Fab.reset with inbox := [p] } }
    let coll (t : W64) (l : List (Nat × Nat)) : State := { with_ (pkt .statement [7, 2, 0, 5, 1]) with gts := 100000, cod := { k with collect := some (34, 0, t, l) } }
    fatal.fatals = [(0, 1, 0, 0)] ∧ (getCtx fatal 0).bind.isSome = true ∧ frozenAt fatal 0 = false ∧ 3 ∈ halted.mgt.halted ∧ 4 ∉ halted.mgt.halted ∧
    (∀ p ∈ halted.ctxs, p.2.bind = none) ∧ (with_ (pkt .token [7, 0, 2])).fab.inbox[0]? = some (pkt .token [7, 0, 2]) ∧
    (7, 2, (0 : W64)) ∉ k.tokens ∧ k.collect = none ∧ coordGone (with_ (pkt .token [])) = false ∧ coordGone { tBase with gts := 100000, cod := { k with coord := false, role := 1 } } = true ∧
    (coll 0 [(0, 0)]).cod.collect = some (34, 0, 0, [(0, 0)]) ∧ 2 = 34 / 16 ∧ (([(0, 0)] : List (Nat × Nat)).any fun e => e.1 == 1) = false ∧
    (∀ i ∈ k.live, ∃ e ∈ ([(0, 0)] : List (Nat × Nat)), e.1 = memberDev k i) ∧ 100000 ≤ (coll 0 []).gts.toNat - (0#64).toNat ∧
    (coll 1 []).gts.toNat - (1#64).toNat < 100000 := by
  and_intros
  all_goals first | decide +kernel | rfl


/-- LandingsAndFetch: results due and not; a value that has arrived; a line, a walk that ends and one that fails, a trap that can be taken. -/
theorem test_witness_LandingsAndFetch :
    let due := tArch fun a => { a with fx := [⟨0, 0, .sreg 1 7 0⟩, ⟨9, 0, .sreg 2 8 0⟩], seq := 1 }
    let l : Landing := ⟨0, 0, [.sreg 1 7 0], some 2, none, none⟩
    let land := updCore due 0 fun k => { k with landings := [l], fetchWait := [7], walks := [(0x40000, 0x1000), (0, 5)] }
    let table : State := { land with mem := tTable }
    let p : TrapRec := ⟨0x0D, 0, 12, 16, [], 0⟩
    let trap := updCore (tArch fun a => { a with pend := some p }) 0 fun k => { k with tbase := 0x4000 }
    ((getArch due 0).fx.filter fun x => decide (x.due ≤ ccyOf due 0)).length = 1 ∧ (∀ x ∈ (getArch due 0).fx, ∀ n v, x.upd ≠ .sysreg n v) ∧ (getArch tBase 0).fx = [] ∧
    (getCore land 0).landings[0]? = some l ∧ frozenAt land 0 = false ∧ l.seq < (getArch land 0).seq ∧ (getCore tBase 0).landings[0]? = none ∧
    (getCore land 0).fetchWait = [7] ∧ land.walker = [] ∧ land.poison = [] ∧ land.poisonTab = [] ∧
    walk land 0 (5 * 0x10000) = .error (1, false) ∧ (getCore land 0).tlb.length < 128 ∧
    walk table 0x40000 (0x1000 * 0x10000) = .ok ⟨0x40000, 0, 2, 0, true, true, true, 7⟩ ∧
    (getArch trap 0).pend = some p ∧ (getCtx trap 0).apend = none ∧ (getCtx trap 0).late = [] ∧ p.cyc ≤ ccyOf trap 0 ∧ (getArch trap 0).fx = [] ∧ (getCore trap 0).held = [] ∧
    (getArch trap 0).tcause.getLsbD 63 = false ∧ (getCore trap 0).tbase ≠ 0 ∧ trapWaits tBase 0 = false := by
  and_intros
  all_goals first | decide +kernel | rfl | (intro x h n v e; simp [tArch, getArch, getCtx, updArch, updCtx] at h; rcases h with rfl | rfl <;> cases e)

/-- CheckerEvents: a check point held, before and after its four cycles; a push; a point that has mismatched before. -/
theorem test_witness_CheckerEvents :
    let h (e : Eff) : Held := ⟨0, 0, 0x40, 4, e, [], 0, 0, 0⟩
    let at_ (cc : W64) (e : Eff) (m : List (Nat × W64)) : State :=
      { updCore tBase 0 (fun k => { k with held := [h e], misses := m }) with clusters := [(0, { Cluster.reset with ccy := cc })] }
    let c := mkCmd tBase 0 (tFields 0 .none .none .none .none .none) 2 (.nop (tFields 0 .none .none .none .none .none)) 0
    (getCore (at_ 3 .mark []) 0).held = [h .mark] ∧ ccyOf (at_ 3 .mark []) 0 < 4 ∧ 4 ≤ ccyOf (at_ 4 .mark []) 0 ∧
    (at_ 4 .mark []).fab.dirs = [] ∧ nextStamped (at_ 4 .mark []) 0 = none ∧ rcbHeld (at_ 4 (.push c) []) (h (.push c)) = false ∧ c.q ≤ 5 ∧
    (getCtx (at_ 4 (.push c) []) 0).cut = false ∧ (0, 0x40#64) ∉ (getCore (at_ 4 .mark []) 0).misses ∧ (0, 0x40#64) ∈ (getCore (at_ 4 .mark [(0, 0x40)]) 0).misses ∧
    (getCore tBase 0).held = [] := by
  and_intros
  all_goals first | decide +kernel | rfl

/-- MemoryEvents: a write and an atomic that can be applied, and one whose page a home holds; a read that can perform, one behind a write;
uncorrectable bytes; a host load waiting too long; a line to write back. -/
theorem test_witness_MemoryEvents :
    let loc : Loc := ⟨.global, (upTo 8).map (0x30000 + ·), 0x30000⟩
    let acc (k : AccKind) (d : Dest) : Access := mkAcc tBase 0 k (if k = .wr then loc.addrs.zip (leBytes 8 9) else []) loc 0 none d none none
    let with_ (x : Access) : State := { tBase with accs := [x], nextId := 1 }
    let w : Access := { acc .wr .none with wseq := some 1 }
    let m : Access := { acc (.amo 0 8 1) (.scalar 1 8 false 0) with wseq := some 1 }
    let r := acc .rd (.scalar 1 8 false 0)
    let held : State := { with_ w with cod := { Cod.reset with cfg := true, role := 1, m := 1, k := 1, st := .prepared, regions := [(0, ⟨[0x30000]⟩)] } }
    let bad : State := { with_ r with poison := [0x30000] }
    getAcc (with_ w) 0 = some w ∧ w.host = false ∧ beyondCommons (with_ w) w.addrs = false ∧ canApply (with_ w) w = true ∧ holdsWrite (with_ w) w.addrs = false ∧
    holdsWrite held w.addrs = true ∧ canApply (with_ (acc .wr .none)) (acc .wr .none) = false ∧ canApply (with_ m) m = true ∧ poisoned (with_ m) m.addrs = false ∧
    atomicReads m = true ∧ (getArch (with_ m) 0).phase ≠ .halted ∧ (∀ a ∈ m.addrs, repairable (with_ m) a = false) ∧ m.addrs ≠ [] ∧ (with_ w).cod.regions = [] ∧
    canRead (with_ r) r = true ∧ r.dest ≠ .none ∧ canRead (with_ { r with strong := some 1, wseq := none }) r = true ∧ poisoned bad r.addrs = true ∧
    (getCtx (updCtx tBase 0 fun x => { x with flushes := [2 * 0xC0] }) 0).flushes = [0x180] ∧
    (let x : Access := { r with host := true, wseq := some 0 }; getAcc (with_ x) 0 = some x ∧ ccyOf (with_ x) 0 < (0#64).toNat + 50000) := by
  and_intros
  all_goals first | decide +kernel | rfl

/-- A command of queue q at the head of context 0's queue. -/
def tCmd (s : State) (q : Nat) (i : Instr) (d : Quarter) : State := updCtx s 0 fun x => { x with cmds := [mkCmd s 0 (tFields 0 .none .none .none .none .none) q i d] }
/-- The command so pushed. -/
def tHead (s : State) (q : Nat) (i : Instr) (d : Quarter) : Cmd := mkCmd s 0 (tFields 0 .none .none .none .none .none) q i d

/-- MatrixLoadsDrains: each command of the array unit and the loader chosen, and none; a shadow plane with another tag; a tile to drain; an
image that is one and one that is not. -/
theorem test_witness_MatrixLoadsDrains :
    let f : Fields := tFields 0 .none .none .none .none .none
    let d := tRow 0x14 0 [(4, 1), (5, 64)]
    let e := tDesc [(2, 1), (3, 1), (12, 0x14 * 2 ^ 8)]
    let dr := tDesc [(0, 64), (1, 1), (2, 1), (3, 1), (8, 4), (12, 2 + 0x10 * 2 ^ 8 + 0x10 * 2 ^ 16)]
    let chosen (l : Bool) (q : Nat) (i : Instr) (d : Quarter) : Prop := pickMx (mxAsk (tCmd tBase q i d) 0) 0 l = some (0, q, tHead tBase q i d)
    let tag (t : Nat) : State := updMx tBase 0 fun m => { m with shadow := { Plane.empty with tag := t } }
    pickMx (mxAsk tBase 0) 0 true = none ∧ pickMx (mxAsk tBase 0) 0 false = none ∧ chosen true 0 (.mldw f) d ∧ chosen true 0 (.mldw f) e ∧ chosen true 0 (.mcbt f) 0 ∧
    (getArch tBase 0).phase ≠ .exiting ∧ (mxOf tBase 0).runs = [] ∧ (mxOf (tag 0x12) 0).shadow.tag ≠ 0 ∧ (mxOf (tag 0x12) 0).shadow.tag ≠ dSfmt d ∧
    (mxOf (tag 0x14) 0).shadow.tag = dSfmt d ∧ dTotal d ≠ 0 ∧ dTotal e = 0 ∧ stepElems d ≤ 256 ∧ dEng d = 0 ∧
    (let s := updMx tBase 0 fun m => { m with ready := true }; pickMx (mxAsk (tCmd s 0 (.mswap f) 0) 0) 0 false = some (0, 0, tHead s 0 (.mswap f) 0)) ∧ atBoundary (getCluster tBase 0) = true ∧ (mxOf tBase 0).swap = none ∧ chosen false 0 (.mdrain f) dr ∧ chosen false 0 (.mzero f) 0 ∧
    chosen false 0 (.msave f) 0 ∧ chosen false 0 (.mrest f) 0 ∧ chosen false 0 (.msavePl f) 0 ∧ chosen false 0 (.mrestPl f) 0 ∧
    engBad tBase 0 [(0, tileImage)] = false ∧ imageOk 1 [] = false ∧ imageOk 1 (tileBytes tBase 0 0 |>.take 64) = true := by
  and_intros
  all_goals first | decide +kernel | rfl

/-- MatrixMultiply: an MMUL chosen, on a plane whose tag it accepts and on one it does not, at a depth held and beyond it; rows before and at
their landing, with replays left and none. -/
theorem test_witness_MatrixMultiply :
    let f : Fields := tFields 0 .none .none .none .none .none
    let d := tRow 0x14 0 [(4, 1)]
    let plane (t n : Nat) : Plane := { Plane.empty with tag := t, depth := n }
    let s (t n : Nat) : State := updMx (tCmd tBase 0 (.mmul f) d) 0 fun m => { m with active := plane t n }
    let row : MxRow := ⟨0, 0, 0, 0, 0, 0x14, 0, false, false, false, false, false, [], [], plane 0x14 2, 0, 520, 0⟩
    let rows (cc : W64) (n : Nat) : State := { tBase with clusters := [(0, { Cluster.reset with ccy := cc, mx0 := { MxCore.reset with rows := [{ row with replays := n }] } })] }
    let run : MxRun := ⟨0, 0, 1, 1, 0, 0, false, false, 0, 0, [], none, 520, false, none, 0⟩
    let runs (r : MxRun) : State := updMx (updCluster tBase 0 fun k => { k with ccy := 2000 }) 0 fun m => { m with runs := [r] }
    pickMx (mxAsk (s 0x14 2) 0) 0 false = some (0, 0, tHead (s 0x14 2) 0 (.mmul f) d) ∧ mxAccepts 0x14 (dSfmt d) = true ∧ mxAccepts 0x12 (dSfmt d) = false ∧ dTotal d ≠ 0 ∧
    32 * bitsOf (tHead (s 0x14 2) 0 (.mmul f) d).x5.toNat 12 8 + stepElems d ≤ depthOf (s 0x14 2) 0 0x14 ∧ ¬ 32 * 31 + stepElems d ≤ depthOf (s 0x14 2) 0 0x14 ∧
    (mxOf (s 0x14 2) 0).runs = [] ∧ (519#64).toNat < row.inj + row.lf ∧ row.inj + row.lf ≤ (520#64).toNat ∧ (mxOf (rows 520 0) 0).rows = [row] ∧
    (511#64).toNat + 8 < row.inj + row.lf ∧ row.inj + row.lf ≤ (512#64).toNat + 8 ∧ 0 < (getCluster (rows 512 0) 0).maxRetry.toNat ∧
    (getCluster (rows 512 3) 0).maxRetry.toNat ≤ 3 ∧ (mxOf tBase 0).rows = [] ∧ runsDue (runs run) 0 = [run] ∧
    (runsDue (runs { run with comp := true }) 0 = [] ∧ failDue (runs { run with comp := true }) 0 = none ∧
      (mxOf (runs { run with comp := true }) 0).runs.find? (runReady (runs { run with comp := true }) 0) = some { run with comp := true }) := by
  and_intros
  all_goals first | decide +kernel | rfl

/-- AttentionEvents: each attention command chosen in each phase of a session; a session of one query row of 64 elements, a ring step not yet
released. -/
theorem test_witness_AttentionEvents :
    let f : Fields := tFields 0 .none .none .none .none .none
    let q := tDesc [(0, 64), (1, 1), (2, 1), (3, 1), (4, 2), (12, 1 + 0x12 * 2 ^ 8)]
    let kv := tDesc [(0, 64), (1, 1), (2, 1), (3, 1), (4, 2), (8, 2), (12, 1 + 0x12 * 2 ^ 8 + 0x12 * 2 ^ 16)]
    let fin := tDesc [(0, 64), (1, 1), (2, 1), (3, 1), (8, 4), (12, 2 + 0x10 * 2 ^ 8 + 0x10 * 2 ^ 16)]
    let sess (n : Nat) : State := updCtx tBase 0 fun x => { x with sess := { Session.reset with phase := n, tOut := 1, ts := 2, d := 64, m := 1, qfmt := 0x12 } }
    let ring : Ring := ⟨0, 0, 9, 1, 1, 2, 0, 0, 0x1000, 0, 3, 0, none, none, 0, 0, none⟩
    let rung : State := { sess 2 with fab := { Fab.reset with rings := [(0, ring)] } }
    let chosen (s : State) (i : Instr) (d : Quarter) : Prop := pickMx (mxAsk (tCmd s 1 i d) 0) 0 false = some (0, 1, tHead s 1 i d)
    chosen tBase (.acfg f) 0 ∧ chosen (sess 2) (.arst f) 0 ∧ chosen (sess 1) (.aldq f) q ∧ chosen (sess 0) (.aldq f) q ∧ chosen (sess 2) (.akv f) kv ∧ chosen (sess 1) (.akv f) kv ∧
    chosen (sess 2) (.afin f) fin ∧ chosen rung (.akvPl f) kv ∧ modBit (tFields 1 .none .none .none .none .none) 80 = true ∧
    engBad (choosing (mxAsk (tCmd (sess 1) 1 (.aldq f) q) 0) 0 0 1) 0 (walkRows 0 q 4) = false ∧ dTrip q 0 = (sessOf (sess 2) 0).d ∧
    sessTile (sess 1) 0 0 ≠ sessTile (sess 1) 0 1 ∧ sessTile (sess 1) 0 0 ≠ sessTile (sess 1) 0 2 ∧ sessTile (sess 1) 0 1 ≠ sessTile (sess 1) 0 2 ∧
    ownRing rung 0 0 = some ring ∧ ring.wm ≤ 0 ∧ (∀ p ∈ slotRows kv, 0 ≤ p.1 ∧ p.1 + p.2 ≤ (ring.blk : Int)) ∧ pickMx (mxAsk tBase 0) 0 false = none ∧
    maskedKey 1 0 0 1 = true ∧ maskedKey 0 0 0 1 = false := by
  and_intros
  all_goals first | decide +kernel | rfl

/-- CopyEngine: a command to start and none; one that has moved every element, one with a block to move whose source reads well and one whose
source does not; a promise due; a gate at its head with an entry behind it; a hold; a counter awaited. -/
theorem test_witness_CopyEngine :
    let f : Fields := tFields 0 .none .none .none .none .none
    let d := tDesc [(0, 64), (1, 1), (2, 1), (3, 1), (4, 1), (8, 1)]
    let k := tHead tBase 2 (.cpy f) d
    let with_ (l : List Cmd) : State := updCtx tBase 0 fun x => { x with cmds := l }
    let run : Cmd := { k with started := true }
    let done : Cmd := { run with prog := 64 }
    let glob (p : List Nat) : State := { updCtx tBase 0 (fun x => { x with cmds := [{ run with x1 := 0x10000000, x3 := 0x10000000 }] }) with poison := p }
    let rd := (blockOf run 0).map fun i => (srcOf { run with x3 := 0x10000000 } i, 1)
    let gate : Cmd := { tHead tBase 2 (.carm f) 0 with aux := [0x40] }
    let held := updCtx tBase 0 fun x => { x with cphold := 1#64 }
    copyStartable (copyAsk (with_ [k]) 0) 0 = some k ∧ executing (copyAsk (with_ [k]) 0) 0 = none ∧
    rrPick (copyAsk (with_ [k]) 0) (classes (with_ [k])) 511 [0] = some 0 ∧ isGate k = false ∧ k.promise = 0 ∧
    executing (with_ [run]) 0 = some (0, run) ∧ (getCtx (with_ [run]) 0).skid = none ∧ executing (with_ [done]) 0 = some (0, done) ∧ dTotal d ≤ done.prog ∧
    (cmdsOf (with_ [done]) 0 2).find? (fun y => y.seq == done.seq) = some done ∧ headGate (with_ [done]) 0 2 = none ∧ run.prog < dTotal d ∧ run.aux = [] ∧
    placeOf (with_ [run]) 0 (dstBase run) ≠ .remote ∧ engHeld (with_ [run]) 0 rd [] = false ∧ engBad (glob []) 0 rd = false ∧ engBad (glob [0x10000000]) 0 rd = true ∧
    (getCtx tBase 0).cpctl.getLsbD 1 = true ∧ missDue (with_ [run]) run = false ∧
    missDue { with_ [{ run with promise := 1 }] with gts := 2 } { run with promise := 1 } = true ∧
    headGate (with_ [gate, k]) 0 2 = some gate ∧ isGate gate = true ∧ cmdsOf (with_ [gate, k]) 0 2 = [gate, k] ∧
    (getCtx held 0).cphold.getLsbD 0 = true ∧ (getCtx tBase 0).cphold.getLsbD 0 = false ∧
    lcPhase (spNat tBase 0x40 8) ≠ (1#64).getLsbD 0 := by
  and_intros
  all_goals first | decide +kernel | rfl

/-- CommonsUnits: each bank command chosen, within the Commons, with and without elements left and with a length none fits; a repartition; a
watch that has woken and one that waits. -/
theorem test_witness_CommonsUnits :
    let f : Fields := tFields 0 .none .none .none .none .none
    let s (i : Instr) (k : Cmd → Cmd) : State :=
      updCtx (tMap 0x8000000000) 0 fun x => { x with cmds := [k { mkCmd (tMap 0x8000000000) 0 f 3 i 0 with x1 := 0x20000000, x3 := 64, x4 := 64, mask := 3 }] }
    let taken (i : Instr) (kind : Instr → Bool) (g : Cmd → Cmd) : Bool := (bankTake (bankAsk (s i g) 0) 0 kind).isSome
    let busy : State := { tBase with commons := [(0, { Commons.reset with busy := true, target := 3, size := 3 })] }
    let watch : Watch := ⟨0, 0, 0, 0x8000000000, 8, 1, 0, false, some 0, none⟩
    taken (.bred f) bredKind id = true ∧ taken (.bredBlock f) bredKind id = true ∧ taken (.bsum f) bsumKind id = true ∧ taken (.bfill f) bfillKind id = true ∧
    taken (.bclr f) bclrKind id = true ∧ taken (.bclr f) bclrKind (fun k => { k with prog := 8 }) = true ∧ taken (.bclr f) bclrKind (fun k => { k with aux := [1] }) = true ∧
    bankTake (bankAsk tBase 0) 0 bredKind = none ∧ (∀ a ∈ bankBytes (tMap 0x8000000000) 0 0x20000000 0 64, commonsOk tBase a = true) ∧
    busyHome tBase (bankBytes (tMap 0x8000000000) 0 0x20000000 0 64) = false ∧ (getCommons busy 0).busy = true ∧ (getCommons tBase 0).busy = false ∧
    ({ tBase with watches := [watch] } : State).watches.find? (fun w => w.ctx == 0) = some watch ∧ watchBefore tBase watch ⟨1, zeroStamp, 0, 0⟩ = false := by
  and_intros
  all_goals first | decide +kernel | rfl


/-- A packet for device 0 from device 1 of the same group. -/
def tPkt (kind : PKind) (a : List W64) (data : List Byte) : Packet := ⟨0, 1, 4, 0, kind, 0, a, data, 0, none, false, 0, 0⟩
/-- It has arrived. -/
def tIn (p : Packet) (k : Cod) : State := { tSet tBase with fab := { (tSet tBase).fab with inbox := [p], nextTag := 5 }, cod := k }

/-- FabricArrivals: packets of this device, for it and for another; requests whose turn it is and is not, refused and done; a reply to a direct
access and to a transfer; each overdue; a failure to take. -/
theorem test_witness_FabricArrivals :
    let rld := { tPkt .rld [0, 0, 0, 0, 0, 0, 8] [] with vl := 0 }
    let table (p : Nat) : State := { tIn rld .reset with fab := { (tIn rld .reset).fab with expCache := some [[0, 0x1000, 2 ^ p, 0x10000000 ||| 0]] } }
    let d : Direct := ⟨0, 0, 0, 0, 1, 1, 0, 0, false, zeroStamp, .rld, [], [], .sent, 0, 0, .scalar 1 8 false 0, none, none, [], none⟩
    let wait (st : DirSt) : State := { tIn (tPkt .reply [] (leBytes 8 7)) .reset with fab := { (tIn (tPkt .reply [] (leBytes 8 7)) .reset).fab with dirs := [{ d with st := st }] } }
    let old : State := { wait .sent with clusters := [(0, { Cluster.reset with ccy := 100000 })] }
    let aw : Await := ⟨0, 0, 4, 0, 0, 1, 0, 0⟩
    let bulk : State := { tIn (tPkt .reply [] []) .reset with fab := { (tIn (tPkt .reply [] []) .reset).fab with awaits := [aw] } }
    (tPkt .rld [] []).src ≠ tBase.devno ∧ (tPkt .rld [] []).dst = tBase.devno ∧ ({ tPkt .rld [] [] with dst := 5 } : Packet).dst ≠ tBase.devno ∧
    mcEntering (tPkt .rld [] []) = false ∧ tBase.fab.inbox.find? mcEntering = none ∧ 2 ^ 23 ≤ (0x800000#64).toNat ∧
    (table 0).fab.inbox[0]? = some rld ∧ isRequest rld = true ∧ reqFirst (table 0) 0 rld = true ∧ stampCovers (appliedAll (table 0)) (stampFrom (reqWords (table 0) rld)) = true ∧
    isRequest (tPkt .reply [] []) = false ∧
    (wait .sent).fab.dirs.find? (fun e => e.tag == 0 && e.peer == 1 && e.st == .sent) = some d ∧ (wait .sent).fab.inbox[0]? = some (tPkt .reply [] (leBytes 8 7)) ∧
    bulk.fab.dirs.find? (fun e => e.tag == 0 && e.peer == 1 && e.st == .sent) = none ∧ bulk.fab.awaits.find? (fun a => a.tag == 0 && a.peer == 1) = some aw ∧
    old.fab.dirs.find? (fun e => e.tag == 0 && e.st == .sent && e.late.isNone && overdue old e.ctx e.cyc) = some d ∧ overdue tBase 0 0 = false ∧
    nextFailure tBase 0 = none ∧ nextFailure (wait (.failed 2)) 0 = some ({ d with st := .failed 2 }, 2) ∧ frozenAt (wait (.failed 2)) 0 = false ∧
    saving (wait (.failed 2)) 0 = false := by
  and_intros
  all_goals first | decide +kernel | rfl

/-- BulkTransfers: a transfer of each kind at the head, with a block to send, one sent, one that failed and none left; the peer reachable and
not; a set entry and none; a copy owed through a port. -/
theorem test_witness_BulkTransfers :
    let f : Fields := tFields 0 .none .none .none .none .none
    let d := tDesc [(0, 64), (1, 1), (2, 1), (3, 1), (4, 1), (8, 1)]
    let rem : W64 := 0x8000020000000000
    let k (i : Instr) (src dst : W64) : Cmd := { mkCmd (tSet tBase) 0 f 4 i d with x1 := dst, x3 := src, started := true }
    let s (c : Cmd) : State := updCtx (tSet tBase) 0 fun x => { x with cmds := [c] }
    let put := k (.rput f) 0 rem
    let rd := (blockOf put 0).map fun i => (srcOf put i, 1)
    let mc : State := { s (k (.mcast f) 0 0) with fab := { (tSet tBase).fab with mcbuf := [(3, tPkt .mcast [] [7], [1])] } }
    fabHead (s put) 0 rputKind = some put ∧ fabHead (s (k (.rget f) rem 0)) 0 rgetKind = some (k (.rget f) rem 0) ∧
    fabHead (s (k (.mcast f) 0 0)) 0 mcastKind = some (k (.mcast f) 0 0) ∧ fabHead (tSet tBase) 0 rputKind = none ∧ (s put).fab.dirs = [] ∧
    put.prog < dTotal d ∧ dTotal d ≤ ({ put with prog := 64 } : Cmd).prog ∧ put.aux = [] ∧ fabHead (s { put with aux := [5, 2] }) 0 rputKind = some { put with aux := [5, 2] } ∧
    headGate (s put) 0 4 = none ∧ (resOf (s put) 0 4).length < 16 ∧ placeOf (s put) 0 (srcBase put) ≠ .remote ∧ placeOf (s put) 0 (srcBase put) ≠ .host ∧
    engHeld (s put) 0 rd [] = false ∧ engBad (s put) 0 rd = false ∧ placeOf (s put) 0 (dstBase put) = .remote ∧ peerOf (dstBase put) = 1 ∧
    reachable (s put) 1 = true ∧ reachable tBase 1 = false ∧ portClear (s put) 0 (laneOf put) put = true ∧ (s put).fab.setCache.isSome = true ∧
    (setEntry (s put) 0).isSome = true ∧ setEntry (s put) 5 = none ∧ mcBytes (s put) + 64 ≤ 0x100000 ∧
    (∀ w, setEntry (s put) 0 = some w → ∀ x ∈ setXs w, reachable (s put) (32 * setGroup w 0 + x) = true) ∧
    mc.fab.mcbuf.find? (fun e => e.1 == 3) = some (3, tPkt .mcast [] [7], [1]) ∧ mc.fab.stopped.contains (65536, (4 : Nat)) = false := by
  and_intros
  all_goals first | decide +kernel | rfl | (intro w h; have : w = [7, 3, 1#64 <<< 48, 0] := by revert h; unfold setEntry; intro h; exact (Option.some.inj h).symm; subst this; decide +kernel)

/-- Collectives: each message, short of a group's members and with all of them; a release to pass on, an old one and the present one; a
deadline; a reduction to start, to pass on and to end. -/
theorem test_witness_Collectives :
    let f : Fields := tFields 0 .none .none .none .none .none
    let w : List W64 := [7, 3, 1#64 <<< 48, 0]
    let s (p : Packet) (b : Barrier) : State := { tIn p .reset with fab := { (tIn p .reset).fab with bars := [(0, b)] } }
    let arr := tPkt .arrive ([0, 0] ++ w) []
    let half : Barrier := { Barrier.none with devs := [(0, 0, 7)] }
    let grp := tPkt .groupArrive ([0, 0, 0] ++ w) []
    let rel (k : W64) := tPkt .release ([0, 0, 0, k] ++ w) []
    let red := tPkt .redArrive ([0, 0, 0, 0, 0] ++ w) []
    let park : Park := ⟨.gsync, 1, some 0, 0, 0, 0⟩
    let parked : State := updArch (s (rel 0) { Barrier.none with arr := [(0, 0, false)] }) 0 fun a => { a with phase := .waiting, park := some park }
    let k : Cmd := mkCmd (tSet tBase) 0 f 4 (.gred f) 0
    let cmd (c : Cmd) : State := updCtx (tSet tBase) 0 fun x => { x with cmds := [c] }
    (s arr .none).fab.inbox[0]? = some arr ∧ (s arr .none).fab.setCache.isSome = true ∧ 1 < (setXs w).length ∧ (setXs w).length ≤ (half.devs ++ [(1, 0, 7)]).length ∧
    setEntry (s grp .none) 0 = some w ∧ setGroups w ≤ 1 ∧ (s (rel 1) .none).fab.inbox[0]? = some (rel 1) ∧ (rel 1).args.getD 3 0 = 1 ∧ (rel 0).args.getD 3 0 ≠ 1 ∧
    (0 : Nat) < ({ Barrier.none with gen := 1 } : Barrier).gen ∧ (s red .none).fab.inbox[0]? = some red ∧ parked.fab.bars = [(0, { Barrier.none with arr := [(0, 0, false)] })] ∧
    ctxOfSerial parked 0 = some 0 ∧ gsyncParked parked 0 0 = some park ∧ frozenAt parked 0 = false ∧ arrivalOf (getBar parked 0) (serialOf parked 0) = some 0 ∧
    (0#64).toNat ≤ parked.gts.toNat ∧ fabHead (tSet tBase) 0 gredKind = none ∧ (fabHead (cmd k) 0 gredKind).isSome = true ∧ (gredSet (cmd k) k).isSome = true ∧
    gredSet { cmd k with fab := { (cmd k).fab with setCache := some [] } } k = none ∧ gredRank k < setCnt w ∧ headGate (cmd k) 0 4 = none := by
  and_intros
  all_goals first | decide +kernel | rfl

/-- RingAndLinkEvents: a send of a ring that is the task's and of none; a landing in its slot, one too large and one of no ring; a watermark; each
wavelength state; a lane group that may park and one with parked wavelengths; a route that may change. -/
theorem test_witness_RingAndLinkEvents :
    let f : Fields := tFields 0 .none .none .none .none .none
    let ring : Ring := ⟨0, 0, 9, 1, 1, 2, 0, 0, 64, 0x1000, 0, 0, some 8, none, 0, 0, none⟩
    let rung (p : Packet) : State := { tIn p .reset with fab := { (tIn p .reset).fab with rings := [(0, ring)] } }
    let k : Cmd := mkCmd (tSet tBase) 0 f 4 (.plsend f) 0
    let sending : State := updCtx (rung (tPkt .reply [] [])) 0 fun x => { x with cmds := [k] }
    let land (tot : W64) := { tPkt .landing [9, 0, 0, 0, tot] (leBytes 8 1) with vl := 6 }
    let wm := { tPkt .watermark [9, 2] [] with vl := 6 }
    let wave (n : Nat) : State := { tSet tBase with fab := { (tSet tBase).fab with rx := [(0, { Wave.reset with st := n })], pkt := 1, alts := [(1, 2)] } }
    (fabHead sending 0 plsendKind).isSome = true ∧ fabHead (tSet tBase) 0 plsendKind = none ∧ ownRing sending 0 0 = some ring ∧ sendWrong sending 0 k = false ∧
    reachable sending ring.succ = true ∧ sending.fab.dirs = [] ∧ inboxAt (rung (land 8)) 0 .landing = some (land 8) ∧ inboxAt (rung wm) 0 .landing = none ∧
    vl6First (rung (land 8)) 0 (land 8) = true ∧ reqFirst (rung (land 8)) 0 (land 8) = true ∧
    ringFor (rung (land 8)) 9 (fun r => r.pred == 1) = some (0, ring) ∧ ringFor (rung (land 8)) 8 (fun r => r.pred == 1) = none ∧ ctxOfSerial (rung (land 8)) 0 = some 0 ∧
    ring.blk < 65 ∧ (0 : Nat) + 8 ≤ 8 ∧ 8 ≤ ring.blk ∧ inboxAt (rung wm) 0 .watermark = some wm ∧ (getWave (wave 0) false 0).st = 0 ∧ (getWave (wave 1) false 0).st = 1 ∧
    (getWave (wave 2) false 0).st = 2 ∧ (getWave (wave 3) false 0).st = 3 ∧ (getWave (wave 4) false 0).st = 4 ∧ ((wave 0).fab.pkt ≠ 0 ∧ (getLg (wave 0) false 0).park = true) ∧
    laneBusy (tSet tBase) 1 0 = false ∧ routeUp (tSet tBase) 1 = true ∧ (wave 0).fab.modeReq.find? (fun m => m.1 == 3) = none := by
  and_intros
  all_goals first | decide +kernel | rfl

/-- CodingProtocol: each message at a member it is for and at one it is not; the states a round stands in; a beat due and not; a member silent and
heard; a coordinator silent; a query open and none. -/
theorem test_witness_CodingProtocol :
    let data : Cod := { Cod.reset with have_ := true, cfg := true, role := 1, self := 0, k := 1, m := 1, live := [0, 1], entries := [(0, 0), (1, 1)], pelid := 7, regions := [(0, ⟨[0x30000]⟩)] }
    let parity : Cod := { data with role := 2, self := 1, entries := [(0, 1), (1, 0)], coord := true }
    let x : Stage := ⟨0, 1, 0, 0, [0]⟩
    let del := tPkt .delta [1, 0, 0, 0, 0] [5]
    let ack := tPkt .ack [1, 0, 1] []
    let conf := tPkt .config [1] []
    let lost := tPkt .lost [0] []
    let qr := tPkt .queryReply [1, 0, 0, 1] []
    inboxAt (tIn del parity) 0 .delta = some del ∧ parityHere (tIn del parity) = true ∧ parityHere (tIn del data) = false ∧ inboxAt (tIn del parity) 0 .mark = none ∧
    parg del 0 = parity.c + 1 ∧ (mapFind parity.regions (parg del 1)).isSome = true ∧ mapFind ({ parity with regions := [] } : Cod).regions 0 = none ∧
    ({ parity with stages := [x] } : Cod).stages.find? (fun x => x.round == 1 && x.region == 0 && x.off == 0) = some x ∧
    inboxAt (tIn ack { data with st := .preparing }) 0 .ack = some ack ∧ dataHere (tIn ack { data with st := .preparing }) = true ∧
    (∀ c, c < 512 → codHead (tIn ack data) c = none) ∧ (∀ j ∈ liveParity { data with st := .preparing }, ∃ a ∈ [(1, 0)], a.1 = j ∧ sentTo data j ≤ a.2) ∧
    decidedAs (tIn del parity) 1 1 = false ∧ allIn (tIn del parity) = false ∧ lostEarly (tIn del parity) = false ∧ parity.querying = false ∧
    allIn (tIn del { parity with live := [1], prep := [(0, 1)], stag := [(1, 1)] }) = true ∧ stageLost (tIn del { parity with st := .staged }) 1 = false ∧
    journalLost (tIn del { data with st := .rollback }) = false ∧
    (tIn conf { data with cfg := false }).fab.inbox.find? (fun p => p.kind == .config && (p.args.headD 0 != 0 || true)) = some conf ∧ parg conf 0 = 1 ∧
    data.ownBeat.toNat + 10000 ≤ (10000#64).toNat ∧ (9999#64).toNat < data.ownBeat.toNat + 10000 ∧ (mapGet 0 parity.lastBeat 0).toNat + 100000 ≤ (100000#64).toNat ∧
    0 ∈ parity.live ∧ inboxAt (tIn lost parity) 0 .lost = some lost ∧ lost.src = memberDev parity 0 ∧ parg lost 0 ≠ parity.self ∧ (∀ d ∈ parity.decided, d.1 ≠ 1) ∧
    data.coord = false ∧ inboxAt (tIn qr { parity with querying := true }) 0 .queryReply = some qr ∧ parg qr 3 = 1 := by
  and_intros
  all_goals first | decide +kernel | rfl

/-- CodingRebuildCommands: a request the coordinator takes, and one of a member not lost; a stream for this spare; a granule to repair; each coding
command chosen, in the states it answers in. -/
theorem test_witness_CodingRebuildCommands :
    let f : Fields := tFields 0 .none .none .none .none .none
    let data : Cod := { Cod.reset with have_ := true, cfg := true, role := 1, self := 0, k := 1, m := 1, live := [0, 1], entries := [(0, 0), (1, 1)], pelid := 7, regions := [(0, ⟨[0x30000]⟩)] }
    let parity : Cod := { data with role := 2, self := 1, entries := [(0, 1), (1, 0)], coord := true, lost := [0], live := [1] }
    let ask := tPkt .rebuild [0, 0, 0x50500000002] []
    let stream := tPkt .stream [0, 0, 0, 1, 0] [5]
    let req := tPkt .streamReq [0, 0, 0, 3, 2] []
    let spare : Cod := { data with role := 3, self := 2, rbld := some (0, 3), rbSurv := [1], rbDone := [1] }
    let s (k : Cod) (i : Instr) (x : W64) : State := updCtx { tBase with cod := k } 0 fun y => { y with cmds := [{ mkCmd tBase 0 f 5 i 0 with x1 := x }] }
    let taken (k : Cod) (i : Instr) (x : W64) : Bool := codAt (s k i x) 0 false == some { mkCmd tBase 0 f 5 i 0 with x1 := x }
    inboxAt (tIn ask parity) 0 .rebuild = some ask ∧ parg ask 0 ≠ 1 ∧ parityHere (tIn ask parity) = true ∧ 0 ∈ parity.lost ∧ clashes (tIn ask parity) 0x50500000002 = false ∧
    parity.k ≤ parity.live.length ∧ roundOpen (tIn ask parity) = false ∧ inboxAt (tIn req data) 0 .streamReq = some req ∧ parg req 2 = tBase.devno ∧
    inboxAt (tIn stream spare) 0 .stream = some stream ∧ mapFind spare.regions 0 = some ⟨[0x30000]⟩ ∧ (∀ i ∈ spare.rbSurv, i ∈ spare.rbDone) ∧
    (let u : State := { tIn req data with poison := [0x30000] }; granBad u 0x30000 = true ∧ granBad tBase 0x30000 = false ∧ repairable u 0x30000 = true) ∧
    taken .reset (.kcfg f) 0 = true ∧ taken data (.kprot f) 1 = true ∧ taken data (.kunpr f) 0 = true ∧ taken data (.kopen f) 1 = true ∧
    taken { data with st := .opened } (.kprep f) 1 = true ∧ taken { data with st := .prepared } (.kcomt f) 1 = true ∧ taken data (.kabrt f) 1 = true ∧
    taken spare (.krbld f) 0 = true ∧ taken data (.kscrb f) 0 = true ∧
    rrPick (s data (.kopen f) 1) (classes (s data (.kopen f) 1)) 511 [0] = some 0 ∧ (∀ c, c < 128 → codAt (s data (.kopen f) 1) c true = none) ∧
    holdsRead tBase [0x10000000] = false ∧ recOk [] = false := by
  and_intros
  all_goals first | decide +kernel | rfl

/-- SaveAndRestore: a save that can be made; a direct access outstanding 2,000 cycles and fewer; a late one's entry; no restore to make. -/
theorem test_witness_SaveAndRestore :
    let q : SaveReq := ⟨0, 2, 0, 0x40000, 0, 0, none, 0⟩
    let s : State := { tBase with saveReqs := [q] }
    let d : Direct := ⟨0, 0, 0, 0, 1, 1, 0, 0, false, zeroStamp, .rld, [], [], .sent, 0, 0, .scalar 1 8 false 0, none, none, [], some 0x50000⟩
    let late : State := { tIn (tPkt .reply [] (leBytes 8 7)) .reset with fab := { (tIn (tPkt .reply [] (leBytes 8 7)) .reset).fab with dirs := [d] } }
    s.saveReqs.find? (fun q => !((getArch s q.ctx).phase == .running || (getArch s q.ctx).phase == .waiting) || saveQuiet s q.ctx) = some q ∧
    (getArch s 0).phase = .running ∧ (getCtx s 0).bind = some placeBind ∧ wordsConfirmed s 0 = true ∧ s.cod.regions = [] ∧ s.commons = [] ∧ q.who ≠ byProgress ∧
    ccyOf s 0 < q.cyc + 2000 ∧ q.cyc + 2000 ≤ ccyOf { s with clusters := [(0, { Cluster.reset with ccy := 2000 })] } 0 ∧ (getCore s 0).held = [] ∧
    latePlace d = some 0x50000 ∧ late.fab.dirs.find? (fun d => d.tag == 0 && d.peer == 1 && d.st == .sent && (latePlace d).isSome) = some d ∧
    holdsWrite late ((upTo 192).map fun i => 0x50000 + i) = false ∧ s.restoreReqs = [] ∧ restoreOrder s = [] ∧ secLen (imageAt tBase 0x40000) 6 = 0 := by
  and_intros
  all_goals first | decide +kernel | rfl


/-- The word ADD s5, s4, s2 placed where the next step fetches it. -/
def tPlaced : State := State.withFetchWord State.reset 128 0x0100000000002005_2004200200000000

/-- StepRunsDecoded: the placed word is fetched and decoded by the one context that may issue, from a line and a page the core holds; an event at
the agenda's head; an empty agenda. -/
theorem test_witness_StepRunsDecoded :
    let u := landDue { tPlaced with agenda := [] }
    tPlaced.agenda = [.issue 0] ∧ coreBusy u 0 = false ∧ mayIssue u 0 = true ∧ (∀ d, d < 4 → d ≠ 0 → mayIssue u d = false) ∧
    (getArch u 0).pc = 0x10000000 ∧ translate u 0 0x10000000 .fetch = .hit 0x10000000 ∧ classOf 0x10000000 = some .global ∧
    (getCore u 0).lines.contains (0x10000000 / lineBytes) = true ∧ poisoned u ((upTo 16).map fun n => 0x10000000 + n) = false ∧ fetchReady u 0 0x10000000 = true ∧
    decodeWord (wordAt u 0 0x10000000) = .ok (.add (tFields 0 (.s 5) (.s 4) (.s 2) .none .none)) ∧
    slotUsed (tNext (.add (tFields 0 (.s 5) (.s 4) (.s 2) .none .none)) { u with cur := 0 }) 0 = true ∧
    (wordOf .beatSend = none ∧ wellFormed .beatSend = true ∧ State.reset.agenda = []) := by
  and_intros
  all_goals first | decide +kernel | rfl

/-- EncodeDecode, StepsGoOn, MemoryForm, WordsIsolate, MemoryWriters: a word that is well-formed; an agenda of existing units; memory in its form; a
word that answers a next state; instructions that write memory, the scratchpad, and neither. -/
theorem test_witness_frames :
    let i : Instr := .add (tFields 0 (.s 5) (.s 4) (.s 2) .none .none)
    (wordOf i).isSome = true ∧ wellFormed i = true ∧ goodAgenda tPlaced = true ∧ memWf tPlaced.mem = true ∧ memWf tPlaced.scratch = true ∧
    (match Sys2Proof.Machine.step tPlaced with | .next t => decide ((getArch t 0).seq = 1) | _ => false) = true ∧ (match exec i tBase with | .next _ => true | _ => false) = true ∧
    writesMemory i = false ∧ writesScratch i = false ∧ writesMemory .commitDecision = true ∧ writesScratch (.st (tFields 0 .none .none .none .none .none)) = true := by
  and_intros
  all_goals first | decide +kernel | rfl

/-- IdleAndGuardedWords, GuardValue: a context that is not RUNNING, has a trap waiting or waits for a token; false and true guards; a privileged
word in both modes. -/
theorem test_witness_IdleAndGuardedWords :
    let f : Fields := ⟨0x10, 0, 0, 0, 0, 0, 0, 0, .none, .none, .none, .none, .none⟩
    let w : Fields := { f with ga := 0, await := 1 }
    let trap := tArch fun a => { a with pend := some ⟨0x0D, 0, 0, 0, [], 0⟩ }
    let pend := tArch fun a => { a with slots := [(0, ⟨none, zeroStamp, 0, true, 1, some 3⟩)] }
    wordOf (.nop f) = some (0x000, 0, f) ∧ (me State.reset).phase ≠ .running ∧ trapWaits trap 0 = true ∧
    tokensWait (tArch fun a => { a with tok := 1 }) 0 w = true ∧ (me tBase).phase = .running ∧ trapWaits tBase 0 = false ∧ tokensWait tBase 0 w = false ∧
    guardVal (me tBase) f = false ∧ f.ga = 0x10 ∧ f.gc = 0 ∧ (me tBase).mode = false ∧ (me tSup).mode = true ∧ slotsPend tBase 0 = false ∧ slotsPend pend 0 = true := by
  and_intros
  all_goals first | decide +kernel | rfl

/-- VectorArithmetic, VectorBitsMasks, VectorConvert, VectorMovesReductions: floating and integer types; lanes whose sums do not overflow, and one
whose sum overflows under .OVTRAP; each comparison; a move's forms. -/
theorem test_witness_Vectors :
    let f (m : BitVec 11) : Fields := tFields m (.v 1) (.long 0x7F7FFFFF) (.long 0x7F7FFFFF) .none .none
    let sum (m : BitVec 11) (x : Nat) : FRes := fvToFmt .f32 .rne (ovOf (modBits (f m) 81 80)) (fvAdd .rne (fvOfBits .f32 x) (fvOfBits .f32 x)).1
    issues tBase (f 0) ∧ vecTy 0x10 = .flt .f32 ∧ vecTy 0x04 = .int true 32 ∧ tyCode (f 0) 0x10 = 0x10 ∧ (sum 0 0x3F800000).trap = false ∧
    (sum 3 0x7F7FFFFF).trap = true ∧ (0 < elemCount (f 0).o1 ∧ (activeOf (me tBase) (f 0).o1 .none).getLsbD (elemLane (f 0).o1 0) = true ∧ 0 < subCount 0x10) ∧
    modBits (f 8) 83 80 = 8 ∧ modBit (f 0) 82 = false ∧ subCount 0x10 = 1 ∧ (f 0).o1 = .v 1 ∧ (f 0).o5 = .none := by
  and_intros
  all_goals first | decide +kernel | rfl


/-- Words that are no instruction, each by its defect (03 R83): the opcode, a reserved bit, MOD, an operand class, its payload, its value, SETW and
HINT; and a sequence of fewer than 16 bytes. -/
theorem test_decode_rejects :
    let bad (w : IWord) (k d : Nat) : Prop := decodeWord w = .error (.illegal k d)
    bad 0xFFC00000000000000000000000000000 0 1 ∧ bad 0x00000000080000000000000000000000 0 2 ∧ bad 0x01000000040020052004200200000000 0 3 ∧
    bad 0x01000000000040052004200200000000 1 4 ∧ bad 0x01000000000020052004200220010000 4 4 ∧ bad 0x01000000000020452004200200000000 1 5 ∧
    bad 0x22800000000120032003801020042006 1 6 ∧ bad 0x4C800000020040894084803420050000 1 6 ∧ bad 0x0D400004000000000000000000000000 0 7 ∧
    bad 0x01000000200020052004200200000000 0 8 ∧ decode (List.replicate 15 0) = .error .short := by
  and_intros
  all_goals rfl

/-- WellFormed: a term that each check refuses: MOD, an operand's class and value, a long immediate beyond its field and one with an operand
after it, VUNPK's first field, SETW, HINT, a variant that is not the constructor's, and events of units the package does not have. -/
theorem test_wellFormed_refuses :
    let d : Operand := .s 5
    (wellFormed (.add (tFields 0x400 d d d .none .none)) = false ∧ wellFormed (.add (tFields 0 (.v 1) d d .none .none)) = false ∧
      wellFormed (.ldp (tFields 0 d d d (.imm 0) .none)) = false ∧ wellFormed (.add (tFields 0 d d (.long (1 <<< 44)) .none .none)) = false ∧
      wellFormed (.add (tFields 0 d d (.long 1) d .none)) = false ∧ wellFormed (.vunpk (tFields 0x200 (.v 9) (.v 4) (.imm 52) d .none)) = false ∧
      wellFormed (.exit { tFields 0 .none .none .none .none .none with setw := 8 }) = false ∧
      wellFormed (.add { tFields 0 d d d .none .none with hint := 1 }) = false ∧ wellFormed (.ropFxadd (tFields 0 .none d (.imm 0) (.v 1) d)) = false) ∧
    wellFormed (.add (tFields 0 d d d .none .none)) = true ∧
    wellFormed (.dispatch 4) = false ∧ wellFormed (.icacheFill 128) = false ∧ wellFormed (.mxshareApply 64) = false ∧ wellFormed (.trapEntry 512) = false ∧
    goodActivity (.issue 128) = false ∧ goodActivity (.event (.add (tFields 0 d d d .none .none))) = false := by
  and_intros
  all_goals rfl

/-- A placed word runs as the next step: ADD s5, s4, s2 of zeros counts one word and leaves s5 on its way (06 R148, R151). -/
theorem test_step_add : (match Sys2Proof.Machine.step tPlaced with
    | .next t => decide ((getArch t 0).pc = 0x10000010 ∧ (getArch t 0).seq = 1 ∧ (getArch t 0).fx.map (·.upd) = [.sreg 5 0 0])
    | _ => false) = true := by decide +kernel
/-- A word of all zeros is NOP, and one of all ones traps: at reset with no handler, the context halts (03 R69, R83; 06 R166). -/
theorem test_step_illegal : (match Sys2Proof.Machine.step (State.withFetchWord State.reset 128 (2 ^ 128 - 1)) with
    | .next t => decide ((getArch t 0).phase = .halted ∧ t.fatals.map (fun x => (x.1, x.2.1)) = [(0, 1)])
    | _ => false) = true := by decide +kernel


/-! The spec's own worked cases. -/

/-- A vector with x in lane 0 and y in the others. -/
def tLanes (x y : Nat) : VReg := (upTo 64).foldl (fun v l => v ||| (BitVec.ofNat 2048 (if l = 0 then x else y) <<< (32 * l))) 0
/-- The vector results and the flags a word has on their way. -/
def tLands (s : State) : List Nat × Nat :=
  ((getArch s 0).fx.flatMap fun x => match x.upd with | .lanes _ _ v _ => [(lane v 0).toNat, (lane v 1).toNat, (lane v 63).toNat] | .sreg _ v _ => [v.toNat] | _ => [],
    (getArch s 0).fx.foldl (fun n x => match x.upd with | .flags b => n ||| b.toNat | _ => n) 0)

/-- 04, a packed E4M3 add with overflow beside a NaN: lane 0, lane 1 and the flags OF and NX under each policy; the trap. -/
theorem test_packed_add :
    let s := tArch fun a => { a with vreg := [(1, tLanes 0xB038FF7A 0x38383838), (2, tLanes 0x30383878 0x38383838)] }
    let f (m : BitVec 11) : Fields := tFields m (.v 3) (.v 1) (.v 2) .none .none
    let t (p : BitVec 11) := tNext (.vadd (f (p ||| (0x34 : BitVec 11) <<< 5))) s
    tLands (t 0) = ([0x00407F7E, 0x40404040, 0x40404040], 5) ∧ tLands (t 1) = ([0x00407F7F, 0x40404040, 0x40404040], 5) ∧
    tLands (t 2) = ([0x00407F7F, 0x40404040, 0x40404040], 5) ∧ (getArch (t 3) 0).fx = [] ∧ ((getArch (t 3) 0).pend.map fun r => (r.val, r.ovm.map (·.2))) = some (1, [1, 0, 0, 0, 0, 0, 0, 0]) := by
  decide +kernel

/-- 08, the requantisation of 1003, −1004 and 0: round to nearest even, and up; IO is set. -/
theorem test_vqnt :
    let s := tArch fun a => { a with
      vreg := [(16, (tLanes 1003 0) ||| ((0xFFFFFC14 : VReg) <<< 32))], sreg := [(2, 0x40000000), (3, 0x000A0021)] }
    let f (m : BitVec 11) : Fields := tFields m (.v 20) (.v 16) (.s 2) (.s 3) .none
    tLands (tNext (.vqnt (f 0x40)) s) = ([0x7F, 0xFFFFFF8C, 0xA], 32) ∧ tLands (tNext (.vqnt (f 0x48)) s) = ([0x7F, 0xFFFFFF8D, 0xA], 32) := by
  decide +kernel

/-- 08, the packed dot product: the leaf 11. -/
theorem test_vdot :
    let s := tArch fun a => { a with vreg := [(1, tLanes 0x010203FF 0), (2, tLanes 0x04020203 0)] }
    tLands (tNext (.vdot (tFields 0x440 (.s 9) (.v 1) (.v 2) .none .none)) s) = ([11], 0) := by decide +kernel

/-- 11, three additions in two orders in F32, and in FX64. -/
theorem test_commons_order :
    let sum (t : RedTy) (l : List Nat) : Nat := l.foldl (fun x y => (combine t .add false x y).1) 0
    sum (.flt .f32) [0x4B800000, 0x3F800000, 0x3F800000] = 0x4B800000 ∧ sum (.flt .f32) [0x3F800000, 0x3F800000, 0x4B800000] = 0x4B800001 ∧
    sum .fx [0x0100000000000000, 0x100000000, 0x100000000] = 0x0100000200000000 := by decide +kernel

/-- 09, five rows of a plain MMUL on core 1 under ALT16, C = 4, from CCY 100: the cycles of injection, and the completion at 148. -/
theorem test_injections : injections 0 1 4 6 100 1 = [112, 116, 120, 124, 144, 148] := by decide +kernel

/-- 03 R69 to R82: the scalar words. -/
theorem test_decode_scalar :
    decodeWord 0x00000000000000000000000000000000 = .ok (.nop (tFields 0 .none .none .none .none .none)) ∧
    decodeWord 0x00400000000020019FFB000000000000 = .ok (.movi (tFields 0 (.s 1) (.imm 8187) .none .none .none)) ∧
    decodeWord 0x00800000000020022003800700000000 = .ok (.movhi (tFields 0 (.s 2) (.s 3) (.imm 7) .none .none)) ∧
    decodeWord 0x00C00000000060132009000000000000 = .ok (.mov (tFields 0 (.m 3) (.s 9) .none .none .none)) ∧
    decodeWord 0x01000000004120012002200300000000 = .ok (.add (tFields 65 (.s 1) (.s 2) (.s 3) .none .none)) ∧
    decodeWord 0x01665000006120022003200400000000 = .ok (.sub ⟨19, 5, 0, 0, 0, 0, 0, 97, .s 2, .s 3, .s 4, .none, .none⟩) ∧
    decodeWord 0x01800000008120032004200500000000 = .ok (.mul (tFields 129 (.s 3) (.s 4) (.s 5) .none .none)) ∧
    decodeWord 0x01C0000000A020042005200600000000 = .ok (.mulh (tFields 160 (.s 4) (.s 5) (.s 6) .none .none)) ∧
    decodeWord 0x02000000014120052006200700000000 = .ok (.div (tFields 321 (.s 5) (.s 6) (.s 7) .none .none)) ∧
    decodeWord 0x02400000016020062007200800000000 = .ok (.rem (tFields 352 (.s 6) (.s 7) (.s 8) .none .none)) ∧
    decodeWord 0x02800000018020072008200900000000 = .ok (.and (tFields 384 (.s 7) (.s 8) (.s 9) .none .none)) ∧
    decodeWord 0x02C0000001A020082009200A00000000 = .ok (.or (tFields 416 (.s 8) (.s 9) (.s 10) .none .none)) ∧
    decodeWord 0x0300000000402009200A200B00000000 = .ok (.xor (tFields 64 (.s 9) (.s 10) (.s 11) .none .none)) ∧
    decodeWord 0x034000000060200A200B200C00000000 = .ok (.andn (tFields 96 (.s 10) (.s 11) (.s 12) .none .none)) ∧
    decodeWord 0x038000000081200B200C200D00000000 = .ok (.shl (tFields 129 (.s 11) (.s 12) (.s 13) .none .none)) ∧
    decodeWord 0x03C0000000A0200C200D200E00000000 = .ok (.shr (tFields 160 (.s 12) (.s 13) (.s 14) .none .none)) ∧
    decodeWord 0x040000000140200D200E200F00000000 = .ok (.sar (tFields 320 (.s 13) (.s 14) (.s 15) .none .none)) ∧
    decodeWord 0x044000000160200E200F201000000000 = .ok (.rot (tFields 352 (.s 14) (.s 15) (.s 16) .none .none)) ∧
    decodeWord 0x048000000180200F2010201100000000 = .ok (.min (tFields 384 (.s 15) (.s 16) (.s 17) .none .none)) ∧
    decodeWord 0x04C0000001A020102011201200000000 = .ok (.max (tFields 416 (.s 16) (.s 17) (.s 18) .none .none)) ∧
    decodeWord 0x05000000008120042005000000000000 = .ok (.abs (tFields 129 (.s 4) (.s 5) .none .none .none)) ∧
    decodeWord 0x05400000018020042005000000000000 = .ok (.clz (tFields 384 (.s 4) (.s 5) .none .none .none)) ∧
    decodeWord 0x0580000001A020042006000000000000 = .ok (.ctz (tFields 416 (.s 4) (.s 6) .none .none .none)) ∧
    decodeWord 0x05C00000014020042007000000000000 = .ok (.popc (tFields 320 (.s 4) (.s 7) .none .none .none)) ∧
    decodeWord 0x06000000000020042008801000000000 = .ok (.sext (tFields 0 (.s 4) (.s 8) (.imm 16) .none .none)) ∧
    decodeWord 0x06400000000020042008802000000000 = .ok (.zext (tFields 0 (.s 4) (.s 8) (.imm 32) .none .none)) ∧
    decodeWord 0x06800000000120042005800380090000 = .ok (.bfx (tFields 1 (.s 4) (.s 5) (.imm 3) (.imm 9) .none)) ∧
    decodeWord 0x06C00000000020042005200680038009 = .ok (.bfi (tFields 0 (.s 4) (.s 5) (.s 6) (.imm 3) (.imm 9))) ∧
    decodeWord 0x07000000000020042005200680030000 = .ok (.lea (tFields 0 (.s 4) (.s 5) (.s 6) (.imm 3) .none)) ∧
    decodeWord 0x07400000008120042005200620070000 = .ok (.mada (tFields 129 (.s 4) (.s 5) (.s 6) (.s 7) .none)) ∧
    decodeWord 0x07800000000020046005200680070000 = .ok (.sel (tFields 0 (.s 4) (.p 5) (.s 6) (.imm 7) .none)) ∧
    decodeWord 0x07C00000018260032001800100000000 = .ok (.cmp (tFields 386 (.p 3) (.s 1) (.imm 1) .none .none)) ∧
    decodeWord 0x08000000000560016002600300000000 = .ok (.plog (tFields 5 (.p 1) (.p 2) (.p 3) .none .none)) ∧
    decodeWord 0x08400000000060012002000000000000 = .ok (.pmov (tFields 0 (.p 1) (.s 2) .none .none .none)) ∧
    decodeWord 0x08800000022520012002200300000000 = .ok (.fadd (tFields 549 (.s 1) (.s 2) (.s 3) .none .none)) ∧
    decodeWord 0x08C00000020020012002200300000000 = .ok (.fmul (tFields 512 (.s 1) (.s 2) (.s 3) .none .none)) ∧
    decodeWord 0x09000000022020012002200320040000 = .ok (.ffma (tFields 544 (.s 1) (.s 2) (.s 3) (.s 4) .none)) ∧
    decodeWord 0x09400000022760012002200300000000 = .ok (.fcmp (tFields 551 (.p 1) (.s 2) (.s 3) .none .none)) ∧
    decodeWord 0x09800000022420012002800500000000 = .ok (.fcvt (tFields 548 (.s 1) (.s 2) (.imm 5) .none .none)) := by
  repeat' apply And.intro
  all_goals rfl

/-- 03 R69 to R82: the control words. -/
theorem test_decode_control :
    decodeWord 0x0C06680000009FFC0000000000000000 = .ok (.br ⟨3, 6, 1, 0, 0, 0, 0, 0, .imm 8188, .none, .none, .none, .none⟩) ∧
    decodeWord 0x0C400000000020050000000000000000 = .ok (.bri (tFields 0 (.s 5) .none .none .none .none)) ∧
    decodeWord 0x0C800000000020018014000000000000 = .ok (.call (tFields 0 (.s 1) (.imm 20) .none .none .none)) ∧
    decodeWord 0x0CC00000000020010000000000000000 = .ok (.ret (tFields 0 (.s 1) .none .none .none .none)) ∧
    decodeWord 0x0D000000000020029FFD000000000000 = .ok (.loop (tFields 0 (.s 2) (.imm 8189) .none .none .none)) ∧
    decodeWord 0x0D400000000000000000000000000000 = .ok (.exit (tFields 0 .none .none .none .none .none)) ∧
    decodeWord 0x0D800000000080090000000000000000 = .ok (.yield (tFields 0 (.imm 9) .none .none .none .none)) ∧
    decodeWord 0x0E000000000120042005C00260060000 = .ok (.popq (tFields 1 (.s 4) (.s 5) (.queue false 2) (.p 6) .none)) ∧
    decodeWord 0x0E40000000002001C00A000000000000 = .ok (.qstat (tFields 0 (.s 1) (.queue true 2) .none .none .none)) ∧
    decodeWord 0x0E80000000012001C003000000000000 = .ok (.drainq (tFields 1 (.s 1) (.queue false 3) .none .none .none)) ∧
    decodeWord 0x100000000000800C0000000000000000 = .ok (.trap (tFields 0 (.imm 12) .none .none .none .none)) ∧
    decodeWord 0x10400000000000000000000000000000 = .ok (.tret (tFields 0 .none .none .none .none .none)) ∧
    decodeWord 0x108000000000800D0000000000000000 = .ok (.brk (tFields 0 (.imm 13) .none .none .none .none)) ∧
    decodeWord 0x10C00000000020018009000000000000 = .ok (.sysrd (tFields 0 (.s 1) (.imm 9) .none .none .none)) ∧
    decodeWord 0x11000000000080092001000000000000 = .ok (.syswr (tFields 0 (.imm 9) (.s 1) .none .none .none)) ∧
    decodeWord 0x11400000000020010000000000000000 = .ok (.gtsrd (tFields 0 (.s 1) .none .none .none .none)) ∧
    decodeWord 0x11800000000020020000000000000000 = .ok (.ccyrd (tFields 0 (.s 2) .none .none .none .none)) ∧
    decodeWord 0x11C00000000020032004000000000000 = .ok (.waitg (tFields 0 (.s 3) (.s 4) .none .none .none)) ∧
    decodeWord 0x12000000000020018002000000000000 = .ok (.prio (tFields 0 (.s 1) (.imm 2) .none .none .none)) ∧
    decodeWord 0x12400000000020012002804000000000 = .ok (.ctxsv (tFields 0 (.s 1) (.s 2) (.imm 64) .none .none)) ∧
    decodeWord 0x12800000000020012002804000000000 = .ok (.ctxrs (tFields 0 (.s 1) (.s 2) (.imm 64) .none .none)) ∧
    decodeWord 0x12C00000000400000000000000000000 = .ok (.tlbinvAll (tFields 4 .none .none .none .none .none)) ∧
    decodeWord 0x12C00000000120070000000000000000 = .ok (.tlbinvPage (tFields 1 (.s 7) .none .none .none .none)) ∧
    decodeWord 0x13000000000120018005000000000000 = .ok (.trace (tFields 1 (.s 1) (.imm 5) .none .none .none)) ∧
    decodeWord 0x13400000000120012002000000000000 = .ok (.quiesce (tFields 1 (.s 1) (.s 2) .none .none .none)) ∧
    decodeWord 0x13400000000620010000000000000000 = .ok (.quiesceEnd (tFields 6 (.s 1) .none .none .none .none)) ∧
    decodeWord 0x18000000000120032014200780400000 = .ok (.launch (tFields 1 (.s 3) (.s 20) (.s 7) (.imm 64) .none)) ∧
    decodeWord 0x18400000000020012002800880032005 = .ok (.nwait (tFields 0 (.s 1) (.s 2) (.imm 8) (.imm 3) (.s 5))) ∧
    decodeWord 0x18800000000220012002200300000000 = .ok (.nstat (tFields 2 (.s 1) (.s 2) (.s 3) .none .none)) ∧
    decodeWord 0x18C00000000020018040200300000000 = .ok (.rgnmk (tFields 0 (.s 1) (.imm 64) (.s 3) .none .none)) ∧
    decodeWord 0x19000000000020040000000000000000 = .ok (.rgntd (tFields 0 (.s 4) .none .none .none .none)) ∧
    decodeWord 0x19400000000320052006000000000000 = .ok (.rgnset (tFields 3 (.s 5) (.s 6) .none .none .none)) := by
  repeat' apply And.intro
  all_goals rfl

/-- 03 R69 to R82: the memory words. -/
theorem test_decode_memory :
    decodeWord 0x20000005200020072003800800000000 = .ok (.ld ⟨0, 0, 0, 0, 10, 1, 0, 0, .s 7, .s 3, .imm 8, .none, .none⟩) ∧
    decodeWord 0x20400000000020078040200500000000 = .ok (.st (tFields 0 (.s 7) (.imm 64) (.s 5) .none .none)) ∧
    decodeWord 0x20800000000020042005200680100000 = .ok (.ldp (tFields 0 (.s 4) (.s 5) (.s 6) (.imm 16) .none)) ∧
    decodeWord 0x20C00000000020048010200620070000 = .ok (.stp (tFields 0 (.s 4) (.imm 16) (.s 6) (.s 7) .none)) ∧
    decodeWord 0x21000000000040432005804060110000 = .ok (.ldv (tFields 0 (.vq 3 2) (.s 5) (.imm 64) (.m 1) .none)) ∧
    decodeWord 0x21400000000020058040408300000000 = .ok (.stv (tFields 0 (.s 5) (.imm 64) (.v 3) .none .none)) ∧
    decodeWord 0x21800000000240812002800440836014 = .ok (.ldvg (tFields 2 (.v 1) (.s 2) (.imm 4) (.v 3) (.m 4))) ∧
    decodeWord 0x21C00000000120028004408340856016 = .ok (.stvs (tFields 1 (.s 2) (.imm 4) (.v 3) (.v 5) (.m 6))) ∧
    decodeWord 0x22000000043F20012002800820030000 = .ok (.amo (tFields 1087 (.s 1) (.s 2) (.imm 8) (.s 3) .none)) ∧
    decodeWord 0x22400000004120012002800820032004 = .ok (.cas (tFields 65 (.s 1) (.s 2) (.imm 8) (.s 3) (.s 4))) ∧
    decodeWord 0x22800000000120022003801020042006 = .ok (.cas2 (tFields 1 (.s 2) (.s 3) (.imm 16) (.s 4) (.s 6))) ∧
    decodeWord 0x22C00000003F00000000000000000000 = .ok (.fence (tFields 63 .none .none .none .none .none)) ∧
    decodeWord 0x23000000000060200000000000000000 = .ok (.tclr (tFields 0 .ctl .none .none .none .none)) ∧
    decodeWord 0x23400000000020014082000000000000 = .ok (.tadd (tFields 0 (.s 1) (.v 2) .none .none .none)) ∧
    decodeWord 0x23800000000020014062000000000000 = .ok (.trd (tFields 0 (.s 1) (.vq 2 3) .none .none .none)) ∧
    decodeWord 0x23C00000000000000000000000000000 = .ok (.tfold (tFields 0 .none .none .none .none .none)) ∧
    decodeWord 0x24000000000020288000200120010000 = .ok (.spillm (tFields 0 (.s 40) (.imm 0) (.s 1) (.s 1) .none)) ∧
    decodeWord 0x24400000000040842028800040870000 = .ok (.fillm (tFields 0 (.v 4) (.s 40) (.imm 0) (.v 7) .none)) ∧
    decodeWord 0x24800000000020018000000000000000 = .ok (.pref (tFields 0 (.s 1) (.imm 0) .none .none .none)) ∧
    decodeWord 0x24C00000000120012002800000000000 = .ok (.xlate (tFields 1 (.s 1) (.s 2) (.imm 0) .none .none)) ∧
    decodeWord 0x25000000000120018000000000000000 = .ok (.flushl (tFields 1 (.s 1) (.imm 0) .none .none .none)) := by
  repeat' apply And.intro
  all_goals rfl

/-- 03 R69 to R82: the vector words. -/
theorem test_decode_vector :
    decodeWord 0x40000410168040834081408200000000 = .ok (.vadd ⟨0, 0, 0, 130, 0, 0, 1, 1664, .v 3, .v 1, .v 2, .none, .none⟩) ∧
    decodeWord 0x40400000020040234001406260110000 = .ok (.vsub (tFields 512 (.vq 3 1) (.vq 1 0) (.vq 2 3) (.m 1) .none)) ∧
    decodeWord 0x40800000008040834081200200000000 = .ok (.vmul (tFields 128 (.v 3) (.v 1) (.s 2) .none .none)) ∧
    decodeWord 0x40C00000064040834081408240846015 = .ok (.vfma (tFields 1600 (.v 3) (.v 1) (.v 2) (.v 4) (.m 5))) ∧
    decodeWord 0x41000000020040834081408220040000 = .ok (.vfms (tFields 512 (.v 3) (.v 1) (.v 2) (.s 4) .none)) ∧
    decodeWord 0x41400000008040834081601200000000 = .ok (.vneg (tFields 128 (.v 3) (.v 1) (.m 2) .none .none)) ∧
    decodeWord 0x41800000020040834081000000000000 = .ok (.vabs (tFields 512 (.v 3) (.v 1) .none .none .none)) ∧
    decodeWord 0x41C00000018040834081800500000000 = .ok (.vmin (tFields 384 (.v 3) (.v 1) (.imm 5) .none .none)) ∧
    decodeWord 0x42000000066040834081408500000000 = .ok (.vmax (tFields 1632 (.v 3) (.v 1) (.v 5) .none .none)) ∧
    decodeWord 0x42400000008040834081408200000000 = .ok (.vmulh (tFields 128 (.v 3) (.v 1) (.v 2) .none .none)) ∧
    decodeWord 0x428000000000408040819FFF00000000 = .ok (.vand (tFields 0 (.v 0) (.v 1) (.imm 8191) .none .none)) ∧
    decodeWord 0x42C000000000408140819FFF00000000 = .ok (.vor (tFields 0 (.v 1) (.v 1) (.imm 8191) .none .none)) ∧
    decodeWord 0x430000000000408240819FFF00000000 = .ok (.vxor (tFields 0 (.v 2) (.v 1) (.imm 8191) .none .none)) ∧
    decodeWord 0x43400000046040804081800300000000 = .ok (.vshl (tFields 1120 (.v 0) (.v 1) (.imm 3) .none .none)) ∧
    decodeWord 0x43800000046040814081800300000000 = .ok (.vshr (tFields 1120 (.v 1) (.v 1) (.imm 3) .none .none)) ∧
    decodeWord 0x43C00000046040824081800300000000 = .ok (.vsar (tFields 1120 (.v 2) (.v 1) (.imm 3) .none .none)) ∧
    decodeWord 0x44000000044040814082000000000000 = .ok (.vclz (tFields 1088 (.v 1) (.v 2) .none .none .none)) ∧
    decodeWord 0x44400000054040814082601300000000 = .ok (.vpopc (tFields 1344 (.v 1) (.v 2) (.m 3) .none .none)) ∧
    decodeWord 0x44800000018860114082408300000000 = .ok (.vcmp (tFields 392 (.m 1) (.v 2) (.v 3) .none .none)) ∧
    decodeWord 0x44C00000000040816012408320040000 = .ok (.vsel (tFields 0 (.v 1) (.m 2) (.v 3) (.s 4) .none)) ∧
    decodeWord 0x45000000000360116012601300000000 = .ok (.vmlog (tFields 3 (.m 1) (.m 2) (.m 3) .none .none)) ∧
    decodeWord 0x45400000000020016012601300000000 = .ok (.vmpop (tFields 0 (.s 1) (.m 2) (.m 3) .none .none)) ∧
    decodeWord 0x45800000000020016012000000000000 = .ok (.vmfst (tFields 0 (.s 1) (.m 2) .none .none .none)) ∧
    decodeWord 0x45C00000000040014062000000000000 = .ok (.vmov (tFields 0 (.vq 1 0) (.vq 2 3) .none .none .none)) ∧
    decodeWord 0x48000000020040814089601200000000 = .ok (.vexp2 (tFields 512 (.v 1) (.v 9) (.m 2) .none .none)) ∧
    decodeWord 0x48400000020040824089601200000000 = .ok (.vlog2 (tFields 512 (.v 2) (.v 9) (.m 2) .none .none)) ∧
    decodeWord 0x48800000020040834089601200000000 = .ok (.vrcp (tFields 512 (.v 3) (.v 9) (.m 2) .none .none)) ∧
    decodeWord 0x48C00000020040844089601200000000 = .ok (.vrsq (tFields 512 (.v 4) (.v 9) (.m 2) .none .none)) ∧
    decodeWord 0x49000000020040854089601200000000 = .ok (.vsqrt (tFields 512 (.v 5) (.v 9) (.m 2) .none .none)) ∧
    decodeWord 0x49400000020040864089601200000000 = .ok (.vtanh (tFields 512 (.v 6) (.v 9) (.m 2) .none .none)) ∧
    decodeWord 0x4C000000026040814082801200006013 = .ok (.vcvt (tFields 608 (.v 1) (.v 2) (.imm 18) .none (.m 3))) ∧
    decodeWord 0x4C400000068040844088801020050000 = .ok (.vpack (tFields 1664 (.v 4) (.v 8) (.imm 16) (.s 5) .none)) ∧
    decodeWord 0x4C800000020040884084803420050000 = .ok (.vunpk (tFields 512 (.v 8) (.v 4) (.imm 52) (.s 5) .none)) ∧
    decodeWord 0x4CC00000020040814082800300000000 = .ok (.vscale (tFields 512 (.v 1) (.v 2) (.imm 3) .none .none)) ∧
    decodeWord 0x4D000000004040814082408320040000 = .ok (.vqnt (tFields 64 (.v 1) (.v 2) (.v 3) (.s 4) .none)) ∧
    decodeWord 0x4D40000002004081408220039FFC0000 = .ok (.vdeq (tFields 512 (.v 1) (.v 2) (.s 3) (.imm 8188) .none)) ∧
    decodeWord 0x50000000000040814082800560130000 = .ok (.vbcst (tFields 0 (.v 1) (.v 2) (.imm 5) (.m 3) .none)) ∧
    decodeWord 0x50400000000120014082800300000000 = .ok (.vext (tFields 1 (.s 1) (.v 2) (.imm 3) .none .none)) ∧
    decodeWord 0x50800000000040812002800300000000 = .ok (.vins (tFields 0 (.v 1) (.s 2) (.imm 3) .none .none)) ∧
    decodeWord 0x50C00000000040814082408340840000 = .ok (.vshuf (tFields 0 (.v 1) (.v 2) (.v 3) (.v 4) .none)) ∧
    decodeWord 0x51000000000040814082800300000000 = .ok (.vrot (tFields 0 (.v 1) (.v 2) (.imm 3) .none .none)) ∧
    decodeWord 0x51400000000140814082408360140000 = .ok (.vzip (tFields 1 (.v 1) (.v 2) (.v 3) (.m 4) .none)) ∧
    decodeWord 0x51800000000140814082408300000000 = .ok (.vuzp (tFields 1 (.v 1) (.v 2) (.v 3) .none .none)) ∧
    decodeWord 0x51C00000000040814082408380070000 = .ok (.vsld (tFields 0 (.v 1) (.v 2) (.v 3) (.imm 7) .none)) ∧
    decodeWord 0x54000000008420014082601300000000 = .ok (.vredadd (tFields 132 (.s 1) (.v 2) (.m 3) .none .none)) ∧
    decodeWord 0x54400000020020014082000000000000 = .ok (.vredmax (tFields 512 (.s 1) (.v 2) .none .none .none)) ∧
    decodeWord 0x54800000018020014082000000000000 = .ok (.vredmin (tFields 384 (.s 1) (.v 2) .none .none .none)) ∧
    decodeWord 0x54C00000008140814082000000000000 = .ok (.vscan (tFields 129 (.v 1) (.v 2) .none .none .none)) ∧
    decodeWord 0x55000000044020094081408200000000 = .ok (.vdot (tFields 1088 (.s 9) (.v 1) (.v 2) .none .none)) := by
  repeat' apply And.intro
  all_goals rfl

/-- 03 R69 to R82: the engines words. -/
theorem test_decode_engines :
    decodeWord 0x600000000003402A2015800080000000 = .ok (.mldw (tFields 3 (.vq 10 1) (.s 21) (.imm 0) (.imm 0) .none)) ∧
    decodeWord 0x60400000000000000000000000000000 = .ok (.mswap (tFields 0 .none .none .none .none .none)) ∧
    decodeWord 0x60800010003AA000400A201680008000 = .ok (.mmul ⟨0, 0, 0, 2, 0, 0, 0, 58, .tile 0, .vq 10 0, .s 22, .imm 0, .imm 0⟩) ∧
    decodeWord 0x60C0000000A020178000404AA0002018 = .ok (.mdrain (tFields 160 (.s 23) (.imm 0) (.vq 10 2) (.tile 0) (.s 24))) ∧
    decodeWord 0x610000000000A0038005000000000000 = .ok (.mzero (tFields 0 (.tile 3) (.imm 5) .none .none .none)) ∧
    decodeWord 0x61400000000020018040000000000000 = .ok (.mcbt (tFields 0 (.s 1) (.imm 64) .none .none .none)) ∧
    decodeWord 0x6180000000004081A002800360140000 = .ok (.mrda (tFields 0 (.v 1) (.tile 2) (.imm 3) (.m 4) .none)) ∧
    decodeWord 0x61C000000000A0028003408100000000 = .ok (.mwra (tFields 0 (.tile 2) (.imm 3) (.v 1) .none .none)) ∧
    decodeWord 0x62000000000020018000A00400000000 = .ok (.msave (tFields 0 (.s 1) (.imm 0) (.tile 4) .none .none)) ∧
    decodeWord 0x62000000000120018000000000000000 = .ok (.msavePl (tFields 1 (.s 1) (.imm 0) .none .none .none)) ∧
    decodeWord 0x624000000000A0042001800000000000 = .ok (.mrest (tFields 0 (.tile 4) (.s 1) (.imm 0) .none .none)) ∧
    decodeWord 0x62400000000120018000000000000000 = .ok (.mrestPl (tFields 1 (.s 1) (.imm 0) .none .none .none)) ∧
    decodeWord 0x680000000000A000A001A002200F8000 = .ok (.acfg (tFields 0 (.tile 0) (.tile 1) (.tile 2) (.s 15) (.imm 0))) ∧
    decodeWord 0x68400000000020288000400A20100000 = .ok (.aldq (tFields 0 (.s 40) (.imm 0) (.vq 10 0) (.s 16) .none)) ∧
    decodeWord 0x68800000000220298000402A20180000 = .ok (.akv (tFields 2 (.s 41) (.imm 0) (.vq 10 1) (.s 24) .none)) ∧
    decodeWord 0x68800000000D20092012402A20180000 = .ok (.akvPl (tFields 13 (.s 9) (.s 18) (.vq 10 1) (.s 24) .none)) ∧
    decodeWord 0x68C000000000201E8000404A00000000 = .ok (.afin (tFields 0 (.s 30) (.imm 0) (.vq 10 2) .none .none)) ∧
    decodeWord 0x69000000000100000000000000000000 = .ok (.arst (tFields 1 .none .none .none .none .none)) ∧
    decodeWord 0x7000000000022014800020158040400A = .ok (.cpy (tFields 2 (.s 20) (.imm 0) (.s 21) (.imm 64) (.vq 10 0))) ∧
    decodeWord 0x7040000000022014800020158040400A = .ok (.cpyg (tFields 2 (.s 20) (.imm 0) (.s 21) (.imm 64) (.vq 10 0))) ∧
    decodeWord 0x7080000000022014800020158040400A = .ok (.cpys (tFields 2 (.s 20) (.imm 0) (.s 21) (.imm 64) (.vq 10 0))) ∧
    decodeWord 0x7100000000022014800020158040400A = .ok (.ctrn (tFields 2 (.s 20) (.imm 0) (.s 21) (.imm 64) (.vq 10 0))) ∧
    decodeWord 0x70C000000001201480002015400A0000 = .ok (.cfil (tFields 1 (.s 20) (.imm 0) (.s 21) (.vq 10 0) .none)) ∧
    decodeWord 0x71400000000220018008806400000000 = .ok (.lcinit (tFields 2 (.s 1) (.imm 8) (.imm 100) .none .none)) ∧
    decodeWord 0x71800000000020012002800880012005 = .ok (.lcwait (tFields 0 (.s 1) (.s 2) (.imm 8) (.imm 1) (.s 5))) ∧
    decodeWord 0x71C00000000020018008200200000000 = .ok (.lcadd (tFields 0 (.s 1) (.imm 8) (.s 2) .none .none)) ∧
    decodeWord 0x720000000000C00A201E800080060000 = .ok (.carm (tFields 0 (.queue true 2) (.s 30) (.imm 0) (.imm 6) .none)) ∧
    decodeWord 0x7840000000C020018000804000000000 = .ok (.bsum (tFields 192 (.s 1) (.imm 0) (.imm 64) .none .none)) ∧
    decodeWord 0x7880000000002003203F800820030000 = .ok (.waita (tFields 0 (.s 3) (.s 63) (.imm 8) (.s 3) .none)) ∧
    decodeWord 0x78C00000000020018000200280400000 = .ok (.bfill (tFields 0 (.s 1) (.imm 0) (.s 2) (.imm 64) .none)) ∧
    decodeWord 0x7900000000A020018000804000000000 = .ok (.bclr (tFields 160 (.s 1) (.imm 0) (.imm 64) .none .none)) ∧
    decodeWord 0x7800000000C020148000408400000000 = .ok (.bred (tFields 192 (.s 20) (.imm 0) (.v 4) .none .none)) ∧
    decodeWord 0x7800000000A120148000201580008040 = .ok (.bredBlock (tFields 161 (.s 20) (.imm 0) (.s 21) (.imm 0) (.imm 64))) := by
  repeat' apply And.intro
  all_goals rfl

/-- 03 R69 to R82: the fabric words. -/
theorem test_decode_fabric :
    decodeWord 0x8000000484004082203F800000000000 = .ok (.rld ⟨0, 0, 0, 0, 9, 0, 0, 1024, .v 2, .s 63, .imm 0, .none, .none⟩) ∧
    decodeWord 0x804000000400203F8000408100000000 = .ok (.rst (tFields 1024 (.s 63) (.imm 0) (.v 1) .none .none)) ∧
    decodeWord 0x80800000044600002001800820030000 = .ok (.ramo (tFields 1094 .none (.s 1) (.imm 8) (.s 3) .none)) ∧
    decodeWord 0x80C00000000240412003800840048002 = .ok (.ropCasw (tFields 2 (.vq 1 2) (.s 3) (.imm 8) (.vq 4 0) (.imm 2))) ∧
    decodeWord 0x80C00000008240412003800840048002 = .ok (.ropFxadd (tFields 130 (.vq 1 2) (.s 3) (.imm 8) (.vq 4 0) (.imm 2))) ∧
    decodeWord 0x80C00000010240412003800840048002 = .ok (.ropEnq (tFields 258 (.vq 1 2) (.s 3) (.imm 8) (.vq 4 0) (.imm 2))) ∧
    decodeWord 0x80C00000018240412003800840048002 = .ok (.ropDeq (tFields 386 (.vq 1 2) (.s 3) (.imm 8) (.vq 4 0) (.imm 2))) ∧
    decodeWord 0x80C00000020240412003800840048002 = .ok (.ropChase (tFields 514 (.vq 1 2) (.s 3) (.imm 8) (.vq 4 0) (.imm 2))) ∧
    decodeWord 0x80C00000028240412003800840048002 = .ok (.ropBadd (tFields 642 (.vq 1 2) (.s 3) (.imm 8) (.vq 4 0) (.imm 2))) ∧
    decodeWord 0x80C00000030240412003800840048002 = .ok (.ropMinloc (tFields 770 (.vq 1 2) (.s 3) (.imm 8) (.vq 4 0) (.imm 2))) ∧
    decodeWord 0x80C00000038240412003800840048002 = .ok (.ropGath4 (tFields 898 (.vq 1 2) (.s 3) (.imm 8) (.vq 4 0) (.imm 2))) ∧
    decodeWord 0x80C00000040240412003800840048002 = .ok (.ropScat4 (tFields 1026 (.vq 1 2) (.s 3) (.imm 8) (.vq 4 0) (.imm 2))) ∧
    decodeWord 0x80C00000048240412003800840048002 = .ok (.ropLcarr (tFields 1154 (.vq 1 2) (.s 3) (.imm 8) (.vq 4 0) (.imm 2))) ∧
    decodeWord 0x80C00000050240412003800840048002 = .ok (.ropHist (tFields 1282 (.vq 1 2) (.s 3) (.imm 8) (.vq 4 0) (.imm 2))) ∧
    decodeWord 0x80C00000058240412003800840048002 = .ok (.ropPutsig (tFields 1410 (.vq 1 2) (.s 3) (.imm 8) (.vq 4 0) (.imm 2))) ∧
    decodeWord 0x8100000000002014800020158040400A = .ok (.rput (tFields 0 (.s 20) (.imm 0) (.s 21) (.imm 64) (.vq 10 0))) ∧
    decodeWord 0x8140000000062014800020158040400A = .ok (.rget (tFields 6 (.s 20) (.imm 0) (.s 21) (.imm 64) (.vq 10 0))) ∧
    decodeWord 0x8180000000022014800020158040400A = .ok (.mcast (tFields 2 (.s 20) (.imm 0) (.s 21) (.imm 64) (.vq 10 0))) ∧
    decodeWord 0x81C00000000020018003200500000000 = .ok (.gsync (tFields 0 (.s 1) (.imm 3) (.s 5) .none .none)) ∧
    decodeWord 0x8200000000A120148000201580002004 = .ok (.gred (tFields 161 (.s 20) (.imm 0) (.s 21) (.imm 0) (.s 4))) ∧
    decodeWord 0x8240000000002001400A000000000000 = .ok (.plcfgOpen (tFields 0 (.s 1) (.vq 10 0) .none .none .none)) ∧
    decodeWord 0x82400000000120018003000000000000 = .ok (.plcfgClose (tFields 1 (.s 1) (.imm 3) .none .none .none)) ∧
    decodeWord 0x82800000000080022015800020048040 = .ok (.plsend (tFields 0 (.imm 2) (.s 21) (.imm 0) (.s 4) (.imm 64))) ∧
    decodeWord 0x82C00000000020018002200300000000 = .ok (.plrel (tFields 0 (.s 1) (.imm 2) (.s 3) .none .none)) ∧
    decodeWord 0x83000000000020012002800300000000 = .ok (.lnctlMode (tFields 0 (.s 1) (.s 2) (.imm 3) .none .none)) ∧
    decodeWord 0x83000000000120012002800300000000 = .ok (.lnctlRetrain (tFields 1 (.s 1) (.s 2) (.imm 3) .none .none)) ∧
    decodeWord 0x83000000000220012002800300000000 = .ok (.lnctlDisable (tFields 2 (.s 1) (.s 2) (.imm 3) .none .none)) ∧
    decodeWord 0x83000000000320012002800300000000 = .ok (.lnctlEnable (tFields 3 (.s 1) (.s 2) (.imm 3) .none .none)) ∧
    decodeWord 0x83000000000420012002800300000000 = .ok (.lnctlPark (tFields 4 (.s 1) (.s 2) (.imm 3) .none .none)) ∧
    decodeWord 0x834000000001200C813B000000000000 = .ok (.lnstat (tFields 1 (.s 12) (.imm 315) .none .none .none)) ∧
    decodeWord 0x880000000001203F8000000000000000 = .ok (.kcfg (tFields 1 (.s 63) (.imm 0) .none .none .none)) ∧
    decodeWord 0x88400000000080002002800020030000 = .ok (.kprot (tFields 0 (.imm 0) (.s 2) (.imm 0) (.s 3) .none)) ∧
    decodeWord 0x88800000000020060000000000000000 = .ok (.kunpr (tFields 0 (.s 6) .none .none .none .none)) ∧
    decodeWord 0x88C00000000020060000000000000000 = .ok (.kopen (tFields 0 (.s 6) .none .none .none .none)) ∧
    decodeWord 0x89000000000020060000000000000000 = .ok (.kprep (tFields 0 (.s 6) .none .none .none .none)) ∧
    decodeWord 0x89400000000020060000000000000000 = .ok (.kcomt (tFields 0 (.s 6) .none .none .none .none)) ∧
    decodeWord 0x89800000000020060000000000000000 = .ok (.kabrt (tFields 0 (.s 6) .none .none .none .none)) ∧
    decodeWord 0x8A000000000020060000000000000000 = .ok (.krbld (tFields 0 (.s 6) .none .none .none .none)) ∧
    decodeWord 0x89C00000000020058002000000000000 = .ok (.kstat (tFields 0 (.s 5) (.imm 2) .none .none .none)) ∧
    decodeWord 0x8A400000000180002001200200000000 = .ok (.kscrb (tFields 1 (.imm 0) (.s 1) (.s 2) .none .none)) := by
  repeat' apply And.intro
  all_goals rfl


end
end

section
/-!
The electrical ports of a group (01 R10): the model's elecPort, which names the port towards a member, and R10's own map from
ports to members are inverse to each other off the device's own index.
-/
namespace Sys2Proof.Machine
open Sys2Proof

/-- The index in the group of the member that electrical port p joins, as 01 R10 words it. -/
def portMember (s : State) (p : Nat) : Nat := if p < s.devno % 32 then p else p + 1

/-- An address of a member, made of the group's first device and an index, names the device's own group. -/
theorem groupOf_groupBase_add (s : State) {x : Nat} (hx : x < 32) : groupOf (s.devno - s.devno % 32 + x) = groupOf s.devno := by
  unfold groupOf
  omega

theorem groupBase_add_mod (s : State) {x : Nat} (hx : x < 32) : (s.devno - s.devno % 32 + x) % 32 = x := by
  omega

/-- Inside the group the minimal route leaves by the electrical port towards the member. -/
theorem portOf_groupBase_add (s : State) {x : Nat} (hx : x < 32) : portOf s (s.devno - s.devno % 32 + x) = elecPort s x := by
  rw [portOf, if_pos (groupOf_groupBase_add s hx), groupBase_add_mod s hx]

theorem portMember_lt (s : State) {p : Nat} (hp : p < 31) : portMember s p < 32 := by
  unfold portMember
  split <;> omega

theorem elecPort_lt (s : State) {x : Nat} (hx : x < 32) (hne : x ≠ s.devno % 32) : elecPort s x < 31 := by
  rw [elecPort, if_neg hne]
  split <;> omega

/-- The port towards the member that port p joins is p: below the own index nothing is shifted, from it on R10's + 1 is undone. -/
theorem elecPort_portMember (s : State) (p : Nat) : elecPort s (portMember s p) = p := by
  by_cases hp : p < s.devno % 32
  · rw [portMember, if_pos hp, elecPort, if_pos hp]
  · rw [portMember, if_neg hp, elecPort, if_neg (by omega), if_neg (by omega), Nat.add_sub_cancel]

/-- Every member but the device itself is joined by the port that leads to it. -/
theorem portMember_elecPort (s : State) {x : Nat} (hne : x ≠ s.devno % 32) : portMember s (elecPort s x) = x := by
  by_cases hx : x < s.devno % 32
  · rw [elecPort, if_pos hx, portMember, if_pos hx]
  · rw [elecPort, if_neg hx, if_neg hne, portMember, if_neg (by omega), Nat.sub_add_cancel (by omega)]

/-- Settles O11: elecPort and portMember are inverse to each other, and portOf is elecPort inside the group. -/
theorem portMap : Obligations.PortMap := by
  intro s
  refine ⟨fun p hp => ?_, fun x hx hne => ⟨elecPort s x, elecPort_lt s hx hne, portOf_groupBase_add s hx,
    portMember_elecPort s hne, fun q _ hq => ?_⟩⟩
  · exact (portOf_groupBase_add s (portMember_lt s hp)).trans (elecPort_portMember s p)
  · exact (elecPort_portMember s q).symm.trans (congrArg (elecPort s) hq)

end Sys2Proof.Machine
end

section
/-!
The guard value of a word (03 R74): the model reads a guard field through rdP and by the field's top bit; these are its equations
in R74's words, the predicate named and its inversion.
-/
namespace Sys2Proof.Machine
open Sys2Proof

/-- The top bit of a guard field, as the number that stands above the four bits of the predicate's name. -/
theorem guardField_top (g : BitVec 5) : g.getLsbD 4 = decide (g.toNat / 16 = 1) := by
  have hlt : g.toNat / 16 < 2 := by omega
  rw [BitVec.getLsbD, Nat.testBit_eq_decide_div_mod_eq, Nat.mod_eq_of_lt hlt]

/-- R74's words for one field: the comparison with the top bit is an inversion where that bit is 1. -/
theorem guardBit_eq (a : Arch) (g : BitVec 5) :
    guardBit a g = if g.toNat / 16 = 1 then !rdP a (g.toNat % 16) else rdP a (g.toNat % 16) := by
  rw [guardBit, guardField_top]
  split
  case isTrue h => simp [h]
  case isFalse h => simp [h]

theorem guardVal_and (a : Arch) {f : Fields} (h : f.gc = 0) : guardVal a f = (guardBit a f.ga && guardBit a f.gb) := if_pos h

theorem guardVal_or (a : Arch) {f : Fields} (h : f.gc = 1) : guardVal a f = (guardBit a f.ga || guardBit a f.gb) :=
  if_neg (by simp [h])

/-- p0 reads as true, so the all-zero field holds. -/
@[simp] theorem guardBit_zero (a : Arch) : guardBit a 0 = true := rfl

/-- p0 reads as true, so its inverse never holds. -/
@[simp] theorem guardBit_not_p0 (a : Arch) : guardBit a 0x10 = false := rfl

/-- A guard reads the predicates that have landed and none of the results on their way (03 R74, R20). -/
theorem guardVal_fx (a : Arch) (f : Fields) (l : List Fx) : guardVal { a with fx := l } f = guardVal a f := rfl

/-- Settles O10: each form of the guard value follows from the equations of its two fields; R74's named predicate is rdP. -/
theorem guardValue : Obligations.GuardValue := by
  intro a f named x
  have hx (g : BitVec 5) : guardBit a g = x g := guardBit_eq a g
  refine ⟨fun h => ?and, fun h => ?or, fun hga hgb h => ?always, fun hga h => ?never, guardVal_fx a f⟩
  case and => rw [guardVal_and a h, hx, hx]
  case or => rw [guardVal_or a h, hx, hx]
  case always => rw [guardVal_and a h, hga, hgb, guardBit_zero, Bool.and_self]
  case never => rw [guardVal_and a h, hga, guardBit_not_p0, Bool.false_and]

end Sys2Proof.Machine
end

section
/-!
The divide words (06 R155). The body that DIV and REM share either traps or gives one narrowed result; the overflow of the minimum
over −1 is then a fact about narrowing: the quotient is congruent to the minimum and lies above the maximum.
-/
namespace Sys2Proof.Machine
open Sys2Proof

/-! Narrowing to a type (04 R109, 06 R153). -/

@[simp] theorem narrowInt_noSat (sg : Bool) (n : Nat) (x : Int) : narrowInt false sg n x = (extInt sg n x, 0) := rfl

theorem intMin_le_intMax (sg : Bool) (n : Nat) : intMin sg n ≤ intMax sg n := by
  have hhalf : (0 : Int) < 2 ^ (n - 1) := Int.pow_pos (by decide)
  have hfull : (0 : Int) < 2 ^ n := Int.pow_pos (by decide)
  cases sg with
  | true => simp only [intMin, intMax, if_true]; omega
  | false => simp only [intMin, intMax, Bool.false_eq_true, if_false]; omega

theorem narrowInt_sat_above {sg : Bool} {n : Nat} {x : Int} (h : intMax sg n < x) :
    narrowInt true sg n x = (extInt sg n (intMax sg n), flIO) := by
  have hclamp : intClamp sg n x = intMax sg n := by
    rw [intClamp, Int.min_eq_left (Int.le_of_lt h), Int.max_eq_right (intMin_le_intMax sg n)]
  simp only [narrowInt, h, hclamp, decide_true, Bool.or_true, Bool.and_self, if_true]

/-- Only the residue modulo 2^n reaches the register. -/
theorem extInt_congr (sg : Bool) {n : Nat} {x y : Int} (h : x % 2 ^ n = y % 2 ^ n) : extInt sg n x = extInt sg n y := by
  rw [extInt, extInt, intBits, intBits, h]

@[simp] theorem extInt_zero (sg : Bool) (n : Nat) : extInt sg n 0 = 0 := by
  have hbits : intBits n 0 = 0 := by rw [intBits, Int.zero_emod, Int.toNat_zero]
  have hhalf : ¬2 ^ (n - 1) ≤ 0 := Nat.not_le_of_lt (Nat.two_pow_pos _)
  have hval : intOfBits sg n 0 = 0 := by
    simp only [intOfBits, Nat.zero_mod, hhalf, decide_false, Bool.and_false, Bool.false_eq_true, if_false, Int.natCast_zero]
  rw [extInt, hbits]
  exact congrArg (BitVec.ofInt 64) hval

/-! The minimum over −1. -/

theorem intMin_tdiv_neg_one (n : Nat) : (intMin true n).tdiv (-1) = 2 ^ (n - 1) := by
  rw [intMin, if_pos rfl, Int.neg_tdiv_neg, Int.tdiv_one]

/-- The quotient does not fit: it is one more than the maximum. -/
theorem intMax_lt_intMin_tdiv_neg_one (n : Nat) : intMax true n < (intMin true n).tdiv (-1) := by
  rw [intMin_tdiv_neg_one]
  exact Int.sub_one_lt_of_le (Int.le_refl _)

/-- The quotient and the minimum differ by 2^n, so the quotient wraps to the minimum. -/
theorem extInt_intMin_tdiv_neg_one (n : Nat) : extInt true n ((intMin true n).tdiv (-1)) = extInt true n (intMin true n) := by
  apply extInt_congr
  rw [intMin_tdiv_neg_one, intMin, if_pos rfl]
  cases n with
  | zero => rw [Int.pow_zero, Int.emod_one, Int.emod_one]
  | succ m =>
    have hwrap : (2 : Int) ^ m = -2 ^ m + 2 ^ (m + 1) := by rw [Int.pow_succ]; omega
    calc (2 : Int) ^ m % 2 ^ (m + 1)
      _ = (-2 ^ m + 2 ^ (m + 1)) % 2 ^ (m + 1) := by rw [← hwrap]
      _ = -2 ^ m % 2 ^ (m + 1) := Int.add_emod_right _ _

/-! What the shared body does. -/

/-- The first source of a divide word, as an integer of its type. -/
def dividend (s : State) (f : Fields) : Int := srcInt (scalarTy f).1 (scalarTy f).2 (valOf (me s) f.o2)
/-- The second source, as an integer of the type. -/
def divisor (s : State) (f : Fields) : Int := srcInt (scalarTy f).1 (scalarTy f).2 (valOf (me s) f.o3)

/-- The divide word i gives its destination and the flags the result r. -/
def divideGives (s : State) (f : Fields) (i : Instr) (r : W64 × Flags) : Prop :=
  ∃ t, exec i s = .next t ∧ givesResults s t f 18 (.sreg (idxOf f.o1) r.1 (srcTaint (me s) f [f.o2, f.o3]) :: flagUpd r.2)

section
variable {s : State} {f : Fields} (opc : Nat) (satOk : Bool) (op : Bool → Nat → Int → Int → Int)

theorem divide_gives (h : issues s f) (hz : divisor s f ≠ 0 ∨ (me s).actl.getLsbD 0 = false) :
    let r := narrowInt (satOk && modBit f 80 && divisor s f != 0) (scalarTy f).1 (scalarTy f).2
      (op (scalarTy f).1 (scalarTy f).2 (dividend s f) (divisor s f))
    givesResults s (divide opc f s satOk op) f 18 (.sreg (idxOf f.o1) r.1 (srcTaint (me s) f [f.o2, f.o3]) :: flagUpd r.2) := by
  have hno : ¬(divisor s f = 0 ∧ (me s).actl.getLsbD 0 = true) := by
    rintro ⟨hy, hd⟩
    exact hz.elim (fun hne => hne hy) (fun hf => Bool.false_ne_true (hf.symm.trans hd))
  exact givesResults_of opc false 1 18 _ f s _ h (if_neg hno)

theorem divide_traps (h : issues s f) (hy : divisor s f = 0) (hd : (me s).actl.getLsbD 0 = true) :
    divide opc f s satOk op = wordTrap s s.cur 0x0A 0 (valOf (me s) f.o2) false [] 0 :=
  runWord_trap opc false false 1 f s _ h (.inl rfl) (if_pos ⟨hy, hd⟩)

end

/-! DIV and REM, with a divisor that is not 0 and with one that is. -/

section
variable {s : State} {f : Fields} (h : issues s f)
include h

theorem div_gives (hz : divisor s f ≠ 0 ∨ (me s).actl.getLsbD 0 = false) :
    divideGives s f (.div f) (narrowInt (modBit f 80 && divisor s f != 0) (scalarTy f).1 (scalarTy f).2
      (if divisor s f = 0 then -1 else (dividend s f).tdiv (divisor s f))) :=
  ⟨_, rfl, divide_gives 0x008 true _ h hz⟩

theorem rem_gives (hz : divisor s f ≠ 0 ∨ (me s).actl.getLsbD 0 = false) :
    divideGives s f (.rem f) (extInt (scalarTy f).1 (scalarTy f).2
      (if divisor s f = 0 then dividend s f else (dividend s f).tmod (divisor s f)), 0) :=
  ⟨_, rfl, divide_gives 0x009 false _ h hz⟩

theorem div_gives_quotient (hy : divisor s f ≠ 0) :
    divideGives s f (.div f) (narrowInt (modBit f 80) (scalarTy f).1 (scalarTy f).2 ((dividend s f).tdiv (divisor s f))) := by
  have hg := div_gives h (.inl hy)
  rwa [if_neg hy, bne_iff_ne.2 hy, Bool.and_true] at hg

theorem rem_gives_remainder (hy : divisor s f ≠ 0) :
    divideGives s f (.rem f) (extInt (scalarTy f).1 (scalarTy f).2 ((dividend s f).tmod (divisor s f)), 0) := by
  have hg := rem_gives h (.inl hy)
  rwa [if_neg hy] at hg

/-- SAT does not apply to the all-ones result of a zero divisor. -/
theorem div_zero_gives_ones (hy : divisor s f = 0) (hd : (me s).actl.getLsbD 0 = false) :
    divideGives s f (.div f) (extInt (scalarTy f).1 (scalarTy f).2 (-1), 0) := by
  have hg := div_gives h (.inr hd)
  rwa [if_pos hy, hy, bne_self_eq_false, Bool.and_false, narrowInt_noSat] at hg

theorem rem_zero_gives_dividend (hy : divisor s f = 0) (hd : (me s).actl.getLsbD 0 = false) :
    divideGives s f (.rem f) (extInt (scalarTy f).1 (scalarTy f).2 (dividend s f), 0) := by
  have hg := rem_gives h (.inr hd)
  rwa [if_pos hy] at hg

/-- The minimum over −1: DIV wraps to the minimum, or clamps under SAT, and nothing remains. -/
theorem divide_overflow (hs : (scalarTy f).1 = true) (hx : dividend s f = intMin (scalarTy f).1 (scalarTy f).2)
    (hy : divisor s f = -1) :
    (modBit f 80 = false → divideGives s f (.div f) (extInt (scalarTy f).1 (scalarTy f).2 (intMin (scalarTy f).1 (scalarTy f).2), 0)) ∧
    (modBit f 80 = true → divideGives s f (.div f) (extInt (scalarTy f).1 (scalarTy f).2 (intMax (scalarTy f).1 (scalarTy f).2), flIO)) ∧
    divideGives s f (.rem f) (0, 0) := by
  have hne : divisor s f ≠ 0 := by rw [hy]; decide
  have hdiv := div_gives_quotient h hne
  have hrem := rem_gives_remainder h hne
  rw [hx, hy, hs] at hdiv hrem
  rw [hs]
  refine ⟨fun hsat => ?wraps, fun hsat => ?clamps, ?remains⟩
  case wraps => rwa [hsat, narrowInt_noSat, extInt_intMin_tdiv_neg_one] at hdiv
  case clamps => rwa [hsat, narrowInt_sat_above (intMax_lt_intMin_tdiv_neg_one _)] at hdiv
  case remains => rwa [Int.tmod_neg, Int.tmod_one, extInt_zero] at hrem

end

/-- Settles O13: the body of the divide words gives the truncated quotient and remainder, R155's results for a zero divisor, or
the trap; the minimum over −1 is the quotient's own overflow. -/
theorem scalarDivide : Obligations.ScalarDivide := by
  intro s f h
  refine ⟨fun hy => ⟨div_gives_quotient h hy, ?remainder⟩, divide_overflow h,
    fun hy hd => ⟨div_zero_gives_ones h hy hd, rem_zero_gives_dividend h hy hd⟩,
    fun hy hd => ⟨congrArg _ (divide_traps 0x008 true _ h hy hd), congrArg _ (divide_traps 0x009 false _ h hy hd)⟩⟩
  case remainder =>
    have hg := rem_gives_remainder h hy
    rwa [Int.tmod_def] at hg

end Sys2Proof.Machine
end
